-- ==== Sys2Proof/Word.lean ====
section
/-! DEFINITION. The word types of CTAE (00_scope.md R9, R10) and their two plainest constants. -/

namespace Sys2Proof

/-- One byte of a byte string or of bus memory. -/
abbrev Byte := BitVec 8

/-- A CT machine word, an argument register, a bus address: W = AW = 64 bits (R7). -/
abbrev Word := BitVec 64

/-- A 32-bit command word or window register (R120, R34). -/
abbrev Word32 := BitVec 32

/-- A byte string, byte 0 first (R10). -/
abbrev Bytes := List Byte

/-- `ONES = 2^64 - 1` (R9). -/
abbrev ones : Word := BitVec.allOnes 64

/-- `0^n`, n zero bytes (R10). -/
def zeros (n : Nat) : Bytes := List.replicate n 0#8

end Sys2Proof
end

