-- ==== Sys2Proof/Syntax.lean ====
section
/-! DEFINITION. The commands of CTAE (30_encoding.md R126): one constructor for each row of opcode_table.json. -/

namespace Sys2Proof

/-- An argument register number, A0 to A7 (R31, R124). -/
abbrev Reg := Fin 8

/-- A context slot number, below N_CTX = 4 (R44, R125). -/
abbrev Ctx := Fin 4

/-- A CTAE command with its operand fields (R121 to R123). -/
inductive Instr where
  /-- NOP (R470). -/
  | nop
  /-- CT.MSB rd, rs1 (R160). -/
  | ctMsb (rd rs1 : Reg)
  /-- CT.ISZERO rd, rs1 (R161). -/
  | ctIszero (rd rs1 : Reg)
  /-- CT.EQ rd, rs1, rs2 (R162). -/
  | ctEq (rd rs1 rs2 : Reg)
  /-- CT.LT rd, rs1, rs2 (R163). -/
  | ctLt (rd rs1 rs2 : Reg)
  /-- CT.GE rd, rs1, rs2 (R164). -/
  | ctGe (rd rs1 rs2 : Reg)
  /-- CT.LE rd, rs1, rs2 (R165). -/
  | ctLe (rd rs1 rs2 : Reg)
  /-- CT.GT rd, rs1, rs2 (R166). -/
  | ctGt (rd rs1 rs2 : Reg)
  /-- CT.SEL rd, rs1, rs2, rs3; rs3 is the mask (R167). -/
  | ctSel (rd rs1 rs2 rs3 : Reg)
  /-- CT.MSB.8 rd, rs1 (R168). -/
  | ctMsb8 (rd rs1 : Reg)
  /-- CT.ISZERO.8 rd, rs1 (R169). -/
  | ctIszero8 (rd rs1 : Reg)
  /-- CT.EQ.8 rd, rs1, rs2 (R170). -/
  | ctEq8 (rd rs1 rs2 : Reg)
  /-- CT.LT.8 rd, rs1, rs2 (R171). -/
  | ctLt8 (rd rs1 rs2 : Reg)
  /-- CT.GE.8 rd, rs1, rs2 (R172). -/
  | ctGe8 (rd rs1 rs2 : Reg)
  /-- CT.LE.8 rd, rs1, rs2 (R173). -/
  | ctLe8 (rd rs1 rs2 : Reg)
  /-- CT.GT.8 rd, rs1, rs2 (R174). -/
  | ctGt8 (rd rs1 rs2 : Reg)
  /-- CT.SEL.8 rd, rs1, rs2, rs3; rs3 is the mask (R175). -/
  | ctSel8 (rd rs1 rs2 rs3 : Reg)
  /-- CT.MEMCMP rd, (rs1), (rs2), rs3; rs3 is the length (R176). -/
  | ctMemcmp (rd rs1 rs2 rs3 : Reg)
  /-- CT.CMXOR (rd), (rs1), rs2, rs3; rd is the destination address, rs2 the length, rs3 the mask (R177). -/
  | ctCmxor (rd rs1 rs2 rs3 : Reg)
  /-- REC.RMPAD rd, (rs); rd even, results in rd and rd+1 (R403). -/
  | recRmpad (rd rs : Reg)
  /-- REC.XMAC (rs) (R410). -/
  | recXmac (rs : Reg)
  /-- AEAD.CLEANUP ctx (R212). -/
  | aeadCleanup (ctx : Ctx)
  /-- EAX.INIT (rs), ctx (R252). -/
  | eaxInit (rs : Reg) (ctx : Ctx)
  /-- EAX.SEAL rd, (rs), ctx (R255). -/
  | eaxSeal (rd rs : Reg) (ctx : Ctx)
  /-- EAX.OPEN rd, (rs), ctx (R256). -/
  | eaxOpen (rd rs : Reg) (ctx : Ctx)
  /-- SIV.INIT (rs), ctx (R301). -/
  | sivInit (rs : Reg) (ctx : Ctx)
  /-- SIV.SEAL rd, (rs), ctx (R309). -/
  | sivSeal (rd rs : Reg) (ctx : Ctx)
  /-- SIV.OPEN rd, (rs), ctx (R310). -/
  | sivOpen (rd rs : Reg) (ctx : Ctx)
  /-- CCP.INIT (rs), ctx (R351). -/
  | ccpInit (rs : Reg) (ctx : Ctx)
  /-- CCP.SEAL rd, (rs), ctx (R355). -/
  | ccpSeal (rd rs : Reg) (ctx : Ctx)
  /-- CCP.SEALX rd, (rs), ctx (R356). -/
  | ccpSealx (rd rs : Reg) (ctx : Ctx)
  /-- CCP.OPEN rd, (rs), ctx (R357). -/
  | ccpOpen (rd rs : Reg) (ctx : Ctx)
  deriving DecidableEq, Repr

end Sys2Proof
end

