-- ==== Sys2Proof/WellFormed.lean ====
section
/-! DEFINITION. Well-formed commands: what R125 asks of a command beyond what the types of its fields already say. -/

namespace Sys2Proof

/-- A register number field is below 8 and a context number below 4 by its type; what is left of R125 is that REC.RMPAD's rd
is even. -/
def Instr.wf : Instr → Bool
  | .nop => true
  | .ctMsb _ _ => true
  | .ctIszero _ _ => true
  | .ctEq _ _ _ => true
  | .ctLt _ _ _ => true
  | .ctGe _ _ _ => true
  | .ctLe _ _ _ => true
  | .ctGt _ _ _ => true
  | .ctSel _ _ _ _ => true
  | .ctMsb8 _ _ => true
  | .ctIszero8 _ _ => true
  | .ctEq8 _ _ _ => true
  | .ctLt8 _ _ _ => true
  | .ctGe8 _ _ _ => true
  | .ctLe8 _ _ _ => true
  | .ctGt8 _ _ _ => true
  | .ctSel8 _ _ _ _ => true
  | .ctMemcmp _ _ _ _ => true
  | .ctCmxor _ _ _ _ => true
  | .recRmpad rd _ => rd.val % 2 == 0
  | .recXmac _ => true
  | .aeadCleanup _ => true
  | .eaxInit _ _ => true
  | .eaxSeal _ _ _ => true
  | .eaxOpen _ _ _ => true
  | .sivInit _ _ => true
  | .sivSeal _ _ _ => true
  | .sivOpen _ _ _ => true
  | .ccpInit _ _ => true
  | .ccpSeal _ _ _ => true
  | .ccpSealx _ _ _ => true
  | .ccpOpen _ _ _ => true

/-- The command can be written as a legal command word (R125). -/
abbrev WellFormed (i : Instr) : Prop := i.wf = true

end Sys2Proof
end

