-- ==== Sys2Proof/Decode.lean ====
section
/-! DEFINITION. Decoding and encoding command words (30_encoding.md R120 to R128). The decoder is total; it rejects a word by
name, and the engine completes a rejected word with ILLEGAL (R127). -/

namespace Sys2Proof

/-- Why a word is not a legal command (R127). -/
inductive DecodeError where
  /-- The op byte is in no row of R126. -/
  | reservedOpcode (op : BitVec 8)
  /-- The op byte is that of the named command, and a field R125 requires to be 0 (or even, or below N_CTX) is not. -/
  | badField (mnemonic : String)
  deriving DecidableEq, Repr

/-- The register number in the three bits of w from bit `lo` up (R121, R122). -/
def regField (w : Word32) (lo : Nat) : Reg := Fin.ofNat 8 (w.extractLsb' lo 3).toNat

/-- rd: w[23:21] (R121, R122). -/
def rdField (w : Word32) : Reg := regField w 21

/-- rs1: w[20:18] (R121). -/
def rs1Field (w : Word32) : Reg := regField w 18

/-- rs2: w[17:15] (R121). -/
def rs2Field (w : Word32) : Reg := regField w 15

/-- rs3: w[14:12] (R121). -/
def rs3Field (w : Word32) : Reg := regField w 12

/-- rs: w[20:18] (R122). -/
def rsField (w : Word32) : Reg := regField w 18

/-- ctx: the low two of the bits w[11:8]; a legal word has w[11:10] = 0 (R122, R125). -/
def ctxField (w : Word32) : Ctx := Fin.ofNat 4 (w.extractLsb' 8 2).toNat

/-- One row of the opcode map R126: a word w is this command exactly when `w &&& mask = pattern` (R128). -/
structure OpcodeRow where
  mnemonic : String
  pattern : Word32
  mask : Word32
  make : Word32 → Instr

/-- The opcode map (R126, opcode_table.json). -/
def opcodeRows : List OpcodeRow := [
  ⟨"NOP", 0x00000000#32, 0xFFFFFFFF#32, fun _ => .nop⟩,
  ⟨"CT.MSB", 0x10000000#32, 0xFF03FFFF#32, fun w => .ctMsb (rdField w) (rs1Field w)⟩,
  ⟨"CT.ISZERO", 0x11000000#32, 0xFF03FFFF#32, fun w => .ctIszero (rdField w) (rs1Field w)⟩,
  ⟨"CT.EQ", 0x12000000#32, 0xFF007FFF#32, fun w => .ctEq (rdField w) (rs1Field w) (rs2Field w)⟩,
  ⟨"CT.LT", 0x13000000#32, 0xFF007FFF#32, fun w => .ctLt (rdField w) (rs1Field w) (rs2Field w)⟩,
  ⟨"CT.GE", 0x14000000#32, 0xFF007FFF#32, fun w => .ctGe (rdField w) (rs1Field w) (rs2Field w)⟩,
  ⟨"CT.LE", 0x15000000#32, 0xFF007FFF#32, fun w => .ctLe (rdField w) (rs1Field w) (rs2Field w)⟩,
  ⟨"CT.GT", 0x16000000#32, 0xFF007FFF#32, fun w => .ctGt (rdField w) (rs1Field w) (rs2Field w)⟩,
  ⟨"CT.SEL", 0x17000000#32, 0xFF000FFF#32, fun w => .ctSel (rdField w) (rs1Field w) (rs2Field w) (rs3Field w)⟩,
  ⟨"CT.MSB.8", 0x18000000#32, 0xFF03FFFF#32, fun w => .ctMsb8 (rdField w) (rs1Field w)⟩,
  ⟨"CT.ISZERO.8", 0x19000000#32, 0xFF03FFFF#32, fun w => .ctIszero8 (rdField w) (rs1Field w)⟩,
  ⟨"CT.EQ.8", 0x1A000000#32, 0xFF007FFF#32, fun w => .ctEq8 (rdField w) (rs1Field w) (rs2Field w)⟩,
  ⟨"CT.LT.8", 0x1B000000#32, 0xFF007FFF#32, fun w => .ctLt8 (rdField w) (rs1Field w) (rs2Field w)⟩,
  ⟨"CT.GE.8", 0x1C000000#32, 0xFF007FFF#32, fun w => .ctGe8 (rdField w) (rs1Field w) (rs2Field w)⟩,
  ⟨"CT.LE.8", 0x1D000000#32, 0xFF007FFF#32, fun w => .ctLe8 (rdField w) (rs1Field w) (rs2Field w)⟩,
  ⟨"CT.GT.8", 0x1E000000#32, 0xFF007FFF#32, fun w => .ctGt8 (rdField w) (rs1Field w) (rs2Field w)⟩,
  ⟨"CT.SEL.8", 0x1F000000#32, 0xFF000FFF#32, fun w => .ctSel8 (rdField w) (rs1Field w) (rs2Field w) (rs3Field w)⟩,
  ⟨"CT.MEMCMP", 0x20000000#32, 0xFF000FFF#32, fun w => .ctMemcmp (rdField w) (rs1Field w) (rs2Field w) (rs3Field w)⟩,
  ⟨"CT.CMXOR", 0x21000000#32, 0xFF000FFF#32, fun w => .ctCmxor (rdField w) (rs1Field w) (rs2Field w) (rs3Field w)⟩,
  ⟨"REC.RMPAD", 0x30000000#32, 0xFF23FFFF#32, fun w => .recRmpad (rdField w) (rsField w)⟩,
  ⟨"REC.XMAC", 0x31000000#32, 0xFFE3FFFF#32, fun w => .recXmac (rsField w)⟩,
  ⟨"AEAD.CLEANUP", 0x40000000#32, 0xFFFFFCFF#32, fun w => .aeadCleanup (ctxField w)⟩,
  ⟨"EAX.INIT", 0x50000000#32, 0xFFE3FCFF#32, fun w => .eaxInit (rsField w) (ctxField w)⟩,
  ⟨"EAX.SEAL", 0x51000000#32, 0xFF03FCFF#32, fun w => .eaxSeal (rdField w) (rsField w) (ctxField w)⟩,
  ⟨"EAX.OPEN", 0x52000000#32, 0xFF03FCFF#32, fun w => .eaxOpen (rdField w) (rsField w) (ctxField w)⟩,
  ⟨"SIV.INIT", 0x60000000#32, 0xFFE3FCFF#32, fun w => .sivInit (rsField w) (ctxField w)⟩,
  ⟨"SIV.SEAL", 0x61000000#32, 0xFF03FCFF#32, fun w => .sivSeal (rdField w) (rsField w) (ctxField w)⟩,
  ⟨"SIV.OPEN", 0x62000000#32, 0xFF03FCFF#32, fun w => .sivOpen (rdField w) (rsField w) (ctxField w)⟩,
  ⟨"CCP.INIT", 0x70000000#32, 0xFFE3FCFF#32, fun w => .ccpInit (rsField w) (ctxField w)⟩,
  ⟨"CCP.SEAL", 0x71000000#32, 0xFF03FCFF#32, fun w => .ccpSeal (rdField w) (rsField w) (ctxField w)⟩,
  ⟨"CCP.SEALX", 0x72000000#32, 0xFF03FCFF#32, fun w => .ccpSealx (rdField w) (rsField w) (ctxField w)⟩,
  ⟨"CCP.OPEN", 0x73000000#32, 0xFF03FCFF#32, fun w => .ccpOpen (rdField w) (rsField w) (ctxField w)⟩]

/-- The op byte: w[31:24]. -/
def opByte (w : Word32) : BitVec 8 := w.extractLsb' 24 8

/-- The row of R126 whose op byte is that of w. -/
def rowOf (w : Word32) : Option OpcodeRow := opcodeRows.find? fun r => opByte r.pattern == opByte w

/-- Decoding (R128). -/
def decode (w : Word32) : Except DecodeError Instr :=
  match rowOf w with
  | none => .error (.reservedOpcode (opByte w))
  | some r => if w &&& r.mask = r.pattern then .ok (r.make w) else .error (.badField r.mnemonic)

/-- A Format R word (R121). -/
def wordR (op : BitVec 8) (rd rs1 rs2 rs3 : Reg) : Word32 :=
  op ++ BitVec.ofNat 3 rd.val ++ BitVec.ofNat 3 rs1.val ++ BitVec.ofNat 3 rs2.val ++ BitVec.ofNat 3 rs3.val ++ 0#12

/-- A Format D word (R122). -/
def wordD (op : BitVec 8) (rd rs : Reg) (ctx : Ctx) : Word32 :=
  op ++ BitVec.ofNat 3 rd.val ++ BitVec.ofNat 3 rs.val ++ 0#6 ++ BitVec.ofNat 4 ctx.val ++ 0#8

/-- The command word of a command (R121 to R126). -/
def encode : Instr → Word32
  | .nop => 0x00000000#32
  | .ctMsb rd rs1 => wordR 0x10 rd rs1 0 0
  | .ctIszero rd rs1 => wordR 0x11 rd rs1 0 0
  | .ctEq rd rs1 rs2 => wordR 0x12 rd rs1 rs2 0
  | .ctLt rd rs1 rs2 => wordR 0x13 rd rs1 rs2 0
  | .ctGe rd rs1 rs2 => wordR 0x14 rd rs1 rs2 0
  | .ctLe rd rs1 rs2 => wordR 0x15 rd rs1 rs2 0
  | .ctGt rd rs1 rs2 => wordR 0x16 rd rs1 rs2 0
  | .ctSel rd rs1 rs2 rs3 => wordR 0x17 rd rs1 rs2 rs3
  | .ctMsb8 rd rs1 => wordR 0x18 rd rs1 0 0
  | .ctIszero8 rd rs1 => wordR 0x19 rd rs1 0 0
  | .ctEq8 rd rs1 rs2 => wordR 0x1A rd rs1 rs2 0
  | .ctLt8 rd rs1 rs2 => wordR 0x1B rd rs1 rs2 0
  | .ctGe8 rd rs1 rs2 => wordR 0x1C rd rs1 rs2 0
  | .ctLe8 rd rs1 rs2 => wordR 0x1D rd rs1 rs2 0
  | .ctGt8 rd rs1 rs2 => wordR 0x1E rd rs1 rs2 0
  | .ctSel8 rd rs1 rs2 rs3 => wordR 0x1F rd rs1 rs2 rs3
  | .ctMemcmp rd rs1 rs2 rs3 => wordR 0x20 rd rs1 rs2 rs3
  | .ctCmxor rd rs1 rs2 rs3 => wordR 0x21 rd rs1 rs2 rs3
  | .recRmpad rd rs => wordD 0x30 rd rs 0
  | .recXmac rs => wordD 0x31 0 rs 0
  | .aeadCleanup ctx => wordD 0x40 0 0 ctx
  | .eaxInit rs ctx => wordD 0x50 0 rs ctx
  | .eaxSeal rd rs ctx => wordD 0x51 rd rs ctx
  | .eaxOpen rd rs ctx => wordD 0x52 rd rs ctx
  | .sivInit rs ctx => wordD 0x60 0 rs ctx
  | .sivSeal rd rs ctx => wordD 0x61 rd rs ctx
  | .sivOpen rd rs ctx => wordD 0x62 rd rs ctx
  | .ccpInit rs ctx => wordD 0x70 0 rs ctx
  | .ccpSeal rd rs ctx => wordD 0x71 rd rs ctx
  | .ccpSealx rd rs ctx => wordD 0x72 rd rs ctx
  | .ccpOpen rd rs ctx => wordD 0x73 rd rs ctx

/-- The command the decoder reads from an instruction of `nbits` bits w, numbered as opcode_table.json numbers them. A CTAE
command is one 32-bit word written in one access, so there is no byte order to lay it out in (R120). -/
def decodeTableWord (nbits w : Nat) : Option Instr :=
  match decode (BitVec.ofNat 32 (w % 2 ^ nbits)) with
  | .ok i => some i
  | .error _ => none

end Sys2Proof
end

