-- ==== Sys2Proof/Config.lean ====
section
/-! DEFINITION. What an implementation of CTAE fixes (00_scope.md R7) and what the spec leaves open: the collaborator
functions (R20), the platform predicate `accessible` (R81) and the values a model draws (R51, R85, R506). An `opaque`
constant has no body: nothing can be proved of its value. -/

namespace Sys2Proof

/-- The direction of a bus access or of an accessibility question (R81). -/
inductive Dir where
  | read | write | readwrite
  deriving DecidableEq, Repr

namespace Config

/-- `N_CTX`, the number of key-context slots (R7). -/
def nCtx : Nat := 4

/-- `MAX_MD`, the largest digest size REC.XMAC accepts (R7). -/
def maxMd : Nat := 64

/-- `W`, the CT word width (R7). -/
def wordBits : Nat := 64

/-- The most bytes REC.RMPAD scans; the window is `min(256, in_len)` (R7, R403). -/
def padWindow : Nat := 256

/-- What REC.XMAC's window has beyond the digest: the window is `md + 256` bytes (R7, C3). -/
def xmacSlack : Nat := 256

/-- `EAX_MAX_IN` (R7, R207). -/
def eaxMaxIn : Nat := 2 ^ 36

/-- `SIV_MAX_IN` (R7, R207). -/
def sivMaxIn : Nat := 2 ^ 36

/-- `CCP_MAX_IN` (R7, R207): the bound on in_len + extra_len. -/
def ccpMaxIn : Nat := 2 ^ 38 - 64

/-- `AAD_LIMIT` (R7, R207, C2): the AAD length must be below it. -/
def aadLimit : Nat := 2 ^ 61

/-- The number of bus addresses, AW = 64 (R80). -/
def busSize : Nat := 2 ^ 64

/-- What a byte of bus memory that nothing has written reads as. DESIGN CHOICE, unsafe (log 3): the spec gives bus memory
no contents at power-on. -/
def unwrittenByte : Byte := 0#8

/-- `AES_ENC(k, blk)`: k of 16 or 32 bytes, blk of 16, result 16 bytes (R20). Any function (log 6, safe). -/
opaque aesEnc : Bytes → Bytes → Vector Byte 16

/-- `CHACHA20_BLOCK(k, n, c)`: 64 bytes of keystream (R20). Any function (log 6, safe). -/
opaque chacha20Block : Bytes → Bytes → BitVec 32 → Vector Byte 64

/-- `POLYVAL(h, m)`: 16 bytes (R20). Any function (log 6, safe). -/
opaque polyval : Bytes → Bytes → Vector Byte 16

/-- `POLY1305(k, m)`: 16 bytes (R20). Any function (log 6, safe). -/
opaque poly1305 : Bytes → Bytes → Vector Byte 16

/-- The platform predicate `accessible(addr, n, dir)` (R81), one for each platform number: any predicate (log 5, safe). -/
opaque accessible : Nat → Nat → Nat → Dir → Bool

/-- The 64-bit values a model draws for an unspecified window read (R51, R85), one for each count (log 7, safe). -/
opaque freeWord : Nat → Word

/-- The bytes a model draws for an aborted command's write set (R506), one for each count (log 8, safe). -/
opaque freeByte : Nat → Byte

end Config

end Sys2Proof
end

