-- ==== Sys2Proof/Machine/Bytes.lean ====
section
/-! DEFINITION. Byte strings (00_scope.md R10) and the collaborator calls on them (R20). -/

namespace Sys2Proof.Machine

/-- The k-byte little-endian encoding of n, taken mod 2^(8k) (R10: le32 is `leBytes 4`, le64 is `leBytes 8`). -/
def leBytes : Nat → Nat → Bytes
  | 0, _ => []
  | k + 1, n => BitVec.ofNat 8 n :: leBytes k (n / 256)

/-- `int_le` (R10). -/
def intLe : Bytes → Nat
  | [] => 0
  | b :: bs => b.toNat + 256 * intLe bs

/-- `int_be` (R10). -/
def intBe (bs : Bytes) : Nat := intLe bs.reverse

/-- `be128`: the 16-byte big-endian encoding of n mod 2^128 (R10). -/
def be128 (n : Nat) : Bytes := (leBytes 16 n).reverse

/-- `xor(a, b)`; when b is longer, its first len(a) bytes are used (R10). -/
def xorBytes (a b : Bytes) : Bytes := List.zipWith (· ^^^ ·) a b

/-- `pad16` (R10). -/
def pad16 (bs : Bytes) : Bytes := bs ++ zeros ((16 - bs.length % 16) % 16)

/-- `ceil(a / b)`. -/
def ceilDiv (a b : Nat) : Nat := (a + b - 1) / b

/-- The first `fuel` pieces of n bytes each, the last one shorter where the string ends. -/
def chunks (n : Nat) : Nat → Bytes → List Bytes
  | 0, _ => []
  | _ + 1, [] => []
  | fuel + 1, b :: bs => (b :: bs).take n :: chunks n fuel ((b :: bs).drop n)

/-- The 16-byte blocks of a string, the last one possibly partial. -/
def blocks16 (bs : Bytes) : List Bytes := chunks 16 bs.length bs

/-- The OR of the bytewise XORs of two strings: CT.MEMCMP's function (R176, G12). -/
def memcmpBytes (a b : Bytes) : Byte := (xorBytes a b).foldl (· ||| ·) 0

/-- `trunc8` (R9). -/
def trunc8 (v : Word) : Byte := v.truncate 8

/-- `zext64` of a byte (R9). -/
def zext64 (b : Byte) : Word := b.zeroExtend 64

/-- `AES_ENC` (R20). -/
def aesEnc (k blk : Bytes) : Bytes := (Config.aesEnc k blk).toList

/-- `CHACHA20_BLOCK` with its 32-bit block counter (R20). -/
def chachaBlock (k n : Bytes) (c : Nat) : Bytes := (Config.chacha20Block k n (BitVec.ofNat 32 c)).toList

/-- `POLYVAL` (R20). -/
def polyval (h m : Bytes) : Bytes := (Config.polyval h m).toList

/-- `POLY1305` (R20). -/
def poly1305 (k m : Bytes) : Bytes := (Config.poly1305 k m).toList

end Sys2Proof.Machine
end

