-- ==== Sys2Proof/Machine/State.lean ====
section
/-! DEFINITION. The state of CTAE as plain data (10_state.md), the reasons a step can stop, and the state after reset (R50). -/

namespace Sys2Proof.Machine

/-- Why the machine stops with a fault. No command's meaning faults: every error of a command is a completion code (R450). -/
inductive Fault where
  /-- Raised by a host bus move only: it writes beyond the last of the 2^64 bus addresses (R80). Safe: the spec gives no such
  address, so there is nothing the hardware could do (log 16). -/
  | noSuchAddress
  deriving DecidableEq, Repr

/-- Why the machine refuses a step. -/
inductive Refusal where
  /-- Raised by exec for a command without a meaning. Safe. No arm raises it: every command has its meaning. -/
  | notModelled (mnemonic : String)
  /-- Raised by a host bus move only: while a command runs, the host writes a byte of one of its regions or reads a byte of a
  region it writes, a move R95 and U2 give no model. Safe (log 16). -/
  | hostRace
  deriving DecidableEq, Repr

/-- Completion codes of STATUS.ERR (R42). Codes 8 to 15 are never produced. -/
inductive Code where
  | ok | config | tooLarge | authFail | bufSmall | illegal | busErr | ctxErr
  deriving DecidableEq, Repr

/-- The algorithm index of a slot, which is the k of DESC_k (R44, R46). -/
inductive Alg where
  | eax128 | eax256 | siv128 | siv256 | ccp
  deriving DecidableEq, Repr

/-- A key-context slot (R44). The lengths 32, 16 and 16 of the byte strings are an invariant (Safety.lean). -/
structure Slot where
  valid : Bool
  alg : Alg
  taglen : BitVec 5
  key : Bytes
  maskB : Bytes
  maskP : Bytes
  deriving DecidableEq, Repr

/-- The empty slot: valid = 0 and every other field 0 (R44, R212). -/
def Slot.empty : Slot :=
  { valid := false, alg := .eax128, taglen := 0, key := zeros 32, maskB := zeros 16, maskP := zeros 16 }

/-- The twelve words of a SEAL, SEALX or OPEN descriptor block (R204), as mathematical integers. -/
structure AeadOps where
  outAddr : Nat
  outCap : Nat
  inAddr : Nat
  inLen : Nat
  nonceAddr : Nat
  nonceLen : Nat
  adAddr : Nat
  adLen : Nat
  tagAddr : Nat
  tagLen : Nat
  extraAddr : Nat
  extraLen : Nat
  deriving DecidableEq, Repr

/-- The sequencer phase of a running AEAD command (R49): S0 to S5 (R257), O0 to O5 (R258), P0 to V (R311), Q0 to Q8 (R358).
`idle` stands for no command and for a running command that has no sequencer. -/
inductive Phase where
  | idle
  | s0 | s1 | s2 | s3 | s4 | s5
  | o0 | o1 | o2 | o3 | o4 | o5
  | p0 | kdf (i : Nat) | assemble | hash | preTag | tag | counter | ctr | verify
  | q0 | q1 | q2 | q3 | q4 | q5 | q6 | q7 | q8
  deriving DecidableEq, Repr

/-- The engine's hidden working buffers and the operand snapshot of the running command (R49, R90). An empty list is a cleared
buffer (log 12). -/
structure Work where
  /-- The snapshot: the descriptor block and the input regions. -/
  ops : AeadOps
  nonce : Bytes
  ad : Bytes
  inp : Bytes
  extra : Bytes
  /-- The received tag of OPEN. -/
  recv : Bytes
  /-- OMAC results: N, H and OMAC(2, C) (R255). -/
  omacN : Bytes
  omacH : Bytes
  omacC : Bytes
  /-- GCM-SIV: the KDF output so far, the record keys, the POLYVAL accumulator and pre-tag, the counter block (R311). -/
  mat : Bytes
  authKey : Bytes
  encKey : Bytes
  hash : Bytes
  ctrBlock : Bytes
  /-- ChaCha20-Poly1305: the one-time key and the MAC input absorbed so far (R358). -/
  polyKey : Bytes
  macIn : Bytes
  /-- The output region's bytes, the trailer ciphertext, the computed tag. -/
  out : Bytes
  xout : Bytes
  tag : Bytes
  /-- REC.XMAC's rotation buffer (R410). -/
  rot : Bytes
  deriving DecidableEq, Repr

/-- Descriptor words all 0. -/
def AeadOps.zero : AeadOps :=
  { outAddr := 0, outCap := 0, inAddr := 0, inLen := 0, nonceAddr := 0, nonceLen := 0, adAddr := 0, adLen := 0, tagAddr := 0,
    tagLen := 0, extraAddr := 0, extraLen := 0 }

/-- Every internal buffer cleared (R49, R50). -/
def Work.cleared : Work :=
  { ops := AeadOps.zero, nonce := [], ad := [], inp := [], extra := [], recv := [], omacN := [], omacH := [], omacC := [],
    mat := [], authKey := [], encKey := [], hash := [], ctrBlock := [], polyKey := [], macIn := [], out := [], xout := [],
    tag := [], rot := [] }

/-- One access of the engine's bus trace: the direction and the address of one byte (R523). -/
structure BusAccess where
  dir : Dir
  addr : Nat
  deriving DecidableEq, Repr

/-- Bus memory: (address, byte) pairs, addresses strictly rising, no byte equal to `Config.unwrittenByte` (Safety.lean). -/
abbrev Memory := List Host.Cell

/-- A range of bus addresses the platform lets the engine read, write or both (R81). -/
structure Grant where
  base : Nat
  size : Nat
  canRead : Bool
  canWrite : Bool
  deriving DecidableEq, Repr

/-- The platform predicate `accessible` (R81): a list of grants, or any predicate at all, named by a number (log 5). -/
inductive AccessRule where
  | grants (gs : List Grant)
  | custom (k : Nat)
  deriving DecidableEq, Repr

/-- The platform parameters of R7: CTAE_BASE, SIV_ACCEL and `accessible`. No step changes them (log 4). -/
structure Platform where
  base : Word
  sivAccel : Bool
  access : AccessRule
  deriving DecidableEq, Repr

/-- One move of the host (R486). -/
inductive HostMove where
  /-- A write access to the register window: bus address, width in bytes, value (R34, R85). -/
  | winWrite (addr : Word) (width : Nat) (val : Word)
  /-- A read access to the register window; the value goes to `readData`. -/
  | winRead (addr : Word) (width : Nat)
  /-- The host writes bytes to bus memory. -/
  | busWrite (addr : Word) (data : Bytes)
  /-- The host reads a byte of bus memory; the byte goes to `readData`. -/
  | busRead (addr : Word)
  /-- Power is lost and comes back (R485, R500). -/
  | powerOn
  deriving DecidableEq, Repr

/-- What the next transition is (R464): a host move, the engine completing its command, or the engine going one sequencer
phase on (log 2, log 11). -/
inductive Move where
  | host (h : HostMove)
  | engine
  | tick
  deriving DecidableEq, Repr

/-- The machine. STATUS.BUSY is `running.isSome`, the IRQ output is `irqEn && done`; ID, DESC_k and the rest of CAP are
constants (R501). The last five fields are the model's own (INVENTORY.md). -/
structure State where
  /-- A0 to A7 (R31). -/
  x : Vector Word 8
  /-- CTRL.IRQ_EN (R37). -/
  irqEn : Bool
  /-- STATUS.DONE (R38). -/
  done : Bool
  /-- STATUS.OVR (R38). -/
  ovr : Bool
  /-- STATUS.ERR (R38, R42). -/
  err : Code
  /-- STATUS.LASTOP (R38). -/
  lastop : BitVec 8
  /-- CAP.SIV_ACCEL, latched at reset (R36, R47). -/
  sivAccel : Bool
  /-- slot[0] to slot[3] (R44). -/
  slots : Vector Slot 4
  /-- The accepted command word that runs, none when idle (R40, R41). -/
  running : Option Word32
  /-- The sequencer phase (R49). -/
  phase : Phase
  /-- The working buffers and the operand snapshot (R49). -/
  work : Work
  /-- The bus space (R80). -/
  mem : Memory
  /-- Platform parameters. -/
  platform : Platform
  /-- The transitions still to come, in order. -/
  moves : List Move
  /-- What the last host read returned. -/
  readData : Word
  /-- How many values have been drawn (R51, R85, R506). -/
  free : Nat
  /-- The bus trace of the running or last command (R523). -/
  bus : List BusAccess
  deriving DecidableEq, Repr

/-- Power-on reset on a platform (R50, R500): every piece of CTAE's state at its reset value, memory with nothing listed. -/
def State.resetOn (p : Platform) : State :=
  { x := Vector.replicate 8 0, irqEn := false, done := false, ovr := false, err := .ok, lastop := 0, sivAccel := p.sivAccel,
    slots := Vector.replicate 4 Slot.empty, running := none, phase := .idle, work := Work.cleared, mem := [], platform := p,
    moves := [], readData := 0, free := 0, bus := [] }

/-- The platform of `State.reset`. DESIGN CHOICE, unsafe (log 4): base 0, no accelerated path, every address accessible. -/
def Platform.default : Platform :=
  { base := 0, sivAccel := false, access := .grants [⟨0, Config.busSize, true, true⟩] }

/-- The machine right after power-on reset (R500). -/
def State.reset : State := State.resetOn Platform.default

end Sys2Proof.Machine
end

