-- ==== Sys2Proof/Machine/Ops.lean ====
section
/-! DEFINITION. The named operations over memory, registers and slots, the platform's region checks, and the two ends of every
command: acceptance and completion (10_state.md R41), which is the whole of CTAE's exception entry (60_exceptions.md R465). There
is no return from it (R466). -/

namespace Sys2Proof.Machine

/-- What `exec` and `step` answer. -/
abbrev Outcome := Host.Outcome State Fault Refusal

/-! ### Bus memory -/

/-- The byte at a bus address. -/
def Memory.read : Memory → Nat → Byte
  | [], _ => Config.unwrittenByte
  | (b, v) :: rest, a => if b = a then v else Memory.read rest a

/-- The pair (a, v) put before the first higher address. -/
def Memory.insert : Memory → Nat → Byte → Memory
  | [], a, v => [(a, v)]
  | (b, w) :: rest, a, v => if a < b then (a, v) :: (b, w) :: rest else (b, w) :: Memory.insert rest a v

/-- The memory without an entry for address a. -/
def Memory.erase : Memory → Nat → Memory
  | [], _ => []
  | (b, w) :: rest, a => if b = a then Memory.erase rest a else (b, w) :: Memory.erase rest a

/-- Writing byte v at address a; a byte that an unlisted address would read as is not listed. -/
def Memory.write (m : Memory) (a : Nat) (v : Byte) : Memory :=
  if v = Config.unwrittenByte then Memory.erase m a else Memory.insert (Memory.erase m a) a v

/-- The n bytes from address a up: `MemRead` (R11). -/
def Memory.readBytes (m : Memory) : Nat → Nat → Bytes
  | _, 0 => []
  | a, n + 1 => Memory.read m a :: Memory.readBytes m (a + 1) n

/-- The bytes written from address a up, in ascending order: `MemWrite` (R11). -/
def Memory.writeBytes : Memory → Nat → Bytes → Memory
  | m, _, [] => m
  | m, a, b :: bs => Memory.writeBytes (Memory.write m a b) (a + 1) bs

/-- n bytes from address a up, each a value the model draws, the k-th draw and on (R506). -/
def Memory.drawBytes : Nat → Nat → Nat → Memory → Memory
  | 0, _, _, m => m
  | n + 1, a, k, m => Memory.drawBytes n (a + 1) (k + 1) (Memory.write m a (Config.freeByte k))

/-! ### Regions and the platform -/

/-- A region (addr, n): the bus bytes addr to addr + n - 1 (R82). -/
structure Region where
  addr : Nat
  n : Nat
  deriving DecidableEq, Repr

/-- Two regions overlap when both are non-empty and their byte ranges intersect (R82). -/
def Region.overlaps (r q : Region) : Bool :=
  decide (0 < r.n) && decide (0 < q.n) && decide (r.addr < q.addr + q.n) && decide (q.addr < r.addr + r.n)

/-- The address is one of the region's bytes. -/
def Region.covers (r : Region) (a : Nat) : Bool := decide (r.addr ≤ a) && decide (a < r.addr + r.n)

/-- The grant lets the engine access the whole region in the direction asked. -/
def Grant.admits (g : Grant) (a n : Nat) (d : Dir) : Bool :=
  decide (g.base ≤ a) && decide (a + n ≤ g.base + g.size) &&
    match d with
    | .read => g.canRead
    | .write => g.canWrite
    | .readwrite => g.canRead && g.canWrite

/-- The region check R81: an empty region passes, a wrapping one fails, any other is the platform's to admit. -/
def Platform.accessible (p : Platform) (a n : Nat) (d : Dir) : Bool :=
  n == 0 || (decide (a + n ≤ Config.busSize) &&
    match p.access with
    | .grants gs => gs.any fun g => g.admits a n d
    | .custom k => Config.accessible k a n d)

/-- `accessible` of a region. -/
def Platform.admits (p : Platform) (r : Region) (d : Dir) : Bool := p.accessible r.addr r.n d

/-! ### Registers, slots, status -/

/-- `x[i]` (R11, R31). -/
def State.reg (s : State) (r : Reg) : Word := s.x[r]

/-- `x[i] <- v` (R11, R31). -/
def State.setReg (s : State) (r : Reg) (v : Word) : State := { s with x := s.x.set r.val v r.isLt }

/-- `slot[c]` (R11, R44). -/
def State.slot (s : State) (c : Ctx) : Slot := s.slots[c]

/-- `slot[c] <- v` (R45). -/
def State.setSlot (s : State) (c : Ctx) (v : Slot) : State := { s with slots := s.slots.set c.val v c.isLt }

/-- STATUS.BUSY (R38). -/
def State.busy (s : State) : Bool := s.running.isSome

/-- The IRQ output (R48). -/
def State.irq (s : State) : Bool := s.irqEn && s.done

/-! ### The engine's bus accesses, each recorded in the trace (R523) -/

/-- The accesses to the bytes of a region in ascending order. -/
def busRange (d : Dir) (a n : Nat) : List BusAccess := (List.range n).map fun i => ⟨d, a + i⟩

/-- The accesses are put at the end of the trace. -/
def State.log (s : State) (accesses : List BusAccess) : State := { s with bus := s.bus ++ accesses }

/-- The trace of `MemRead(a, n)`. -/
def State.logRead (s : State) (a n : Nat) : State := s.log (busRange .read a n)

/-- The value of `MemRead(a, n)` (R11). -/
def State.memRead (s : State) (a n : Nat) : Bytes := Memory.readBytes s.mem a n

/-- `MemWrite(a, len(bs), bs)` with its trace (R11). -/
def State.memWrite (s : State) (a : Nat) (bs : Bytes) : State :=
  { s with mem := Memory.writeBytes s.mem a bs, bus := s.bus ++ busRange .write a bs.length }

/-- The working buffers replaced (R49). -/
def State.setWork (s : State) (w : Work) : State := { s with work := w }

/-! ### Acceptance and completion (R41) -/

/-- The phase in which a command's sequencer starts (R257, R258, R311, R358); idle for a command without one. -/
def startPhase : Instr → Phase
  | .eaxSeal _ _ _ => .s0
  | .eaxOpen _ _ _ => .o0
  | .sivSeal _ _ _ => .p0
  | .sivOpen _ _ _ => .p0
  | .ccpSeal _ _ _ => .q0
  | .ccpSealx _ _ _ => .q0
  | .ccpOpen _ _ _ => .q0
  | .nop => .idle
  | .ctMsb _ _ => .idle
  | .ctIszero _ _ => .idle
  | .ctEq _ _ _ => .idle
  | .ctLt _ _ _ => .idle
  | .ctGe _ _ _ => .idle
  | .ctLe _ _ _ => .idle
  | .ctGt _ _ _ => .idle
  | .ctSel _ _ _ _ => .idle
  | .ctMsb8 _ _ => .idle
  | .ctIszero8 _ _ => .idle
  | .ctEq8 _ _ _ => .idle
  | .ctLt8 _ _ _ => .idle
  | .ctGe8 _ _ _ => .idle
  | .ctLe8 _ _ _ => .idle
  | .ctGt8 _ _ _ => .idle
  | .ctSel8 _ _ _ _ => .idle
  | .ctMemcmp _ _ _ _ => .idle
  | .ctCmxor _ _ _ _ => .idle
  | .recRmpad _ _ => .idle
  | .recXmac _ => .idle
  | .aeadCleanup _ => .idle
  | .eaxInit _ _ => .idle
  | .sivInit _ _ => .idle
  | .ccpInit _ _ => .idle

/-- Acceptance of command word w (R41): BUSY 1, DONE 0, LASTOP the op byte. ERR keeps the previous command's code (R38). An
illegal word is accepted like any other (R127). The trace starts anew. -/
def State.accept (s : State) (w : Word32) : State :=
  { s with
    running := some w
    done := false
    lastop := opByte w
    phase := match decode w with
      | .ok i => startPhase i
      | .error _ => .idle
    work := Work.cleared
    bus := [] }

/-- Completion with code c (R41): ERR c, BUSY 0, DONE 1 in one transition, after every write of the command; every internal
buffer is cleared (R49). With a code other than OK this is the whole of exception entry (R465): it saves nothing else. -/
def State.complete (s : State) (c : Code) : State :=
  { s with err := c, done := true, running := none, phase := .idle, work := Work.cleared }

/-- The engine ends the command with completion code c: `raise c` of the pseudocode, and completion with OK (R11, R41). -/
def finish (c : Code) (s : State) : Outcome := .next (s.complete c)

end Sys2Proof.Machine
end

