-- ==== Sys2Proof/Machine/Operands.lean ====
section
/-! DEFINITION. The operand forms (30_encoding.md R124): an argument register as a value, an address or a length, and the
descriptor blocks in memory (41_aead_contract.md R202 to R204, 45_record.md R400). -/

namespace Sys2Proof.Machine

/-- A register used as a bus address or as a length: its value as a mathematical integer (R124). -/
def State.regNat (s : State) (r : Reg) : Nat := (s.reg r).toNat

/-- `LE64AT(a)` (R83). -/
def le64At (m : Memory) (a : Nat) : Nat := intLe (Memory.readBytes m a 8)

/-- The descriptor block address is a multiple of 8 and its n bytes are readable (R86, R202); otherwise BUSERR. -/
def descriptorOk (p : Platform) (d n : Nat) : Bool := d % 8 == 0 && p.accessible d n .read

/-- INIT's three words (R203). -/
structure InitOps where
  keyAddr : Nat
  keyLen : Nat
  tagReq : Nat
  deriving DecidableEq, Repr

/-- The INIT descriptor block at d (R203). -/
def initOps (m : Memory) (d : Nat) : InitOps :=
  { keyAddr := le64At m d, keyLen := le64At m (d + 8), tagReq := le64At m (d + 16) }

/-- Which of SEAL, SEALX and OPEN a command is (R206). -/
inductive Kind where
  | sealing | sealingX | opening
  deriving DecidableEq, Repr

/-- The SEAL, SEALX or OPEN descriptor block at d; extra_len is read as 0 but by SEALX (R204, R206). -/
def aeadOps (m : Memory) (d : Nat) (k : Kind) : AeadOps :=
  { outAddr := le64At m d
    outCap := le64At m (d + 8)
    inAddr := le64At m (d + 16)
    inLen := le64At m (d + 24)
    nonceAddr := le64At m (d + 32)
    nonceLen := le64At m (d + 40)
    adAddr := le64At m (d + 48)
    adLen := le64At m (d + 56)
    tagAddr := le64At m (d + 64)
    tagLen := le64At m (d + 72)
    extraAddr := le64At m (d + 80)
    extraLen := if k = .sealingX then le64At m (d + 88) else 0 }

/-- REC.RMPAD's words (R400). block_size is read and not used (R403). -/
structure RmpadOps where
  dataAddr : Nat
  inLen : Nat
  blockSize : Nat
  macSize : Nat
  deriving DecidableEq, Repr

/-- The REC.RMPAD descriptor block at d (R400). -/
def rmpadOps (m : Memory) (d : Nat) : RmpadOps :=
  { dataAddr := le64At m d, inLen := le64At m (d + 8), blockSize := le64At m (d + 16), macSize := le64At m (d + 24) }

/-- REC.XMAC's words (R400). in_len is secret. -/
structure XmacOps where
  outAddr : Nat
  md : Nat
  dataAddr : Nat
  inLen : Nat
  origLen : Nat
  deriving DecidableEq, Repr

/-- The REC.XMAC descriptor block at d (R400). -/
def xmacOps (m : Memory) (d : Nat) : XmacOps :=
  { outAddr := le64At m d, md := le64At m (d + 8), dataAddr := le64At m (d + 16), inLen := le64At m (d + 24),
    origLen := le64At m (d + 32) }

end Sys2Proof.Machine
end

