-- ==== Sys2Proof/Machine/Aead.lean ====
section
/-! DEFINITION. The AEAD contract (41_aead_contract.md): the algorithm table, the common procedures of INIT (R205) and of SEAL,
SEALX and OPEN (R206), and how a family's command ends. -/

namespace Sys2Proof.Machine

/-- The opcode families of the AEAD units (R201). -/
inductive Family where
  | eax | siv | ccp
  deriving DecidableEq, Repr

/-- The algorithm index k of DESC_k (R46). -/
def Alg.index : Alg → Nat
  | .eax128 => 0
  | .eax256 => 1
  | .siv128 => 2
  | .siv256 => 3
  | .ccp => 4

/-- The family an algorithm belongs to (R201). -/
def Alg.family : Alg → Family
  | .eax128 => .eax
  | .eax256 => .eax
  | .siv128 => .siv
  | .siv256 => .siv
  | .ccp => .ccp

/-- key_len of DESC_k (R46, R8). -/
def Alg.keyLen : Alg → Nat
  | .eax128 => 16
  | .eax256 => 32
  | .siv128 => 16
  | .siv256 => 32
  | .ccp => 32

/-- nonce_len of DESC_k (R46, R8). -/
def Alg.nonceLen : Alg → Nat
  | .eax128 => 16
  | .eax256 => 16
  | .siv128 => 12
  | .siv256 => 12
  | .ccp => 12

/-- TRAILER of DESC_k (R46). -/
def Alg.trailer : Alg → Bool
  | .eax128 => false
  | .eax256 => false
  | .siv128 => false
  | .siv256 => false
  | .ccp => true

/-- FAMILY of DESC_k: the opcode high nibble (R46, R201). -/
def Family.nibble : Family → Nat
  | .eax => 5
  | .siv => 6
  | .ccp => 7

/-- The family's `keylens`: the algorithm a key length gives (R205). -/
def Family.algOfKeyLen (f : Family) (n : Nat) : Option Alg :=
  match f with
  | .eax => if n = 16 then some .eax128 else if n = 32 then some .eax256 else none
  | .siv => if n = 16 then some .siv128 else if n = 32 then some .siv256 else none
  | .ccp => if n = 32 then some .ccp else none

/-- The family's `tags`: the tag lengths it accepts (R205). -/
def Family.tagOk (f : Family) (t : Nat) : Bool :=
  match f with
  | .eax => t == 16
  | .siv => t == 16
  | .ccp => decide (1 ≤ t) && decide (t ≤ 16)

/-- T, the tag length of a context (R44). -/
def Slot.tagLen (sl : Slot) : Nat := sl.taglen.toNat

/-- `slot.key[0..keylen)` (R44). -/
def Slot.rawKey (sl : Slot) : Bytes := sl.key.take sl.alg.keyLen

/-! ### INIT (R205) -/

/-- T: tag_req, or 16 where tag_req is 0 (R205). -/
def initTagLen (o : InitOps) : Nat := if o.tagReq = 0 then 16 else o.tagReq

/-- INIT's checks after the descriptor has been read, in the order of R205 and R463. -/
def initCheck (p : Platform) (f : Family) (o : InitOps) (sl : Slot) : Except Code Alg :=
  if sl.valid then .error .ctxErr
  else
    match f.algOfKeyLen o.keyLen with
    | none => .error .config
    | some alg =>
      if !f.tagOk (initTagLen o) then .error .config
      else if !p.accessible o.keyAddr o.keyLen .read then .error .busErr
      else .ok alg

/-- A context with no derived masks: `key ‖ 0^(32 - len(key))`, B = P = 0 (R301, R351). -/
def plainSlot (alg : Alg) (t : Nat) (key : Bytes) : Slot :=
  { valid := true, alg := alg, taglen := BitVec.ofNat 5 t, key := key ++ zeros (32 - key.length), maskB := zeros 16,
    maskP := zeros 16 }

/-- `init_common` (R205) and the slot write of the family's rule, which `mk` gives. -/
def initRun (f : Family) (rs : Reg) (ctx : Ctx) (mk : Alg → Nat → Bytes → Slot) (s : State) : Outcome :=
  let d := s.regNat rs
  if !descriptorOk s.platform d 24 then finish .busErr s
  else
    let o := initOps s.mem d
    let s1 := s.logRead d 24
    match initCheck s.platform f o (s.slot ctx) with
    | .error c => finish c s1
    | .ok alg =>
      let s2 := s1.logRead o.keyAddr o.keyLen
      finish .ok (s2.setSlot ctx (mk alg (initTagLen o) (s.memRead o.keyAddr o.keyLen)))

/-! ### SEAL, SEALX, OPEN: the prologue (R206) -/

/-- `too_large` (R207). -/
def tooLarge (alg : Alg) (o : AeadOps) : Bool :=
  match alg.family with
  | .eax => decide (o.inLen > Config.eaxMaxIn) || decide (o.adLen ≥ Config.aadLimit)
  | .siv => decide (o.inLen > Config.sivMaxIn) || decide (o.adLen ≥ Config.aadLimit)
  | .ccp => decide (o.inLen + o.extraLen > Config.ccpMaxIn) || decide (o.adLen ≥ Config.aadLimit)

/-- The output region (R204). -/
def outRegion (o : AeadOps) : Region := ⟨o.outAddr, o.inLen⟩

/-- The input region (R209). -/
def inRegion (o : AeadOps) : Region := ⟨o.inAddr, o.inLen⟩

/-- The read regions other than `in` (R209). -/
def otherReads (k : Kind) (o : AeadOps) : List Region :=
  match k with
  | .sealing => [⟨o.nonceAddr, o.nonceLen⟩, ⟨o.adAddr, o.adLen⟩]
  | .sealingX => [⟨o.nonceAddr, o.nonceLen⟩, ⟨o.adAddr, o.adLen⟩, ⟨o.extraAddr, o.extraLen⟩]
  | .opening => [⟨o.nonceAddr, o.nonceLen⟩, ⟨o.adAddr, o.adLen⟩, ⟨o.tagAddr, o.tagLen⟩]

/-- The written regions other than `out`: the tag region of SEAL and SEALX (R204, R209). -/
def otherWrites (k : Kind) (o : AeadOps) (t : Nat) : List Region :=
  match k with
  | .sealing => [⟨o.tagAddr, t⟩]
  | .sealingX => [⟨o.tagAddr, o.extraLen + t⟩]
  | .opening => []

/-- The read regions of the table of R209; the descriptor block is one more (R512). -/
def readRegions (k : Kind) (o : AeadOps) : List Region := inRegion o :: otherReads k o

/-- The descriptor block of SEAL, SEALX and OPEN at d, a read region of its command (R204, R512). -/
def aeadBlock (d : Nat) : Region := ⟨d, 96⟩

/-- All written regions (R209). -/
def writeRegions (k : Kind) (o : AeadOps) (t : Nat) : List Region := outRegion o :: otherWrites k o t

/-- `overlap(regions(kind))` for a descriptor block at d: a written region overlaps another region of the command, other than an
identical (out, in) pair (R92, R209). The descriptor block is a region the command reads (R81, R512) and never writes (R202), so
it takes part (DEDUCED, log 10). -/
def aeadOverlap (k : Kind) (d : Nat) (o : AeadOps) (t : Nat) : Bool :=
  ((outRegion o).overlaps (inRegion o) && !(outRegion o == inRegion o)) ||
    (otherReads k o).any (outRegion o).overlaps ||
    ((otherWrites k o t).any fun w => (outRegion o :: readRegions k o).any w.overlaps) ||
    (writeRegions k o t).any (·.overlaps (aeadBlock d))

/-- Every region is accessible in its direction (R206, R209). -/
def regionsAccessible (p : Platform) (k : Kind) (o : AeadOps) (t : Nat) : Bool :=
  (readRegions k o).all (p.admits · .read) && (writeRegions k o t).all (p.admits · .write)

/-- The checks of `aead_prologue` after the descriptor at d has been read, in the order of R206 and R463; none when all pass. -/
def aeadCheck (p : Platform) (f : Family) (k : Kind) (d : Nat) (o : AeadOps) (sl : Slot) : Option Code :=
  if !(sl.valid && decide (sl.alg.family = f)) then some .ctxErr
  else if o.nonceLen ≠ sl.alg.nonceLen then some .config
  else if k = .opening ∧ o.tagLen ≠ sl.tagLen then some .config
  else if tooLarge sl.alg o then some .tooLarge
  else if o.outCap < o.inLen then some .bufSmall
  else if k ≠ .opening ∧ o.tagLen < o.extraLen + sl.tagLen then some .bufSmall
  else if aeadOverlap k d o sl.tagLen then some .config
  else if !regionsAccessible p k o sl.tagLen then some .busErr
  else none

/-- The operand snapshot of a command whose checks pass (R90): the descriptor and the input regions. -/
def aeadSnapshot (k : Kind) (o : AeadOps) (m : Memory) : Work :=
  { Work.cleared with
    ops := o
    nonce := Memory.readBytes m o.nonceAddr o.nonceLen
    ad := Memory.readBytes m o.adAddr o.adLen
    inp := Memory.readBytes m o.inAddr o.inLen
    extra := match k with
      | .sealingX => Memory.readBytes m o.extraAddr o.extraLen
      | .sealing => []
      | .opening => []
    recv := match k with
      | .opening => Memory.readBytes m o.tagAddr o.tagLen
      | .sealing => []
      | .sealingX => [] }

/-- The trace of the snapshot's reads, in the order of the family rules: nonce, AAD, input, then the trailer or the received tag
(R255, R256, R309, R310, R355 to R357). -/
def snapshotTrace (k : Kind) (o : AeadOps) : List BusAccess :=
  busRange .read o.nonceAddr o.nonceLen ++ busRange .read o.adAddr o.adLen ++ busRange .read o.inAddr o.inLen ++
    match k with
    | .sealing => []
    | .sealingX => busRange .read o.extraAddr o.extraLen
    | .opening => busRange .read o.tagAddr o.tagLen

/-- SEAL, SEALX and OPEN: the prologue (R206), then the family's `body` on the slot, the snapshot and the state. -/
def aeadRun (f : Family) (k : Kind) (rs : Reg) (ctx : Ctx) (body : Slot → Work → State → Outcome) (s : State) : Outcome :=
  let d := s.regNat rs
  if !descriptorOk s.platform d 96 then finish .busErr s
  else
    let o := aeadOps s.mem d k
    let s1 := s.logRead d 96
    match aeadCheck s.platform f k d o (s.slot ctx) with
    | some c => finish c s1
    | none => body (s.slot ctx) (aeadSnapshot k o s.mem) (s1.log (snapshotTrace k o))

/-- How SEAL and SEALX end: output region and tag region written, x[rd] the number of tag-region bytes, OK (R210). -/
def finishSeal (rd : Reg) (o : AeadOps) (out tagRegion : Bytes) (count : Nat) (s : State) : Outcome :=
  finish .ok (((s.memWrite o.outAddr out).memWrite o.tagAddr tagRegion).setReg rd (BitVec.ofNat 64 count))

/-- How an OPEN whose tag verified ends: output region written, x[rd] in_len, OK (R210). -/
def finishOpen (rd : Reg) (o : AeadOps) (out : Bytes) (s : State) : Outcome :=
  finish .ok ((s.memWrite o.outAddr out).setReg rd (BitVec.ofNat 64 o.inLen))

end Sys2Proof.Machine
end

