-- ==== Sys2Proof/Machine/Ccp.lean ====
section
/-! DEFINITION. The ChaCha20-Poly1305 unit (44_chacha20_poly1305.md). -/

namespace Sys2Proof.Machine

/-- The one-time Poly1305 key: the first 32 bytes of the block with counter 0 (R352). -/
def ccpPolyKey (key nonce : Bytes) : Bytes := (chachaBlock key nonce 0).take 32

/-- `KS[o .. o + n)`: the keystream starts with the block of counter 1 (R353). -/
def ccpKeystream (key nonce : Bytes) (o n : Nat) : Bytes :=
  (((List.range (ceilDiv (o + n) 64)).flatMap fun j => chachaBlock key nonce (1 + j)).drop o).take n

/-- The MAC input (R353). -/
def ccpMacInput (a c : Bytes) : Bytes := pad16 a ++ pad16 c ++ leBytes 8 a.length ++ leBytes 8 c.length

/-- `CCPMAC`: the first T bytes of the Poly1305 output (R353). -/
def ccpMac (sl : Slot) (nonce a c : Bytes) : Bytes :=
  (poly1305 (ccpPolyKey sl.key nonce) (ccpMacInput a c)).take sl.tagLen

/-- The slot CCP.INIT writes (R351). -/
def ccpSlot (alg : Alg) (t : Nat) (key : Bytes) : Slot := plainSlot alg t key

/-- CCP.INIT (R351). -/
def execCcpInit (rs : Reg) (ctx : Ctx) (s : State) : Outcome := initRun .ccp rs ctx ccpSlot s

/-- CCP.SEAL after the prologue (R355). -/
def ccpSealBody (rd : Reg) (sl : Slot) (w : Work) (s : State) : Outcome :=
  let c := xorBytes w.inp (ccpKeystream sl.key w.nonce 0 w.ops.inLen)
  finishSeal rd w.ops c (ccpMac sl w.nonce w.ad c) sl.tagLen s

/-- CCP.SEAL (R355). -/
def execCcpSeal (rd rs : Reg) (ctx : Ctx) (s : State) : Outcome := aeadRun .ccp .sealing rs ctx (ccpSealBody rd) s

/-- CCP.SEALX after the prologue: the trailer continues the keystream, is MACed as ciphertext, and its ciphertext comes before
the tag in the tag region (R356, C6). -/
def ccpSealxBody (rd : Reg) (sl : Slot) (w : Work) (s : State) : Outcome :=
  let c := xorBytes w.inp (ccpKeystream sl.key w.nonce 0 w.ops.inLen)
  let xc := xorBytes w.extra (ccpKeystream sl.key w.nonce w.ops.inLen w.ops.extraLen)
  finishSeal rd w.ops c (xc ++ ccpMac sl w.nonce w.ad (c ++ xc)) (w.ops.extraLen + sl.tagLen) s

/-- CCP.SEALX (R356). -/
def execCcpSealx (rd rs : Reg) (ctx : Ctx) (s : State) : Outcome := aeadRun .ccp .sealingX rs ctx (ccpSealxBody rd) s

/-- CCP.OPEN after the prologue: the tag is verified before any byte is decrypted or written (R357, R213). -/
def ccpOpenBody (rd : Reg) (sl : Slot) (w : Work) (s : State) : Outcome :=
  if memcmpBytes (ccpMac sl w.nonce w.ad w.inp) w.recv ≠ 0 then finish .authFail s
  else finishOpen rd w.ops (xorBytes w.inp (ccpKeystream sl.key w.nonce 0 w.ops.inLen)) s

/-- CCP.OPEN (R357). -/
def execCcpOpen (rd rs : Reg) (ctx : Ctx) (s : State) : Outcome := aeadRun .ccp .opening rs ctx (ccpOpenBody rd) s

end Sys2Proof.Machine
end

