-- ==== Sys2Proof/Machine/Flags.lean ====
section
/-! DEFINITION. The CT word functions (40_ct_primitives.md R151 to R158). CTAE has no flags (R33): what another machine keeps
in flags, a CT comparison returns as a mask. -/

namespace Sys2Proof.Machine

/-- `ct_msb(a) = 0 - (a >> 63)` (R151). -/
def ctMsb (a : Word) : Word := 0 - (a >>> 63)

/-- `ct_lt` (R152). -/
def ctLt (a b : Word) : Word := ctMsb (a ^^^ ((a ^^^ b) ||| ((a - b) ^^^ a)))

/-- `ct_ge` (R153). -/
def ctGe (a b : Word) : Word := ~~~ ctLt a b

/-- `ct_le` (R154). -/
def ctLe (a b : Word) : Word := ctGe b a

/-- `ct_gt` (R154). -/
def ctGt (a b : Word) : Word := ctLt b a

/-- `ct_is_zero` (R155). -/
def ctIsZero (a : Word) : Word := ctMsb (~~~a &&& (a - 1))

/-- `ct_eq` (R156). -/
def ctEq (a b : Word) : Word := ctIsZero (a ^^^ b)

/-- `ct_sel`: the mask first (R157). -/
def ctSel (m a b : Word) : Word := (m &&& a) ||| (~~~m &&& b)

/-- `ct_sel` over bytes, with `~` on a byte (R158). -/
def ctSelByte (m a b : Byte) : Byte := (m &&& a) ||| (~~~m &&& b)

/-- `ct_msb_8` (R158). -/
def ctMsb8 (a : Word) : Byte := trunc8 (ctMsb a)

/-- `ct_is_zero_8` (R158). -/
def ctIsZero8 (a : Word) : Byte := trunc8 (ctIsZero a)

/-- `ct_eq_8` (R158). -/
def ctEq8 (a b : Word) : Byte := trunc8 (ctEq a b)

/-- `ct_lt_8` (R158). -/
def ctLt8 (a b : Word) : Byte := trunc8 (ctLt a b)

/-- `ct_ge_8` (R158). -/
def ctGe8 (a b : Word) : Byte := trunc8 (ctGe a b)

/-- `ct_le_8` (R158). -/
def ctLe8 (a b : Word) : Byte := trunc8 (ctLe a b)

/-- `ct_gt_8` (R158). -/
def ctGt8 (a b : Word) : Byte := trunc8 (ctGt a b)

/-- `ct_sel_8`: only the low bytes of the three operands (R158). -/
def ctSel8 (m a b : Word) : Byte := ctSelByte (trunc8 m) (trunc8 a) (trunc8 b)

end Sys2Proof.Machine
end

