-- ==== Sys2Proof/Machine/Ct.lean ====
section
/-! DEFINITION. The CT unit's commands (40_ct_primitives.md R160 to R177). -/

namespace Sys2Proof.Machine

/-- The template of every CT register command (R150): the result is written to rd and the command completes with OK. -/
def ctResult (rd : Reg) (v : Word) (s : State) : Outcome := finish .ok (s.setReg rd v)

/-- CT.MSB (R160). -/
def execCtMsb (rd rs1 : Reg) (s : State) : Outcome := ctResult rd (ctMsb (s.reg rs1)) s

/-- CT.ISZERO (R161). -/
def execCtIszero (rd rs1 : Reg) (s : State) : Outcome := ctResult rd (ctIsZero (s.reg rs1)) s

/-- CT.EQ (R162). -/
def execCtEq (rd rs1 rs2 : Reg) (s : State) : Outcome := ctResult rd (ctEq (s.reg rs1) (s.reg rs2)) s

/-- CT.LT (R163). -/
def execCtLt (rd rs1 rs2 : Reg) (s : State) : Outcome := ctResult rd (ctLt (s.reg rs1) (s.reg rs2)) s

/-- CT.GE (R164). -/
def execCtGe (rd rs1 rs2 : Reg) (s : State) : Outcome := ctResult rd (ctGe (s.reg rs1) (s.reg rs2)) s

/-- CT.LE (R165). -/
def execCtLe (rd rs1 rs2 : Reg) (s : State) : Outcome := ctResult rd (ctLe (s.reg rs1) (s.reg rs2)) s

/-- CT.GT (R166). -/
def execCtGt (rd rs1 rs2 : Reg) (s : State) : Outcome := ctResult rd (ctGt (s.reg rs1) (s.reg rs2)) s

/-- CT.SEL: the mask is x[rs3] (R167). -/
def execCtSel (rd rs1 rs2 rs3 : Reg) (s : State) : Outcome :=
  ctResult rd (ctSel (s.reg rs3) (s.reg rs1) (s.reg rs2)) s

/-- CT.MSB.8 (R168). -/
def execCtMsb8 (rd rs1 : Reg) (s : State) : Outcome := ctResult rd (zext64 (ctMsb8 (s.reg rs1))) s

/-- CT.ISZERO.8 (R169). -/
def execCtIszero8 (rd rs1 : Reg) (s : State) : Outcome := ctResult rd (zext64 (ctIsZero8 (s.reg rs1))) s

/-- CT.EQ.8 (R170). -/
def execCtEq8 (rd rs1 rs2 : Reg) (s : State) : Outcome := ctResult rd (zext64 (ctEq8 (s.reg rs1) (s.reg rs2))) s

/-- CT.LT.8 (R171). -/
def execCtLt8 (rd rs1 rs2 : Reg) (s : State) : Outcome := ctResult rd (zext64 (ctLt8 (s.reg rs1) (s.reg rs2))) s

/-- CT.GE.8 (R172). -/
def execCtGe8 (rd rs1 rs2 : Reg) (s : State) : Outcome := ctResult rd (zext64 (ctGe8 (s.reg rs1) (s.reg rs2))) s

/-- CT.LE.8 (R173). -/
def execCtLe8 (rd rs1 rs2 : Reg) (s : State) : Outcome := ctResult rd (zext64 (ctLe8 (s.reg rs1) (s.reg rs2))) s

/-- CT.GT.8 (R174). -/
def execCtGt8 (rd rs1 rs2 : Reg) (s : State) : Outcome := ctResult rd (zext64 (ctGt8 (s.reg rs1) (s.reg rs2))) s

/-- CT.SEL.8: the mask is x[rs3] (R175). -/
def execCtSel8 (rd rs1 rs2 rs3 : Reg) (s : State) : Outcome :=
  ctResult rd (zext64 (ctSel8 (s.reg rs3) (s.reg rs1) (s.reg rs2))) s

/-- CT.MEMCMP's bus trace: byte i of a, byte i of b, for i ascending, whatever their contents (R176, R178). -/
def memcmpTrace (pa pb n : Nat) : List BusAccess :=
  (List.range n).flatMap fun i => [⟨.read, pa + i⟩, ⟨.read, pb + i⟩]

/-- CT.MEMCMP (R176). -/
def execCtMemcmp (rd rs1 rs2 rs3 : Reg) (s : State) : Outcome :=
  let n := s.regNat rs3
  let pa := s.regNat rs1
  let pb := s.regNat rs2
  if s.platform.accessible pa n .read && s.platform.accessible pb n .read then
    finish .ok ((s.log (memcmpTrace pa pb n)).setReg rd (zext64 (memcmpBytes (s.memRead pa n) (s.memRead pb n))))
  else finish .busErr s

/-- One byte of CT.CMXOR: destination and source read, destination written (R177). -/
def cmxorByte (pd ps : Nat) (m8 : Byte) (s : State) : State :=
  ((s.logRead pd 1).logRead ps 1).memWrite pd [Memory.read s.mem pd ^^^ (Memory.read s.mem ps &&& m8)]

/-- CT.CMXOR's n bytes in ascending order, which is normative (R177, C14). -/
def cmxorBytes : Nat → Nat → Nat → Byte → State → State
  | 0, _, _, _, s => s
  | n + 1, pd, ps, m8, s => cmxorBytes n (pd + 1) (ps + 1) m8 (cmxorByte pd ps m8 s)

/-- CT.CMXOR (R177): rd holds the destination address and is not written. -/
def execCtCmxor (rd rs1 rs2 rs3 : Reg) (s : State) : Outcome :=
  let pd := s.regNat rd
  let ps := s.regNat rs1
  let n := s.regNat rs2
  if s.platform.accessible pd n .readwrite && s.platform.accessible ps n .read then
    finish .ok (cmxorBytes n pd ps (trunc8 (s.reg rs3)) s)
  else finish .busErr s

end Sys2Proof.Machine
end

