-- ==== Sys2Proof/Machine/Eax.lean ====
section
/-! DEFINITION. The EAX unit (42_eax.md). -/

namespace Sys2Proof.Machine

/-- `dbl` (R251): the block read as a big-endian 128-bit integer, shifted left, 0x87 XORed in as a mask on the top bit. -/
def dbl (x : Bytes) : Bytes :=
  let v := BitVec.ofNat 128 (intBe x)
  let carry := v >>> 127
  be128 ((v <<< 1) ^^^ ((0 - carry) &&& 0x87)).toNat

/-- The tweak block [t]_16: 15 zero bytes, then t (R253). -/
def tweakBlock (t : Byte) : Bytes := zeros 15 ++ [t]

/-- OMAC's loop over the blocks of M from chaining value X: the last block is masked with B when it is full, with P after the
0x80 marker and zero padding when it is partial (R253). -/
def omacBlocks (e : Bytes → Bytes) (b p : Bytes) : Bytes → List Bytes → Bytes
  | x, [] => x
  | x, [last] =>
    if last.length = 16 then e (xorBytes (xorBytes x last) b)
    else e (xorBytes (xorBytes x (last ++ [0x80] ++ zeros (15 - last.length))) p)
  | x, blk :: next :: rest => omacBlocks e b p (e (xorBytes x blk)) (next :: rest)

/-- OMAC with tweak t (R253). -/
def omac (e : Bytes → Bytes) (b p : Bytes) (t : Byte) (m : Bytes) : Bytes :=
  if m.length = 0 then e (xorBytes (tweakBlock t) b)
  else omacBlocks e b p (e (tweakBlock t)) (blocks16 m)

/-- The keystream of `blocks` blocks from counter N, read big-endian and incremented mod 2^128 (R254). -/
def eaxKeystream (e : Bytes → Bytes) (n : Bytes) (blocks : Nat) : Bytes :=
  (List.range blocks).flatMap fun k => e (be128 (intBe n + k))

/-- Counter mode keyed by N (R254). -/
def eaxCtr (e : Bytes → Bytes) (n d : Bytes) : Bytes := xorBytes d (eaxKeystream e n (ceilDiv d.length 16))

/-- `E` of the slot (R250). -/
def slotEnc (sl : Slot) : Bytes → Bytes := aesEnc sl.rawKey

/-- `OMAC(t, m)` of the slot (R253). -/
def slotOmac (sl : Slot) (t : Byte) (m : Bytes) : Bytes := omac (slotEnc sl) sl.maskB sl.maskP t m

/-- The tag `OMAC(2, C) ^ N ^ H` (R255). -/
def eaxTag (sl : Slot) (nonce ad c : Bytes) : Bytes :=
  xorBytes (xorBytes (slotOmac sl 2 c) (slotOmac sl 0 nonce)) (slotOmac sl 1 ad)

/-- The slot EAX.INIT writes: L = E(0), B = dbl(L), P = dbl(B) (R252). -/
def eaxSlot (alg : Alg) (_t : Nat) (key : Bytes) : Slot :=
  let b := dbl (aesEnc key (zeros 16))
  { plainSlot alg 16 key with maskB := b, maskP := dbl b }

/-- EAX.INIT (R252). -/
def execEaxInit (rs : Reg) (ctx : Ctx) (s : State) : Outcome := initRun .eax rs ctx eaxSlot s

/-- EAX.SEAL after the prologue (R255). -/
def eaxSealBody (rd : Reg) (sl : Slot) (w : Work) (s : State) : Outcome :=
  let c := eaxCtr (slotEnc sl) (slotOmac sl 0 w.nonce) w.inp
  finishSeal rd w.ops c (eaxTag sl w.nonce w.ad c) 16 s

/-- EAX.SEAL (R255). -/
def execEaxSeal (rd rs : Reg) (ctx : Ctx) (s : State) : Outcome := aeadRun .eax .sealing rs ctx (eaxSealBody rd) s

/-- EAX.OPEN after the prologue: the tag is verified before any byte is decrypted or written (R256, R213). -/
def eaxOpenBody (rd : Reg) (sl : Slot) (w : Work) (s : State) : Outcome :=
  if memcmpBytes (eaxTag sl w.nonce w.ad w.inp) w.recv ≠ 0 then finish .authFail s
  else finishOpen rd w.ops (eaxCtr (slotEnc sl) (slotOmac sl 0 w.nonce) w.inp) s

/-- EAX.OPEN (R256). -/
def execEaxOpen (rd rs : Reg) (ctx : Ctx) (s : State) : Outcome := aeadRun .eax .opening rs ctx (eaxOpenBody rd) s

end Sys2Proof.Machine
end

