-- ==== Sys2Proof/Machine/Rec.lean ====
section
/-! DEFINITION. The record unit's commands (45_record.md). -/

namespace Sys2Proof.Machine

/-! ### REC.RMPAD (R403) -/

/-- The scan of RMPAD over the last `n` bytes: byte i from the end clears bits of `good` where it must equal the pad length and
does not (R403). `good` is a word. -/
def rmpadScan (data : Bytes) (inLen : Nat) (pl : Byte) : Nat → Word → Word
  | 0, good => good
  | n + 1, good =>
    let good' := rmpadScan data inLen pl n good
    let mask := trunc8 (ctGe (zext64 pl) (BitVec.ofNat 64 n))
    let b := data.getD (inLen - 1 - n) 0
    good' &&& ~~~ zext64 (mask &&& (pl ^^^ b))

/-- RMPAD's two results, validMask and effectiveLength, for a record (R403). -/
def rmpadResult (data : Bytes) (inLen macSize : Nat) : Word × Word :=
  let pl := data.getD (inLen - 1) 0
  let lenWord := BitVec.ofNat 64 inLen
  let room := ctGe lenWord (BitVec.ofNat 64 (1 + macSize) + zext64 pl)
  let scanned := rmpadScan data inLen pl (min Config.padWindow inLen) room
  let good := ctEq 0xFF (scanned &&& 0xFF)
  (good, lenWord - (good &&& (zext64 pl + 1)))

/-- RMPAD's reads of the record: the last byte, then the window from the last byte down (R405). -/
def rmpadTrace (addr inLen : Nat) : List BusAccess :=
  ⟨.read, addr + (inLen - 1)⟩ ::
    (List.range (min Config.padWindow inLen)).map fun i => ⟨.read, addr + (inLen - 1 - i)⟩

/-- REC.RMPAD (R402, R403). An odd rd is no legal word (R125) and completes with ILLEGAL (log 19). -/
def execRecRmpad (rd rs : Reg) (s : State) : Outcome :=
  let d := s.regNat rs
  if rd.val % 2 ≠ 0 then finish .illegal s
  else if !descriptorOk s.platform d 32 then finish .busErr s
  else
    let o := rmpadOps s.mem d
    let s1 := s.logRead d 32
    if 1 + o.macSize > o.inLen then finish .bufSmall s1
    else if !s.platform.accessible o.dataAddr o.inLen .read then finish .busErr s1
    else
      let r := rmpadResult (s.memRead o.dataAddr o.inLen) o.inLen o.macSize
      let s2 := s1.log (rmpadTrace o.dataAddr o.inLen)
      finish .ok ((s2.setReg rd r.1).setReg (rd + 1) r.2)

/-! ### REC.XMAC (R410) -/

/-- What XMAC's scan carries from byte to byte (R410). -/
structure XmacScan where
  rot : Bytes
  rotateOffset : Word
  started : Byte
  j : Nat
  deriving DecidableEq, Repr

/-- One byte of XMAC's scan: index i, record byte b (R410). -/
def xmacStep (md : Nat) (macStart macEnd : Word) (c : XmacScan) (i : Nat) (b : Byte) : XmacScan :=
  let j := if c.j ≥ md then c.j - md else c.j
  let isStart := ctEq (BitVec.ofNat 64 i) macStart
  let started := c.started ||| trunc8 isStart
  let ended := trunc8 (ctGe (BitVec.ofNat 64 i) macEnd)
  { rot := c.rot.set j (c.rot.getD j 0 ||| (b &&& started &&& ~~~ended))
    rotateOffset := c.rotateOffset ||| (BitVec.ofNat 64 j &&& isStart)
    started := started
    j := j + 1 }

/-- XMAC's scan of the bytes of the window, the first of them at record index i (R410). -/
def xmacScan (md : Nat) (macStart macEnd : Word) : Nat → Bytes → XmacScan → XmacScan
  | _, [], c => c
  | i, b :: bs, c => xmacScan md macStart macEnd (i + 1) bs (xmacStep md macStart macEnd c i b)

/-- One conditional rotation by `offset`, taken when bit 0 of `rotateOffset` is 1 (R410). -/
def xmacRotateOnce (md offset : Nat) (rotateOffset : Word) (rot : Bytes) : Bytes :=
  let skip := trunc8 ((rotateOffset &&& 1) - 1)
  (List.range md).map fun i => (skip &&& rot.getD i 0) ||| (~~~skip &&& rot.getD ((i + offset) % md) 0)

/-- The conditional rotations by 1, 2, 4, ... below md (R410, C4); `fuel` of at least md lets the loop run to its end. -/
def xmacRotate (md : Nat) : Nat → Nat → Word → Bytes → Bytes
  | 0, _, _, rot => rot
  | fuel + 1, offset, rotateOffset, rot =>
    if offset < md then
      xmacRotate md fuel (2 * offset) (rotateOffset >>> 1) (xmacRotateOnce md offset rotateOffset rot)
    else rot

/-- The first record index XMAC scans (R410). -/
def xmacScanStart (md origLen : Nat) : Nat :=
  if origLen > md + Config.xmacSlack then origLen - (md + Config.xmacSlack) else 0

/-- XMAC's scan of a window of the record, from cleared buffers (R410). -/
def xmacGather (window : Bytes) (md inLen origLen : Nat) : XmacScan :=
  xmacScan md (BitVec.ofNat 64 inLen - BitVec.ofNat 64 md) (BitVec.ofNat 64 inLen) (xmacScanStart md origLen) window
    { rot := zeros md, rotateOffset := 0, started := 0, j := 0 }

/-- XMAC's public checks for a descriptor block at d, in the order of R463: CONFIG (md), CONFIG (overlap), BUSERR (regions) (R410,
R412). The output region must be apart from the record and from the descriptor block, the two regions the command reads (R92,
R202, R512; DEDUCED, log 10). -/
def xmacCheck (p : Platform) (d : Nat) (o : XmacOps) : Option Code :=
  if o.md = 0 ∨ o.md > Config.maxMd ∨ o.md > o.origLen then some .config
  else if Region.overlaps ⟨o.outAddr, o.md⟩ ⟨o.dataAddr, o.origLen⟩ then some .config
  else if Region.overlaps ⟨o.outAddr, o.md⟩ ⟨d, 40⟩ then some .config
  else if !(p.accessible o.dataAddr o.origLen .read && p.accessible o.outAddr o.md .write) then some .busErr
  else none

/-- REC.XMAC (R410). -/
def execRecXmac (rs : Reg) (s : State) : Outcome :=
  let d := s.regNat rs
  if !descriptorOk s.platform d 40 then finish .busErr s
  else
    let o := xmacOps s.mem d
    let s1 := s.logRead d 40
    match xmacCheck s.platform d o with
    | some c => finish c s1
    | none =>
      let start := xmacScanStart o.md o.origLen
      let n := o.origLen - start
      let c := xmacGather (s.memRead (o.dataAddr + start) n) o.md o.inLen o.origLen
      let s2 := (s1.logRead (o.dataAddr + start) n).setWork { s.work with rot := c.rot }
      finish .ok (s2.memWrite o.outAddr (xmacRotate o.md o.md 1 c.rotateOffset c.rot))

end Sys2Proof.Machine
end

