-- ==== Sys2Proof/Machine/Siv.lean ====
section
/-! DEFINITION. The GCM-SIV unit (43_gcm_siv.md). -/

namespace Sys2Proof.Machine

/-- Block i of the key derivation: the first 8 bytes of `AES_ENC(root, le32(i) ‖ nonce)` (R302). -/
def kdfBlock (root nonce : Bytes) (i : Nat) : Bytes := (aesEnc root (leBytes 4 i ++ nonce)).take 8

/-- The number of key-derivation blocks: 4 for GCM-SIV-128, 6 for GCM-SIV-256 (R302, R311). -/
def kdfCount (alg : Alg) : Nat := if alg.keyLen = 16 then 4 else 6

/-- `mat` after n blocks (R302). -/
def kdfMat (root nonce : Bytes) (n : Nat) : Bytes := (List.range n).flatMap (kdfBlock root nonce)

/-- `authKey = mat[0..16)` (R302). -/
def authKeyOf (mat : Bytes) : Bytes := mat.take 16

/-- `encKey = mat[16..16 + len(root))` (R302). -/
def encKeyOf (alg : Alg) (mat : Bytes) : Bytes := (mat.drop 16).take alg.keyLen

/-- The POLYVAL input: padded AAD, padded message, the two bit counts (R303). -/
def sivHashInput (a m : Bytes) : Bytes :=
  pad16 a ++ pad16 m ++ leBytes 8 (8 * a.length) ++ leBytes 8 (8 * m.length)

/-- `SIVHASH` (R303). -/
def sivHash (authKey a m : Bytes) : Bytes := polyval authKey (sivHashInput a m)

/-- `PRETAG`: the nonce XORed into bytes 0 to 11, the top bit of byte 15 cleared (R304). -/
def preTag (h nonce : Bytes) : Bytes :=
  (xorBytes (h.take 12) nonce ++ h.drop 12).modify 15 (· &&& 0x7F)

/-- `SIVTAG` (R305). -/
def sivTag (authKey encKey nonce a m : Bytes) : Bytes := aesEnc encKey (preTag (sivHash authKey a m) nonce)

/-- `CB0`: the tag with the top bit of byte 15 set (R306). -/
def ctrBlock0 (tag : Bytes) : Bytes := tag.take 15 ++ [tag.getD 15 0 ||| 0x80]

/-- The counter block number k: the little-endian counter of bytes 0 to 3 wraps mod 2^32, bytes 4 to 15 stay (R307). -/
def sivCounter (cb : Bytes) (k : Nat) : Bytes := leBytes 4 (intLe (cb.take 4) + k) ++ cb.drop 4

/-- Counter mode from an initial counter block (R307). -/
def sivCtrFrom (encKey cb d : Bytes) : Bytes :=
  xorBytes d ((List.range (ceilDiv d.length 16)).flatMap fun k => aesEnc encKey (sivCounter cb k))

/-- `SIVCTR` (R307). -/
def sivCtr (encKey tag d : Bytes) : Bytes := sivCtrFrom encKey (ctrBlock0 tag) d

/-- The record keys (authKey, encKey) of a context and a nonce (R302). -/
def sivKeys (sl : Slot) (nonce : Bytes) : Bytes × Bytes :=
  let mat := kdfMat sl.rawKey nonce (kdfCount sl.alg)
  (authKeyOf mat, encKeyOf sl.alg mat)

/-- The slot SIV.INIT writes (R301). -/
def sivSlot (alg : Alg) (_t : Nat) (key : Bytes) : Slot := plainSlot alg 16 key

/-- SIV.INIT (R301). -/
def execSivInit (rs : Reg) (ctx : Ctx) (s : State) : Outcome := initRun .siv rs ctx sivSlot s

/-- SIV.SEAL after the prologue (R309). -/
def sivSealBody (rd : Reg) (sl : Slot) (w : Work) (s : State) : Outcome :=
  let keys := sivKeys sl w.nonce
  let tag := sivTag keys.1 keys.2 w.nonce w.ad w.inp
  finishSeal rd w.ops (sivCtr keys.2 tag w.inp) tag 16 s

/-- SIV.SEAL (R309). -/
def execSivSeal (rd rs : Reg) (ctx : Ctx) (s : State) : Outcome := aeadRun .siv .sealing rs ctx (sivSealBody rd) s

/-- SIV.OPEN after the prologue: the candidate plaintext is written before the tag is verified, and stays on AUTHFAIL (R310,
C7). -/
def sivOpenBody (rd : Reg) (sl : Slot) (w : Work) (s : State) : Outcome :=
  let keys := sivKeys sl w.nonce
  let m := sivCtr keys.2 w.recv w.inp
  if memcmpBytes (sivTag keys.1 keys.2 w.nonce w.ad m) w.recv ≠ 0 then finish .authFail (s.memWrite w.ops.outAddr m)
  else finishOpen rd w.ops m s

/-- SIV.OPEN (R310). -/
def execSivOpen (rd rs : Reg) (ctx : Ctx) (s : State) : Outcome := aeadRun .siv .opening rs ctx (sivOpenBody rd) s

end Sys2Proof.Machine
end

