-- ==== Sys2Proof/Machine/Sys.lean ====
section
/-! DEFINITION. The commands of the engine's front end: NOP (60_exceptions.md R470) and AEAD.CLEANUP (41_aead_contract.md
R212). -/

namespace Sys2Proof.Machine

/-- NOP (R470): completes with OK and does nothing else. -/
def execNop (s : State) : Outcome := finish .ok s

/-- AEAD.CLEANUP (R212): every field of the slot becomes 0, on an empty slot too. -/
def execAeadCleanup (ctx : Ctx) (s : State) : Outcome := finish .ok (s.setSlot ctx Slot.empty)

end Sys2Proof.Machine
end

