-- ==== Sys2Proof/Machine/Dispatch.lean ====
section
/-! DEFINITION. The meaning of every command: what the engine does from acceptance to completion (00_scope.md R12). -/

namespace Sys2Proof.Machine

def exec (i : Instr) (s : State) : Host.Outcome State Fault Refusal :=
  match i with
  | .nop => Sys2Proof.Machine.execNop s
  | .ctMsb rd rs1 => Sys2Proof.Machine.execCtMsb rd rs1 s
  | .ctIszero rd rs1 => Sys2Proof.Machine.execCtIszero rd rs1 s
  | .ctEq rd rs1 rs2 => Sys2Proof.Machine.execCtEq rd rs1 rs2 s
  | .ctLt rd rs1 rs2 => Sys2Proof.Machine.execCtLt rd rs1 rs2 s
  | .ctGe rd rs1 rs2 => Sys2Proof.Machine.execCtGe rd rs1 rs2 s
  | .ctLe rd rs1 rs2 => Sys2Proof.Machine.execCtLe rd rs1 rs2 s
  | .ctGt rd rs1 rs2 => Sys2Proof.Machine.execCtGt rd rs1 rs2 s
  | .ctSel rd rs1 rs2 rs3 => Sys2Proof.Machine.execCtSel rd rs1 rs2 rs3 s
  | .ctMsb8 rd rs1 => Sys2Proof.Machine.execCtMsb8 rd rs1 s
  | .ctIszero8 rd rs1 => Sys2Proof.Machine.execCtIszero8 rd rs1 s
  | .ctEq8 rd rs1 rs2 => Sys2Proof.Machine.execCtEq8 rd rs1 rs2 s
  | .ctLt8 rd rs1 rs2 => Sys2Proof.Machine.execCtLt8 rd rs1 rs2 s
  | .ctGe8 rd rs1 rs2 => Sys2Proof.Machine.execCtGe8 rd rs1 rs2 s
  | .ctLe8 rd rs1 rs2 => Sys2Proof.Machine.execCtLe8 rd rs1 rs2 s
  | .ctGt8 rd rs1 rs2 => Sys2Proof.Machine.execCtGt8 rd rs1 rs2 s
  | .ctSel8 rd rs1 rs2 rs3 => Sys2Proof.Machine.execCtSel8 rd rs1 rs2 rs3 s
  | .ctMemcmp rd rs1 rs2 rs3 => Sys2Proof.Machine.execCtMemcmp rd rs1 rs2 rs3 s
  | .ctCmxor rd rs1 rs2 rs3 => Sys2Proof.Machine.execCtCmxor rd rs1 rs2 rs3 s
  | .recRmpad rd rs => Sys2Proof.Machine.execRecRmpad rd rs s
  | .recXmac rs => Sys2Proof.Machine.execRecXmac rs s
  | .aeadCleanup ctx => Sys2Proof.Machine.execAeadCleanup ctx s
  | .eaxInit rs ctx => Sys2Proof.Machine.execEaxInit rs ctx s
  | .eaxSeal rd rs ctx => Sys2Proof.Machine.execEaxSeal rd rs ctx s
  | .eaxOpen rd rs ctx => Sys2Proof.Machine.execEaxOpen rd rs ctx s
  | .sivInit rs ctx => Sys2Proof.Machine.execSivInit rs ctx s
  | .sivSeal rd rs ctx => Sys2Proof.Machine.execSivSeal rd rs ctx s
  | .sivOpen rd rs ctx => Sys2Proof.Machine.execSivOpen rd rs ctx s
  | .ccpInit rs ctx => Sys2Proof.Machine.execCcpInit rs ctx s
  | .ccpSeal rd rs ctx => Sys2Proof.Machine.execCcpSeal rd rs ctx s
  | .ccpSealx rd rs ctx => Sys2Proof.Machine.execCcpSealx rd rs ctx s
  | .ccpOpen rd rs ctx => Sys2Proof.Machine.execCcpOpen rd rs ctx s

end Sys2Proof.Machine
end

