-- ==== Sys2Proof/Machine/Sequencer.lean ====
section
/-! DEFINITION. The hidden sequencers of the AEAD commands (42_eax.md R257, R258; 43_gcm_siv.md R311; 44_chacha20_poly1305.md
R358), phase by phase: what a phase does to the working buffers, which phases write memory and registers, and where each goes on or
completes. A later phase works on the buffers alone; memory is read by the prologue, into the operand snapshot (R90; DESIGN
CHOICE, log 11). -/

namespace Sys2Proof.Machine

/-- An AEAD command of a sequencer: family, kind, result register, descriptor register, slot number. -/
structure AeadCommand where
  family : Family
  kind : Kind
  rd : Reg
  rs : Reg
  ctx : Ctx
  deriving DecidableEq, Repr

/-- The sequenced AEAD command an instruction is, if it is one (R49). -/
def sequenced : Instr → Option AeadCommand
  | .eaxSeal rd rs ctx => some ⟨.eax, .sealing, rd, rs, ctx⟩
  | .eaxOpen rd rs ctx => some ⟨.eax, .opening, rd, rs, ctx⟩
  | .sivSeal rd rs ctx => some ⟨.siv, .sealing, rd, rs, ctx⟩
  | .sivOpen rd rs ctx => some ⟨.siv, .opening, rd, rs, ctx⟩
  | .ccpSeal rd rs ctx => some ⟨.ccp, .sealing, rd, rs, ctx⟩
  | .ccpSealx rd rs ctx => some ⟨.ccp, .sealingX, rd, rs, ctx⟩
  | .ccpOpen rd rs ctx => some ⟨.ccp, .opening, rd, rs, ctx⟩
  | .nop => none
  | .ctMsb _ _ => none
  | .ctIszero _ _ => none
  | .ctEq _ _ _ => none
  | .ctLt _ _ _ => none
  | .ctGe _ _ _ => none
  | .ctLe _ _ _ => none
  | .ctGt _ _ _ => none
  | .ctSel _ _ _ _ => none
  | .ctMsb8 _ _ => none
  | .ctIszero8 _ _ => none
  | .ctEq8 _ _ _ => none
  | .ctLt8 _ _ _ => none
  | .ctGe8 _ _ _ => none
  | .ctLe8 _ _ _ => none
  | .ctGt8 _ _ _ => none
  | .ctSel8 _ _ _ _ => none
  | .ctMemcmp _ _ _ _ => none
  | .ctCmxor _ _ _ _ => none
  | .recRmpad _ _ => none
  | .recXmac _ => none
  | .aeadCleanup _ => none
  | .eaxInit _ _ => none
  | .sivInit _ _ => none
  | .ccpInit _ _ => none

/-- The state with the sequencer in another phase. -/
def State.setPhase (s : State) (p : Phase) (w : Work) : State := { s with phase := p, work := w }

/-- A phase that is not the last: the sequencer goes on to phase p with buffers w. -/
def State.goTo (s : State) (p : Phase) (w : Work) : Outcome := .next (s.setPhase p w)

/-- The prologue phase (S0, O0, P0, Q0): the checks of R206 and the snapshot, then phase p; or completion with the raised code. -/
def prologueTick (c : AeadCommand) (p : Phase) (s : State) : Outcome :=
  aeadRun c.family c.kind c.rs c.ctx (fun _ w t => t.goTo p w) s

/-- The phases of R257 (EAX.SEAL). C is written in S5, with TAG; R257 lets an implementation write it during S3. -/
def eaxSealTick (c : AeadCommand) (s : State) : Option Outcome :=
  let sl := s.slot c.ctx
  let w := s.work
  match s.phase with
  | .s0 => some (prologueTick c .s1 s)
  | .s1 => some (s.goTo .s2 { w with omacN := slotOmac sl 0 w.nonce })
  | .s2 => some (s.goTo .s3 { w with omacH := slotOmac sl 1 w.ad })
  | .s3 =>
    let ct := eaxCtr (slotEnc sl) w.omacN w.inp
    some (s.goTo .s4 { w with out := ct, omacC := slotOmac sl 2 ct })
  | .s4 => some (s.goTo .s5 { w with tag := xorBytes (xorBytes w.omacC w.omacN) w.omacH })
  | .s5 => some (finishSeal c.rd w.ops w.out w.tag 16 s)
  | _ => none

/-- The phases of R258 (EAX.OPEN): O5 only when the recomputed tag equals the received one, AUTHFAIL otherwise; O5 alone writes. -/
def eaxOpenTick (c : AeadCommand) (s : State) : Option Outcome :=
  let sl := s.slot c.ctx
  let w := s.work
  match s.phase with
  | .o0 => some (prologueTick c .o1 s)
  | .o1 => some (s.goTo .o2 { w with omacN := slotOmac sl 0 w.nonce })
  | .o2 => some (s.goTo .o3 { w with omacH := slotOmac sl 1 w.ad })
  | .o3 => some (s.goTo .o4 { w with omacC := slotOmac sl 2 w.inp })
  | .o4 =>
    let tag := xorBytes (xorBytes w.omacC w.omacN) w.omacH
    some (if memcmpBytes tag w.recv = 0 then s.goTo .o5 { w with tag := tag } else finish .authFail s)
  | .o5 => some (finishOpen c.rd w.ops (eaxCtr (slotEnc sl) w.omacN w.inp) s)
  | _ => none

/-- The phases of R311 (SIV.SEAL and SIV.OPEN): K0 to K(nblk - 1), KA, then H1, T1, T2, T3, X1 for SEAL and T3, X1, H1, T1, T2, V
for OPEN. X1 writes: C and TAG for SEAL, which it completes; M for OPEN, before V compares the tags. -/
def sivTick (c : AeadCommand) (s : State) : Option Outcome :=
  let sl := s.slot c.ctx
  let w := s.work
  match s.phase with
  | .p0 => some (prologueTick c (.kdf 0) s)
  | .kdf i =>
    some (s.goTo (if i + 1 < kdfCount sl.alg then .kdf (i + 1) else .assemble)
      { w with mat := w.mat ++ kdfBlock sl.rawKey w.nonce i })
  | .assemble =>
    some (s.goTo (if c.kind = .opening then .counter else .hash)
      { w with authKey := authKeyOf w.mat, encKey := encKeyOf sl.alg w.mat })
  | .hash => some (s.goTo .preTag { w with hash := sivHash w.authKey w.ad (if c.kind = .opening then w.out else w.inp) })
  | .preTag => some (s.goTo .tag { w with hash := preTag w.hash w.nonce })
  | .tag => some (s.goTo (if c.kind = .opening then .verify else .counter) { w with tag := aesEnc w.encKey w.hash })
  | .counter => some (s.goTo .ctr { w with ctrBlock := ctrBlock0 (if c.kind = .opening then w.recv else w.tag) })
  | .ctr =>
    let out := sivCtrFrom w.encKey w.ctrBlock w.inp
    some (if c.kind = .opening then (s.memWrite w.ops.outAddr out).goTo .hash { w with out := out }
      else finishSeal c.rd w.ops out w.tag 16 s)
  | .verify =>
    some (if memcmpBytes w.tag w.recv = 0 then finish .ok (s.setReg c.rd (BitVec.ofNat 64 w.ops.inLen))
      else finish .authFail s)
  | _ => none

/-- The phases of R358 (CCP.SEAL, CCP.SEALX and CCP.OPEN): Q8 only when the recomputed tag equals the received one, AUTHFAIL
otherwise; Q6 and Q8 alone write. -/
def ccpTick (c : AeadCommand) (s : State) : Option Outcome :=
  let sl := s.slot c.ctx
  let w := s.work
  match s.phase with
  | .q0 => some (prologueTick c .q1 s)
  | .q1 => some (s.goTo .q2 { w with polyKey := ccpPolyKey sl.key w.nonce })
  | .q2 => some (s.goTo .q3 { w with macIn := pad16 w.ad })
  | .q3 =>
    if c.kind = .opening then some (s.goTo .q4 { w with macIn := w.macIn ++ w.inp })
    else
      let ct := xorBytes w.inp (ccpKeystream sl.key w.nonce 0 w.ops.inLen)
      some (s.goTo .q4 { w with out := ct, macIn := w.macIn ++ ct })
  | .q4 =>
    if c.kind = .sealingX then
      let xc := xorBytes w.extra (ccpKeystream sl.key w.nonce w.ops.inLen w.ops.extraLen)
      some (s.goTo .q5 { w with xout := xc, macIn := w.macIn ++ xc })
    else some (s.goTo .q5 w)
  | .q5 =>
    let m := pad16 w.macIn ++ leBytes 8 w.ad.length ++ leBytes 8 (w.inp.length + w.extra.length)
    some (s.goTo (if c.kind = .opening then .q7 else .q6)
      { w with macIn := m, tag := (poly1305 w.polyKey m).take sl.tagLen })
  | .q6 => some (finishSeal c.rd w.ops w.out (w.xout ++ w.tag) (w.ops.extraLen + sl.tagLen) s)
  | .q7 => some (if memcmpBytes w.tag w.recv = 0 then s.goTo .q8 w else finish .authFail s)
  | .q8 => some (finishOpen c.rd w.ops (xorBytes w.inp (ccpKeystream sl.key w.nonce 0 w.ops.inLen)) s)
  | _ => none

/-- One phase of a sequenced command; none in a phase of another family's sequencer. -/
def phaseTick (c : AeadCommand) (s : State) : Option Outcome :=
  match c.family, c.kind with
  | .eax, .opening => eaxOpenTick c s
  | .eax, .sealing => eaxSealTick c s
  | .eax, .sealingX => none
  | .siv, _ => sivTick c s
  | .ccp, _ => ccpTick c s

end Sys2Proof.Machine
end

