-- ==== Sys2Proof/Machine/Engine.lean ====
section
/-! DEFINITION. The engine's transitions: one phase of its sequencer, and its whole turn (00_scope.md R12, 60_exceptions.md R464). -/

namespace Sys2Proof.Machine

/-- One phase of the engine (R257, R258, R311, R358). A command without a sequencer is one phase; so is a sequenced command in a
phase of another family's sequencer, which no run reaches. An illegal word completes with ILLEGAL (R127); an idle engine waits. -/
def engineTick (s : State) : Outcome :=
  match s.running with
  | none => .next s
  | some w =>
    match decode w with
    | .error _ => finish .illegal s
    | .ok i => ((sequenced i).bind (phaseTick · s)).getD (exec i s)

/-- The engine's phases one after another, at most n of them, until its command has completed. -/
def runTicks : Nat → State → Outcome
  | 0, s => .next s
  | n + 1, s =>
    if s.running = none then .next s
    else
      match engineTick s with
      | .next t => runTicks n t
      | .fault r => .fault r
      | .refused r => .refused r

/-- The engine's turn: the command it runs, from its acceptance to its completion (R12); a command that is already past its first
phase runs the phases it has left, of which there are fewer than 20 (R311 has the most, 14). An illegal word completes with
ILLEGAL (R127); an idle engine waits (R500). -/
def engineTurn (s : State) : Outcome :=
  match s.running with
  | none => .next s
  | some w =>
    match decode w with
    | .ok i => if s.phase = startPhase i then exec i s else runTicks 20 s
    | .error _ => finish .illegal s

end Sys2Proof.Machine
end

