-- ==== Sys2Proof/Machine/Regions.lean ====
section
/-! DEFINITION. The regions of a running command (20_memory.md R95, 70_reset_and_hazards.md R512), which the host must not touch
while the command runs, and its write set, which an abort leaves undefined (R506). -/

namespace Sys2Proof.Machine

/-! ### The regions of a command (R95, R512)

They are the regions that its registers and the words of its descriptor block name, whether or not its checks pass (DEDUCED,
log 21). -/

/-- The regions a command reads and the regions it writes. -/
structure Footprint where
  reads : List Region
  writes : List Region
  deriving DecidableEq, Repr

/-- No region at all. -/
def Footprint.none : Footprint := ⟨[], []⟩

/-- INIT: the descriptor block and the key (R203, R205). -/
def initFootprint (rs : Reg) (s : State) : Footprint :=
  let d := s.regNat rs
  let o := initOps s.mem d
  ⟨[⟨d, 24⟩, ⟨o.keyAddr, o.keyLen⟩], []⟩

/-- SEAL, SEALX, OPEN: the descriptor block and the regions of R209. -/
def aeadFootprint (k : Kind) (rs : Reg) (ctx : Ctx) (s : State) : Footprint :=
  let d := s.regNat rs
  let o := aeadOps s.mem d k
  ⟨aeadBlock d :: readRegions k o, writeRegions k o (s.slot ctx).tagLen⟩

/-- CT.MEMCMP: both strings (R176). -/
def memcmpFootprint (rs1 rs2 rs3 : Reg) (s : State) : Footprint :=
  ⟨[⟨s.regNat rs1, s.regNat rs3⟩, ⟨s.regNat rs2, s.regNat rs3⟩], []⟩

/-- CT.CMXOR: source and destination, and the destination written (R177). -/
def cmxorFootprint (rd rs1 rs2 : Reg) (s : State) : Footprint :=
  let dst : Region := ⟨s.regNat rd, s.regNat rs2⟩
  ⟨[dst, ⟨s.regNat rs1, s.regNat rs2⟩], [dst]⟩

/-- REC.RMPAD: the descriptor block and the record (R400, R403). -/
def rmpadFootprint (rs : Reg) (s : State) : Footprint :=
  let d := s.regNat rs
  let o := rmpadOps s.mem d
  ⟨[⟨d, 32⟩, ⟨o.dataAddr, o.inLen⟩], []⟩

/-- REC.XMAC: the descriptor block, the record and the output region (R400, R410). -/
def xmacFootprint (rs : Reg) (s : State) : Footprint :=
  let d := s.regNat rs
  let o := xmacOps s.mem d
  ⟨[⟨d, 40⟩, ⟨o.dataAddr, o.origLen⟩], [⟨o.outAddr, o.md⟩]⟩

/-- The regions of a command in the state in which it runs. -/
def footprint : Instr → State → Footprint
  | .ctMemcmp _ rs1 rs2 rs3, s => memcmpFootprint rs1 rs2 rs3 s
  | .ctCmxor rd rs1 rs2 _, s => cmxorFootprint rd rs1 rs2 s
  | .recRmpad _ rs, s => rmpadFootprint rs s
  | .recXmac rs, s => xmacFootprint rs s
  | .eaxInit rs _, s => initFootprint rs s
  | .eaxSeal _ rs ctx, s => aeadFootprint .sealing rs ctx s
  | .eaxOpen _ rs ctx, s => aeadFootprint .opening rs ctx s
  | .sivInit rs _, s => initFootprint rs s
  | .sivSeal _ rs ctx, s => aeadFootprint .sealing rs ctx s
  | .sivOpen _ rs ctx, s => aeadFootprint .opening rs ctx s
  | .ccpInit rs _, s => initFootprint rs s
  | .ccpSeal _ rs ctx, s => aeadFootprint .sealing rs ctx s
  | .ccpSealx _ rs ctx, s => aeadFootprint .sealingX rs ctx s
  | .ccpOpen _ rs ctx, s => aeadFootprint .opening rs ctx s
  | .nop, _ => Footprint.none
  | .ctMsb _ _, _ => Footprint.none
  | .ctIszero _ _, _ => Footprint.none
  | .ctEq _ _ _, _ => Footprint.none
  | .ctLt _ _ _, _ => Footprint.none
  | .ctGe _ _ _, _ => Footprint.none
  | .ctLe _ _ _, _ => Footprint.none
  | .ctGt _ _ _, _ => Footprint.none
  | .ctSel _ _ _ _, _ => Footprint.none
  | .ctMsb8 _ _, _ => Footprint.none
  | .ctIszero8 _ _, _ => Footprint.none
  | .ctEq8 _ _ _, _ => Footprint.none
  | .ctLt8 _ _ _, _ => Footprint.none
  | .ctGe8 _ _ _, _ => Footprint.none
  | .ctLe8 _ _ _, _ => Footprint.none
  | .ctGt8 _ _ _, _ => Footprint.none
  | .ctSel8 _ _ _ _, _ => Footprint.none
  | .aeadCleanup _, _ => Footprint.none

/-- The regions of the command that runs; none when the engine is idle or the word is illegal. -/
def State.runningFootprint (s : State) : Footprint :=
  match s.running with
  | none => Footprint.none
  | some w =>
    match decode w with
    | .error _ => Footprint.none
    | .ok i => footprint i s

/-! ### The write set (R506) -/

/-- SEAL, SEALX, OPEN: the output region and the tag region, when the checks of R206 pass (R209, R211). -/
def aeadWriteSet (f : Family) (k : Kind) (rs : Reg) (ctx : Ctx) (s : State) : List Region :=
  let d := s.regNat rs
  let o := aeadOps s.mem d k
  if descriptorOk s.platform d 96 && (aeadCheck s.platform f k d o (s.slot ctx)).isNone then
    writeRegions k o (s.slot ctx).tagLen
  else []

/-- CT.CMXOR: the destination, when both regions are accessible (R177). -/
def cmxorWriteSet (rd rs1 rs2 : Reg) (s : State) : List Region :=
  let dst : Region := ⟨s.regNat rd, s.regNat rs2⟩
  if s.platform.admits dst .readwrite && s.platform.admits ⟨s.regNat rs1, s.regNat rs2⟩ .read then [dst] else []

/-- REC.XMAC: the output region, when its checks pass (R410). -/
def xmacWriteSet (rs : Reg) (s : State) : List Region :=
  let d := s.regNat rs
  let o := xmacOps s.mem d
  if descriptorOk s.platform d 40 && (xmacCheck s.platform d o).isNone then [⟨o.outAddr, o.md⟩] else []

/-- The bytes a command can write in the state in which it runs: nothing where its checks fail (R211, R453, log 8). -/
def writeSet : Instr → State → List Region
  | .ctCmxor rd rs1 rs2 _, s => cmxorWriteSet rd rs1 rs2 s
  | .recXmac rs, s => xmacWriteSet rs s
  | .eaxSeal _ rs ctx, s => aeadWriteSet .eax .sealing rs ctx s
  | .eaxOpen _ rs ctx, s => aeadWriteSet .eax .opening rs ctx s
  | .sivSeal _ rs ctx, s => aeadWriteSet .siv .sealing rs ctx s
  | .sivOpen _ rs ctx, s => aeadWriteSet .siv .opening rs ctx s
  | .ccpSeal _ rs ctx, s => aeadWriteSet .ccp .sealing rs ctx s
  | .ccpSealx _ rs ctx, s => aeadWriteSet .ccp .sealingX rs ctx s
  | .ccpOpen _ rs ctx, s => aeadWriteSet .ccp .opening rs ctx s
  | .nop, _ => []
  | .ctMsb _ _, _ => []
  | .ctIszero _ _, _ => []
  | .ctEq _ _ _, _ => []
  | .ctLt _ _ _, _ => []
  | .ctGe _ _ _, _ => []
  | .ctLe _ _ _, _ => []
  | .ctGt _ _ _, _ => []
  | .ctSel _ _ _ _, _ => []
  | .ctMsb8 _ _, _ => []
  | .ctIszero8 _ _, _ => []
  | .ctEq8 _ _ _, _ => []
  | .ctLt8 _ _ _, _ => []
  | .ctGe8 _ _ _, _ => []
  | .ctLe8 _ _ _, _ => []
  | .ctGt8 _ _ _, _ => []
  | .ctSel8 _ _ _ _, _ => []
  | .ctMemcmp _ _ _ _, _ => []
  | .recRmpad _ _, _ => []
  | .aeadCleanup _, _ => []
  | .eaxInit _ _, _ => []
  | .sivInit _ _, _ => []
  | .ccpInit _ _, _ => []

/-- EAX.OPEN and CCP.OPEN write nothing before their tag has verified (R213, R506). -/
def verifiesFirst : Instr → Bool
  | .eaxOpen _ _ _ => true
  | .ccpOpen _ _ _ => true
  | .nop => false
  | .ctMsb _ _ => false
  | .ctIszero _ _ => false
  | .ctEq _ _ _ => false
  | .ctLt _ _ _ => false
  | .ctGe _ _ _ => false
  | .ctLe _ _ _ => false
  | .ctGt _ _ _ => false
  | .ctSel _ _ _ _ => false
  | .ctMsb8 _ _ => false
  | .ctIszero8 _ _ => false
  | .ctEq8 _ _ _ => false
  | .ctLt8 _ _ _ => false
  | .ctGe8 _ _ _ => false
  | .ctLe8 _ _ _ => false
  | .ctGt8 _ _ _ => false
  | .ctSel8 _ _ _ _ => false
  | .ctMemcmp _ _ _ _ => false
  | .ctCmxor _ _ _ _ => false
  | .recRmpad _ _ => false
  | .recXmac _ => false
  | .aeadCleanup _ => false
  | .eaxInit _ _ => false
  | .eaxSeal _ _ _ => false
  | .sivInit _ _ => false
  | .sivSeal _ _ _ => false
  | .sivOpen _ _ _ => false
  | .ccpInit _ _ => false
  | .ccpSeal _ _ _ => false
  | .ccpSealx _ _ _ => false

/-- The regions whose bytes an abort leaves to a draw: the write set of the running command, and for EAX.OPEN and CCP.OPEN only
in phase O5 and Q8 (R506, log 8). -/
def State.abortRegions (s : State) : List Region :=
  match s.running with
  | none => []
  | some w =>
    match decode w with
    | .error _ => []
    | .ok i => if verifiesFirst i && !(s.phase == .o5 || s.phase == .q8) then [] else writeSet i s

/-- Every byte of the regions drawn, the k-th draw and on; the memory and the next draw's number (R506). -/
def drawRegions : List Region → Nat → Memory → Memory × Nat
  | [], k, m => (m, k)
  | r :: rest, k, m => drawRegions rest (k + r.n) (Memory.drawBytes r.n r.addr k m)

end Sys2Proof.Machine
end

