-- ==== Sys2Proof/Machine/Window.lean ====
section
/-! DEFINITION. The register window (10_state.md R34 to R43, 20_memory.md R85), the resets (70_reset_and_hazards.md R500, R502,
R506) and the other moves of the host (60_exceptions.md R486). -/

namespace Sys2Proof.Machine

/-! ### Register contents -/

/-- A Bool as a field of one bit. -/
def bit (b : Bool) : Nat := if b then 1 else 0

/-- The ID register (R35). -/
def idWord : Word32 := 0x43544145#32

/-- The CAP register (R36): N_CTX, SIV_ACCEL, MAX_MD, WORD. -/
def capWord (accel : Bool) : Word32 :=
  BitVec.ofNat 32 (Config.nCtx + bit accel * 2 ^ 8 + Config.maxMd * 2 ^ 16 + Config.wordBits * 2 ^ 24)

/-- The CTRL register: IRQ_EN; SRST and the reserved bits read 0 (R37). -/
def ctrlWord (irqEn : Bool) : Word32 := BitVec.ofNat 32 (bit irqEn)

/-- A completion code's number (R42). -/
def Code.num : Code → Nat
  | .ok => 0
  | .config => 1
  | .tooLarge => 2
  | .authFail => 3
  | .bufSmall => 4
  | .illegal => 5
  | .busErr => 6
  | .ctxErr => 7

/-- The STATUS register (R38): BUSY, DONE, OVR, ERR, LASTOP; bits 3 and 31:16 read 0. -/
def statusWord (s : State) : Word32 :=
  BitVec.ofNat 32 (bit s.busy + bit s.done * 2 + bit s.ovr * 4 + s.err.num * 2 ^ 4 + s.lastop.toNat * 2 ^ 8)

/-- DESC_k (R46): key_len, nonce_len, overhead, max_tag_len, TRAILER, FAMILY. -/
def descWord (a : Alg) : Word :=
  BitVec.ofNat 64 (a.keyLen + a.nonceLen * 2 ^ 8 + 16 * 2 ^ 16 + 16 * 2 ^ 24 + bit a.trailer * 2 ^ 32 +
    a.family.nibble * 2 ^ 40)

/-- The algorithm of DESC_k (R46). -/
def algOfIndex : Nat → Alg
  | 0 => .eax128
  | 1 => .eax256
  | 2 => .siv128
  | 3 => .siv256
  | _ => .ccp

/-! ### Which register an access reaches (R34, R85) -/

/-- The half of a 64-bit register an access reaches. -/
inductive Half where
  | low | high | full
  deriving DecidableEq, Repr

/-- What a window access reaches. -/
inductive WinReg where
  | id | cap | ctrl | status | cmd
  | arg (i : Reg) (h : Half)
  | desc (k : Nat) (h : Half)
  | reserved
  deriving DecidableEq, Repr

/-- The register at an offset that holds 64-bit registers or is reserved, for an access of the given half. -/
def wideReg (off : Nat) (h : Half) : WinReg :=
  if 0x040 ≤ off ∧ off < 0x080 then .arg (Fin.ofNat 8 ((off - 0x040) / 8)) h
  else if 0x100 ≤ off ∧ off < 0x128 then .desc ((off - 0x100) / 8) h
  else .reserved

/-- What an access of a width at a window offset reaches, and none for an access of the wrong width or alignment (R34, R85). A
64-bit access to reserved offsets reaches a reserved offset (log 13). -/
def winReg (off width : Nat) : Option WinReg :=
  if width = 4 ∧ off % 4 = 0 then
    some (if off = 0x000 then .id
      else if off = 0x004 then .cap
      else if off = 0x008 then .ctrl
      else if off = 0x00C then .status
      else if off = 0x010 then .cmd
      else wideReg off (if off % 8 = 0 then .low else .high))
  else if width = 8 ∧ off % 8 = 0 ∧ 0x018 ≤ off then some (wideReg off .full)
  else none

/-- The offset of a bus address in the window, if it lies in it (R34). -/
def windowOffset (p : Platform) (a : Word) : Option Nat :=
  if p.base.toNat ≤ a.toNat ∧ a.toNat < p.base.toNat + 0x200 then some (a.toNat - p.base.toNat) else none

/-- The half of a 64-bit value that an access reads, zero-extended (R85). -/
def takeHalf (v : Word) : Half → Word
  | .low => v &&& 0xFFFFFFFF
  | .high => v >>> 32
  | .full => v

/-- A 64-bit value with one half written, the other unchanged (R85). -/
def putHalf (old v : Word) : Half → Word
  | .low => (old &&& 0xFFFFFFFF00000000) ||| (v &&& 0xFFFFFFFF)
  | .high => (v <<< 32) ||| (old &&& 0xFFFFFFFF)
  | .full => v

/-! ### Reset (R500, R502, R506) -/

/-- Reset: every piece of CTAE's state at its reset value (R50), SIV_ACCEL latched anew; a running command ends without a
completion and its write set is drawn (R506); no other byte of bus memory changes. The host's own side is kept. -/
def State.resetNow (s : State) : State :=
  let r := drawRegions s.abortRegions s.free s.mem
  { State.resetOn s.platform with mem := r.1, free := r.2, moves := s.moves, readData := s.readData }

/-! ### Window accesses -/

/-- A read of a window register: the value, or none where the value is unspecified (R34 to R43, R51). -/
def winValue (s : State) : WinReg → Option Word
  | .id => some (idWord.zeroExtend 64)
  | .cap => some ((capWord s.sivAccel).zeroExtend 64)
  | .ctrl => some ((ctrlWord s.irqEn).zeroExtend 64)
  | .status => some ((statusWord s).zeroExtend 64)
  | .cmd => some 0
  | .arg i h => if s.busy then none else some (takeHalf (s.reg i) h)
  | .desc k h => some (takeHalf (descWord (algOfIndex k)) h)
  | .reserved => some 0

/-- The half an access to a window register reads; 32-bit registers read their 32 bits. -/
def WinReg.half : WinReg → Half
  | .arg _ h => h
  | .desc _ h => h
  | .id => .low
  | .cap => .low
  | .ctrl => .low
  | .status => .low
  | .cmd => .low
  | .reserved => .full

/-- The host reads a value; nothing else changes (R88). -/
def State.hostGets (s : State) (v : Word) : State := { s with readData := v }

/-- The host reads an unspecified value, which the model draws (R51, R85): the bits of the draw that h says. DESIGN CHOICE, safe
(log 7): R51 and R85 do not say how many bits an unspecified value has. -/
def State.hostDraws (s : State) (h : Half) : State :=
  { s with readData := takeHalf (Config.freeWord s.free) h, free := s.free + 1 }

/-- A read access to the window (R85, R88, R51). DESIGN CHOICE, safe (log 7): a malformed access (8 or 16 bits wide, misaligned, or
64 bits wide at a 32-bit register) returns all 64 drawn bits, a 32-bit read of A_i while BUSY 32 of them. -/
def winRead (off width : Nat) (s : State) : State :=
  match winReg off width with
  | none => s.hostDraws .full
  | some r =>
    match winValue s r with
    | none => s.hostDraws r.half
    | some v => s.hostGets v

/-- A CTRL write (R37): SRST resets and discards IRQ_EN; otherwise IRQ_EN is bit 0. Accepted whether or not BUSY = 1. -/
def ctrlWrite (v : Word) (s : State) : State :=
  if v.getLsbD 1 then s.resetNow else { s with irqEn := v.getLsbD 0 }

/-- A STATUS write (R39): bit 1 clears DONE, bit 2 clears OVR. -/
def statusWrite (v : Word) (s : State) : State :=
  { s with done := s.done && !v.getLsbD 1, ovr := s.ovr && !v.getLsbD 2 }

/-- A CMD write (R40): accepted when BUSY = 0, otherwise discarded with OVR. -/
def cmdWrite (v : Word) (s : State) : State :=
  if s.busy then { s with ovr := true } else s.accept (v.truncate 32)

/-- An A_i write (R31, R51, R85): ignored while BUSY = 1. -/
def argWrite (i : Reg) (h : Half) (v : Word) (s : State) : State :=
  if s.busy then s else s.setReg i (putHalf (s.reg i) v h)

/-- A write access to the window (R34 to R43, R85, R88). -/
def winWrite (off width : Nat) (v : Word) (s : State) : State :=
  match winReg off width with
  | none => s
  | some .id => s
  | some .cap => s
  | some .ctrl => ctrlWrite v s
  | some .status => statusWrite v s
  | some .cmd => cmdWrite v s
  | some (.arg i h) => argWrite i h v s
  | some (.desc _ _) => s
  | some .reserved => s

/-! ### The host's moves (R486) -/

/-- The host's write would touch a byte of a region of the running command (R95). -/
def racesWrite (s : State) (a n : Nat) : Bool :=
  let f := s.runningFootprint
  (f.reads ++ f.writes).any fun r => r.overlaps ⟨a, n⟩

/-- The host's read would touch a byte of a region the running command writes (R95). -/
def racesRead (s : State) (a : Nat) : Bool := s.runningFootprint.writes.any fun r => r.covers a

/-- One move of the host. -/
def hostMove (h : HostMove) (s : State) : Outcome :=
  match h with
  | .winWrite a width v =>
    match windowOffset s.platform a with
    | none => .next s
    | some off => .next (winWrite off width v s)
  | .winRead a width =>
    match windowOffset s.platform a with
    | none => .next s
    | some off => .next (winRead off width s)
  | .busWrite a data =>
    if a.toNat + data.length > Config.busSize then .fault .noSuchAddress
    else if racesWrite s a.toNat data.length then .refused .hostRace
    else .next { s with mem := Memory.writeBytes s.mem a.toNat data }
  | .busRead a =>
    if racesRead s a.toNat then .refused .hostRace
    else .next (s.hostGets (zext64 (Memory.read s.mem a.toNat)))
  | .powerOn => .next s.resetNow

end Sys2Proof.Machine
end

