-- ==== Sys2Proof/Machine/Step.lean ====
section
/-! DEFINITION. One transition of the machine: a move of the host, one phase of the engine's sequencer, or the engine's turn
(60_exceptions.md R464, log 2). -/

namespace Sys2Proof.Machine

/-- One transition. The head of `moves` says which; with no move left it is the engine's turn (R464, R521). -/
def step (s : State) : Host.Outcome State Fault Refusal :=
  match s.moves with
  | [] => engineTurn s
  | .engine :: rest => engineTurn { s with moves := rest }
  | .tick :: rest => engineTick { s with moves := rest }
  | .host h :: rest => hostMove h { s with moves := rest }

/-- The state in which the command word w has just been accepted and the engine has the turn: where CTAE takes its next command
from, having no program counter (R32, R40, R41, log 1). -/
def State.withFetchWord (s : State) (nbits w : Nat) : State :=
  State.accept { s with moves := [] } (BitVec.ofNat 32 (w % 2 ^ nbits))

end Sys2Proof.Machine
end

