-- ==== Sys2Proof/Safety.lean ====
section
/-! DEFINITION. The terms the statements use: the invariant of the machine, what a completion leaves unchanged, when an AEAD
command executes normally, and what is public. -/

namespace Sys2Proof.Machine

/-! ### The parts of the invariant -/

/-- The addresses rise strictly from a lower bound on, and no listed byte is what an unlisted address reads as. -/
def Memory.wfFrom : Nat → Memory → Bool
  | _, [] => true
  | low, (a, v) :: rest => decide (low ≤ a) && decide (v ≠ Config.unwrittenByte) && Memory.wfFrom (a + 1) rest

/-- The memory is in its canonical form. -/
def Memory.wf (m : Memory) : Bool := Memory.wfFrom 0 m

/-- Every listed address is a bus address (R80). -/
def Memory.bounded (m : Memory) : Bool := m.all fun c => decide (c.1 < Config.busSize)

/-- A slot as INIT, CLEANUP and reset leave it (R44, R45, R250, R300, R350): empty, or a context whose key is padded with zeros to
32 bytes, whose tag length its family accepts, and whose masks are EAX's (R252) or 0. -/
def Slot.wf (sl : Slot) : Prop :=
  if sl.valid then
    sl.key.length = 32 ∧ sl.key.drop sl.alg.keyLen = zeros (32 - sl.alg.keyLen) ∧
      sl.alg.family.tagOk sl.tagLen = true ∧
      (sl.alg.family = .eax → sl.maskB = dbl (aesEnc sl.rawKey (zeros 16)) ∧ sl.maskP = dbl sl.maskB) ∧
      (sl.alg.family ≠ .eax → sl.maskB = zeros 16 ∧ sl.maskP = zeros 16)
  else sl = Slot.empty

/-- The phases of the sequencer of a command's family and kind (R257, R258, R311, R358). -/
def phasesOf (c : AeadCommand) : List Phase :=
  match c.family, c.kind with
  | .eax, .opening => [.o0, .o1, .o2, .o3, .o4, .o5]
  | .eax, _ => [.s0, .s1, .s2, .s3, .s4, .s5]
  | .siv, .opening =>
    [.p0, .kdf 0, .kdf 1, .kdf 2, .kdf 3, .kdf 4, .kdf 5, .assemble, .counter, .ctr, .hash, .preTag, .tag, .verify]
  | .siv, _ =>
    [.p0, .kdf 0, .kdf 1, .kdf 2, .kdf 3, .kdf 4, .kdf 5, .assemble, .hash, .preTag, .tag, .counter, .ctr]
  | .ccp, .opening => [.q0, .q1, .q2, .q3, .q4, .q5, .q7, .q8]
  | .ccp, _ => [.q0, .q1, .q2, .q3, .q4, .q5, .q6]

/-- The phase is one the running command can be in: idle for an illegal word and for a command without a sequencer (R49). -/
def phaseFits (w : Word32) (p : Phase) : Prop :=
  match decode w with
  | .error _ => p = .idle
  | .ok i =>
    match sequenced i with
    | none => p = .idle
    | some c => p ∈ phasesOf c

/-! ### Frames -/

/-- t is s after a completion with code c (R41), as far as everything but registers, slots, bus memory and the bus trace goes. -/
structure Completed (c : Code) (s t : State) : Prop where
  err : t.err = c
  done : t.done = true
  running : t.running = none
  phase : t.phase = .idle
  work : t.work = Work.cleared
  irqEn : t.irqEn = s.irqEn
  ovr : t.ovr = s.ovr
  lastop : t.lastop = s.lastop
  sivAccel : t.sivAccel = s.sivAccel
  platform : t.platform = s.platform
  moves : t.moves = s.moves
  readData : t.readData = s.readData
  free : t.free = s.free

/-- Every argument register outside the list is unchanged. -/
def SameRegsExcept (rs : List Reg) (s t : State) : Prop := ∀ r : Reg, r ∉ rs → t.reg r = s.reg r

/-- Every slot outside the list is unchanged. -/
def SameSlotsExcept (cs : List Ctx) (s t : State) : Prop := ∀ c : Ctx, c ∉ cs → t.slot c = s.slot c

/-- Every byte of bus memory outside the regions reads as before. -/
def SameMemOutside (rs : List Region) (s t : State) : Prop :=
  ∀ a : Nat, (∀ r ∈ rs, r.covers a = false) → Memory.read t.mem a = Memory.read s.mem a

/-- A completion with code c that writes no register, no slot and no byte of bus memory. -/
def NothingWritten (c : Code) (s t : State) : Prop :=
  Completed c s t ∧ SameRegsExcept [] s t ∧ SameSlotsExcept [] s t ∧ SameMemOutside [] s t

/-! ### What a command can write and raise -/

/-- The registers a command writes when it completes with OK (R31): rd, and rd + 1 for REC.RMPAD. CT.CMXOR's rd is read only. -/
def destinations : Instr → List Reg
  | .nop => []
  | .ctMsb rd _ => [rd]
  | .ctIszero rd _ => [rd]
  | .ctEq rd _ _ => [rd]
  | .ctLt rd _ _ => [rd]
  | .ctGe rd _ _ => [rd]
  | .ctLe rd _ _ => [rd]
  | .ctGt rd _ _ => [rd]
  | .ctSel rd _ _ _ => [rd]
  | .ctMsb8 rd _ => [rd]
  | .ctIszero8 rd _ => [rd]
  | .ctEq8 rd _ _ => [rd]
  | .ctLt8 rd _ _ => [rd]
  | .ctGe8 rd _ _ => [rd]
  | .ctLe8 rd _ _ => [rd]
  | .ctGt8 rd _ _ => [rd]
  | .ctSel8 rd _ _ _ => [rd]
  | .ctMemcmp rd _ _ _ => [rd]
  | .ctCmxor _ _ _ _ => []
  | .recRmpad rd _ => [rd, rd + 1]
  | .recXmac _ => []
  | .aeadCleanup _ => []
  | .eaxInit _ _ => []
  | .eaxSeal rd _ _ => [rd]
  | .eaxOpen rd _ _ => [rd]
  | .sivInit _ _ => []
  | .sivSeal rd _ _ => [rd]
  | .sivOpen rd _ _ => [rd]
  | .ccpInit _ _ => []
  | .ccpSeal rd _ _ => [rd]
  | .ccpSealx rd _ _ => [rd]
  | .ccpOpen rd _ _ => [rd]

/-- The completion codes of a well-formed command (R451), OK among them. -/
def codesOf : Instr → List Code
  | .nop => [.ok]
  | .ctMsb _ _ => [.ok]
  | .ctIszero _ _ => [.ok]
  | .ctEq _ _ _ => [.ok]
  | .ctLt _ _ _ => [.ok]
  | .ctGe _ _ _ => [.ok]
  | .ctLe _ _ _ => [.ok]
  | .ctGt _ _ _ => [.ok]
  | .ctSel _ _ _ _ => [.ok]
  | .ctMsb8 _ _ => [.ok]
  | .ctIszero8 _ _ => [.ok]
  | .ctEq8 _ _ _ => [.ok]
  | .ctLt8 _ _ _ => [.ok]
  | .ctGe8 _ _ _ => [.ok]
  | .ctLe8 _ _ _ => [.ok]
  | .ctGt8 _ _ _ => [.ok]
  | .ctSel8 _ _ _ _ => [.ok]
  | .ctMemcmp _ _ _ _ => [.ok, .busErr]
  | .ctCmxor _ _ _ _ => [.ok, .busErr]
  | .recRmpad _ _ => [.ok, .bufSmall, .busErr]
  | .recXmac _ => [.ok, .config, .busErr]
  | .aeadCleanup _ => [.ok]
  | .eaxInit _ _ => [.ok, .config, .busErr, .ctxErr]
  | .eaxSeal _ _ _ => [.ok, .config, .tooLarge, .bufSmall, .busErr, .ctxErr]
  | .eaxOpen _ _ _ => [.ok, .config, .tooLarge, .authFail, .bufSmall, .busErr, .ctxErr]
  | .sivInit _ _ => [.ok, .config, .busErr, .ctxErr]
  | .sivSeal _ _ _ => [.ok, .config, .tooLarge, .bufSmall, .busErr, .ctxErr]
  | .sivOpen _ _ _ => [.ok, .config, .tooLarge, .authFail, .bufSmall, .busErr, .ctxErr]
  | .ccpInit _ _ => [.ok, .config, .busErr, .ctxErr]
  | .ccpSeal _ _ _ => [.ok, .config, .tooLarge, .bufSmall, .busErr, .ctxErr]
  | .ccpSealx _ _ _ => [.ok, .config, .tooLarge, .bufSmall, .busErr, .ctxErr]
  | .ccpOpen _ _ _ => [.ok, .config, .tooLarge, .authFail, .bufSmall, .busErr, .ctxErr]

/-- The INIT command of a family (R205). -/
def Family.initInstr : Family → Reg → Ctx → Instr
  | .eax => .eaxInit
  | .siv => .sivInit
  | .ccp => .ccpInit

/-- A completion with OK that writes the value v to rd and nothing else, and makes no bus access. -/
def WritesReg (rd : Reg) (v : Word) (s t : State) : Prop :=
  Completed .ok s t ∧ t.reg rd = v ∧ SameRegsExcept [rd] s t ∧ SameSlotsExcept [] s t ∧ SameMemOutside [] s t ∧ t.bus = s.bus

/-! ### When INIT, SEAL, SEALX and OPEN execute normally -/

/-- Two regions share no byte (R82). -/
def Region.apart (r q : Region) : Prop := r.n = 0 ∨ q.n = 0 ∨ r.addr + r.n ≤ q.addr ∨ q.addr + q.n ≤ r.addr

/-- The descriptor block of n bytes at x[rs] can be read (R202). -/
def DescriptorReady (rs : Reg) (n : Nat) (s : State) : Prop :=
  s.regNat rs % 8 = 0 ∧ s.platform.accessible (s.regNat rs) n .read = true

/-- INIT's descriptor words in state s. -/
def State.initOps (s : State) (rs : Reg) : InitOps := Machine.initOps s.mem (s.regNat rs)

/-- SEAL's, SEALX's and OPEN's descriptor words in state s. -/
def State.aeadOps (s : State) (rs : Reg) (k : Kind) : AeadOps := Machine.aeadOps s.mem (s.regNat rs) k

/-- The operand snapshot of SEAL, SEALX and OPEN in state s. -/
def State.snapshot (s : State) (rs : Reg) (k : Kind) : Work := aeadSnapshot k (s.aeadOps rs k) s.mem

/-- The conditions under which INIT raises nothing (R205): the family, and the algorithm its key length gives. -/
structure InitReady (f : Family) (rs : Reg) (ctx : Ctx) (alg : Alg) (s : State) : Prop where
  descriptor : DescriptorReady rs 24 s
  empty : (s.slot ctx).valid = false
  keyLen : f.algOfKeyLen (s.initOps rs).keyLen = some alg
  tagLen : f.tagOk (initTagLen (s.initOps rs)) = true
  key : s.platform.accessible (s.initOps rs).keyAddr (s.initOps rs).keyLen .read = true

/-- The lengths are within the limits of R207. -/
def WithinLimits (alg : Alg) (o : AeadOps) : Prop :=
  (alg.family = .ccp → o.inLen + o.extraLen ≤ 2 ^ 38 - 64) ∧ (alg.family ≠ .ccp → o.inLen ≤ 2 ^ 36) ∧ o.adLen < 2 ^ 61

/-- The conditions under which the prologue of SEAL, SEALX and OPEN raises nothing (R206 to R209, R92, log 10). -/
structure AeadReady (f : Family) (k : Kind) (rs : Reg) (ctx : Ctx) (s : State) : Prop where
  descriptor : DescriptorReady rs 96 s
  valid : (s.slot ctx).valid = true
  family : (s.slot ctx).alg.family = f
  nonceLen : (s.aeadOps rs k).nonceLen = (s.slot ctx).alg.nonceLen
  tagLen : k = .opening → (s.aeadOps rs k).tagLen = (s.slot ctx).tagLen
  limits : WithinLimits (s.slot ctx).alg (s.aeadOps rs k)
  outCap : (s.aeadOps rs k).inLen ≤ (s.aeadOps rs k).outCap
  tagCap : k ≠ .opening → (s.aeadOps rs k).extraLen + (s.slot ctx).tagLen ≤ (s.aeadOps rs k).tagLen
  outApart : outRegion (s.aeadOps rs k) = inRegion (s.aeadOps rs k) ∨
    (outRegion (s.aeadOps rs k)).apart (inRegion (s.aeadOps rs k))
  outApartReads : ∀ r ∈ otherReads k (s.aeadOps rs k), (outRegion (s.aeadOps rs k)).apart r
  tagApart : ∀ w ∈ otherWrites k (s.aeadOps rs k) (s.slot ctx).tagLen,
    w.apart (outRegion (s.aeadOps rs k)) ∧ ∀ r ∈ readRegions k (s.aeadOps rs k), w.apart r
  blockApart : ∀ w ∈ writeRegions k (s.aeadOps rs k) (s.slot ctx).tagLen, w.apart (aeadBlock (s.regNat rs))
  reads : ∀ r ∈ readRegions k (s.aeadOps rs k), s.platform.admits r .read = true
  writes : ∀ w ∈ writeRegions k (s.aeadOps rs k) (s.slot ctx).tagLen, s.platform.admits w .write = true

/-- The conditions under which REC.RMPAD raises nothing (R402, R403). -/
structure RmpadReady (rd rs : Reg) (s : State) : Prop where
  even : rd.val % 2 = 0
  descriptor : DescriptorReady rs 32 s
  overhead : 1 + (rmpadOps s.mem (s.regNat rs)).macSize ≤ (rmpadOps s.mem (s.regNat rs)).inLen
  record : s.platform.accessible (rmpadOps s.mem (s.regNat rs)).dataAddr (rmpadOps s.mem (s.regNat rs)).inLen .read = true

/-- The conditions under which REC.XMAC raises nothing (R410, R412, R92, log 10). -/
structure XmacReady (rs : Reg) (s : State) : Prop where
  descriptor : DescriptorReady rs 40 s
  mdLow : 1 ≤ (xmacOps s.mem (s.regNat rs)).md
  mdHigh : (xmacOps s.mem (s.regNat rs)).md ≤ 64
  mdRecord : (xmacOps s.mem (s.regNat rs)).md ≤ (xmacOps s.mem (s.regNat rs)).origLen
  apart : Region.apart ⟨(xmacOps s.mem (s.regNat rs)).outAddr, (xmacOps s.mem (s.regNat rs)).md⟩
    ⟨(xmacOps s.mem (s.regNat rs)).dataAddr, (xmacOps s.mem (s.regNat rs)).origLen⟩
  blockApart : Region.apart ⟨(xmacOps s.mem (s.regNat rs)).outAddr, (xmacOps s.mem (s.regNat rs)).md⟩ ⟨s.regNat rs, 40⟩
  record : s.platform.accessible (xmacOps s.mem (s.regNat rs)).dataAddr (xmacOps s.mem (s.regNat rs)).origLen .read = true
  output : s.platform.accessible (xmacOps s.mem (s.regNat rs)).outAddr (xmacOps s.mem (s.regNat rs)).md .write = true

/-! ### The invariant of the machine -/

/-- A sequenced command past its prologue (R90, R257, R258, R311, R358): its checks pass, its snapshot is of its descriptor and its
input regions, and no buffer that a phase writes to memory is longer than the region it is written to. -/
structure BuffersFit (c : AeadCommand) (s : State) : Prop where
  ready : AeadReady c.family c.kind c.rs c.ctx s
  ops : s.work.ops = s.aeadOps c.rs c.kind
  inp : s.work.inp.length = (s.aeadOps c.rs c.kind).inLen
  extra : s.work.extra.length = (s.aeadOps c.rs c.kind).extraLen
  omacC : s.work.omacC.length ≤ 16
  out : s.work.out.length ≤ (s.aeadOps c.rs c.kind).inLen
  xout : s.work.xout.length ≤ (s.aeadOps c.rs c.kind).extraLen
  tag : s.work.tag.length ≤ (s.slot c.ctx).tagLen

/-- What holds of every state that a run reaches. -/
structure State.Inv (s : State) : Prop where
  /-- Bus memory is in canonical form, within the bus space. -/
  memWf : Memory.wf s.mem = true
  memBounded : Memory.bounded s.mem = true
  /-- Every slot is empty or a well-formed context. -/
  slotsWf : ∀ c : Ctx, (s.slot c).wf
  /-- BUSY and DONE are never both 1 (R38, R41). -/
  notDone : s.running.isSome → s.done = false
  /-- An idle engine has an idle sequencer and cleared buffers (R49). -/
  idleCleared : s.running = none → s.phase = .idle ∧ s.work = Work.cleared
  /-- A running command is in a phase of its own sequencer. -/
  phaseOk : ∀ w, s.running = some w → phaseFits w s.phase
  /-- Past its first phase, a running command's checks have passed and its buffers fit its regions. -/
  buffers : ∀ w i c, s.running = some w → decode w = .ok i → sequenced i = some c → s.phase ≠ startPhase i → BuffersFit c s
  /-- CAP.SIV_ACCEL is the platform's parameter (R47). -/
  accel : s.sivAccel = s.platform.sivAccel

/-! ### Reset -/

/-- Every piece of CTAE's state but bus memory is at its reset value (R50, R500). -/
structure InReset (t : State) : Prop where
  regs : ∀ r : Reg, t.reg r = 0
  irqEn : t.irqEn = false
  busy : t.busy = false
  done : t.done = false
  ovr : t.ovr = false
  err : t.err = .ok
  lastop : t.lastop = 0
  irq : t.irq = false
  slots : ∀ c : Ctx, t.slot c = Slot.empty
  phase : t.phase = .idle
  work : t.work = Work.cleared
  accel : t.sivAccel = t.platform.sivAccel

/-- The state on a platform whose SIV_ACCEL is b (R47). -/
def State.withAccel (s : State) (b : Bool) : State :=
  { s with sivAccel := b, platform := { s.platform with sivAccel := b } }

/-! ### Public inputs (R13, R522) -/

/-- Two states that agree on every public input of INIT: the slot's occupancy and the descriptor block. -/
def PublicInit (rs : Reg) (ctx : Ctx) (s t : State) : Prop :=
  s.reg rs = t.reg rs ∧ s.initOps rs = t.initOps rs ∧ (s.slot ctx).valid = (t.slot ctx).valid

/-- Two states that agree on every public input of SEAL, SEALX or OPEN: the descriptor block, and the slot's occupancy, algorithm
and tag length. -/
def PublicAead (k : Kind) (rs : Reg) (ctx : Ctx) (s t : State) : Prop :=
  s.reg rs = t.reg rs ∧ s.aeadOps rs k = t.aeadOps rs k ∧ (s.slot ctx).valid = (t.slot ctx).valid ∧
    (s.slot ctx).alg = (t.slot ctx).alg ∧ (s.slot ctx).taglen = (t.slot ctx).taglen

/-- Two states that agree on every public input of the command (R178, R215, R400, R405, R413, R522). -/
def PublicEq (i : Instr) (s t : State) : Prop :=
  s.platform = t.platform ∧ s.bus = t.bus ∧
    match i with
    | .ctMemcmp _ rs1 rs2 rs3 => s.reg rs1 = t.reg rs1 ∧ s.reg rs2 = t.reg rs2 ∧ s.reg rs3 = t.reg rs3
    | .ctCmxor rd rs1 rs2 _ => s.reg rd = t.reg rd ∧ s.reg rs1 = t.reg rs1 ∧ s.reg rs2 = t.reg rs2
    | .recRmpad _ rs => s.reg rs = t.reg rs ∧ rmpadOps s.mem (s.regNat rs) = rmpadOps t.mem (t.regNat rs)
    | .recXmac rs =>
      s.reg rs = t.reg rs ∧
        { xmacOps s.mem (s.regNat rs) with inLen := 0 } = { xmacOps t.mem (t.regNat rs) with inLen := 0 }
    | .eaxInit rs ctx => PublicInit rs ctx s t
    | .sivInit rs ctx => PublicInit rs ctx s t
    | .ccpInit rs ctx => PublicInit rs ctx s t
    | .eaxSeal _ rs ctx => PublicAead .sealing rs ctx s t
    | .eaxOpen _ rs ctx => PublicAead .opening rs ctx s t
    | .sivSeal _ rs ctx => PublicAead .sealing rs ctx s t
    | .sivOpen _ rs ctx => PublicAead .opening rs ctx s t
    | .ccpSeal _ rs ctx => PublicAead .sealing rs ctx s t
    | .ccpSealx _ rs ctx => PublicAead .sealingX rs ctx s t
    | .ccpOpen _ rs ctx => PublicAead .opening rs ctx s t
    | .nop => True
    | .ctMsb _ _ => True
    | .ctIszero _ _ => True
    | .ctEq _ _ _ => True
    | .ctLt _ _ _ => True
    | .ctGe _ _ _ => True
    | .ctLe _ _ _ => True
    | .ctGt _ _ _ => True
    | .ctSel _ _ _ _ => True
    | .ctMsb8 _ _ => True
    | .ctIszero8 _ _ => True
    | .ctEq8 _ _ _ => True
    | .ctLt8 _ _ _ => True
    | .ctGe8 _ _ _ => True
    | .ctLe8 _ _ _ => True
    | .ctGt8 _ _ _ => True
    | .ctSel8 _ _ _ _ => True
    | .aeadCleanup _ => True

end Sys2Proof.Machine
end

