-- ==== Sys2Proof/Certificates/Slice0/Obligations.lean ====
section
/-! DEFINITION. The statements for the provers. A statement about an instruction says its result, its completion and its frame
at once: `exec` answers a next state, with the values the rules give, and everything else as before. Memory is compared through
`Memory.read`, the read of one byte. -/

section Slice0
open Sys2Proof Sys2Proof.Machine

/-! ### Encoding (30_encoding.md) -/

/-- Decoding the encoding of a well-formed command gives it back, with every operand at every value (R121 to R128). -/
def Obligations.DecodeOfEncode : Prop := ∀ i : Instr, WellFormed i → decode (encode i) = .ok i

/-- A word the decoder accepts is the encoding of the command it gives, which is well-formed: no two words decode to one command
and no bit of a legal word is dropped (R125, R128). -/
def Obligations.EncodeOfDecode : Prop := ∀ (w : Word32) (i : Instr), decode w = .ok i → WellFormed i ∧ encode i = w

/-- Illegal words (R127): a word is illegal exactly when no well-formed command is encoded by it; every reserved op byte is
illegal; an illegal word is accepted, completes with ILLEGAL, accesses no bus address and writes nothing but STATUS. -/
def Obligations.IllegalWords : Prop :=
  (∀ w : Word32, (∃ e, decode w = .error e) ↔ ∀ i, WellFormed i → encode i ≠ w) ∧
  (∀ w : Word32,
    let op := (w.extractLsb' 24 8).toNat
    (0x01 ≤ op ∧ op ≤ 0x0F) ∨ (0x22 ≤ op ∧ op ≤ 0x2F) ∨ (0x32 ≤ op ∧ op ≤ 0x3F) ∨ (0x41 ≤ op ∧ op ≤ 0x4F) ∨
      (0x53 ≤ op ∧ op ≤ 0x5F) ∨ (0x63 ≤ op ∧ op ≤ 0x6F) ∨ 0x74 ≤ op →
    decode w = .error (.reservedOpcode (w.extractLsb' 24 8))) ∧
  (∀ (s : State) (a v : Word), s.busy = false → a.toNat = s.platform.base.toNat + 0x010 →
    (∃ e, decode (v.truncate 32) = .error e) →
    ∃ t u, hostMove (.winWrite a 4 v) s = .next t ∧ t.running = some (v.truncate 32) ∧
      engineTurn t = .next u ∧ u = t.complete .illegal ∧ NothingWritten .illegal t u ∧ u.bus = [] ∧
      SameRegsExcept [] s u ∧ SameSlotsExcept [] s u ∧ SameMemOutside [] s u)

/-- Words of 95_test_vectors.md L2.3 and L3 decode as that file says. -/
def Obligations.DecodedWords : Prop :=
  decode 0x13408000#32 = .ok (.ctLt 2 0 1) ∧ decode 0x19FC0000#32 = .ok (.ctIszero8 7 7) ∧
  decode 0x1F099000#32 = .ok (.ctSel8 0 2 3 1) ∧ decode 0x17642000#32 = .ok (.ctSel 3 1 0 2) ∧
  decode 0x21053000#32 = .ok (.ctCmxor 0 1 2 3) ∧ decode 0x2082A000#32 = .ok (.ctMemcmp 4 0 5 2) ∧
  decode 0x30DC0000#32 = .ok (.recRmpad 6 7) ∧ decode 0x311C0000#32 = .ok (.recXmac 7) ∧
  decode 0x40000300#32 = .ok (.aeadCleanup 3) ∧ decode 0x60140300#32 = .ok (.sivInit 5 3) ∧
  decode 0x62280000#32 = .ok (.sivOpen 1 2 0) ∧ decode 0x72FC0300#32 = .ok (.ccpSealx 7 7 3) ∧
  decode 0x00000000#32 = .ok .nop ∧ decode 0x00000001#32 = .error (.badField "NOP") ∧
  decode 0x53000000#32 = .error (.reservedOpcode 0x53#8) ∧ decode 0x50000400#32 = .error (.badField "EAX.INIT") ∧
  decode 0x30200000#32 = .error (.badField "REC.RMPAD")

/-! ### Steps, acceptance and STATUS (10_state.md) -/

/-- A step runs the decoded command: when the engine has the turn and runs word w, just accepted, and w decodes to i, the step is
exec of i on the state without that turn; a command word just placed by withFetchWord runs as exec of its command; a command
already past its first phase runs the phases it has left (PhasesRefineCommand says that they end as exec); a phase or a host move at
the head of `moves` is that phase or move; an idle engine's turn changes nothing. The list of moves, the phase as a turn of its own
and withFetchWord are the model's own (log 1, log 2, log 11). -/
def Obligations.StepRunsDecodedCommand : Prop :=
  (∀ (s : State) (w : Word32) (i : Instr) (rest : List Move), s.running = some w → decode w = .ok i →
    (s.phase = startPhase i → (s.moves = [] → step s = exec i s) ∧
      (s.moves = .engine :: rest → step s = exec i { s with moves := rest })) ∧
    (s.phase ≠ startPhase i → (s.moves = [] → step s = runTicks 20 s) ∧
      (s.moves = .engine :: rest → step s = runTicks 20 { s with moves := rest }))) ∧
  (∀ (s : State) (w : Word32) (i : Instr), decode w = .ok i →
    step (s.withFetchWord 32 w.toNat) = exec i (State.accept { s with moves := [] } w)) ∧
  (∀ (s : State) (rest : List Move), s.moves = .tick :: rest → step s = engineTick { s with moves := rest }) ∧
  (∀ (s : State) (h : HostMove) (rest : List Move), s.moves = .host h :: rest →
    step s = hostMove h { s with moves := rest }) ∧
  (∀ (s : State), s.running = none → s.moves = [] → step s = .next s)

/-- A CMD write (R40, R41): on an idle engine it accepts the word, with BUSY 1, DONE 0 and LASTOP its op byte, and changes no
other STATUS field, register, slot or byte of memory; on a busy engine it only sets OVR; CMD reads 0. -/
def Obligations.CmdWrite : Prop :=
  ∀ (s : State) (a v : Word), a.toNat = s.platform.base.toNat + 0x010 →
    (s.busy = false → ∃ t, hostMove (.winWrite a 4 v) s = .next t ∧ t.busy = true ∧ t.running = some (v.truncate 32) ∧
      t.done = false ∧ t.lastop = (v.truncate 32).extractLsb' 24 8 ∧ t.err = s.err ∧ t.ovr = s.ovr ∧ t.irqEn = s.irqEn ∧
      t.sivAccel = s.sivAccel ∧ SameRegsExcept [] s t ∧ SameSlotsExcept [] s t ∧ SameMemOutside [] s t) ∧
    (s.busy = true → hostMove (.winWrite a 4 v) s = .next { s with ovr := true }) ∧
    hostMove (.winRead a 4) s = .next { s with readData := 0 }

/-- A STATUS write (R39) clears DONE where bit 1 is 1 and OVR where bit 2 is 1, and changes nothing else. -/
def Obligations.StatusWriteClears : Prop :=
  ∀ (s : State) (a v : Word), a.toNat = s.platform.base.toNat + 0x00C →
    ∃ t, hostMove (.winWrite a 4 v) s = .next t ∧ (v.getLsbD 1 = true → t.done = false) ∧
      (v.getLsbD 1 = false → t.done = s.done) ∧ (v.getLsbD 2 = true → t.ovr = false) ∧
      (v.getLsbD 2 = false → t.ovr = s.ovr) ∧ t = { s with done := t.done, ovr := t.ovr }

/-- A STATUS read (R38): the fields at their places, ERR by the numbers of R42, every other bit 0, and no side effect (R88). -/
def Obligations.StatusRead : Prop :=
  ∀ (s : State) (a : Word), a.toNat = s.platform.base.toNat + 0x00C →
    ∃ v, hostMove (.winRead a 4) s = .next { s with readData := v } ∧ v.getLsbD 0 = s.busy ∧ v.getLsbD 1 = s.done ∧
      v.getLsbD 2 = s.ovr ∧ v.getLsbD 3 = false ∧
      (v.extractLsb' 4 4).toNat = (match s.err with
        | .ok => 0
        | .config => 1
        | .tooLarge => 2
        | .authFail => 3
        | .bufSmall => 4
        | .illegal => 5
        | .busErr => 6
        | .ctxErr => 7) ∧
      v.extractLsb' 8 8 = s.lastop ∧ v.extractLsb' 16 48 = 0

/-- The constant registers and the reserved offsets (R35, R36, R43, R46): their reads, without side effect, and that writes to them
are ignored; of CMD the read alone, which gives 0 (CmdWrite says what a write does). That a 64-bit access to reserved offsets reads
0 and writes nothing, and that a 32-bit access reaches one half of DESC_k, is the model's reading (log 13, log 14). -/
def Obligations.ConstantWindowRegisters : Prop :=
  ∀ (s : State) (a v : Word) (off : Nat), a.toNat = s.platform.base.toNat + off →
    (off = 0x000 → hostMove (.winRead a 4) s = .next { s with readData := 0x43544145 } ∧
      hostMove (.winWrite a 4 v) s = .next s) ∧
    (off = 0x004 → hostMove (.winRead a 4) s =
        .next { s with readData := 0x40400004 ||| (if s.sivAccel then 0x100 else 0) } ∧
      hostMove (.winWrite a 4 v) s = .next s) ∧
    (off = 0x010 → hostMove (.winRead a 4) s = .next { s with readData := 0 }) ∧
    ((0x014 ≤ off ∧ off < 0x040) ∨ (0x080 ≤ off ∧ off < 0x100) ∨ (0x128 ≤ off ∧ off < 0x200) →
      (off % 4 = 0 → hostMove (.winRead a 4) s = .next { s with readData := 0 } ∧ hostMove (.winWrite a 4 v) s = .next s) ∧
      (off % 8 = 0 → hostMove (.winRead a 8) s = .next { s with readData := 0 } ∧ hostMove (.winWrite a 8 v) s = .next s)) ∧
    (off = 0x100 → hostMove (.winRead a 8) s = .next { s with readData := 0x0000050010101010 }) ∧
    (off = 0x108 → hostMove (.winRead a 8) s = .next { s with readData := 0x0000050010101020 }) ∧
    (off = 0x110 → hostMove (.winRead a 8) s = .next { s with readData := 0x0000060010100C10 }) ∧
    (off = 0x118 → hostMove (.winRead a 8) s = .next { s with readData := 0x0000060010100C20 }) ∧
    (off = 0x120 → hostMove (.winRead a 8) s = .next { s with readData := 0x0000070110100C20 }) ∧
    (0x100 ≤ off → off < 0x128 → off % 8 = 0 → ∃ x,
      hostMove (.winRead a 8) s = .next { s with readData := x } ∧
      hostMove (.winRead a 4) s = .next { s with readData := x &&& 0xFFFFFFFF } ∧
      hostMove (.winWrite a 8 v) s = .next s ∧ hostMove (.winWrite a 4 v) s = .next s ∧
      ∀ b : Word, b.toNat = a.toNat + 4 → hostMove (.winRead b 4) s = .next { s with readData := x >>> 32 } ∧
        hostMove (.winWrite b 4 v) s = .next s)

/-- A_i on an idle engine (R31, R85): a 64-bit access reads and writes the register, a 32-bit access one half of it. -/
def Obligations.ArgumentAccessIdle : Prop :=
  ∀ (s : State) (i : Reg) (a v : Word), s.busy = false →
    (a.toNat = s.platform.base.toNat + 0x040 + 8 * i.val →
      hostMove (.winRead a 8) s = .next { s with readData := s.reg i } ∧
      hostMove (.winRead a 4) s = .next { s with readData := s.reg i &&& 0xFFFFFFFF } ∧
      hostMove (.winWrite a 8 v) s = .next (s.setReg i v) ∧
      hostMove (.winWrite a 4 v) s = .next (s.setReg i ((s.reg i).extractLsb' 32 32 ++ v.extractLsb' 0 32))) ∧
    (a.toNat = s.platform.base.toNat + 0x044 + 8 * i.val →
      hostMove (.winRead a 4) s = .next { s with readData := s.reg i >>> 32 } ∧
      hostMove (.winWrite a 4 v) s = .next (s.setReg i (v.extractLsb' 0 32 ++ (s.reg i).extractLsb' 0 32)))

/-- A_i on a busy engine (R51): a write is ignored, and a read returns some value and changes nothing but the model's own
`readData` and `free`. -/
def Obligations.ArgumentAccessBusy : Prop :=
  ∀ (s : State) (i : Reg) (a v : Word) (width : Nat), s.busy = true →
    (a.toNat = s.platform.base.toNat + 0x040 + 8 * i.val ∧ (width = 4 ∨ width = 8)) ∨
      (a.toNat = s.platform.base.toNat + 0x044 + 8 * i.val ∧ width = 4) →
    hostMove (.winWrite a width v) s = .next s ∧
    ∃ x, hostMove (.winRead a width) s = .next { s with readData := x, free := s.free + 1 }

/-- A window access of a wrong width, a misaligned one, or a 64-bit access to a 32-bit register (R85): a write has no effect, a
read returns some value and changes nothing but the model's own `readData` and `free`. -/
def Obligations.MalformedWindowAccess : Prop :=
  ∀ (s : State) (a v : Word) (off width : Nat), off < 0x200 → a.toNat = s.platform.base.toNat + off →
    (width ≠ 4 ∧ width ≠ 8) ∨ off % width ≠ 0 ∨ (width = 8 ∧ off < 0x014) →
    hostMove (.winWrite a width v) s = .next s ∧
    ∃ x, hostMove (.winRead a width) s = .next { s with readData := x, free := s.free + 1 }

/-- A CTRL write without SRST sets IRQ_EN to its bit 0 and changes nothing else, busy or not; CTRL reads IRQ_EN alone; IRQ is the
level IRQ_EN and DONE, and so rises with every completion while enabled and falls with the acceptance of a command (R37, R48,
R460, R461). -/
def Obligations.ControlAndInterrupt : Prop :=
  (∀ (s : State) (a v : Word), a.toNat = s.platform.base.toNat + 0x008 →
    (v.getLsbD 1 = false → hostMove (.winWrite a 4 v) s = .next { s with irqEn := v.getLsbD 0 }) ∧
    hostMove (.winRead a 4) s = .next { s with readData := if s.irqEn then 1 else 0 }) ∧
  (∀ s : State, s.irq = true ↔ s.irqEn = true ∧ s.done = true) ∧
  (∀ (i : Instr) (s t : State), exec i s = .next t → t.irq = s.irqEn) ∧
  (∀ (s t : State) (a v : Word), a.toNat = s.platform.base.toNat + 0x010 → s.busy = false →
    hostMove (.winWrite a 4 v) s = .next t → t.irq = false)

/-! ### The CT unit (40_ct_primitives.md) -/

/-- The CT word functions (R151 to R157): their formulas, the values of the comparisons, and for `ct_sel` its values at the two
masks and its bits at any mask. -/
def Obligations.CtWordFunctions : Prop :=
  ∀ m a b : Word,
    (ctMsb a = 0 - (a >>> 63) ∧ ctMsb a = if a.getLsbD 63 then ones else 0) ∧
    (ctLt a b = ctMsb (a ^^^ ((a ^^^ b) ||| ((a - b) ^^^ a))) ∧ ctLt a b = if a.toNat < b.toNat then ones else 0) ∧
    (ctGe a b = ~~~ ctLt a b ∧ ctGe a b = if b.toNat ≤ a.toNat then ones else 0) ∧
    (ctLe a b = ctGe b a ∧ ctLe a b = if a.toNat ≤ b.toNat then ones else 0) ∧
    (ctGt a b = ctLt b a ∧ ctGt a b = if b.toNat < a.toNat then ones else 0) ∧
    (ctIsZero a = ctMsb (~~~ a &&& (a - 1)) ∧ ctIsZero a = if a = 0 then ones else 0) ∧
    (ctEq a b = ctIsZero (a ^^^ b) ∧ ctEq a b = if a = b then ones else 0) ∧
    (ctSel m a b = (m &&& a) ||| (~~~ m &&& b) ∧ ctSel ones a b = a ∧ ctSel 0 a b = b ∧
      ∀ i, i < 64 → (ctSel m a b).getLsbD i = if m.getLsbD i then a.getLsbD i else b.getLsbD i)

/-- The 8-bit forms (R158) keep the low byte of the 64-bit result on the full operands, so a comparison gives 0xFF or 0; `ct_sel_8`
selects between the low bytes of its operands by the low byte of its mask. -/
def Obligations.CtByteFunctions : Prop :=
  ∀ m a b : Word,
    (ctMsb8 a = (ctMsb a).truncate 8 ∧ ctMsb8 a = if a.getLsbD 63 then 0xFF#8 else 0) ∧
    (ctIsZero8 a = (ctIsZero a).truncate 8 ∧ ctIsZero8 a = if a = 0 then 0xFF#8 else 0) ∧
    (ctEq8 a b = (ctEq a b).truncate 8 ∧ ctEq8 a b = if a = b then 0xFF#8 else 0) ∧
    (ctLt8 a b = (ctLt a b).truncate 8 ∧ ctLt8 a b = if a.toNat < b.toNat then 0xFF#8 else 0) ∧
    (ctGe8 a b = (ctGe a b).truncate 8 ∧ ctGe8 a b = if b.toNat ≤ a.toNat then 0xFF#8 else 0) ∧
    (ctLe8 a b = (ctLe a b).truncate 8 ∧ ctLe8 a b = if a.toNat ≤ b.toNat then 0xFF#8 else 0) ∧
    (ctGt8 a b = (ctGt a b).truncate 8 ∧ ctGt8 a b = if b.toNat < a.toNat then 0xFF#8 else 0) ∧
    (∀ i, i < 8 → (ctSel8 m a b).getLsbD i = if m.getLsbD i then a.getLsbD i else b.getLsbD i)

/-- The CT comparison commands complete, for every state and every operand, rd among the sources included: rd becomes ONES where
the relation holds and 0 where it does not, and nothing else is written (R150, R160 to R166). -/
def Obligations.CtCompareCommands : Prop :=
  ∀ (s : State) (rd rs1 rs2 : Reg),
    let a := s.reg rs1
    let b := s.reg rs2
    (∃ t, exec (.ctMsb rd rs1) s = .next t ∧ WritesReg rd (if 2 ^ 63 ≤ a.toNat then ones else 0) s t) ∧
    (∃ t, exec (.ctIszero rd rs1) s = .next t ∧ WritesReg rd (if a = 0 then ones else 0) s t) ∧
    (∃ t, exec (.ctEq rd rs1 rs2) s = .next t ∧ WritesReg rd (if a = b then ones else 0) s t) ∧
    (∃ t, exec (.ctLt rd rs1 rs2) s = .next t ∧ WritesReg rd (if a.toNat < b.toNat then ones else 0) s t) ∧
    (∃ t, exec (.ctGe rd rs1 rs2) s = .next t ∧ WritesReg rd (if b.toNat ≤ a.toNat then ones else 0) s t) ∧
    (∃ t, exec (.ctLe rd rs1 rs2) s = .next t ∧ WritesReg rd (if a.toNat ≤ b.toNat then ones else 0) s t) ∧
    (∃ t, exec (.ctGt rd rs1 rs2) s = .next t ∧ WritesReg rd (if b.toNat < a.toNat then ones else 0) s t)

/-- The 8-bit comparison commands complete in the same way with 0xFF in place of ONES (R168 to R174). -/
def Obligations.CtByteCompareCommands : Prop :=
  ∀ (s : State) (rd rs1 rs2 : Reg),
    let a := s.reg rs1
    let b := s.reg rs2
    (∃ t, exec (.ctMsb8 rd rs1) s = .next t ∧ WritesReg rd (if 2 ^ 63 ≤ a.toNat then 0xFF else 0) s t) ∧
    (∃ t, exec (.ctIszero8 rd rs1) s = .next t ∧ WritesReg rd (if a = 0 then 0xFF else 0) s t) ∧
    (∃ t, exec (.ctEq8 rd rs1 rs2) s = .next t ∧ WritesReg rd (if a = b then 0xFF else 0) s t) ∧
    (∃ t, exec (.ctLt8 rd rs1 rs2) s = .next t ∧ WritesReg rd (if a.toNat < b.toNat then 0xFF else 0) s t) ∧
    (∃ t, exec (.ctGe8 rd rs1 rs2) s = .next t ∧ WritesReg rd (if b.toNat ≤ a.toNat then 0xFF else 0) s t) ∧
    (∃ t, exec (.ctLe8 rd rs1 rs2) s = .next t ∧ WritesReg rd (if a.toNat ≤ b.toNat then 0xFF else 0) s t) ∧
    (∃ t, exec (.ctGt8 rd rs1 rs2) s = .next t ∧ WritesReg rd (if b.toNat < a.toNat then 0xFF else 0) s t)

/-- CT.SEL and CT.SEL.8 complete for every mask (R167, R175): bit i of rd is bit i of x[rs1] where bit i of the mask x[rs3] is 1
and of x[rs2] where it is 0; CT.SEL.8 does so for the low eight bits and clears the rest. -/
def Obligations.CtSelectCommands : Prop :=
  ∀ (s : State) (rd rs1 rs2 rs3 : Reg),
    let v := (s.reg rs3 &&& s.reg rs1) ||| (~~~ s.reg rs3 &&& s.reg rs2)
    (∃ t, exec (.ctSel rd rs1 rs2 rs3) s = .next t ∧ WritesReg rd v s t) ∧
    (∃ t, exec (.ctSel8 rd rs1 rs2 rs3) s = .next t ∧ WritesReg rd (v &&& 0xFF) s t)

/-- CT.MEMCMP completes when both strings are readable (R176): bit j of rd says whether some pair of bytes differs in bit j, so rd
is 0 exactly when the strings are equal; every byte of both strings is read whatever their contents; nothing else is written. -/
def Obligations.MemcmpCompletes : Prop :=
  ∀ (s : State) (rd rs1 rs2 rs3 : Reg),
    let pa := s.regNat rs1
    let pb := s.regNat rs2
    let n := s.regNat rs3
    s.platform.accessible pa n .read = true → s.platform.accessible pb n .read = true →
    ∃ t, exec (.ctMemcmp rd rs1 rs2 rs3) s = .next t ∧ Completed .ok s t ∧
      (∀ j, (t.reg rd).getLsbD j = true ↔
        ∃ i, i < n ∧ (Memory.read s.mem (pa + i) ^^^ Memory.read s.mem (pb + i)).getLsbD j = true) ∧
      (t.reg rd = 0 ↔ ∀ i, i < n → Memory.read s.mem (pa + i) = Memory.read s.mem (pb + i)) ∧
      SameRegsExcept [rd] s t ∧ SameSlotsExcept [] s t ∧ SameMemOutside [] s t ∧
      t.bus = s.bus ++ (List.range n).flatMap fun i => [⟨.read, pa + i⟩, ⟨.read, pb + i⟩]

/-- CT.CMXOR completes when its regions are accessible (R177): destination byte i becomes itself XORed with the masked source byte,
where a source byte that lies in the destination at a lower offset is read after the write there; no other byte and no register
is written. -/
def Obligations.CmxorCompletes : Prop :=
  ∀ (s : State) (rd rs1 rs2 rs3 : Reg),
    let pd := s.regNat rd
    let ps := s.regNat rs1
    let n := s.regNat rs2
    s.platform.accessible pd n .readwrite = true → s.platform.accessible ps n .read = true →
    ∃ t, exec (.ctCmxor rd rs1 rs2 rs3) s = .next t ∧ Completed .ok s t ∧
      (∀ i, i < n → Memory.read t.mem (pd + i) = Memory.read s.mem (pd + i) ^^^
        ((if pd ≤ ps + i ∧ ps + i < pd + i then Memory.read t.mem (ps + i) else Memory.read s.mem (ps + i)) &&&
          (s.reg rs3).truncate 8)) ∧
      SameMemOutside [⟨pd, n⟩] s t ∧ SameRegsExcept [] s t ∧ SameSlotsExcept [] s t

/-- CT.MEMCMP and CT.CMXOR complete with BUSERR, having accessed and written nothing, when a region is not accessible (R176,
R177, R81). -/
def Obligations.CtMemoryBusErr : Prop :=
  ∀ (s : State) (rd rs1 rs2 rs3 : Reg),
    (s.platform.accessible (s.regNat rs1) (s.regNat rs3) .read = false ∨
      s.platform.accessible (s.regNat rs2) (s.regNat rs3) .read = false →
      ∃ t, exec (.ctMemcmp rd rs1 rs2 rs3) s = .next t ∧ NothingWritten .busErr s t ∧ t.bus = s.bus) ∧
    (s.platform.accessible (s.regNat rd) (s.regNat rs2) .readwrite = false ∨
      s.platform.accessible (s.regNat rs1) (s.regNat rs2) .read = false →
      ∃ t, exec (.ctCmxor rd rs1 rs2 rs3) s = .next t ∧ NothingWritten .busErr s t ∧ t.bus = s.bus)

/-! ### The record unit (45_record.md) -/

/-- REC.RMPAD completes under its public conditions (R403, R404): rd becomes ONES exactly when the record has room for the padding
and the MAC and its last L + 1 bytes all equal its last byte L, and 0 otherwise; rd + 1 becomes the length without the padding, or
the whole length. The room test adds modulo 2^64 (R403); for a record of at most 2^64 - 256 bytes it is R404's (log 23). Nothing
else is written. -/
def Obligations.RmpadCompletes : Prop :=
  ∀ (s : State) (rd rs : Reg), RmpadReady rd rs s →
    let o := rmpadOps s.mem (s.regNat rs)
    let pl := Memory.read s.mem (o.dataAddr + (o.inLen - 1))
    let padded := ∀ i, i ≤ pl.toNat → Memory.read s.mem (o.dataAddr + (o.inLen - 1 - i)) = pl
    ∃ t, exec (.recRmpad rd rs) s = .next t ∧ Completed .ok s t ∧ (t.reg rd = ones ∨ t.reg rd = 0) ∧
      (t.reg rd = ones ↔ (1 + o.macSize + pl.toNat) % 2 ^ 64 ≤ o.inLen ∧ padded) ∧
      (o.inLen + 256 ≤ 2 ^ 64 → (t.reg rd = ones ↔ 1 + o.macSize + pl.toNat ≤ o.inLen ∧ padded)) ∧
      (t.reg rd = ones → (t.reg (rd + 1)).toNat = o.inLen - pl.toNat - 1) ∧
      (t.reg rd = 0 → (t.reg (rd + 1)).toNat = o.inLen) ∧
      SameRegsExcept [rd, rd + 1] s t ∧ SameSlotsExcept [] s t ∧ SameMemOutside [] s t

/-- REC.RMPAD's failures, the first that holds in the order of R463, each writing nothing; for a well-formed command, that is an
even rd. An odd rd, which no legal word has (R125), completes with ILLEGAL: the model's choice (log 19). -/
def Obligations.RmpadErrors : Prop :=
  ∀ (s : State) (rd rs : Reg),
    let d := s.regNat rs
    let o := rmpadOps s.mem d
    ∃ t, exec (.recRmpad rd rs) s = .next t ∧
      if rd.val % 2 = 1 then NothingWritten .illegal s t
      else if d % 8 ≠ 0 ∨ s.platform.accessible d 32 .read = false then NothingWritten .busErr s t
      else if o.inLen < 1 + o.macSize then NothingWritten .bufSmall s t
      else if s.platform.accessible o.dataAddr o.inLen .read = false then NothingWritten .busErr s t
      else t.err = .ok

/-- REC.XMAC completes under its public conditions (R410): the md bytes of the output region are the rotated buffer of the scan,
whatever the secret in_len, and nothing else is written. For every in_len, output byte k is byte in_len - md + k of the record where
md ≤ in_len, the scanned window begins at or before in_len - md and that byte lies in the record, and 0 elsewhere. -/
def Obligations.XmacCompletes : Prop :=
  ∀ (s : State) (rs : Reg), XmacReady rs s →
    let o := xmacOps s.mem (s.regNat rs)
    let start := if o.md + 256 < o.origLen then o.origLen - (o.md + 256) else 0
    let c := xmacGather (Memory.readBytes s.mem (o.dataAddr + start) (o.origLen - start)) o.md o.inLen o.origLen
    ∃ t, exec (.recXmac rs) s = .next t ∧ Completed .ok s t ∧
      Memory.readBytes t.mem o.outAddr o.md = xmacRotate o.md o.md 1 c.rotateOffset c.rot ∧
      (∀ k, k < o.md → Memory.read t.mem (o.outAddr + k) =
        if o.md ≤ o.inLen ∧ start ≤ o.inLen - o.md ∧ o.inLen - o.md + k < o.origLen then
          Memory.read s.mem (o.dataAddr + (o.inLen - o.md + k))
        else 0) ∧
      SameMemOutside [⟨o.outAddr, o.md⟩] s t ∧ SameRegsExcept [] s t ∧ SameSlotsExcept [] s t

/-- REC.XMAC extracts the MAC (R411): where md ≤ in_len ≤ orig_len ≤ in_len + 256 it writes the md bytes of the record that end at
in_len; where in_len < md or in_len ≥ orig_len + md it writes md zero bytes. -/
def Obligations.XmacExtractsMac : Prop :=
  ∀ (s : State) (rs : Reg), XmacReady rs s →
    let o := xmacOps s.mem (s.regNat rs)
    (o.md ≤ o.inLen → o.inLen ≤ o.origLen → o.origLen ≤ o.inLen + 256 →
      ∃ t, exec (.recXmac rs) s = .next t ∧ Completed .ok s t ∧
        ∀ i, i < o.md → Memory.read t.mem (o.outAddr + i) = Memory.read s.mem (o.dataAddr + (o.inLen - o.md + i))) ∧
    (o.inLen < o.md ∨ o.origLen + o.md ≤ o.inLen →
      ∃ t, exec (.recXmac rs) s = .next t ∧ Completed .ok s t ∧
        ∀ i, i < o.md → Memory.read t.mem (o.outAddr + i) = 0)

/-- REC.XMAC's failures, the first that holds in the order of R463, each writing nothing (R410, R412): CONFIG too where the output
region overlaps the record or the descriptor block (R92 with R202 and R512, log 10). -/
def Obligations.XmacErrors : Prop :=
  ∀ (s : State) (rs : Reg),
    let d := s.regNat rs
    let o := xmacOps s.mem d
    ∃ t, exec (.recXmac rs) s = .next t ∧
      if d % 8 ≠ 0 ∨ s.platform.accessible d 40 .read = false then NothingWritten .busErr s t
      else if o.md = 0 ∨ 64 < o.md ∨ o.origLen < o.md then NothingWritten .config s t
      else if o.outAddr < o.dataAddr + o.origLen ∧ o.dataAddr < o.outAddr + o.md then NothingWritten .config s t
      else if o.outAddr < d + 40 ∧ d < o.outAddr + o.md then NothingWritten .config s t
      else if s.platform.accessible o.dataAddr o.origLen .read = false ∨ s.platform.accessible o.outAddr o.md .write = false
        then NothingWritten .busErr s t
      else t.err = .ok

/-! ### NOP and AEAD.CLEANUP -/

/-- NOP (R470) is the word 0; accepted, it completes with OK, sets LASTOP to 0, and writes no register, slot or byte of memory; a
word with op byte 0 and another bit set is illegal. -/
def Obligations.NopCompletes : Prop :=
  encode .nop = 0 ∧ decode 0 = .ok .nop ∧
  (∀ w : Word32, w.extractLsb' 24 8 = 0 → w ≠ 0 → ∃ e, decode w = .error e) ∧
  (∀ s : State, ∃ t, exec .nop s = .next t ∧ NothingWritten .ok s t ∧ t.bus = s.bus) ∧
  (∀ s : State, ∃ t, step (s.withFetchWord 32 0) = .next t ∧ t.err = .ok ∧ t.done = true ∧ t.busy = false ∧ t.lastop = 0 ∧
    SameRegsExcept [] s t ∧ SameSlotsExcept [] s t ∧ SameMemOutside [] s t)

/-- AEAD.CLEANUP (R212) completes with OK on every slot, occupied or empty, makes every field of it 0, and changes nothing else;
it accesses no bus address. -/
def Obligations.CleanupClearsSlot : Prop :=
  ∀ (s : State) (ctx : Ctx), encode (.aeadCleanup ctx) = 0x40000000#32 ||| BitVec.ofNat 32 (ctx.val * 256) ∧
    ∃ t, exec (.aeadCleanup ctx) s = .next t ∧ Completed .ok s t ∧
      t.slot ctx = { valid := false, alg := .eax128, taglen := 0, key := List.replicate 32 0, maskB := List.replicate 16 0,
                     maskP := List.replicate 16 0 } ∧
      SameSlotsExcept [ctx] s t ∧ SameRegsExcept [] s t ∧ SameMemOutside [] s t ∧ t.bus = s.bus

/-! ### INIT (R205) -/

/-- EAX.INIT completes under its conditions (R252): the slot holds the key and the masks B = dbl(E(0)) and P = dbl(B); nothing else
is written. Doubling (R251), byte by byte: byte i becomes its low seven bits shifted up with the top bit of byte i + 1 below them,
and the last byte is XORed with 0x87 where the top bit of byte 0 was 1. -/
def Obligations.EaxInitCompletes : Prop :=
  (∀ x : Bytes, x.length = 16 → (dbl x).length = 16 ∧
    (∀ i, i < 15 → (dbl x).getD i 0 = (x.getD i 0 <<< 1) ||| (x.getD (i + 1) 0 >>> 7)) ∧
    (dbl x).getD 15 0 = (x.getD 15 0 <<< 1) ^^^ (if (x.getD 0 0).getLsbD 7 then 0x87 else 0)) ∧
  ∀ (s : State) (rs : Reg) (ctx : Ctx) (alg : Alg), InitReady .eax rs ctx alg s →
    let o := s.initOps rs
    let key := Memory.readBytes s.mem o.keyAddr o.keyLen
    let b := dbl (aesEnc key (zeros 16))
    ∃ t, exec (.eaxInit rs ctx) s = .next t ∧ Completed .ok s t ∧
      t.slot ctx = { valid := true, alg := if o.keyLen = 16 then .eax128 else .eax256, taglen := 16,
                     key := key ++ zeros (32 - o.keyLen), maskB := b, maskP := dbl b } ∧
      SameSlotsExcept [ctx] s t ∧ SameRegsExcept [] s t ∧ SameMemOutside [] s t

/-- SIV.INIT completes under its conditions (R301): the slot holds the root key and no masks; nothing else is written. -/
def Obligations.SivInitCompletes : Prop :=
  ∀ (s : State) (rs : Reg) (ctx : Ctx) (alg : Alg), InitReady .siv rs ctx alg s →
    let o := s.initOps rs
    ∃ t, exec (.sivInit rs ctx) s = .next t ∧ Completed .ok s t ∧
      t.slot ctx = { valid := true, alg := if o.keyLen = 16 then .siv128 else .siv256, taglen := 16,
                     key := Memory.readBytes s.mem o.keyAddr o.keyLen ++ zeros (32 - o.keyLen), maskB := zeros 16,
                     maskP := zeros 16 } ∧
      SameSlotsExcept [ctx] s t ∧ SameRegsExcept [] s t ∧ SameMemOutside [] s t

/-- CCP.INIT completes under its conditions (R351): the slot holds the 32-byte key and the tag length, 16 where tag_req is 0;
nothing else is written. -/
def Obligations.CcpInitCompletes : Prop :=
  ∀ (s : State) (rs : Reg) (ctx : Ctx) (alg : Alg), InitReady .ccp rs ctx alg s →
    let o := s.initOps rs
    ∃ t, exec (.ccpInit rs ctx) s = .next t ∧ Completed .ok s t ∧ (t.slot ctx).tagLen = (if o.tagReq = 0 then 16 else o.tagReq) ∧
      t.slot ctx = { valid := true, alg := .ccp, taglen := (t.slot ctx).taglen, key := Memory.readBytes s.mem o.keyAddr 32,
                     maskB := zeros 16, maskP := zeros 16 } ∧
      SameSlotsExcept [ctx] s t ∧ SameRegsExcept [] s t ∧ SameMemOutside [] s t

/-- INIT's failures, the first that holds in the order of R463, each writing nothing (R205, R201). -/
def Obligations.InitErrors : Prop :=
  ∀ (f : Family) (s : State) (rs : Reg) (ctx : Ctx),
    let d := s.regNat rs
    let o := s.initOps rs
    let tagLen := if o.tagReq = 0 then 16 else o.tagReq
    ∃ t, exec (f.initInstr rs ctx) s = .next t ∧
      if d % 8 ≠ 0 ∨ s.platform.accessible d 24 .read = false then NothingWritten .busErr s t
      else if (s.slot ctx).valid = true then NothingWritten .ctxErr s t
      else if o.keyLen ≠ 32 ∧ (f = .ccp ∨ o.keyLen ≠ 16) then NothingWritten .config s t
      else if 16 < tagLen ∨ (f ≠ .ccp ∧ tagLen ≠ 16) then NothingWritten .config s t
      else if s.platform.accessible o.keyAddr o.keyLen .read = false then NothingWritten .busErr s t
      else t.err = .ok

/-! ### SEAL, SEALX and OPEN (R206 to R213) -/

/-- The failures of the prologue of SEAL, SEALX and OPEN, the first that holds in the order of R463, each writing nothing (R201,
R206 to R209); with none of them the command ends with OK or, an OPEN, with AUTHFAIL. A written region that overlaps the descriptor
block is among the overlaps that complete with CONFIG (R92 with R202 and R512, log 10). -/
def Obligations.PrologueErrors : Prop :=
  ∀ (i : Instr) (c : AeadCommand) (s : State), sequenced i = some c →
    let d := s.regNat c.rs
    let o := s.aeadOps c.rs c.kind
    let sl := s.slot c.ctx
    ∃ t, exec i s = .next t ∧
      if d % 8 ≠ 0 ∨ s.platform.accessible d 96 .read = false then NothingWritten .busErr s t
      else if sl.valid = false ∨ sl.alg.family ≠ c.family then NothingWritten .ctxErr s t
      else if o.nonceLen ≠ (if c.family = .eax then 16 else 12) then NothingWritten .config s t
      else if c.kind = .opening ∧ o.tagLen ≠ sl.tagLen then NothingWritten .config s t
      else if (c.family = .ccp ∧ 2 ^ 38 - 64 < o.inLen + o.extraLen) ∨ (c.family ≠ .ccp ∧ 2 ^ 36 < o.inLen) ∨ 2 ^ 61 ≤ o.adLen
        then NothingWritten .tooLarge s t
      else if o.outCap < o.inLen then NothingWritten .bufSmall s t
      else if c.kind ≠ .opening ∧ o.tagLen < o.extraLen + sl.tagLen then NothingWritten .bufSmall s t
      else if (outRegion o ≠ inRegion o ∧ (outRegion o).overlaps (inRegion o) = true) ∨
          (∃ r ∈ otherReads c.kind o, (outRegion o).overlaps r = true) ∨
          (∃ w ∈ otherWrites c.kind o sl.tagLen, ∃ r ∈ outRegion o :: readRegions c.kind o, w.overlaps r = true) ∨
          (∃ w ∈ writeRegions c.kind o sl.tagLen, w.overlaps ⟨d, 96⟩ = true)
        then NothingWritten .config s t
      else if (∃ r ∈ readRegions c.kind o, s.platform.admits r .read = false) ∨
          (∃ w ∈ writeRegions c.kind o sl.tagLen, s.platform.admits w .write = false)
        then NothingWritten .busErr s t
      else t.err = .ok ∨ (c.kind = .opening ∧ t.err = .authFail)

/-- EAX.SEAL completes under its conditions (R255, R210): the output region becomes CTR(N, M) and the tag region the tag, rd
becomes 16, and nothing else is written. OMAC (R253): of the empty string it is the encrypted tweak block masked with B; of whole
blocks and a last piece of 1 to 16 bytes, the chain over the blocks, then the last piece masked with B where it is full, and padded
with 0x80 and zeros and masked with P where it is not. Counter mode (R254): byte i is XORed with byte i mod 16 of the encryption of
N + floor(i / 16), read and written big-endian modulo 2^128. The slot is a well-formed one, as every reachable slot is
(InvKeptByStep). -/
def Obligations.EaxSealCompletes : Prop :=
  (∀ (sl : Slot) (x : Bytes), slotEnc sl x = aesEnc (sl.key.take sl.alg.keyLen) x) ∧
  (∀ (sl : Slot) (t : Byte), slotOmac sl t [] = slotEnc sl (xorBytes (List.replicate 15 0 ++ [t]) sl.maskB)) ∧
  (∀ (sl : Slot) (t : Byte) (blocks : List Bytes) (last : Bytes), (∀ b ∈ blocks, b.length = 16) → 1 ≤ last.length →
    last.length ≤ 16 →
    let x := blocks.foldl (fun x b => slotEnc sl (xorBytes x b)) (slotEnc sl (List.replicate 15 0 ++ [t]))
    slotOmac sl t (blocks.flatten ++ last) =
      if last.length = 16 then slotEnc sl (xorBytes (xorBytes x last) sl.maskB)
      else slotEnc sl (xorBytes (xorBytes x (last ++ [0x80] ++ List.replicate (15 - last.length) 0)) sl.maskP)) ∧
  (∀ k : Nat, (be128 k).length = 16 ∧ intBe (be128 k) = k % 2 ^ 128 ∧
    ∀ i, i < 16 → (be128 k).getD i 0 = BitVec.ofNat 8 (k / 256 ^ (15 - i))) ∧
  (∀ (sl : Slot) (n d : Bytes) (i : Nat), i < d.length → (eaxCtr (slotEnc sl) n d).getD i 0 =
    d.getD i 0 ^^^ (slotEnc sl (be128 (intBe n + i / 16))).getD (i % 16) 0) ∧
  ∀ (s : State) (rd rs : Reg) (ctx : Ctx), AeadReady .eax .sealing rs ctx s → (s.slot ctx).wf →
    let o := s.aeadOps rs .sealing
    let w := s.snapshot rs .sealing
    let n := slotOmac (s.slot ctx) 0 w.nonce
    let h := slotOmac (s.slot ctx) 1 w.ad
    let c := eaxCtr (slotEnc (s.slot ctx)) n w.inp
    ∃ t, exec (.eaxSeal rd rs ctx) s = .next t ∧ Completed .ok s t ∧ t.reg rd = 16 ∧ SameRegsExcept [rd] s t ∧
      SameSlotsExcept [] s t ∧ Memory.readBytes t.mem o.outAddr o.inLen = c ∧
      Memory.readBytes t.mem o.tagAddr 16 = xorBytes (xorBytes (slotOmac (s.slot ctx) 2 c) n) h ∧
      SameMemOutside [⟨o.outAddr, o.inLen⟩, ⟨o.tagAddr, 16⟩] s t

/-- EAX.OPEN under its conditions (R256, R210, R213): where the received tag is the recomputed one it completes with OK, the output
region becomes CTR(N, C), rd becomes in_len, and nothing else is written; otherwise it completes with AUTHFAIL and writes nothing
at all. -/
def Obligations.EaxOpenCompletes : Prop :=
  ∀ (s : State) (rd rs : Reg) (ctx : Ctx), AeadReady .eax .opening rs ctx s → (s.slot ctx).wf →
    let o := s.aeadOps rs .opening
    let w := s.snapshot rs .opening
    let n := slotOmac (s.slot ctx) 0 w.nonce
    let tag := xorBytes (xorBytes (slotOmac (s.slot ctx) 2 w.inp) n) (slotOmac (s.slot ctx) 1 w.ad)
    (w.recv = tag → ∃ t, exec (.eaxOpen rd rs ctx) s = .next t ∧ Completed .ok s t ∧ (t.reg rd).toNat = o.inLen ∧
      SameRegsExcept [rd] s t ∧ SameSlotsExcept [] s t ∧
      Memory.readBytes t.mem o.outAddr o.inLen = eaxCtr (slotEnc (s.slot ctx)) n w.inp ∧
      SameMemOutside [⟨o.outAddr, o.inLen⟩] s t) ∧
    (w.recv ≠ tag → ∃ t, exec (.eaxOpen rd rs ctx) s = .next t ∧ NothingWritten .authFail s t)

/-- SIV.SEAL completes under its conditions (R309): with the keys derived from the nonce, the tag region becomes the tag of the
plaintext and the output region the keystream of that tag applied to it; rd becomes 16; nothing else is written. The record keys
(R302): bytes 0 to 7 of the encryption of each little-endian index 0 to 3, or 0 to 5 for the 32-byte root key, before the nonce; the
first 16 bytes together are the authentication key, the rest the encryption key. The tag (R303 to R305): POLYVAL of the padded AAD,
the padded text and the two bit lengths, XORed with the nonce in bytes 0 to 11, its top bit cleared, encrypted. The keystream (R306,
R307): block k encrypts the tag with its top bit set and its first four bytes, read little-endian, increased by k modulo 2^32. -/
def Obligations.SivSealCompletes : Prop :=
  (∀ k n i : Nat, (leBytes k n).length = k ∧ (i < k → (leBytes k n).getD i 0 = BitVec.ofNat 8 (n / 256 ^ i))) ∧
  (∀ k n : Nat, intLe (leBytes k n) = n % 256 ^ k) ∧
  (∀ (sl : Slot) (nonce : Bytes), sl.alg.family = .siv →
    let mat := (if sl.alg = .siv128 then [0, 1, 2, 3] else [0, 1, 2, 3, 4, 5]).flatMap fun i : Byte =>
      (aesEnc (sl.key.take sl.alg.keyLen) ([i, 0, 0, 0] ++ nonce)).take 8
    sivKeys sl nonce = (mat.take 16, mat.drop 16)) ∧
  (∀ (ak ek nonce a m : Bytes), nonce.length = 12 → ∃ p : Bytes, sivTag ak ek nonce a m = aesEnc ek p ∧ p.length = 16 ∧
    let h := polyval ak (a ++ List.replicate ((16 - a.length % 16) % 16) 0 ++
      (m ++ List.replicate ((16 - m.length % 16) % 16) 0) ++ leBytes 8 (8 * a.length) ++ leBytes 8 (8 * m.length))
    (∀ i, i < 12 → p.getD i 0 = h.getD i 0 ^^^ nonce.getD i 0) ∧ (∀ i, 12 ≤ i → i < 15 → p.getD i 0 = h.getD i 0) ∧
      p.getD 15 0 = h.getD 15 0 &&& 0x7F) ∧
  (∀ (ek tag d : Bytes) (i : Nat), tag.length = 16 → i < d.length → (sivCtr ek tag d).getD i 0 = d.getD i 0 ^^^
    (aesEnc ek (leBytes 4 ((intLe (tag.take 4) + i / 16) % 2 ^ 32) ++ (tag.drop 4).take 11 ++ [tag.getD 15 0 ||| 0x80])).getD
      (i % 16) 0) ∧
  ∀ (s : State) (rd rs : Reg) (ctx : Ctx), AeadReady .siv .sealing rs ctx s → (s.slot ctx).wf →
    let o := s.aeadOps rs .sealing
    let w := s.snapshot rs .sealing
    let keys := sivKeys (s.slot ctx) w.nonce
    let tag := sivTag keys.1 keys.2 w.nonce w.ad w.inp
    ∃ t, exec (.sivSeal rd rs ctx) s = .next t ∧ Completed .ok s t ∧ t.reg rd = 16 ∧ SameRegsExcept [rd] s t ∧
      SameSlotsExcept [] s t ∧ Memory.readBytes t.mem o.outAddr o.inLen = sivCtr keys.2 tag w.inp ∧
      Memory.readBytes t.mem o.tagAddr 16 = tag ∧ SameMemOutside [⟨o.outAddr, o.inLen⟩, ⟨o.tagAddr, 16⟩] s t

/-- SIV.OPEN under its conditions (R310): in both outcomes the output region becomes the candidate plaintext and no other byte is
written; with the received tag equal to the recomputed one it completes with OK and rd becomes in_len, otherwise it completes with
AUTHFAIL and writes no register. -/
def Obligations.SivOpenCompletes : Prop :=
  ∀ (s : State) (rd rs : Reg) (ctx : Ctx), AeadReady .siv .opening rs ctx s → (s.slot ctx).wf →
    let o := s.aeadOps rs .opening
    let w := s.snapshot rs .opening
    let keys := sivKeys (s.slot ctx) w.nonce
    let m := sivCtr keys.2 w.recv w.inp
    ∃ t, exec (.sivOpen rd rs ctx) s = .next t ∧ Memory.readBytes t.mem o.outAddr o.inLen = m ∧
      SameMemOutside [⟨o.outAddr, o.inLen⟩] s t ∧ SameSlotsExcept [] s t ∧
      (w.recv = sivTag keys.1 keys.2 w.nonce w.ad m →
        Completed .ok s t ∧ (t.reg rd).toNat = o.inLen ∧ SameRegsExcept [rd] s t) ∧
      (w.recv ≠ sivTag keys.1 keys.2 w.nonce w.ad m → Completed .authFail s t ∧ SameRegsExcept [] s t)

/-- CCP.SEAL completes under its conditions (R355): the output region becomes the plaintext XORed with the keystream, the tag region
the first T bytes of the MAC, rd becomes T, and nothing else is written. The keystream (R353): byte i from offset o is byte
(o + i) mod 64 of the ChaCha20 block with counter 1 + floor((o + i) / 64). The MAC (R352, R353): Poly1305, keyed by the first 32 bytes
of the block with counter 0, of the padded AAD, the padded ciphertext and the two byte lengths in eight bytes each. -/
def Obligations.CcpSealCompletes : Prop :=
  (∀ (key nonce : Bytes) (o n : Nat), (ccpKeystream key nonce o n).length = n ∧ ∀ i, i < n →
    (ccpKeystream key nonce o n).getD i 0 = (chachaBlock key nonce (1 + (o + i) / 64)).getD ((o + i) % 64) 0) ∧
  (∀ (sl : Slot) (nonce a c : Bytes), ccpMac sl nonce a c =
    (poly1305 ((chachaBlock sl.key nonce 0).take 32) (a ++ List.replicate ((16 - a.length % 16) % 16) 0 ++
      (c ++ List.replicate ((16 - c.length % 16) % 16) 0) ++ leBytes 8 a.length ++ leBytes 8 c.length)).take sl.tagLen) ∧
  ∀ (s : State) (rd rs : Reg) (ctx : Ctx), AeadReady .ccp .sealing rs ctx s → (s.slot ctx).wf →
    let o := s.aeadOps rs .sealing
    let w := s.snapshot rs .sealing
    let sl := s.slot ctx
    let c := xorBytes w.inp (ccpKeystream sl.key w.nonce 0 o.inLen)
    ∃ t, exec (.ccpSeal rd rs ctx) s = .next t ∧ Completed .ok s t ∧ (t.reg rd).toNat = sl.tagLen ∧
      SameRegsExcept [rd] s t ∧ SameSlotsExcept [] s t ∧ Memory.readBytes t.mem o.outAddr o.inLen = c ∧
      Memory.readBytes t.mem o.tagAddr sl.tagLen = ccpMac sl w.nonce w.ad c ∧
      SameMemOutside [⟨o.outAddr, o.inLen⟩, ⟨o.tagAddr, sl.tagLen⟩] s t

/-- CCP.SEALX completes under its conditions (R356, R210): as CCP.SEAL, with the trailer encrypted by the keystream from offset
in_len, MACed as ciphertext and put before the tag in the tag region; rd becomes extra_len + T. -/
def Obligations.CcpSealxCompletes : Prop :=
  ∀ (s : State) (rd rs : Reg) (ctx : Ctx), AeadReady .ccp .sealingX rs ctx s → (s.slot ctx).wf →
    let o := s.aeadOps rs .sealingX
    let w := s.snapshot rs .sealingX
    let sl := s.slot ctx
    let c := xorBytes w.inp (ccpKeystream sl.key w.nonce 0 o.inLen)
    let xc := xorBytes w.extra (ccpKeystream sl.key w.nonce o.inLen o.extraLen)
    ∃ t, exec (.ccpSealx rd rs ctx) s = .next t ∧ Completed .ok s t ∧ (t.reg rd).toNat = o.extraLen + sl.tagLen ∧
      SameRegsExcept [rd] s t ∧ SameSlotsExcept [] s t ∧ Memory.readBytes t.mem o.outAddr o.inLen = c ∧
      Memory.readBytes t.mem o.tagAddr (o.extraLen + sl.tagLen) = xc ++ ccpMac sl w.nonce w.ad (c ++ xc) ∧
      SameMemOutside [⟨o.outAddr, o.inLen⟩, ⟨o.tagAddr, o.extraLen + sl.tagLen⟩] s t

/-- CCP.OPEN under its conditions (R357, R210, R213): where the T received bytes are the recomputed tag it completes with OK, the
output region becomes the plaintext, rd becomes in_len, and nothing else is written; otherwise it completes with AUTHFAIL and
writes nothing at all. -/
def Obligations.CcpOpenCompletes : Prop :=
  ∀ (s : State) (rd rs : Reg) (ctx : Ctx), AeadReady .ccp .opening rs ctx s → (s.slot ctx).wf →
    let o := s.aeadOps rs .opening
    let w := s.snapshot rs .opening
    let sl := s.slot ctx
    (w.recv = ccpMac sl w.nonce w.ad w.inp → ∃ t, exec (.ccpOpen rd rs ctx) s = .next t ∧ Completed .ok s t ∧
      (t.reg rd).toNat = o.inLen ∧ SameRegsExcept [rd] s t ∧ SameSlotsExcept [] s t ∧
      Memory.readBytes t.mem o.outAddr o.inLen = xorBytes w.inp (ccpKeystream sl.key w.nonce 0 o.inLen) ∧
      SameMemOutside [⟨o.outAddr, o.inLen⟩] s t) ∧
    (w.recv ≠ ccpMac sl w.nonce w.ad w.inp → ∃ t, exec (.ccpOpen rd rs ctx) s = .next t ∧ NothingWritten .authFail s t)

/-! ### Round trips -/

/-- EAX.OPEN of what EAX.SEAL wrote, with the same context, nonce and AAD, completes with OK and writes the original plaintext; with
any other received tag it completes with AUTHFAIL and writes nothing (R255, R256, R260). -/
def Obligations.EaxRoundTrip : Prop :=
  ∀ (s t u : State) (rd rs rd' rs' : Reg) (ctx ctx' : Ctx),
    AeadReady .eax .sealing rs ctx s → (s.slot ctx).wf → exec (.eaxSeal rd rs ctx) s = .next t →
    AeadReady .eax .opening rs' ctx' u → u.slot ctx' = s.slot ctx →
    (u.snapshot rs' .opening).nonce = (s.snapshot rs .sealing).nonce →
    (u.snapshot rs' .opening).ad = (s.snapshot rs .sealing).ad →
    (u.snapshot rs' .opening).inp = Memory.readBytes t.mem (s.aeadOps rs .sealing).outAddr (s.aeadOps rs .sealing).inLen →
    let tag := Memory.readBytes t.mem (s.aeadOps rs .sealing).tagAddr 16
    ((u.snapshot rs' .opening).recv = tag → ∃ v, exec (.eaxOpen rd' rs' ctx') u = .next v ∧ Completed .ok u v ∧
      (v.reg rd').toNat = (s.aeadOps rs .sealing).inLen ∧
      Memory.readBytes v.mem (u.aeadOps rs' .opening).outAddr (u.aeadOps rs' .opening).inLen =
        (s.snapshot rs .sealing).inp) ∧
    ((u.snapshot rs' .opening).recv ≠ tag → ∃ v, exec (.eaxOpen rd' rs' ctx') u = .next v ∧ NothingWritten .authFail u v)

/-- SIV.OPEN of what SIV.SEAL wrote, with the same context, nonce and AAD, completes with OK and writes the original plaintext
(R309, R310, R313). -/
def Obligations.SivRoundTrip : Prop :=
  ∀ (s t u : State) (rd rs rd' rs' : Reg) (ctx ctx' : Ctx),
    AeadReady .siv .sealing rs ctx s → (s.slot ctx).wf → exec (.sivSeal rd rs ctx) s = .next t →
    AeadReady .siv .opening rs' ctx' u → u.slot ctx' = s.slot ctx →
    (u.snapshot rs' .opening).nonce = (s.snapshot rs .sealing).nonce →
    (u.snapshot rs' .opening).ad = (s.snapshot rs .sealing).ad →
    (u.snapshot rs' .opening).inp = Memory.readBytes t.mem (s.aeadOps rs .sealing).outAddr (s.aeadOps rs .sealing).inLen →
    (u.snapshot rs' .opening).recv = Memory.readBytes t.mem (s.aeadOps rs .sealing).tagAddr 16 →
    ∃ v, exec (.sivOpen rd' rs' ctx') u = .next v ∧ Completed .ok u v ∧
      (v.reg rd').toNat = (s.aeadOps rs .sealing).inLen ∧
      Memory.readBytes v.mem (u.aeadOps rs' .opening).outAddr (u.aeadOps rs' .opening).inLen = (s.snapshot rs .sealing).inp

/-- CCP.OPEN of what CCP.SEAL wrote, for every tag length and every length of the text, completes with OK and writes the original
plaintext; with any other T received bytes it completes with AUTHFAIL and writes nothing (R355, R357, R360). -/
def Obligations.CcpRoundTrip : Prop :=
  ∀ (s t u : State) (rd rs rd' rs' : Reg) (ctx ctx' : Ctx),
    AeadReady .ccp .sealing rs ctx s → (s.slot ctx).wf → exec (.ccpSeal rd rs ctx) s = .next t →
    AeadReady .ccp .opening rs' ctx' u → u.slot ctx' = s.slot ctx →
    (u.snapshot rs' .opening).nonce = (s.snapshot rs .sealing).nonce →
    (u.snapshot rs' .opening).ad = (s.snapshot rs .sealing).ad →
    (u.snapshot rs' .opening).inp = Memory.readBytes t.mem (s.aeadOps rs .sealing).outAddr (s.aeadOps rs .sealing).inLen →
    let tag := Memory.readBytes t.mem (s.aeadOps rs .sealing).tagAddr (s.slot ctx).tagLen
    ((u.snapshot rs' .opening).recv = tag → ∃ v, exec (.ccpOpen rd' rs' ctx') u = .next v ∧ Completed .ok u v ∧
      (v.reg rd').toNat = (s.aeadOps rs .sealing).inLen ∧
      Memory.readBytes v.mem (u.aeadOps rs' .opening).outAddr (u.aeadOps rs' .opening).inLen =
        (s.snapshot rs .sealing).inp) ∧
    ((u.snapshot rs' .opening).recv ≠ tag → ∃ v, exec (.ccpOpen rd' rs' ctx') u = .next v ∧ NothingWritten .authFail u v)

/-- CCP.OPEN of the ciphertext and the trailer ciphertext CCP.SEALX wrote completes with OK and writes the plaintext and after it
the trailer (R356, R357). -/
def Obligations.CcpTrailerRoundTrip : Prop :=
  ∀ (s t u : State) (rd rs rd' rs' : Reg) (ctx ctx' : Ctx),
    AeadReady .ccp .sealingX rs ctx s → (s.slot ctx).wf → exec (.ccpSealx rd rs ctx) s = .next t →
    AeadReady .ccp .opening rs' ctx' u → u.slot ctx' = s.slot ctx →
    let o := s.aeadOps rs .sealingX
    (u.snapshot rs' .opening).nonce = (s.snapshot rs .sealingX).nonce →
    (u.snapshot rs' .opening).ad = (s.snapshot rs .sealingX).ad →
    (u.snapshot rs' .opening).inp =
      Memory.readBytes t.mem o.outAddr o.inLen ++ Memory.readBytes t.mem o.tagAddr o.extraLen →
    (u.snapshot rs' .opening).recv = Memory.readBytes t.mem (o.tagAddr + o.extraLen) (s.slot ctx).tagLen →
    ∃ v, exec (.ccpOpen rd' rs' ctx') u = .next v ∧ Completed .ok u v ∧ (v.reg rd').toNat = o.inLen + o.extraLen ∧
      Memory.readBytes v.mem (u.aeadOps rs' .opening).outAddr (u.aeadOps rs' .opening).inLen =
        (s.snapshot rs .sealingX).inp ++ (s.snapshot rs .sealingX).extra

/-! ### The whole machine -/

/-- The reset state meets the invariant (R50, R500), and every register, slot and STATUS field is at its reset value. Its platform
is the model's choice (log 4). -/
def Obligations.InvAtReset : Prop := State.reset.Inv ∧ InReset State.reset

/-- Every step from a state that meets the invariant, be it a host move, a sequencer phase or a completion, gives a state that
meets it: bus memory canonical and within the bus space, slots empty or well-formed contexts (R44), BUSY and DONE never both 1
(R41), no buffer or phase outliving a command (R49), the phase one of the running command's sequencer, and past the prologue the
checks passed and no buffer longer than the region it is written to (R90, R206). The form of memory and of cleared buffers and the
buffers of the phases are the model's (log 3, log 11, log 12). -/
def Obligations.InvKeptByStep : Prop := ∀ s t : State, s.Inv → step s = .next t → t.Inv

/-- Every command completes, in every state, with one of the codes of R42 in STATUS.ERR, BUSY 0 and DONE 1, with no buffer and no
phase left over and no other control field changed (R41, R49, R450, R521); and the turn of a busy engine completes its command or
illegal word from whatever phase it is in. That REC.RMPAD with an odd rd, no legal word, completes too, and that a turn runs all the
phases left, is the model's choice (log 19, log 11). -/
def Obligations.EveryCommandCompletes : Prop :=
  (∀ (i : Instr) (s : State), ∃ t c, exec i s = .next t ∧ Completed c s t) ∧
  (∀ (s : State), s.busy = true → ∃ t c, engineTurn s = .next t ∧ Completed c s t)

/-- The codes a command completes with are those of R451. -/
def Obligations.CodesByCommand : Prop :=
  ∀ (i : Instr) (s t : State), WellFormed i → exec i s = .next t → t.err ∈ codesOf i

/-- A command writes no argument register but its destinations, and none at all unless it completes with OK (R31, R210). -/
def Obligations.RegistersWrittenOnlyOnOk : Prop :=
  ∀ (i : Instr) (s t : State), exec i s = .next t →
    SameRegsExcept (destinations i) s t ∧ (t.err ≠ .ok → SameRegsExcept [] s t)

/-- Precision (R453): a command that completes with CONFIG, TOOLARGE, BUFSMALL, ILLEGAL, BUSERR or CTXERR has written no register,
slot or byte of memory; one that completes with AUTHFAIL no register and no slot, and no byte of memory either but for SIV.OPEN,
which has written its output region alone. -/
def Obligations.ErrorsWriteNothing : Prop :=
  ∀ (i : Instr) (s t : State), exec i s = .next t → t.err ≠ .ok →
    SameRegsExcept [] s t ∧ SameSlotsExcept [] s t ∧
    (t.err ≠ .authFail → SameMemOutside [] s t) ∧
    (∀ rd rs ctx, i = .sivOpen rd rs ctx → SameMemOutside [outRegion (s.aeadOps rs .opening)] s t) ∧
    ((∀ rd rs ctx, i ≠ .sivOpen rd rs ctx) → SameMemOutside [] s t)

/-- What changes a slot (R45): of the commands only INIT, completing with OK on an empty slot, and AEAD.CLEANUP, and only the slot
they name, so that no SEAL, SEALX or OPEN writes one; of the machine's steps only the engine's turn or tick on such a command, and
the two resets, which empty it. -/
def Obligations.SlotsWrittenOnlyByInitAndCleanup : Prop :=
  (∀ (i : Instr) (s t : State) (c : Ctx), exec i s = .next t → t.slot c ≠ s.slot c →
    (i = .aeadCleanup c ∧ t.slot c = Slot.empty) ∨
    (∃ f rs, i = Family.initInstr f rs c ∧ t.err = .ok ∧ (s.slot c).valid = false ∧ (t.slot c).valid = true)) ∧
  (∀ (s t : State) (c : Ctx), step s = .next t → t.slot c ≠ s.slot c →
    (∃ w, s.running = some w ∧ t.running = none ∧ decode w = .ok (.aeadCleanup c) ∧ t.slot c = Slot.empty) ∨
    (∃ w f rs, s.running = some w ∧ t.running = none ∧ decode w = .ok (Family.initInstr f rs c) ∧ t.err = .ok ∧
      (s.slot c).valid = false ∧ (t.slot c).valid = true) ∨
    (t.slot c = Slot.empty ∧ ∃ rest, s.moves = .host .powerOn :: rest) ∨
    (t.slot c = Slot.empty ∧ ∃ a v rest, s.moves = .host (.winWrite a 4 v) :: rest ∧
      a.toNat = s.platform.base.toNat + 0x008 ∧ v.getLsbD 1 = true))

/-- Bus memory changes only in the regions a command writes, and in none where its checks fail (R81, R95, R209, R211): every byte
outside its write set reads as before, after the whole command and after any one phase of it; and its write set is among the
regions that its registers and its descriptor block name. What a phase writes is the model's reading of the tables (log 11). -/
def Obligations.MemoryChangesOnlyInWriteSet : Prop :=
  (∀ (i : Instr) (s t : State), s.Inv → exec i s = .next t → SameMemOutside (writeSet i s) s t) ∧
  (∀ (i : Instr) (s t : State) (w : Word32), s.Inv → s.running = some w → decode w = .ok i → engineTick s = .next t →
    SameMemOutside (writeSet i s) s t) ∧
  (∀ (i : Instr) (s : State), ∀ r ∈ writeSet i s, r ∈ (footprint i s).writes)

/-- The bus trace is a function of public inputs (R522, R523, R178, R215, R405, R413): two runs of one command whose public inputs
agree issue the same sequence of directions and addresses, whatever the keys, data, tags, masks and the in_len of REC.XMAC; for
EAX.OPEN and CCP.OPEN the outcome counts as public. The trace is byte by byte in the order of the pseudocode (log 17). -/
def Obligations.BusTraceIsPublic : Prop :=
  ∀ (i : Instr) (s s' t t' : State), PublicEq i s s' → exec i s = .next t → exec i s' = .next t' →
    (∀ rd rs ctx, i = .eaxOpen rd rs ctx ∨ i = .ccpOpen rd rs ctx → t.err = t'.err) → t.bus = t'.bus

/-- The accelerated GCM-SIV path changes no result (R47): exec commutes with the choice of SIV_ACCEL. -/
def Obligations.AcceleratedPathChangesNothing : Prop :=
  ∀ (i : Instr) (s t : State) (b : Bool), exec i s = .next t → exec i (s.withAccel b) = .next (t.withAccel b)

/-! ### The sequencers (R257, R258, R311, R358) -/

/-- The engine run phase by phase from a command's acceptance ends, within 20 phases, in the same state as the one transition of
R12, for every command and every state. A phase after the prologue works on the buffers alone, and what a writing phase writes is
what they hold: S5 the ciphertext and the tag, O5 the plaintext of the input buffer, X1 of SEAL the keystream applied to the input
and the tag, X1 of OPEN the candidate plaintext, which it keeps for the phases after it, V nothing but rd or AUTHFAIL, Q6 the
ciphertext and the trailer ciphertext before the tag, Q8 the plaintext. Which buffer holds what is the model's reading of the
tables (log 11). -/
def Obligations.PhasesRefineCommand : Prop :=
  (∀ (s : State) (w : Word32) (i : Instr), s.running = some w → decode w = .ok i → s.phase = startPhase i →
    runTicks 20 s = exec i s) ∧
  (∀ (s : State) (w : Word32) (rd rs : Reg) (ctx : Ctx), s.running = some w →
    let b := s.work
    let sl := s.slot ctx
    let sivOut := sivCtrFrom b.encKey b.ctrBlock b.inp
    (decode w = .ok (.eaxSeal rd rs ctx) → s.phase = .s5 → ∃ t, engineTick s = .next t ∧ Completed .ok s t ∧ t.reg rd = 16 ∧
      t.mem = Memory.writeBytes (Memory.writeBytes s.mem b.ops.outAddr b.out) b.ops.tagAddr b.tag) ∧
    (decode w = .ok (.eaxOpen rd rs ctx) → s.phase = .o5 → ∃ t, engineTick s = .next t ∧ Completed .ok s t ∧
      t.reg rd = BitVec.ofNat 64 b.ops.inLen ∧
      t.mem = Memory.writeBytes s.mem b.ops.outAddr (eaxCtr (slotEnc sl) b.omacN b.inp)) ∧
    (decode w = .ok (.sivSeal rd rs ctx) → s.phase = .ctr → ∃ t, engineTick s = .next t ∧ Completed .ok s t ∧ t.reg rd = 16 ∧
      t.mem = Memory.writeBytes (Memory.writeBytes s.mem b.ops.outAddr sivOut) b.ops.tagAddr b.tag) ∧
    (decode w = .ok (.sivOpen rd rs ctx) → s.phase = .ctr → ∃ t, engineTick s = .next t ∧ t.running = some w ∧
      t.phase = .hash ∧ t.work = { b with out := sivOut } ∧ t.mem = Memory.writeBytes s.mem b.ops.outAddr sivOut ∧
      SameRegsExcept [] s t ∧ SameSlotsExcept [] s t) ∧
    (decode w = .ok (.sivOpen rd rs ctx) → s.phase = .verify → b.tag.length = b.recv.length → ∃ t, engineTick s = .next t ∧
      t.mem = s.mem ∧ (b.tag = b.recv → Completed .ok s t ∧ t.reg rd = BitVec.ofNat 64 b.ops.inLen) ∧
      (b.tag ≠ b.recv → NothingWritten .authFail s t)) ∧
    (decode w = .ok (.ccpSeal rd rs ctx) ∨ decode w = .ok (.ccpSealx rd rs ctx) → s.phase = .q6 →
      ∃ t, engineTick s = .next t ∧ Completed .ok s t ∧ t.reg rd = BitVec.ofNat 64 (b.ops.extraLen + sl.tagLen) ∧
      t.mem = Memory.writeBytes (Memory.writeBytes s.mem b.ops.outAddr b.out) b.ops.tagAddr (b.xout ++ b.tag)) ∧
    (decode w = .ok (.ccpOpen rd rs ctx) → s.phase = .q8 → ∃ t, engineTick s = .next t ∧ Completed .ok s t ∧
      t.reg rd = BitVec.ofNat 64 b.ops.inLen ∧
      t.mem = Memory.writeBytes s.mem b.ops.outAddr (xorBytes b.inp (ccpKeystream sl.key b.nonce 0 b.ops.inLen))))

/-- EAX.OPEN and CCP.OPEN reach their decrypting phase, O5 and Q8, only when the conditions of their prologue hold and the received
tag is the recomputed one (R258, R358, R213); no command writes a register or a slot before its completing phase, and none but
SIV.OPEN a byte of memory; SIV.OPEN writes its output region alone, and no byte of it before phase X1 has run (R310, R311). That
EAX.SEAL writes C in S5 and not during S3 is the model's choice (log 11). -/
def Obligations.DecryptPhaseNeedsVerifiedTag : Prop :=
  (∀ (s t : State) (w : Word32) (rd rs : Reg) (ctx : Ctx) (n : Nat), s.running = some w → (s.slot ctx).wf →
    runTicks n s = .next t →
    (decode w = .ok (.eaxOpen rd rs ctx) → s.phase = .o0 → t.phase = .o5 →
      AeadReady .eax .opening rs ctx s ∧ (s.snapshot rs .opening).recv =
        eaxTag (s.slot ctx) (s.snapshot rs .opening).nonce (s.snapshot rs .opening).ad (s.snapshot rs .opening).inp) ∧
    (decode w = .ok (.ccpOpen rd rs ctx) → s.phase = .q0 → t.phase = .q8 →
      AeadReady .ccp .opening rs ctx s ∧ (s.snapshot rs .opening).recv =
        ccpMac (s.slot ctx) (s.snapshot rs .opening).nonce (s.snapshot rs .opening).ad (s.snapshot rs .opening).inp)) ∧
  (∀ (s t : State) (w : Word32) (i : Instr) (n : Nat), s.running = some w → decode w = .ok i → runTicks n s = .next t →
    t.running.isSome →
    SameRegsExcept [] s t ∧ SameSlotsExcept [] s t ∧
    ((∀ rd rs ctx, i ≠ .sivOpen rd rs ctx) → SameMemOutside [] s t) ∧
    (∀ rd rs ctx, i = .sivOpen rd rs ctx → s.phase = .p0 →
      SameMemOutside [outRegion (s.aeadOps rs .opening)] s t ∧
      (t.phase ≠ .hash → t.phase ≠ .preTag → t.phase ≠ .tag → t.phase ≠ .verify → SameMemOutside [] s t)))

/-- The phases compute what the commands write: EAX.SEAL in S5 and CCP.SEAL and CCP.SEALX in Q6 hold the ciphertext and the tag of
R255, R355 and R356 in their buffers; SIV.SEAL in X1 holds the tag of R309 and the counter block and key from which counter mode
gives its ciphertext; SIV.OPEN has written the candidate plaintext of R310 to its output region when X1 is done, and in V holds it
and the recomputed tag. Which buffer a phase fills is the model's reading of the tables (log 11). -/
def Obligations.PhasesComputeTags : Prop :=
  ∀ (s : State) (w : Word32) (rd rs : Reg) (ctx : Ctx), s.running = some w →
    let sl := s.slot ctx
    (decode w = .ok (.eaxSeal rd rs ctx) → s.phase = .s0 → AeadReady .eax .sealing rs ctx s →
      let d := s.snapshot rs .sealing
      let c := eaxCtr (slotEnc sl) (slotOmac sl 0 d.nonce) d.inp
      ∃ t, runTicks 5 s = .next t ∧ t.phase = .s5 ∧ t.work.out = c ∧ t.work.tag = eaxTag sl d.nonce d.ad c) ∧
    (decode w = .ok (.sivSeal rd rs ctx) → s.phase = .p0 → AeadReady .siv .sealing rs ctx s →
      let d := s.snapshot rs .sealing
      let keys := sivKeys sl d.nonce
      let tag := sivTag keys.1 keys.2 d.nonce d.ad d.inp
      ∃ t, runTicks (kdfCount sl.alg + 6) s = .next t ∧ t.phase = .ctr ∧ t.work.tag = tag ∧
        sivCtrFrom t.work.encKey t.work.ctrBlock t.work.inp = sivCtr keys.2 tag d.inp) ∧
    (decode w = .ok (.sivOpen rd rs ctx) → s.phase = .p0 → AeadReady .siv .opening rs ctx s →
      let d := s.snapshot rs .opening
      let keys := sivKeys sl d.nonce
      let m := sivCtr keys.2 d.recv d.inp
      (∃ t, runTicks (kdfCount sl.alg + 4) s = .next t ∧ t.phase = .hash ∧ t.work.out = m ∧
        Memory.readBytes t.mem d.ops.outAddr d.ops.inLen = m) ∧
      ∃ t, runTicks (kdfCount sl.alg + 7) s = .next t ∧ t.phase = .verify ∧ t.work.out = m ∧
        Memory.readBytes t.mem d.ops.outAddr d.ops.inLen = m ∧ t.work.tag = sivTag keys.1 keys.2 d.nonce d.ad m) ∧
    (decode w = .ok (.ccpSeal rd rs ctx) → s.phase = .q0 → AeadReady .ccp .sealing rs ctx s →
      let d := s.snapshot rs .sealing
      let c := xorBytes d.inp (ccpKeystream sl.key d.nonce 0 d.ops.inLen)
      ∃ t, runTicks 6 s = .next t ∧ t.phase = .q6 ∧ t.work.out = c ∧ t.work.tag = ccpMac sl d.nonce d.ad c) ∧
    (decode w = .ok (.ccpSealx rd rs ctx) → s.phase = .q0 → AeadReady .ccp .sealingX rs ctx s →
      let d := s.snapshot rs .sealingX
      let c := xorBytes d.inp (ccpKeystream sl.key d.nonce 0 d.ops.inLen)
      let xc := xorBytes d.extra (ccpKeystream sl.key d.nonce d.ops.inLen d.ops.extraLen)
      ∃ t, runTicks 6 s = .next t ∧ t.phase = .q6 ∧ t.work.out = c ∧ t.work.xout = xc ∧
        t.work.tag = ccpMac sl d.nonce d.ad (c ++ xc))

/-! ### Reset, abort and the host's side of memory -/

/-- A soft reset (R502, R37), accepted whether or not the engine is busy, and a power-on reset (R500) put every piece of CTAE's
state at its reset value, the write's IRQ_EN bit discarded; on an idle engine they change no byte of bus memory. That a power-on
during a command does what an abort does is the model's choice (log 9). -/
def Obligations.ResetState : Prop :=
  ∀ (s : State) (a v : Word), a.toNat = s.platform.base.toNat + 0x008 → v.getLsbD 1 = true →
    ∃ t, hostMove (.winWrite a 4 v) s = .next t ∧ hostMove .powerOn s = .next t ∧ InReset t ∧ t.platform = s.platform ∧
      (s.busy = false → SameMemOutside [] s t)

/-- Abort (R506): a soft reset while a command runs ends it without a completion and draws at most the bytes of its write set; for
EAX.OPEN before phase O5 and CCP.OPEN before phase Q8 it changes no byte of memory, and none while an illegal word runs (R127). That
a command whose checks fail has no write set is the model's reading (log 8). -/
def Obligations.AbortDrawsWriteSet : Prop :=
  ∀ (s : State) (a v : Word) (w : Word32), s.Inv → s.running = some w → a.toNat = s.platform.base.toNat + 0x008 →
    v.getLsbD 1 = true →
    ∃ t, hostMove (.winWrite a 4 v) s = .next t ∧ InReset t ∧
      ((∃ e, decode w = .error e) → SameMemOutside [] s t) ∧
      (∀ i, decode w = .ok i → SameMemOutside (writeSet i s) s t) ∧
      (∀ rd rs ctx, decode w = .ok (.eaxOpen rd rs ctx) → s.phase ≠ .o5 → SameMemOutside [] s t) ∧
      (∀ rd rs ctx, decode w = .ok (.ccpOpen rd rs ctx) → s.phase ≠ .q8 → SameMemOutside [] s t)

/-- The host's accesses to bus memory (R93 to R95): on an idle engine a write puts its bytes and changes no other, and a read gives
the byte; while a command runs, a write that touches one of its regions and a read of a byte it writes are refused by name, and
any other goes on as on an idle engine. The regions are the descriptor block and the buffers that the registers and the words of
the block name. That the model refuses such a move by name, that a command names its regions whether or not its checks pass, and
that an address of the window reaches memory here, is the model's way (log 16, log 21, log 24). -/
def Obligations.HostBusAccess : Prop :=
  (∀ (s : State) (a : Word) (data : Bytes), a.toNat + data.length ≤ 2 ^ 64 →
    (∀ r ∈ s.runningFootprint.reads ++ s.runningFootprint.writes, r.overlaps ⟨a.toNat, data.length⟩ = false) →
    ∃ t, hostMove (.busWrite a data) s = .next t ∧ Memory.readBytes t.mem a.toNat data.length = data ∧
      SameMemOutside [⟨a.toNat, data.length⟩] s t ∧ t = { s with mem := t.mem }) ∧
  (∀ (s : State) (a : Word), (∀ r ∈ s.runningFootprint.writes, r.covers a.toNat = false) →
    hostMove (.busRead a) s = .next { s with readData := (Memory.read s.mem a.toNat).zeroExtend 64 }) ∧
  (∀ (s : State) (w : Word32) (i : Instr) (a : Word) (data : Bytes) (r : Region), s.running = some w → decode w = .ok i →
    a.toNat + data.length ≤ 2 ^ 64 →
    (r ∈ (footprint i s).reads ++ (footprint i s).writes → r.overlaps ⟨a.toNat, data.length⟩ = true →
      hostMove (.busWrite a data) s = .refused .hostRace) ∧
    (r ∈ (footprint i s).writes → r.covers a.toNat = true → hostMove (.busRead a) s = .refused .hostRace)) ∧
  (∀ s : State, s.running = none → s.runningFootprint = ⟨[], []⟩) ∧
  (∀ (s : State) (rd rs rs1 rs2 rs3 : Reg) (ctx : Ctx) (f : Family),
    footprint (f.initInstr rs ctx) s = ⟨[⟨s.regNat rs, 24⟩, ⟨(s.initOps rs).keyAddr, (s.initOps rs).keyLen⟩], []⟩ ∧
    (∀ i c, sequenced i = some c → footprint i s = ⟨⟨s.regNat c.rs, 96⟩ :: readRegions c.kind (s.aeadOps c.rs c.kind),
      writeRegions c.kind (s.aeadOps c.rs c.kind) (s.slot c.ctx).tagLen⟩) ∧
    footprint (.ctMemcmp rd rs1 rs2 rs3) s = ⟨[⟨s.regNat rs1, s.regNat rs3⟩, ⟨s.regNat rs2, s.regNat rs3⟩], []⟩ ∧
    footprint (.ctCmxor rd rs1 rs2 rs3) s = ⟨[⟨s.regNat rd, s.regNat rs2⟩, ⟨s.regNat rs1, s.regNat rs2⟩],
      [⟨s.regNat rd, s.regNat rs2⟩]⟩ ∧
    (∀ o, o = rmpadOps s.mem (s.regNat rs) →
      footprint (.recRmpad rd rs) s = ⟨[⟨s.regNat rs, 32⟩, ⟨o.dataAddr, o.inLen⟩], []⟩) ∧
    (∀ o, o = xmacOps s.mem (s.regNat rs) →
      footprint (.recXmac rs) s = ⟨[⟨s.regNat rs, 40⟩, ⟨o.dataAddr, o.origLen⟩], [⟨o.outAddr, o.md⟩]⟩))

end Slice0
end

