-- ==== Sys2Proof/Laws/Bytes.lean ====
section
/-! SUPPORT. The laws of byte strings and of the AEAD functions over them: their lengths, XOR as its own inverse, and when
CT.MEMCMP's function is 0. -/

namespace Sys2Proof.Machine

/-! ### Lengths of the collaborators' results -/

@[simp] theorem aesEnc_length (k b : Bytes) : (aesEnc k b).length = 16 := by simp [aesEnc]

@[simp] theorem chachaBlock_length (k n : Bytes) (c : Nat) : (chachaBlock k n c).length = 64 := by simp [chachaBlock]

@[simp] theorem polyval_length (h m : Bytes) : (polyval h m).length = 16 := by simp [polyval]

@[simp] theorem poly1305_length (k m : Bytes) : (poly1305 k m).length = 16 := by simp [poly1305]

@[simp] theorem zeros_length (n : Nat) : (zeros n).length = n := by simp [zeros]

@[simp] theorem leBytes_length (k n : Nat) : (leBytes k n).length = k := by
  induction k generalizing n with
  | zero => rfl
  | succ k ih => simp [leBytes, ih]

@[simp] theorem be128_length (n : Nat) : (be128 n).length = 16 := by simp [be128]

@[simp] theorem dbl_length (x : Bytes) : (dbl x).length = 16 := by simp [dbl]

/-! ### XOR -/

@[simp] theorem xorBytes_length (a b : Bytes) : (xorBytes a b).length = min a.length b.length := by simp [xorBytes]

theorem xorBytes_getElem (a b : Bytes) (i : Nat) (h : i < (xorBytes a b).length) :
    (xorBytes a b)[i] = a[i]'(by simp at h; omega) ^^^ b[i]'(by simp at h; omega) := by
  simp [xorBytes]

/-- XOR with a string that is long enough is its own inverse. -/
theorem xorBytes_cancel {a k : Bytes} (h : a.length ≤ k.length) : xorBytes (xorBytes a k) k = a := by
  refine List.ext_getElem (by simp; omega) fun i h1 h2 => ?_
  rw [xorBytes_getElem, xorBytes_getElem]
  simp

theorem xorBytes_append {a b k l : Bytes} (h : a.length = k.length) :
    xorBytes (a ++ b) (k ++ l) = xorBytes a k ++ xorBytes b l := by
  simp [xorBytes, List.zipWith_append h]

theorem foldl_or_eq_zero (l : Bytes) (x : Byte) : l.foldl (· ||| ·) x = 0 ↔ x = 0 ∧ ∀ b ∈ l, b = 0 := by
  induction l generalizing x with
  | nil => simp
  | cons y ys ih =>
    simp only [List.foldl_cons, ih, List.mem_cons, forall_eq_or_imp, ← and_assoc]
    refine and_congr_left fun _ => ?_
    constructor
    · intro h
      have hx : x = 0 := by
        ext i hi
        have := congrArg (·.getLsbD i) h
        simp only [BitVec.getLsbD_or] at this
        simp [BitVec.getLsbD_eq_getElem hi] at this ⊢
        exact this.1
      have hy : y = 0 := by simpa [hx] using h
      exact ⟨hx, hy⟩
    · rintro ⟨rfl, rfl⟩; rfl

/-- CT.MEMCMP's function is 0 exactly when the strings, of one length, are equal (R176). -/
theorem memcmpBytes_eq_zero {a b : Bytes} (h : a.length = b.length) : memcmpBytes a b = 0 ↔ a = b := by
  rw [memcmpBytes, foldl_or_eq_zero]
  constructor
  · rintro ⟨-, hz⟩
    refine List.ext_getElem h fun i h1 h2 => ?_
    have hi : i < (xorBytes a b).length := by simp; omega
    have := hz _ (List.getElem_mem hi)
    rw [xorBytes_getElem] at this
    exact BitVec.xor_eq_zero_iff.mp this
  · rintro rfl
    refine ⟨rfl, fun x hx => ?_⟩
    obtain ⟨i, hi, rfl⟩ := List.getElem_of_mem hx
    rw [xorBytes_getElem]
    exact BitVec.xor_self

/-! ### Blocks -/

theorem flatMap_range_length {f : Nat → Bytes} {c : Nat} (h : ∀ k, (f k).length = c) (n : Nat) :
    ((List.range n).flatMap f).length = c * n := by
  induction n with
  | zero => simp
  | succ n ih => rw [List.range_succ, List.flatMap_append, List.length_append, ih]; simp [h, Nat.mul_succ]

theorem le_mul_ceilDiv (n c : Nat) (h : 0 < c) : n ≤ c * ceilDiv n c := by
  unfold ceilDiv
  have := Nat.div_add_mod (n + c - 1) c
  have := Nat.mod_lt (n + c - 1) h
  omega

/-! ### EAX -/

theorem omacBlocks_length {e : Bytes → Bytes} (he : ∀ x, (e x).length = 16) (b p x : Bytes) (l : List Bytes)
    (hx : x.length = 16) : (omacBlocks e b p x l).length = 16 := by
  induction l generalizing x with
  | nil => exact hx
  | cons y ys ih =>
    cases ys with
    | nil => simp only [omacBlocks]; split <;> simp [he]
    | cons z zs => exact ih _ (he _)

@[simp] theorem slotOmac_length (sl : Slot) (t : Byte) (m : Bytes) : (slotOmac sl t m).length = 16 := by
  unfold slotOmac omac
  split
  · simp [slotEnc]
  · exact omacBlocks_length (by simp [slotEnc]) _ _ _ _ (by simp [slotEnc])

@[simp] theorem eaxTag_length (sl : Slot) (n a c : Bytes) : (eaxTag sl n a c).length = 16 := by simp [eaxTag]

theorem eaxKeystream_length (sl : Slot) (n : Bytes) (k : Nat) : (eaxKeystream (slotEnc sl) n k).length = 16 * k :=
  flatMap_range_length (by simp [slotEnc]) k

@[simp] theorem eaxCtr_length (sl : Slot) (n d : Bytes) : (eaxCtr (slotEnc sl) n d).length = d.length := by
  have := le_mul_ceilDiv d.length 16 (by decide)
  simp [eaxCtr, eaxKeystream_length]; omega

/-- EAX's counter mode is its own inverse (R254). -/
theorem eaxCtr_eaxCtr (sl : Slot) (n d : Bytes) : eaxCtr (slotEnc sl) n (eaxCtr (slotEnc sl) n d) = d := by
  have := le_mul_ceilDiv d.length 16 (by decide)
  rw [eaxCtr, eaxCtr_length, eaxCtr, xorBytes_cancel (by rw [eaxKeystream_length]; omega)]

/-! ### GCM-SIV -/

@[simp] theorem sivTag_length (ak ek n a m : Bytes) : (sivTag ak ek n a m).length = 16 := by simp [sivTag]

theorem sivKeystream_length (ek cb : Bytes) (k : Nat) :
    ((List.range k).flatMap fun j => aesEnc ek (sivCounter cb j)).length = 16 * k :=
  flatMap_range_length (by simp) k

@[simp] theorem sivCtrFrom_length (ek cb d : Bytes) : (sivCtrFrom ek cb d).length = d.length := by
  have := le_mul_ceilDiv d.length 16 (by decide)
  rw [sivCtrFrom, xorBytes_length, sivKeystream_length]; omega

@[simp] theorem sivCtr_length (ek tag d : Bytes) : (sivCtr ek tag d).length = d.length := sivCtrFrom_length ek _ d

/-- GCM-SIV's counter mode is its own inverse (R307). -/
theorem sivCtr_sivCtr (ek tag d : Bytes) : sivCtr ek tag (sivCtr ek tag d) = d := by
  have := le_mul_ceilDiv d.length 16 (by decide)
  rw [sivCtr, sivCtrFrom, sivCtr_length, sivCtr, sivCtrFrom, xorBytes_cancel (by rw [sivKeystream_length]; omega)]

/-! ### ChaCha20-Poly1305 -/

theorem ccpBlocks_length (key nonce : Bytes) (k : Nat) :
    ((List.range k).flatMap fun j => chachaBlock key nonce (1 + j)).length = 64 * k :=
  flatMap_range_length (by simp) k

@[simp] theorem ccpKeystream_length (key nonce : Bytes) (o n : Nat) : (ccpKeystream key nonce o n).length = n := by
  have := le_mul_ceilDiv (o + n) 64 (by decide)
  rw [ccpKeystream, List.length_take, List.length_drop, ccpBlocks_length]; omega

@[simp] theorem ccpMac_length (sl : Slot) (n a c : Bytes) : (ccpMac sl n a c).length = min sl.tagLen 16 := by simp [ccpMac]

theorem flatMap_range_prefix (f : Nat → Bytes) {j k : Nat} (h : j ≤ k) :
    ∃ rest, (List.range k).flatMap f = (List.range j).flatMap f ++ rest := by
  obtain ⟨d, rfl⟩ := Nat.exists_eq_add_of_le h
  exact ⟨_, by rw [List.range_add, List.flatMap_append]⟩

/-- The keystream from offset o does not depend on how many bytes are asked for, and continues at o + n (R353, R356). -/
theorem ccpKeystream_append (key nonce : Bytes) (o n k : Nat) :
    ccpKeystream key nonce o (n + k) = ccpKeystream key nonce o n ++ ccpKeystream key nonce (o + n) k := by
  have h1 := le_mul_ceilDiv (o + n) 64 (by decide)
  have hle : ceilDiv (o + n) 64 ≤ ceilDiv (o + (n + k)) 64 := Nat.div_le_div_right (by omega)
  obtain ⟨rest, hr⟩ := flatMap_range_prefix (fun j => chachaBlock key nonce (1 + j)) hle
  simp only [ccpKeystream, Nat.add_assoc]
  rw [List.take_add, hr]
  congr 1
  · rw [List.drop_append_of_le_length (by rw [ccpBlocks_length]; omega),
      List.take_append_of_le_length (by rw [List.length_drop, ccpBlocks_length]; omega)]
  · rw [List.drop_drop]

/-- The XOR with the keystream is its own inverse (R353). -/
theorem ccpXor_cancel (key nonce d : Bytes) (o n : Nat) (h : d.length = n) :
    xorBytes (xorBytes d (ccpKeystream key nonce o n)) (ccpKeystream key nonce o n) = d :=
  xorBytes_cancel (by simp [h])

/-! ### The record unit -/

@[simp] theorem xmacRotateOnce_length (md o : Nat) (r : Word) (rot : Bytes) : (xmacRotateOnce md o r rot).length = md := by
  simp [xmacRotateOnce]

theorem xmacRotate_length (md fuel o : Nat) (r : Word) (rot : Bytes) (h : rot.length = md) :
    (xmacRotate md fuel o r rot).length = md := by
  induction fuel generalizing o r rot with
  | zero => exact h
  | succ fuel ih =>
    rw [xmacRotate]
    split
    · exact ih _ _ _ (by simp)
    · exact h

theorem xmacScan_rot_length (md : Nat) (ms me : Word) (i : Nat) (bs : Bytes) (c : XmacScan) :
    (xmacScan md ms me i bs c).rot.length = c.rot.length := by
  induction bs generalizing i c with
  | nil => rfl
  | cons b bs ih => rw [xmacScan, ih]; simp [xmacStep]

@[simp] theorem xmacGather_rot_length (w : Bytes) (md inLen origLen : Nat) :
    (xmacGather w md inLen origLen).rot.length = md := by
  rw [xmacGather, xmacScan_rot_length]; simp

end Sys2Proof.Machine
end

