-- ==== Sys2Proof/Laws/Decode.lean ====
section
/-! SUPPORT. The fields of an encoded command word, and what its mask and its op byte select. -/

namespace Sys2Proof

/-! ### The fields of a concatenation -/

theorem reg_roundtrip (r : Reg) : Fin.ofNat 8 (BitVec.ofNat 3 r.val).toNat = r := by revert r; decide

theorem ctx_roundtrip (c : Ctx) : Fin.ofNat 4 ((BitVec.ofNat 4 c.val).extractLsb' 0 2).toNat = c := by revert c; decide

/-! ### Format R -/

theorem opByte_wordR (op : BitVec 8) (rd rs1 rs2 rs3 : Reg) : opByte (wordR op rd rs1 rs2 rs3) = op := by
  ext i hi; simp only [opByte, wordR, BitVec.getElem_extractLsb', BitVec.getLsbD_append]; interval_cases i <;> simp

theorem rdField_wordR (op : BitVec 8) (rd rs1 rs2 rs3 : Reg) : rdField (wordR op rd rs1 rs2 rs3) = rd := by
  have h : (wordR op rd rs1 rs2 rs3).extractLsb' 21 3 = BitVec.ofNat 3 rd.val := by
    ext i hi; simp only [wordR, BitVec.getElem_extractLsb', BitVec.getLsbD_append]; interval_cases i <;> simp
  rw [rdField, regField, h, reg_roundtrip]

theorem rs1Field_wordR (op : BitVec 8) (rd rs1 rs2 rs3 : Reg) : rs1Field (wordR op rd rs1 rs2 rs3) = rs1 := by
  have h : (wordR op rd rs1 rs2 rs3).extractLsb' 18 3 = BitVec.ofNat 3 rs1.val := by
    ext i hi; simp only [wordR, BitVec.getElem_extractLsb', BitVec.getLsbD_append]; interval_cases i <;> simp
  rw [rs1Field, regField, h, reg_roundtrip]

theorem rs2Field_wordR (op : BitVec 8) (rd rs1 rs2 rs3 : Reg) : rs2Field (wordR op rd rs1 rs2 rs3) = rs2 := by
  have h : (wordR op rd rs1 rs2 rs3).extractLsb' 15 3 = BitVec.ofNat 3 rs2.val := by
    ext i hi; simp only [wordR, BitVec.getElem_extractLsb', BitVec.getLsbD_append]; interval_cases i <;> simp
  rw [rs2Field, regField, h, reg_roundtrip]

theorem rs3Field_wordR (op : BitVec 8) (rd rs1 rs2 rs3 : Reg) : rs3Field (wordR op rd rs1 rs2 rs3) = rs3 := by
  have h : (wordR op rd rs1 rs2 rs3).extractLsb' 12 3 = BitVec.ofNat 3 rs3.val := by
    ext i hi; simp only [wordR, BitVec.getElem_extractLsb', BitVec.getLsbD_append]; interval_cases i <;> simp
  rw [rs3Field, regField, h, reg_roundtrip]

/-! ### Format D -/

theorem opByte_wordD (op : BitVec 8) (rd rs : Reg) (ctx : Ctx) : opByte (wordD op rd rs ctx) = op := by
  ext i hi; simp only [opByte, wordD, BitVec.getElem_extractLsb', BitVec.getLsbD_append]; interval_cases i <;> simp

theorem rdField_wordD (op : BitVec 8) (rd rs : Reg) (ctx : Ctx) : rdField (wordD op rd rs ctx) = rd := by
  have h : (wordD op rd rs ctx).extractLsb' 21 3 = BitVec.ofNat 3 rd.val := by
    ext i hi; simp only [wordD, BitVec.getElem_extractLsb', BitVec.getLsbD_append]; interval_cases i <;> simp
  rw [rdField, regField, h, reg_roundtrip]

theorem rsField_wordD (op : BitVec 8) (rd rs : Reg) (ctx : Ctx) : rsField (wordD op rd rs ctx) = rs := by
  have h : (wordD op rd rs ctx).extractLsb' 18 3 = BitVec.ofNat 3 rs.val := by
    ext i hi; simp only [wordD, BitVec.getElem_extractLsb', BitVec.getLsbD_append]; interval_cases i <;> simp
  rw [rsField, regField, h, reg_roundtrip]

theorem ctxField_wordD (op : BitVec 8) (rd rs : Reg) (ctx : Ctx) : ctxField (wordD op rd rs ctx) = ctx := by
  have h : (wordD op rd rs ctx).extractLsb' 8 2 = (BitVec.ofNat 4 ctx.val).extractLsb' 0 2 := by
    ext i hi; simp only [wordD, BitVec.getElem_extractLsb', BitVec.getLsbD_append]; interval_cases i <;> simp
  rw [ctxField, h, ctx_roundtrip]

/-! ### Masks -/

/-- The word with an op byte and every field 0. -/
def opWord (op : BitVec 8) : Word32 := wordR op 0 0 0 0

/-- The mask of a command with the fields rd, rs1, rs2 and rs3. -/
theorem wordR_mask4 (op : BitVec 8) (rd rs1 rs2 rs3 : Reg) :
    wordR op rd rs1 rs2 rs3 &&& 0xFF000FFF#32 = opWord op := by
  refine BitVec.eq_of_getLsbD_eq fun i hi => ?_
  simp only [opWord, wordR, BitVec.getLsbD_and, BitVec.getLsbD_append]
  interval_cases i <;> simp

/-- The mask of a command with the fields rd, rs1 and rs2. -/
theorem wordR_mask3 (op : BitVec 8) (rd rs1 rs2 : Reg) :
    wordR op rd rs1 rs2 0 &&& 0xFF007FFF#32 = opWord op := by
  refine BitVec.eq_of_getLsbD_eq fun i hi => ?_
  simp only [opWord, wordR, BitVec.getLsbD_and, BitVec.getLsbD_append]
  interval_cases i <;> simp

/-- The mask of a command with the fields rd and rs1. -/
theorem wordR_mask2 (op : BitVec 8) (rd rs1 : Reg) :
    wordR op rd rs1 0 0 &&& 0xFF03FFFF#32 = opWord op := by
  refine BitVec.eq_of_getLsbD_eq fun i hi => ?_
  simp only [opWord, wordR, BitVec.getLsbD_and, BitVec.getLsbD_append]
  interval_cases i <;> simp

theorem ctx_high_zero (c : Ctx) : (BitVec.ofNat 4 c.val).getLsbD 2 = false ∧ (BitVec.ofNat 4 c.val).getLsbD 3 = false := by
  revert c; decide

theorem even_bit_zero (r : Reg) (h : r.val % 2 = 0) : (BitVec.ofNat 3 r.val).getLsbD 0 = false := by
  revert r; decide

/-- The mask of a command with the fields rd, rs and ctx. -/
theorem wordD_mask3 (op : BitVec 8) (rd rs : Reg) (ctx : Ctx) :
    wordD op rd rs ctx &&& 0xFF03FCFF#32 = opWord op := by
  have h := ctx_high_zero ctx
  refine BitVec.eq_of_getLsbD_eq fun i hi => ?_
  simp only [opWord, wordR, wordD, BitVec.getLsbD_and, BitVec.getLsbD_append]
  interval_cases i <;> simp_all [BitVec.getLsbD_eq_getElem]

/-- The mask of a command with the fields rs and ctx. -/
theorem wordD_mask2 (op : BitVec 8) (rs : Reg) (ctx : Ctx) :
    wordD op 0 rs ctx &&& 0xFFE3FCFF#32 = opWord op := by
  have h := ctx_high_zero ctx
  refine BitVec.eq_of_getLsbD_eq fun i hi => ?_
  simp only [opWord, wordR, wordD, BitVec.getLsbD_and, BitVec.getLsbD_append]
  interval_cases i <;> simp_all [BitVec.getLsbD_eq_getElem]

/-- The mask of AEAD.CLEANUP. -/
theorem wordD_mask1 (op : BitVec 8) (ctx : Ctx) :
    wordD op 0 0 ctx &&& 0xFFFFFCFF#32 = opWord op := by
  have h := ctx_high_zero ctx
  refine BitVec.eq_of_getLsbD_eq fun i hi => ?_
  simp only [opWord, wordR, wordD, BitVec.getLsbD_and, BitVec.getLsbD_append]
  interval_cases i <;> simp_all [BitVec.getLsbD_eq_getElem]

/-- The mask of REC.XMAC. -/
theorem wordD_maskXmac (op : BitVec 8) (rs : Reg) :
    wordD op 0 rs 0 &&& 0xFFE3FFFF#32 = opWord op := by
  refine BitVec.eq_of_getLsbD_eq fun i hi => ?_
  simp only [opWord, wordR, wordD, BitVec.getLsbD_and, BitVec.getLsbD_append]
  interval_cases i <;> simp

/-- The mask of REC.RMPAD, whose rd is even. -/
theorem wordD_maskRmpad (op : BitVec 8) (rd rs : Reg) (h : rd.val % 2 = 0) :
    wordD op rd rs 0 &&& 0xFF23FFFF#32 = opWord op := by
  have h := even_bit_zero rd h
  refine BitVec.eq_of_getLsbD_eq fun i hi => ?_
  simp only [opWord, wordR, wordD, BitVec.getLsbD_and, BitVec.getLsbD_append]
  interval_cases i <;> simp_all [BitVec.getLsbD_eq_getElem]

/-- The row of a word depends on its op byte alone (R128). -/
theorem rowOf_of_opByte {w v : Word32} (h : opByte w = opByte v) : rowOf w = rowOf v := by simp [rowOf, h]

end Sys2Proof
end

