-- ==== Sys2Proof/Laws/Memory.lean ====
section
/-! SUPPORT. The laws of bus memory: what a byte reads as after each operation, and that every operation keeps the canonical
form and the bounds of the bus space. -/

namespace Sys2Proof.Machine

/-! ### Reading one byte -/

theorem Memory.read_erase (m : Memory) (a b : Nat) :
    Memory.read (Memory.erase m a) b = if b = a then Config.unwrittenByte else Memory.read m b := by
  induction m with
  | nil => simp [Memory.erase, Memory.read]
  | cons c rest ih =>
    obtain ⟨k, v⟩ := c
    by_cases hk : k = a
    · subst hk
      simp only [Memory.erase, if_true, ih, Memory.read]
      by_cases hb : b = k
      · simp [hb]
      · simp [hb, Ne.symm hb]
    · simp only [Memory.erase, hk, if_false, Memory.read, ih]
      by_cases hb : k = b
      · subst hb; simp [hk]
      · simp [hb]

theorem Memory.erase_ne (m : Memory) (a : Nat) : ∀ c ∈ Memory.erase m a, c.1 ≠ a := by
  induction m with
  | nil => simp [Memory.erase]
  | cons c rest ih =>
    obtain ⟨k, v⟩ := c
    by_cases hk : k = a
    · simpa [Memory.erase, hk] using ih
    · intro c hc
      simp only [Memory.erase, hk, if_false, List.mem_cons] at hc
      rcases hc with rfl | hc
      · exact hk
      · exact ih c hc

theorem Memory.read_insert_ne (m : Memory) (a b : Nat) (v : Byte) (h : b ≠ a) :
    Memory.read (Memory.insert m a v) b = Memory.read m b := by
  induction m with
  | nil => simp [Memory.insert, Memory.read, Ne.symm h]
  | cons c rest ih =>
    obtain ⟨k, w⟩ := c
    simp only [Memory.insert]
    split
    · simp [Memory.read, Ne.symm h]
    · simp [Memory.read, ih]

theorem Memory.read_insert_same (m : Memory) (a : Nat) (v : Byte) (h : ∀ c ∈ m, c.1 ≠ a) :
    Memory.read (Memory.insert m a v) a = v := by
  induction m with
  | nil => simp [Memory.insert, Memory.read]
  | cons c rest ih =>
    obtain ⟨k, w⟩ := c
    have hk : k ≠ a := h (k, w) (by simp)
    simp only [Memory.insert]
    split
    · simp [Memory.read]
    · simp [Memory.read, hk, ih fun c hc => h c (by simp [hc])]

/-- The written byte reads as the value written; every other byte reads as before. -/
@[simp] theorem Memory.read_write (m : Memory) (a : Nat) (v : Byte) (b : Nat) :
    Memory.read (Memory.write m a v) b = if b = a then v else Memory.read m b := by
  unfold Memory.write
  by_cases hv : v = Config.unwrittenByte
  · simp [hv, Memory.read_erase]
  · rw [if_neg hv]
    by_cases hb : b = a
    · subst hb; simp [Memory.read_insert_same _ _ _ (Memory.erase_ne m b)]
    · simp [hb, Memory.read_insert_ne, Memory.read_erase]

/-! ### Strings of bytes -/

@[simp] theorem Memory.readBytes_length (m : Memory) (a n : Nat) : (Memory.readBytes m a n).length = n := by
  induction n generalizing a with
  | zero => rfl
  | succ n ih => simp [Memory.readBytes, ih]

@[simp] theorem Memory.readBytes_getElem (m : Memory) (a n i : Nat) (h : i < (Memory.readBytes m a n).length) :
    (Memory.readBytes m a n)[i] = Memory.read m (a + i) := by
  induction n generalizing a i with
  | zero => simp at h
  | succ n ih =>
    cases i with
    | zero => simp [Memory.readBytes]
    | succ i =>
      simp only [Memory.readBytes, List.getElem_cons_succ]
      rw [ih]
      congr 1; omega

/-- Two memories that agree on a region give the same string. -/
theorem Memory.readBytes_congr {m m' : Memory} {a n : Nat}
    (h : ∀ b, a ≤ b → b < a + n → Memory.read m b = Memory.read m' b) :
    Memory.readBytes m a n = Memory.readBytes m' a n := by
  refine List.ext_getElem (by simp) fun i h1 h2 => ?_
  simp only [Memory.readBytes_length] at h1
  simpa using h (a + i) (by omega) (by omega)

theorem Memory.readBytes_append (m : Memory) (a n k : Nat) :
    Memory.readBytes m a (n + k) = Memory.readBytes m a n ++ Memory.readBytes m (a + n) k := by
  refine List.ext_getElem (by simp) fun i h1 h2 => ?_
  simp only [Memory.readBytes_getElem, List.getElem_append, Memory.readBytes_length]
  split <;> congr 1
  omega

/-- A byte inside the written range reads as the byte written there; every other byte reads as before. -/
theorem Memory.read_writeBytes (m : Memory) (a : Nat) (bs : Bytes) (b : Nat) :
    Memory.read (Memory.writeBytes m a bs) b =
      if a ≤ b ∧ b < a + bs.length then bs.getD (b - a) 0 else Memory.read m b := by
  induction bs generalizing m a with
  | nil => simp only [Memory.writeBytes, List.length_nil]; rw [if_neg (by omega)]
  | cons x xs ih =>
    rw [Memory.writeBytes, ih, Memory.read_write]
    simp only [List.length_cons]
    by_cases h1 : b = a
    · subst h1
      rw [if_neg (by omega), if_pos rfl, if_pos (by omega)]
      simp
    · by_cases h2 : a + 1 ≤ b ∧ b < a + 1 + xs.length
      · rw [if_pos h2, if_pos (by omega)]
        obtain ⟨d, rfl⟩ : ∃ d, b = a + 1 + d := ⟨b - (a + 1), by omega⟩
        rw [show a + 1 + d - (a + 1) = d by omega, show a + 1 + d - a = d + 1 by omega]
        simp
      · rw [if_neg h2, if_neg h1, if_neg (by omega)]

theorem Memory.read_writeBytes_outside {m : Memory} {a : Nat} {bs : Bytes} {b : Nat} (h : b < a ∨ a + bs.length ≤ b) :
    Memory.read (Memory.writeBytes m a bs) b = Memory.read m b := by
  rw [Memory.read_writeBytes, if_neg (by omega)]

/-- What was written is what is read back. -/
@[simp] theorem Memory.readBytes_writeBytes_same (m : Memory) (a : Nat) (bs : Bytes) :
    Memory.readBytes (Memory.writeBytes m a bs) a bs.length = bs := by
  refine List.ext_getElem (by simp) fun i h1 h2 => ?_
  rw [Memory.readBytes_getElem, Memory.read_writeBytes, if_pos (by omega)]
  simp [h2]

/-- A string apart from the written range reads as before. -/
theorem Memory.readBytes_writeBytes_apart {m : Memory} {a n c : Nat} {bs : Bytes}
    (h : n = 0 ∨ bs.length = 0 ∨ a + n ≤ c ∨ c + bs.length ≤ a) :
    Memory.readBytes (Memory.writeBytes m c bs) a n = Memory.readBytes m a n := by
  apply Memory.readBytes_congr
  intro b hb hb'
  exact Memory.read_writeBytes_outside (by omega)

/-- A draw changes no byte outside its range. -/
theorem Memory.read_drawBytes_outside {n a k : Nat} {m : Memory} {b : Nat} (h : b < a ∨ a + n ≤ b) :
    Memory.read (Memory.drawBytes n a k m) b = Memory.read m b := by
  induction n generalizing a k m with
  | zero => rfl
  | succ n ih =>
    rw [Memory.drawBytes, ih (by omega), Memory.read_write, if_neg (by omega)]

/-- Byte i of a drawn range is draw number k + i. -/
theorem Memory.read_drawBytes_inside {n a k : Nat} {m : Memory} {i : Nat} (h : i < n) :
    Memory.read (Memory.drawBytes n a k m) (a + i) = Config.freeByte (k + i) := by
  induction n generalizing a k m i with
  | zero => omega
  | succ n ih =>
    rw [Memory.drawBytes]
    cases i with
    | zero => rw [Memory.read_drawBytes_outside (by omega)]; simp
    | succ i =>
      have := @ih (a + 1) (k + 1) (Memory.write m a (Config.freeByte k)) i (by omega)
      rw [show a + (i + 1) = a + 1 + i by omega, this, show k + 1 + i = k + (i + 1) by omega]

/-! ### The canonical form -/

theorem Memory.wfFrom_mono {m : Memory} {low low' : Nat} (h : Memory.wfFrom low m = true) (hl : low' ≤ low) :
    Memory.wfFrom low' m = true := by
  cases m with
  | nil => rfl
  | cons c rest =>
    obtain ⟨k, v⟩ := c
    simp only [Memory.wfFrom, Bool.and_eq_true, decide_eq_true_eq] at h ⊢
    exact ⟨⟨by omega, h.1.2⟩, h.2⟩

theorem Memory.erase_wfFrom {m : Memory} {low : Nat} (a : Nat) (h : Memory.wfFrom low m = true) :
    Memory.wfFrom low (Memory.erase m a) = true := by
  induction m generalizing low with
  | nil => rfl
  | cons c rest ih =>
    obtain ⟨k, v⟩ := c
    simp only [Memory.wfFrom, Bool.and_eq_true, decide_eq_true_eq] at h
    by_cases hk : k = a
    · simpa [Memory.erase, hk] using ih (Memory.wfFrom_mono h.2 (by omega))
    · simpa [Memory.erase, hk, Memory.wfFrom, h.1] using ih h.2

theorem Memory.insert_wfFrom {m : Memory} {low a : Nat} {v : Byte} (h : Memory.wfFrom low m = true) (hl : low ≤ a)
    (hne : ∀ c ∈ m, c.1 ≠ a) (hv : v ≠ Config.unwrittenByte) : Memory.wfFrom low (Memory.insert m a v) = true := by
  induction m generalizing low with
  | nil => simp [Memory.insert, Memory.wfFrom, hl, hv]
  | cons c rest ih =>
    obtain ⟨k, w⟩ := c
    have hk : k ≠ a := hne (k, w) (by simp)
    simp only [Memory.wfFrom, Bool.and_eq_true, decide_eq_true_eq] at h
    simp only [Memory.insert]
    split
    · simp only [Memory.wfFrom, Bool.and_eq_true, decide_eq_true_eq]
      exact ⟨⟨hl, hv⟩, ⟨by omega, h.1.2⟩, h.2⟩
    · simp only [Memory.wfFrom, Bool.and_eq_true, decide_eq_true_eq]
      exact ⟨h.1, ih h.2 (by omega) fun c hc => hne c (by simp [hc])⟩

/-- A write keeps the canonical form. -/
theorem Memory.write_wf {m : Memory} (a : Nat) (v : Byte) (h : Memory.wf m = true) : Memory.wf (Memory.write m a v) = true := by
  unfold Memory.write
  split
  · exact Memory.erase_wfFrom a h
  · exact Memory.insert_wfFrom (Memory.erase_wfFrom a h) (Nat.zero_le a) (Memory.erase_ne m a) ‹_›

theorem Memory.writeBytes_wf {m : Memory} (a : Nat) (bs : Bytes) (h : Memory.wf m = true) :
    Memory.wf (Memory.writeBytes m a bs) = true := by
  induction bs generalizing m a with
  | nil => exact h
  | cons x xs ih => exact ih _ (Memory.write_wf a x h)

theorem Memory.drawBytes_wf {m : Memory} (n a k : Nat) (h : Memory.wf m = true) :
    Memory.wf (Memory.drawBytes n a k m) = true := by
  induction n generalizing m a k with
  | zero => exact h
  | succ n ih => exact ih _ _ (Memory.write_wf a _ h)

theorem drawRegions_wf {m : Memory} (rs : List Region) (k : Nat) (h : Memory.wf m = true) :
    Memory.wf (drawRegions rs k m).1 = true := by
  induction rs generalizing m k with
  | nil => exact h
  | cons r rest ih => exact ih _ (Memory.drawBytes_wf r.n r.addr k h)

/-- A draw of regions changes no byte outside them. -/
theorem read_drawRegions_outside {rs : List Region} {k : Nat} {m : Memory} {b : Nat}
    (h : ∀ r ∈ rs, r.covers b = false) : Memory.read (drawRegions rs k m).1 b = Memory.read m b := by
  induction rs generalizing k m with
  | nil => rfl
  | cons r rest ih =>
    rw [drawRegions, ih fun q hq => h q (by simp [hq])]
    have := h r (by simp)
    simp only [Region.covers, Bool.and_eq_false_iff, decide_eq_false_iff_not] at this
    exact Memory.read_drawBytes_outside (by omega)

/-! ### The bounds of the bus space -/

theorem Memory.insert_mem {m : Memory} {a : Nat} {v : Byte} {c : Host.Cell} (h : c ∈ Memory.insert m a v) :
    c = (a, v) ∨ c ∈ m := by
  induction m with
  | nil => simpa [Memory.insert] using h
  | cons d rest ih =>
    obtain ⟨k, w⟩ := d
    simp only [Memory.insert] at h
    split at h
    · simpa using h
    · simp only [List.mem_cons] at h ⊢
      rcases h with h | h
      · exact .inr (.inl h)
      · exact (ih h).imp id .inr

theorem Memory.erase_mem {m : Memory} {a : Nat} {c : Host.Cell} (h : c ∈ Memory.erase m a) : c ∈ m := by
  induction m with
  | nil => exact h
  | cons d rest ih =>
    obtain ⟨k, w⟩ := d
    simp only [Memory.erase] at h
    split at h
    · exact List.mem_cons_of_mem _ (ih h)
    · simp only [List.mem_cons] at h ⊢
      exact h.imp id ih

theorem Memory.write_bounded {m : Memory} {a : Nat} (v : Byte) (h : Memory.bounded m = true) (ha : a < Config.busSize) :
    Memory.bounded (Memory.write m a v) = true := by
  simp only [Memory.bounded, List.all_eq_true, decide_eq_true_eq] at h ⊢
  intro c hc
  unfold Memory.write at hc
  split at hc
  · exact h c (Memory.erase_mem hc)
  · rcases Memory.insert_mem hc with rfl | hc
    · exact ha
    · exact h c (Memory.erase_mem hc)

theorem Memory.writeBytes_bounded {m : Memory} {a : Nat} {bs : Bytes} (h : Memory.bounded m = true)
    (ha : bs.length = 0 ∨ a + bs.length ≤ Config.busSize) : Memory.bounded (Memory.writeBytes m a bs) = true := by
  induction bs generalizing m a with
  | nil => exact h
  | cons x xs ih =>
    simp only [List.length_cons] at ha
    exact ih (Memory.write_bounded x h (by omega)) (by omega)

theorem Memory.drawBytes_bounded {m : Memory} {n a k : Nat} (h : Memory.bounded m = true)
    (ha : n = 0 ∨ a + n ≤ Config.busSize) : Memory.bounded (Memory.drawBytes n a k m) = true := by
  induction n generalizing m a k with
  | zero => exact h
  | succ n ih => exact ih (Memory.write_bounded _ h (by omega)) (by omega)

theorem drawRegions_bounded {m : Memory} {rs : List Region} {k : Nat} (h : Memory.bounded m = true)
    (hr : ∀ r ∈ rs, r.n = 0 ∨ r.addr + r.n ≤ Config.busSize) : Memory.bounded (drawRegions rs k m).1 = true := by
  induction rs generalizing m k with
  | nil => exact h
  | cons r rest ih =>
    exact ih (Memory.drawBytes_bounded h (hr r (by simp))) fun q hq => hr q (by simp [hq])

/-- An accessible region lies within the bus space (R81). -/
theorem Platform.accessible_bound {p : Platform} {a n : Nat} {d : Dir} (h : p.accessible a n d = true) :
    n = 0 ∨ a + n ≤ Config.busSize := by
  simp only [Platform.accessible, Bool.or_eq_true, beq_iff_eq, Bool.and_eq_true, decide_eq_true_eq] at h
  exact h.imp id And.left

/-- A region of no bytes is accessible (R81). -/
@[simp] theorem Platform.accessible_zero (p : Platform) (a : Nat) (d : Dir) : p.accessible a 0 d = true := rfl

/-- The memory of the reset state is in canonical form and within the bus space. -/
theorem reset_memory_wf : Memory.wf State.reset.mem = true ∧ Memory.bounded State.reset.mem = true := ⟨rfl, rfl⟩

end Sys2Proof.Machine
end

