-- ==== Sys2Proof/Laws/State.lean ====
section
/-! SUPPORT. What each update of the state leaves in each field, true by definition, so that no proof unfolds a record update. -/

namespace Sys2Proof.Machine

variable (s : State)

/-! ### setReg -/

@[simp] theorem setReg_x (r : Reg) (v : Word) : (s.setReg r v).x = s.x.set r.val v r.isLt := rfl
@[simp] theorem setReg_irqEn (r : Reg) (v : Word) : (s.setReg r v).irqEn = s.irqEn := rfl
@[simp] theorem setReg_done (r : Reg) (v : Word) : (s.setReg r v).done = s.done := rfl
@[simp] theorem setReg_ovr (r : Reg) (v : Word) : (s.setReg r v).ovr = s.ovr := rfl
@[simp] theorem setReg_err (r : Reg) (v : Word) : (s.setReg r v).err = s.err := rfl
@[simp] theorem setReg_lastop (r : Reg) (v : Word) : (s.setReg r v).lastop = s.lastop := rfl
@[simp] theorem setReg_sivAccel (r : Reg) (v : Word) : (s.setReg r v).sivAccel = s.sivAccel := rfl
@[simp] theorem setReg_slots (r : Reg) (v : Word) : (s.setReg r v).slots = s.slots := rfl
@[simp] theorem setReg_running (r : Reg) (v : Word) : (s.setReg r v).running = s.running := rfl
@[simp] theorem setReg_phase (r : Reg) (v : Word) : (s.setReg r v).phase = s.phase := rfl
@[simp] theorem setReg_work (r : Reg) (v : Word) : (s.setReg r v).work = s.work := rfl
@[simp] theorem setReg_mem (r : Reg) (v : Word) : (s.setReg r v).mem = s.mem := rfl
@[simp] theorem setReg_platform (r : Reg) (v : Word) : (s.setReg r v).platform = s.platform := rfl
@[simp] theorem setReg_moves (r : Reg) (v : Word) : (s.setReg r v).moves = s.moves := rfl
@[simp] theorem setReg_readData (r : Reg) (v : Word) : (s.setReg r v).readData = s.readData := rfl
@[simp] theorem setReg_free (r : Reg) (v : Word) : (s.setReg r v).free = s.free := rfl
@[simp] theorem setReg_bus (r : Reg) (v : Word) : (s.setReg r v).bus = s.bus := rfl

/-! ### setSlot -/

@[simp] theorem setSlot_x (c : Ctx) (v : Slot) : (s.setSlot c v).x = s.x := rfl
@[simp] theorem setSlot_irqEn (c : Ctx) (v : Slot) : (s.setSlot c v).irqEn = s.irqEn := rfl
@[simp] theorem setSlot_done (c : Ctx) (v : Slot) : (s.setSlot c v).done = s.done := rfl
@[simp] theorem setSlot_ovr (c : Ctx) (v : Slot) : (s.setSlot c v).ovr = s.ovr := rfl
@[simp] theorem setSlot_err (c : Ctx) (v : Slot) : (s.setSlot c v).err = s.err := rfl
@[simp] theorem setSlot_lastop (c : Ctx) (v : Slot) : (s.setSlot c v).lastop = s.lastop := rfl
@[simp] theorem setSlot_sivAccel (c : Ctx) (v : Slot) : (s.setSlot c v).sivAccel = s.sivAccel := rfl
@[simp] theorem setSlot_slots (c : Ctx) (v : Slot) : (s.setSlot c v).slots = s.slots.set c.val v c.isLt := rfl
@[simp] theorem setSlot_running (c : Ctx) (v : Slot) : (s.setSlot c v).running = s.running := rfl
@[simp] theorem setSlot_phase (c : Ctx) (v : Slot) : (s.setSlot c v).phase = s.phase := rfl
@[simp] theorem setSlot_work (c : Ctx) (v : Slot) : (s.setSlot c v).work = s.work := rfl
@[simp] theorem setSlot_mem (c : Ctx) (v : Slot) : (s.setSlot c v).mem = s.mem := rfl
@[simp] theorem setSlot_platform (c : Ctx) (v : Slot) : (s.setSlot c v).platform = s.platform := rfl
@[simp] theorem setSlot_moves (c : Ctx) (v : Slot) : (s.setSlot c v).moves = s.moves := rfl
@[simp] theorem setSlot_readData (c : Ctx) (v : Slot) : (s.setSlot c v).readData = s.readData := rfl
@[simp] theorem setSlot_free (c : Ctx) (v : Slot) : (s.setSlot c v).free = s.free := rfl
@[simp] theorem setSlot_bus (c : Ctx) (v : Slot) : (s.setSlot c v).bus = s.bus := rfl

/-! ### log -/

@[simp] theorem log_x (l : List BusAccess) : (s.log l).x = s.x := rfl
@[simp] theorem log_irqEn (l : List BusAccess) : (s.log l).irqEn = s.irqEn := rfl
@[simp] theorem log_done (l : List BusAccess) : (s.log l).done = s.done := rfl
@[simp] theorem log_ovr (l : List BusAccess) : (s.log l).ovr = s.ovr := rfl
@[simp] theorem log_err (l : List BusAccess) : (s.log l).err = s.err := rfl
@[simp] theorem log_lastop (l : List BusAccess) : (s.log l).lastop = s.lastop := rfl
@[simp] theorem log_sivAccel (l : List BusAccess) : (s.log l).sivAccel = s.sivAccel := rfl
@[simp] theorem log_slots (l : List BusAccess) : (s.log l).slots = s.slots := rfl
@[simp] theorem log_running (l : List BusAccess) : (s.log l).running = s.running := rfl
@[simp] theorem log_phase (l : List BusAccess) : (s.log l).phase = s.phase := rfl
@[simp] theorem log_work (l : List BusAccess) : (s.log l).work = s.work := rfl
@[simp] theorem log_mem (l : List BusAccess) : (s.log l).mem = s.mem := rfl
@[simp] theorem log_platform (l : List BusAccess) : (s.log l).platform = s.platform := rfl
@[simp] theorem log_moves (l : List BusAccess) : (s.log l).moves = s.moves := rfl
@[simp] theorem log_readData (l : List BusAccess) : (s.log l).readData = s.readData := rfl
@[simp] theorem log_free (l : List BusAccess) : (s.log l).free = s.free := rfl
@[simp] theorem log_bus (l : List BusAccess) : (s.log l).bus = s.bus ++ l := rfl

/-! ### logRead -/

@[simp] theorem logRead_x (a n : Nat) : (s.logRead a n).x = s.x := rfl
@[simp] theorem logRead_irqEn (a n : Nat) : (s.logRead a n).irqEn = s.irqEn := rfl
@[simp] theorem logRead_done (a n : Nat) : (s.logRead a n).done = s.done := rfl
@[simp] theorem logRead_ovr (a n : Nat) : (s.logRead a n).ovr = s.ovr := rfl
@[simp] theorem logRead_err (a n : Nat) : (s.logRead a n).err = s.err := rfl
@[simp] theorem logRead_lastop (a n : Nat) : (s.logRead a n).lastop = s.lastop := rfl
@[simp] theorem logRead_sivAccel (a n : Nat) : (s.logRead a n).sivAccel = s.sivAccel := rfl
@[simp] theorem logRead_slots (a n : Nat) : (s.logRead a n).slots = s.slots := rfl
@[simp] theorem logRead_running (a n : Nat) : (s.logRead a n).running = s.running := rfl
@[simp] theorem logRead_phase (a n : Nat) : (s.logRead a n).phase = s.phase := rfl
@[simp] theorem logRead_work (a n : Nat) : (s.logRead a n).work = s.work := rfl
@[simp] theorem logRead_mem (a n : Nat) : (s.logRead a n).mem = s.mem := rfl
@[simp] theorem logRead_platform (a n : Nat) : (s.logRead a n).platform = s.platform := rfl
@[simp] theorem logRead_moves (a n : Nat) : (s.logRead a n).moves = s.moves := rfl
@[simp] theorem logRead_readData (a n : Nat) : (s.logRead a n).readData = s.readData := rfl
@[simp] theorem logRead_free (a n : Nat) : (s.logRead a n).free = s.free := rfl
@[simp] theorem logRead_bus (a n : Nat) : (s.logRead a n).bus = s.bus ++ busRange .read a n := rfl

/-! ### memWrite -/

@[simp] theorem memWrite_x (a : Nat) (b : Bytes) : (s.memWrite a b).x = s.x := rfl
@[simp] theorem memWrite_irqEn (a : Nat) (b : Bytes) : (s.memWrite a b).irqEn = s.irqEn := rfl
@[simp] theorem memWrite_done (a : Nat) (b : Bytes) : (s.memWrite a b).done = s.done := rfl
@[simp] theorem memWrite_ovr (a : Nat) (b : Bytes) : (s.memWrite a b).ovr = s.ovr := rfl
@[simp] theorem memWrite_err (a : Nat) (b : Bytes) : (s.memWrite a b).err = s.err := rfl
@[simp] theorem memWrite_lastop (a : Nat) (b : Bytes) : (s.memWrite a b).lastop = s.lastop := rfl
@[simp] theorem memWrite_sivAccel (a : Nat) (b : Bytes) : (s.memWrite a b).sivAccel = s.sivAccel := rfl
@[simp] theorem memWrite_slots (a : Nat) (b : Bytes) : (s.memWrite a b).slots = s.slots := rfl
@[simp] theorem memWrite_running (a : Nat) (b : Bytes) : (s.memWrite a b).running = s.running := rfl
@[simp] theorem memWrite_phase (a : Nat) (b : Bytes) : (s.memWrite a b).phase = s.phase := rfl
@[simp] theorem memWrite_work (a : Nat) (b : Bytes) : (s.memWrite a b).work = s.work := rfl
@[simp] theorem memWrite_mem (a : Nat) (b : Bytes) : (s.memWrite a b).mem = Memory.writeBytes s.mem a b := rfl
@[simp] theorem memWrite_platform (a : Nat) (b : Bytes) : (s.memWrite a b).platform = s.platform := rfl
@[simp] theorem memWrite_moves (a : Nat) (b : Bytes) : (s.memWrite a b).moves = s.moves := rfl
@[simp] theorem memWrite_readData (a : Nat) (b : Bytes) : (s.memWrite a b).readData = s.readData := rfl
@[simp] theorem memWrite_free (a : Nat) (b : Bytes) : (s.memWrite a b).free = s.free := rfl
@[simp] theorem memWrite_bus (a : Nat) (b : Bytes) : (s.memWrite a b).bus = s.bus ++ busRange .write a b.length := rfl

/-! ### setWork -/

@[simp] theorem setWork_x (w : Work) : (s.setWork w).x = s.x := rfl
@[simp] theorem setWork_irqEn (w : Work) : (s.setWork w).irqEn = s.irqEn := rfl
@[simp] theorem setWork_done (w : Work) : (s.setWork w).done = s.done := rfl
@[simp] theorem setWork_ovr (w : Work) : (s.setWork w).ovr = s.ovr := rfl
@[simp] theorem setWork_err (w : Work) : (s.setWork w).err = s.err := rfl
@[simp] theorem setWork_lastop (w : Work) : (s.setWork w).lastop = s.lastop := rfl
@[simp] theorem setWork_sivAccel (w : Work) : (s.setWork w).sivAccel = s.sivAccel := rfl
@[simp] theorem setWork_slots (w : Work) : (s.setWork w).slots = s.slots := rfl
@[simp] theorem setWork_running (w : Work) : (s.setWork w).running = s.running := rfl
@[simp] theorem setWork_phase (w : Work) : (s.setWork w).phase = s.phase := rfl
@[simp] theorem setWork_work (w : Work) : (s.setWork w).work = w := rfl
@[simp] theorem setWork_mem (w : Work) : (s.setWork w).mem = s.mem := rfl
@[simp] theorem setWork_platform (w : Work) : (s.setWork w).platform = s.platform := rfl
@[simp] theorem setWork_moves (w : Work) : (s.setWork w).moves = s.moves := rfl
@[simp] theorem setWork_readData (w : Work) : (s.setWork w).readData = s.readData := rfl
@[simp] theorem setWork_free (w : Work) : (s.setWork w).free = s.free := rfl
@[simp] theorem setWork_bus (w : Work) : (s.setWork w).bus = s.bus := rfl

/-! ### setPhase -/

@[simp] theorem setPhase_x (p : Phase) (w : Work) : (s.setPhase p w).x = s.x := rfl
@[simp] theorem setPhase_irqEn (p : Phase) (w : Work) : (s.setPhase p w).irqEn = s.irqEn := rfl
@[simp] theorem setPhase_done (p : Phase) (w : Work) : (s.setPhase p w).done = s.done := rfl
@[simp] theorem setPhase_ovr (p : Phase) (w : Work) : (s.setPhase p w).ovr = s.ovr := rfl
@[simp] theorem setPhase_err (p : Phase) (w : Work) : (s.setPhase p w).err = s.err := rfl
@[simp] theorem setPhase_lastop (p : Phase) (w : Work) : (s.setPhase p w).lastop = s.lastop := rfl
@[simp] theorem setPhase_sivAccel (p : Phase) (w : Work) : (s.setPhase p w).sivAccel = s.sivAccel := rfl
@[simp] theorem setPhase_slots (p : Phase) (w : Work) : (s.setPhase p w).slots = s.slots := rfl
@[simp] theorem setPhase_running (p : Phase) (w : Work) : (s.setPhase p w).running = s.running := rfl
@[simp] theorem setPhase_phase (p : Phase) (w : Work) : (s.setPhase p w).phase = p := rfl
@[simp] theorem setPhase_work (p : Phase) (w : Work) : (s.setPhase p w).work = w := rfl
@[simp] theorem setPhase_mem (p : Phase) (w : Work) : (s.setPhase p w).mem = s.mem := rfl
@[simp] theorem setPhase_platform (p : Phase) (w : Work) : (s.setPhase p w).platform = s.platform := rfl
@[simp] theorem setPhase_moves (p : Phase) (w : Work) : (s.setPhase p w).moves = s.moves := rfl
@[simp] theorem setPhase_readData (p : Phase) (w : Work) : (s.setPhase p w).readData = s.readData := rfl
@[simp] theorem setPhase_free (p : Phase) (w : Work) : (s.setPhase p w).free = s.free := rfl
@[simp] theorem setPhase_bus (p : Phase) (w : Work) : (s.setPhase p w).bus = s.bus := rfl

/-! ### complete -/

@[simp] theorem complete_x (c : Code) : (s.complete c).x = s.x := rfl
@[simp] theorem complete_irqEn (c : Code) : (s.complete c).irqEn = s.irqEn := rfl
@[simp] theorem complete_done (c : Code) : (s.complete c).done = true := rfl
@[simp] theorem complete_ovr (c : Code) : (s.complete c).ovr = s.ovr := rfl
@[simp] theorem complete_err (c : Code) : (s.complete c).err = c := rfl
@[simp] theorem complete_lastop (c : Code) : (s.complete c).lastop = s.lastop := rfl
@[simp] theorem complete_sivAccel (c : Code) : (s.complete c).sivAccel = s.sivAccel := rfl
@[simp] theorem complete_slots (c : Code) : (s.complete c).slots = s.slots := rfl
@[simp] theorem complete_running (c : Code) : (s.complete c).running = none := rfl
@[simp] theorem complete_phase (c : Code) : (s.complete c).phase = .idle := rfl
@[simp] theorem complete_work (c : Code) : (s.complete c).work = Work.cleared := rfl
@[simp] theorem complete_mem (c : Code) : (s.complete c).mem = s.mem := rfl
@[simp] theorem complete_platform (c : Code) : (s.complete c).platform = s.platform := rfl
@[simp] theorem complete_moves (c : Code) : (s.complete c).moves = s.moves := rfl
@[simp] theorem complete_readData (c : Code) : (s.complete c).readData = s.readData := rfl
@[simp] theorem complete_free (c : Code) : (s.complete c).free = s.free := rfl
@[simp] theorem complete_bus (c : Code) : (s.complete c).bus = s.bus := rfl

/-! ### accept -/

@[simp] theorem accept_x (w : Word32) : (s.accept w).x = s.x := rfl
@[simp] theorem accept_irqEn (w : Word32) : (s.accept w).irqEn = s.irqEn := rfl
@[simp] theorem accept_done (w : Word32) : (s.accept w).done = false := rfl
@[simp] theorem accept_ovr (w : Word32) : (s.accept w).ovr = s.ovr := rfl
@[simp] theorem accept_err (w : Word32) : (s.accept w).err = s.err := rfl
@[simp] theorem accept_lastop (w : Word32) : (s.accept w).lastop = opByte w := rfl
@[simp] theorem accept_sivAccel (w : Word32) : (s.accept w).sivAccel = s.sivAccel := rfl
@[simp] theorem accept_slots (w : Word32) : (s.accept w).slots = s.slots := rfl
@[simp] theorem accept_running (w : Word32) : (s.accept w).running = some w := rfl
@[simp] theorem accept_work (w : Word32) : (s.accept w).work = Work.cleared := rfl
@[simp] theorem accept_mem (w : Word32) : (s.accept w).mem = s.mem := rfl
@[simp] theorem accept_platform (w : Word32) : (s.accept w).platform = s.platform := rfl
@[simp] theorem accept_moves (w : Word32) : (s.accept w).moves = s.moves := rfl
@[simp] theorem accept_readData (w : Word32) : (s.accept w).readData = s.readData := rfl
@[simp] theorem accept_free (w : Word32) : (s.accept w).free = s.free := rfl
@[simp] theorem accept_bus (w : Word32) : (s.accept w).bus = [] := rfl

/-! ### hostGets -/

@[simp] theorem hostGets_x (v : Word) : (s.hostGets v).x = s.x := rfl
@[simp] theorem hostGets_irqEn (v : Word) : (s.hostGets v).irqEn = s.irqEn := rfl
@[simp] theorem hostGets_done (v : Word) : (s.hostGets v).done = s.done := rfl
@[simp] theorem hostGets_ovr (v : Word) : (s.hostGets v).ovr = s.ovr := rfl
@[simp] theorem hostGets_err (v : Word) : (s.hostGets v).err = s.err := rfl
@[simp] theorem hostGets_lastop (v : Word) : (s.hostGets v).lastop = s.lastop := rfl
@[simp] theorem hostGets_sivAccel (v : Word) : (s.hostGets v).sivAccel = s.sivAccel := rfl
@[simp] theorem hostGets_slots (v : Word) : (s.hostGets v).slots = s.slots := rfl
@[simp] theorem hostGets_running (v : Word) : (s.hostGets v).running = s.running := rfl
@[simp] theorem hostGets_phase (v : Word) : (s.hostGets v).phase = s.phase := rfl
@[simp] theorem hostGets_work (v : Word) : (s.hostGets v).work = s.work := rfl
@[simp] theorem hostGets_mem (v : Word) : (s.hostGets v).mem = s.mem := rfl
@[simp] theorem hostGets_platform (v : Word) : (s.hostGets v).platform = s.platform := rfl
@[simp] theorem hostGets_moves (v : Word) : (s.hostGets v).moves = s.moves := rfl
@[simp] theorem hostGets_readData (v : Word) : (s.hostGets v).readData = v := rfl
@[simp] theorem hostGets_free (v : Word) : (s.hostGets v).free = s.free := rfl
@[simp] theorem hostGets_bus (v : Word) : (s.hostGets v).bus = s.bus := rfl

/-! ### hostDraws -/

@[simp] theorem hostDraws_x (h : Half) : (s.hostDraws h).x = s.x := rfl
@[simp] theorem hostDraws_irqEn (h : Half) : (s.hostDraws h).irqEn = s.irqEn := rfl
@[simp] theorem hostDraws_done (h : Half) : (s.hostDraws h).done = s.done := rfl
@[simp] theorem hostDraws_ovr (h : Half) : (s.hostDraws h).ovr = s.ovr := rfl
@[simp] theorem hostDraws_err (h : Half) : (s.hostDraws h).err = s.err := rfl
@[simp] theorem hostDraws_lastop (h : Half) : (s.hostDraws h).lastop = s.lastop := rfl
@[simp] theorem hostDraws_sivAccel (h : Half) : (s.hostDraws h).sivAccel = s.sivAccel := rfl
@[simp] theorem hostDraws_slots (h : Half) : (s.hostDraws h).slots = s.slots := rfl
@[simp] theorem hostDraws_running (h : Half) : (s.hostDraws h).running = s.running := rfl
@[simp] theorem hostDraws_phase (h : Half) : (s.hostDraws h).phase = s.phase := rfl
@[simp] theorem hostDraws_work (h : Half) : (s.hostDraws h).work = s.work := rfl
@[simp] theorem hostDraws_mem (h : Half) : (s.hostDraws h).mem = s.mem := rfl
@[simp] theorem hostDraws_platform (h : Half) : (s.hostDraws h).platform = s.platform := rfl
@[simp] theorem hostDraws_moves (h : Half) : (s.hostDraws h).moves = s.moves := rfl
@[simp] theorem hostDraws_readData (h : Half) : (s.hostDraws h).readData = takeHalf (Config.freeWord s.free) h := rfl
@[simp] theorem hostDraws_free (h : Half) : (s.hostDraws h).free = s.free + 1 := rfl
@[simp] theorem hostDraws_bus (h : Half) : (s.hostDraws h).bus = s.bus := rfl

/-! ### resetNow -/

@[simp] theorem resetNow_x : (s.resetNow).x = Vector.replicate 8 0 := rfl
@[simp] theorem resetNow_irqEn : (s.resetNow).irqEn = false := rfl
@[simp] theorem resetNow_done : (s.resetNow).done = false := rfl
@[simp] theorem resetNow_ovr : (s.resetNow).ovr = false := rfl
@[simp] theorem resetNow_err : (s.resetNow).err = .ok := rfl
@[simp] theorem resetNow_lastop : (s.resetNow).lastop = 0 := rfl
@[simp] theorem resetNow_sivAccel : (s.resetNow).sivAccel = s.platform.sivAccel := rfl
@[simp] theorem resetNow_slots : (s.resetNow).slots = Vector.replicate 4 Slot.empty := rfl
@[simp] theorem resetNow_running : (s.resetNow).running = none := rfl
@[simp] theorem resetNow_phase : (s.resetNow).phase = .idle := rfl
@[simp] theorem resetNow_work : (s.resetNow).work = Work.cleared := rfl
@[simp] theorem resetNow_mem : (s.resetNow).mem = (drawRegions s.abortRegions s.free s.mem).1 := rfl
@[simp] theorem resetNow_platform : (s.resetNow).platform = s.platform := rfl
@[simp] theorem resetNow_moves : (s.resetNow).moves = s.moves := rfl
@[simp] theorem resetNow_readData : (s.resetNow).readData = s.readData := rfl
@[simp] theorem resetNow_free : (s.resetNow).free = (drawRegions s.abortRegions s.free s.mem).2 := rfl
@[simp] theorem resetNow_bus : (s.resetNow).bus = [] := rfl

/-! ### Registers and slots through their accessors -/

@[simp] theorem reg_setReg (r q : Reg) (v : Word) : (s.setReg r v).reg q = if q = r then v else s.reg q := by
  simp [State.reg, State.setReg, Vector.getElem_set, Fin.ext_iff, eq_comm]

@[simp] theorem slot_setSlot (c d : Ctx) (v : Slot) : (s.setSlot c v).slot d = if d = c then v else s.slot d := by
  simp [State.slot, State.setSlot, Vector.getElem_set, Fin.ext_iff, eq_comm]

/-- The value of a register depends on the register file alone. -/
theorem reg_congr {s t : State} (h : t.x = s.x) (r : Reg) : t.reg r = s.reg r := by simp [State.reg, h]

/-- The contents of a slot depend on the slots alone. -/
theorem slot_congr {s t : State} (h : t.slots = s.slots) (c : Ctx) : t.slot c = s.slot c := by simp [State.slot, h]

@[simp] theorem slot_setReg (r : Reg) (v : Word) (d : Ctx) : (s.setReg r v).slot d = s.slot d := rfl
@[simp] theorem reg_setSlot (c : Ctx) (v : Slot) (q : Reg) : (s.setSlot c v).reg q = s.reg q := rfl
@[simp] theorem reg_log (l : List BusAccess) (q : Reg) : (s.log l).reg q = s.reg q := rfl
@[simp] theorem slot_log (l : List BusAccess) (d : Ctx) : (s.log l).slot d = s.slot d := rfl
@[simp] theorem reg_logRead (a n : Nat) (q : Reg) : (s.logRead a n).reg q = s.reg q := rfl
@[simp] theorem slot_logRead (a n : Nat) (d : Ctx) : (s.logRead a n).slot d = s.slot d := rfl
@[simp] theorem reg_memWrite (a : Nat) (b : Bytes) (q : Reg) : (s.memWrite a b).reg q = s.reg q := rfl
@[simp] theorem slot_memWrite (a : Nat) (b : Bytes) (d : Ctx) : (s.memWrite a b).slot d = s.slot d := rfl
@[simp] theorem reg_setWork (w : Work) (q : Reg) : (s.setWork w).reg q = s.reg q := rfl
@[simp] theorem slot_setWork (w : Work) (d : Ctx) : (s.setWork w).slot d = s.slot d := rfl
@[simp] theorem reg_setPhase (p : Phase) (w : Work) (q : Reg) : (s.setPhase p w).reg q = s.reg q := rfl
@[simp] theorem slot_setPhase (p : Phase) (w : Work) (d : Ctx) : (s.setPhase p w).slot d = s.slot d := rfl
@[simp] theorem reg_complete (c : Code) (q : Reg) : (s.complete c).reg q = s.reg q := rfl
@[simp] theorem slot_complete (c : Code) (d : Ctx) : (s.complete c).slot d = s.slot d := rfl
@[simp] theorem reg_accept (w : Word32) (q : Reg) : (s.accept w).reg q = s.reg q := rfl
@[simp] theorem slot_accept (w : Word32) (d : Ctx) : (s.accept w).slot d = s.slot d := rfl
@[simp] theorem reg_hostGets (v : Word) (q : Reg) : (s.hostGets v).reg q = s.reg q := rfl
@[simp] theorem slot_hostGets (v : Word) (d : Ctx) : (s.hostGets v).slot d = s.slot d := rfl
@[simp] theorem reg_hostDraws (h : Half) (q : Reg) : (s.hostDraws h).reg q = s.reg q := rfl
@[simp] theorem slot_hostDraws (h : Half) (d : Ctx) : (s.hostDraws h).slot d = s.slot d := rfl

@[simp] theorem reg_resetNow (q : Reg) : s.resetNow.reg q = 0 := by simp [State.reg]

@[simp] theorem slot_resetNow (c : Ctx) : s.resetNow.slot c = Slot.empty := by simp [State.slot]

@[simp] theorem regNat_setReg_ne {r q : Reg} (v : Word) (h : q ≠ r) : (s.setReg r v).regNat q = s.regNat q := by
  simp [State.regNat, h]

end Sys2Proof.Machine
end

