-- ==== Sys2Proof/Laws/Ops.lean ====
section
/-! SUPPORT. What each shared operation does, said once: completion, a region write, CT.CMXOR's loop, the ways INIT and the
prologue of SEAL, SEALX and OPEN can end, and how SEAL and OPEN end. -/

namespace Sys2Proof.Machine

/-! ### Completion -/

/-- Completion of a state that differs from s in registers, slots, memory, trace, phase and buffers only. -/
theorem Completed.of_complete {c : Code} {s u : State} (h1 : u.irqEn = s.irqEn) (h2 : u.ovr = s.ovr)
    (h3 : u.lastop = s.lastop) (h4 : u.sivAccel = s.sivAccel) (h5 : u.platform = s.platform) (h6 : u.moves = s.moves)
    (h7 : u.readData = s.readData) (h8 : u.free = s.free) : Completed c s (u.complete c) :=
  ⟨rfl, rfl, rfl, rfl, rfl, h1, h2, h3, h4, h5, h6, h7, h8⟩

theorem Completed.complete (c : Code) (s : State) : Completed c s (s.complete c) :=
  Completed.of_complete rfl rfl rfl rfl rfl rfl rfl rfl

/-! A completion after one more write of registers, slots, memory, trace or buffers. -/

theorem Completed.log {c : Code} {s u : State} (h : Completed c s (u.complete c)) (l : List BusAccess) :
    Completed c s ((u.log l).complete c) := ⟨rfl, rfl, rfl, rfl, rfl, h.6, h.7, h.8, h.9, h.10, h.11, h.12, h.13⟩
theorem Completed.logRead {c : Code} {s u : State} (h : Completed c s (u.complete c)) (a n : Nat) :
    Completed c s ((u.logRead a n).complete c) := h.log _
theorem Completed.setReg {c : Code} {s u : State} (h : Completed c s (u.complete c)) (r : Reg) (v : Word) :
    Completed c s ((u.setReg r v).complete c) := ⟨rfl, rfl, rfl, rfl, rfl, h.6, h.7, h.8, h.9, h.10, h.11, h.12, h.13⟩
theorem Completed.setSlot {c : Code} {s u : State} (h : Completed c s (u.complete c)) (x : Ctx) (v : Slot) :
    Completed c s ((u.setSlot x v).complete c) := ⟨rfl, rfl, rfl, rfl, rfl, h.6, h.7, h.8, h.9, h.10, h.11, h.12, h.13⟩
theorem Completed.memWrite {c : Code} {s u : State} (h : Completed c s (u.complete c)) (a : Nat) (bs : Bytes) :
    Completed c s ((u.memWrite a bs).complete c) := ⟨rfl, rfl, rfl, rfl, rfl, h.6, h.7, h.8, h.9, h.10, h.11, h.12, h.13⟩
theorem Completed.setWork {c : Code} {s u : State} (h : Completed c s (u.complete c)) (w : Work) :
    Completed c s ((u.setWork w).complete c) := ⟨rfl, rfl, rfl, rfl, rfl, h.6, h.7, h.8, h.9, h.10, h.11, h.12, h.13⟩

@[simp] theorem finish_eq_next (c : Code) (s t : State) : finish c s = .next t ↔ t = s.complete c := by
  simp [finish, eq_comm]

/-- A completion after no write but to the trace writes nothing. -/
theorem nothingWritten_finish (c : Code) (s : State) (l : List BusAccess) :
    NothingWritten c s ((s.log l).complete c) :=
  ⟨Completed.of_complete rfl rfl rfl rfl rfl rfl rfl rfl, fun _ _ => rfl, fun _ _ => rfl, fun _ _ => rfl⟩

theorem nothingWritten_complete (c : Code) (s : State) : NothingWritten c s (s.complete c) :=
  ⟨Completed.of_complete rfl rfl rfl rfl rfl rfl rfl rfl, fun _ _ => rfl, fun _ _ => rfl, fun _ _ => rfl⟩

theorem Region.covers_eq_false {r : Region} {a : Nat} : r.covers a = false ↔ a < r.addr ∨ r.addr + r.n ≤ a := by
  simp only [Region.covers, Bool.and_eq_false_iff, decide_eq_false_iff_not]; omega

theorem Region.covers_eq_true {r : Region} {a : Nat} : r.covers a = true ↔ r.addr ≤ a ∧ a < r.addr + r.n := by
  simp [Region.covers]

/-- Two regions do not overlap exactly when they are apart (R82). -/
theorem Region.overlaps_eq_false {r q : Region} : r.overlaps q = false ↔ r.apart q := by
  simp only [Region.overlaps, Region.apart, Bool.and_eq_false_iff, decide_eq_false_iff_not]; omega

/-! ### Frames from equal fields -/

theorem SameRegsExcept.of_x {rs : List Reg} {s t : State} (h : t.x = s.x) : SameRegsExcept rs s t := fun r _ => reg_congr h r

theorem SameSlotsExcept.of_slots {cs : List Ctx} {s t : State} (h : t.slots = s.slots) : SameSlotsExcept cs s t :=
  fun c _ => slot_congr h c

theorem SameMemOutside.of_mem {rs : List Region} {s t : State} (h : t.mem = s.mem) : SameMemOutside rs s t :=
  fun _ _ => by rw [h]

/-- The frame of one region write. -/
theorem SameMemOutside.of_memWrite {s t u : State} {a : Nat} {bs : Bytes} (hu : u.mem = s.mem)
    (ht : t.mem = (u.memWrite a bs).mem) : SameMemOutside [⟨a, bs.length⟩] s t := by
  intro b hb
  have := Region.covers_eq_false.mp (hb _ (List.mem_singleton.mpr rfl))
  rw [ht, memWrite_mem, Memory.read_writeBytes_outside this, hu]

/-! ### A region write -/

/-- Byte i of a written string. -/
theorem memWrite_read_inside (s : State) (a : Nat) (bs : Bytes) (i : Nat) (h : i < bs.length) :
    Memory.read (s.memWrite a bs).mem (a + i) = bs[i] := by
  rw [memWrite_mem, Memory.read_writeBytes, if_pos (by omega)]
  simp [h]

theorem memWrite_read_outside (s : State) (a : Nat) (bs : Bytes) (b : Nat) (h : b < a ∨ a + bs.length ≤ b) :
    Memory.read (s.memWrite a bs).mem b = Memory.read s.mem b := by
  rw [memWrite_mem, Memory.read_writeBytes_outside h]

/-! ### CT.CMXOR's loop -/

/-- What CT.CMXOR's loop leaves alone: everything but memory and the trace. -/
theorem cmxorBytes_same (n pd ps : Nat) (m8 : Byte) (s : State) :
    ∃ m l, cmxorBytes n pd ps m8 s = { s with mem := m, bus := l } := by
  induction n generalizing pd ps s with
  | zero => exact ⟨s.mem, s.bus, rfl⟩
  | succ n ih =>
    obtain ⟨m, l, h⟩ := ih (pd + 1) (ps + 1) (cmxorByte pd ps m8 s)
    exact ⟨m, l, h⟩

/-- The memory after CT.CMXOR's loop, outside the destination. -/
theorem cmxorBytes_read_outside {n pd ps : Nat} {m8 : Byte} {s : State} {b : Nat} (h : b < pd ∨ pd + n ≤ b) :
    Memory.read (cmxorBytes n pd ps m8 s).mem b = Memory.read s.mem b := by
  induction n generalizing pd ps s with
  | zero => rfl
  | succ n ih =>
    rw [cmxorBytes, ih (by omega)]
    exact memWrite_read_outside _ _ _ _ (by simp; omega)

/-! ### INIT (R205) -/

/-- The ways INIT ends. -/
theorem initRun_cases (f : Family) (rs : Reg) (ctx : Ctx) (mk : Alg → Nat → Bytes → Slot) (s : State) :
    (descriptorOk s.platform (s.regNat rs) 24 = false ∧ initRun f rs ctx mk s = finish .busErr s) ∨
    (descriptorOk s.platform (s.regNat rs) 24 = true ∧
      ∃ c, initCheck s.platform f (s.initOps rs) (s.slot ctx) = .error c ∧
        initRun f rs ctx mk s = finish c (s.logRead (s.regNat rs) 24)) ∨
    (descriptorOk s.platform (s.regNat rs) 24 = true ∧
      ∃ alg, initCheck s.platform f (s.initOps rs) (s.slot ctx) = .ok alg ∧
        initRun f rs ctx mk s = finish .ok
          (((s.logRead (s.regNat rs) 24).logRead (s.initOps rs).keyAddr (s.initOps rs).keyLen).setSlot ctx
            (mk alg (initTagLen (s.initOps rs)) (s.memRead (s.initOps rs).keyAddr (s.initOps rs).keyLen)))) := by
  cases hd : descriptorOk s.platform (s.regNat rs) 24
  · exact .inl ⟨rfl, by simp [initRun, hd]⟩
  · refine .inr ?_
    cases hc : initCheck s.platform f (s.initOps rs) (s.slot ctx) with
    | error c => exact .inl ⟨rfl, c, rfl, by simp only [State.initOps] at hc; simp [initRun, hd, hc]⟩
    | ok alg => exact .inr ⟨rfl, alg, rfl, by simp only [State.initOps] at hc; simp [initRun, hd, hc, State.initOps]⟩

/-- INIT's checks pass exactly when none of their conditions holds (R205). -/
theorem initCheck_ok_iff {p : Platform} {f : Family} {o : InitOps} {sl : Slot} {alg : Alg} :
    initCheck p f o sl = .ok alg ↔ sl.valid = false ∧ f.algOfKeyLen o.keyLen = some alg ∧ f.tagOk (initTagLen o) = true ∧
      p.accessible o.keyAddr o.keyLen .read = true := by
  unfold initCheck
  cases hv : sl.valid
  · cases ha : f.algOfKeyLen o.keyLen with
    | none => simp
    | some a =>
      cases ht : f.tagOk (initTagLen o)
      · simp
      · cases hk : p.accessible o.keyAddr o.keyLen .read <;> simp [Except.ok.injEq]
  · simp

/-- The codes INIT's checks raise (R205, R451). -/
theorem initCheck_codes {p : Platform} {f : Family} {o : InitOps} {sl : Slot} {c : Code}
    (h : initCheck p f o sl = .error c) : c = .ctxErr ∨ c = .config ∨ c = .busErr := by
  unfold initCheck at h
  split at h
  · simp_all
  · split at h
    · simp_all
    · split at h
      · simp_all
      · split at h <;> simp_all

theorem descriptorOk_iff {p : Platform} {d n : Nat} :
    descriptorOk p d n = true ↔ d % 8 = 0 ∧ p.accessible d n .read = true := by
  simp [descriptorOk]

/-- INIT under its conditions (R205). -/
theorem initRun_of_ready {f : Family} {rs : Reg} {ctx : Ctx} {alg : Alg} {s : State} (h : InitReady f rs ctx alg s)
    (mk : Alg → Nat → Bytes → Slot) :
    initRun f rs ctx mk s = finish .ok
      (((s.logRead (s.regNat rs) 24).logRead (s.initOps rs).keyAddr (s.initOps rs).keyLen).setSlot ctx
        (mk alg (initTagLen (s.initOps rs)) (s.memRead (s.initOps rs).keyAddr (s.initOps rs).keyLen))) := by
  have hd := descriptorOk_iff.mpr h.descriptor
  have hc := initCheck_ok_iff.mpr ⟨h.empty, h.keyLen, h.tagLen, h.key⟩
  rcases initRun_cases f rs ctx mk s with ⟨h1, -⟩ | ⟨-, c, h1, -⟩ | ⟨-, a, h1, h2⟩
  · simp [h1] at hd
  · simp [h1] at hc
  · rw [hc] at h1; cases h1; exact h2

/-! ### The prologue of SEAL, SEALX and OPEN (R206) -/

/-- The ways SEAL, SEALX and OPEN end or go on. -/
theorem aeadRun_cases (f : Family) (k : Kind) (rs : Reg) (ctx : Ctx) (body : Slot → Work → State → Outcome) (s : State) :
    (descriptorOk s.platform (s.regNat rs) 96 = false ∧ aeadRun f k rs ctx body s = finish .busErr s) ∨
    (descriptorOk s.platform (s.regNat rs) 96 = true ∧
      ∃ c, aeadCheck s.platform f k (s.regNat rs) (s.aeadOps rs k) (s.slot ctx) = some c ∧
        aeadRun f k rs ctx body s = finish c (s.logRead (s.regNat rs) 96)) ∨
    (descriptorOk s.platform (s.regNat rs) 96 = true ∧
      aeadCheck s.platform f k (s.regNat rs) (s.aeadOps rs k) (s.slot ctx) = none ∧
        aeadRun f k rs ctx body s = body (s.slot ctx) (s.snapshot rs k)
          ((s.logRead (s.regNat rs) 96).log (snapshotTrace k (s.aeadOps rs k)))) := by
  cases hd : descriptorOk s.platform (s.regNat rs) 96
  · exact .inl ⟨rfl, by simp [aeadRun, hd]⟩
  · refine .inr ?_
    cases hc : aeadCheck s.platform f k (s.regNat rs) (s.aeadOps rs k) (s.slot ctx) with
    | some c => exact .inl ⟨rfl, c, rfl, by simp only [State.aeadOps] at hc; simp [aeadRun, hd, hc]⟩
    | none =>
      exact .inr ⟨rfl, rfl, by simp only [State.aeadOps] at hc; simp [aeadRun, hd, hc, State.snapshot, State.aeadOps]⟩

theorem tooLarge_eq_false {alg : Alg} {o : AeadOps} : tooLarge alg o = false ↔ WithinLimits alg o := by
  unfold tooLarge WithinLimits Config.eaxMaxIn Config.sivMaxIn Config.ccpMaxIn Config.aadLimit
  cases h : alg.family <;> simp [Bool.or_eq_false_iff]

theorem aeadOverlap_eq_false {k : Kind} {d : Nat} {o : AeadOps} {t : Nat} :
    aeadOverlap k d o t = false ↔
      (outRegion o = inRegion o ∨ (outRegion o).apart (inRegion o)) ∧
      (∀ r ∈ otherReads k o, (outRegion o).apart r) ∧
      (∀ w ∈ otherWrites k o t, w.apart (outRegion o) ∧ ∀ r ∈ readRegions k o, w.apart r) ∧
      (∀ w ∈ writeRegions k o t, w.apart (aeadBlock d)) := by
  simp only [aeadOverlap, Bool.or_eq_false_iff, Bool.and_eq_false_iff, List.any_eq_false, Bool.not_eq_true,
    Region.overlaps_eq_false, Bool.not_eq_eq_eq_not, Bool.not_false, beq_iff_eq, List.mem_cons, forall_eq_or_imp, and_assoc]
  rw [or_comm]

/-- The prologue's checks pass exactly when none of their conditions holds (R206). -/
theorem aeadCheck_eq_none_iff {p : Platform} {f : Family} {k : Kind} {d : Nat} {o : AeadOps} {sl : Slot} :
    aeadCheck p f k d o sl = none ↔
      sl.valid = true ∧ sl.alg.family = f ∧ o.nonceLen = sl.alg.nonceLen ∧ (k = .opening → o.tagLen = sl.tagLen) ∧
      WithinLimits sl.alg o ∧ o.inLen ≤ o.outCap ∧ (k ≠ .opening → o.extraLen + sl.tagLen ≤ o.tagLen) ∧
      aeadOverlap k d o sl.tagLen = false ∧ regionsAccessible p k o sl.tagLen = true := by
  rw [← tooLarge_eq_false]
  unfold aeadCheck
  constructor
  · intro h
    split at h <;> [cases h; skip]
    split at h <;> [cases h; skip]
    split at h <;> [cases h; skip]
    split at h <;> [cases h; skip]
    split at h <;> [cases h; skip]
    split at h <;> [cases h; skip]
    split at h <;> [cases h; skip]
    split at h <;> [cases h; skip]
    rename_i h1 h2 h3 h4 h5 h6 h7 h8
    simp only [Bool.not_eq_true', Bool.and_eq_false_iff, decide_eq_false_iff_not, not_or, Bool.not_eq_false, not_not] at h1
    refine ⟨h1.1, h1.2, by simpa using h2, fun hk => ?_, by simpa using h4, by omega, fun hk => ?_, by simpa using h7,
      by simpa using h8⟩
    · by_contra hn; exact h3 ⟨hk, hn⟩
    · by_contra hn; exact h6 ⟨hk, by omega⟩
  · rintro ⟨h1, h2, h3, h4, h5, h6, h7, h8, h9⟩
    have n3 : ¬(k = .opening ∧ o.tagLen ≠ sl.tagLen) := fun ⟨hk, hn⟩ => hn (h4 hk)
    have n6 : ¬(k ≠ .opening ∧ o.tagLen < o.extraLen + sl.tagLen) := fun ⟨hk, hn⟩ => by have := h7 hk; omega
    have n5 : ¬(o.outCap < o.inLen) := by omega
    simp [h1, h2, h3, n3, h5, n5, n6, h8, h9]

/-- The codes the prologue's checks raise (R206, R451). -/
theorem aeadCheck_codes {p : Platform} {f : Family} {k : Kind} {d : Nat} {o : AeadOps} {sl : Slot} {c : Code}
    (h : aeadCheck p f k d o sl = some c) :
    c = .ctxErr ∨ c = .config ∨ c = .tooLarge ∨ c = .bufSmall ∨ c = .busErr := by
  unfold aeadCheck at h
  split at h <;> [(cases h; simp); skip]
  split at h <;> [(cases h; simp); skip]
  split at h <;> [(cases h; simp); skip]
  split at h <;> [(cases h; simp); skip]
  split at h <;> [(cases h; simp); skip]
  split at h <;> [(cases h; simp); skip]
  split at h <;> [(cases h; simp); skip]
  split at h <;> [(cases h; simp); exact absurd h (by simp)]

theorem aeadReady_iff {f : Family} {k : Kind} {rs : Reg} {ctx : Ctx} {s : State} :
    AeadReady f k rs ctx s ↔ descriptorOk s.platform (s.regNat rs) 96 = true ∧
      aeadCheck s.platform f k (s.regNat rs) (s.aeadOps rs k) (s.slot ctx) = none := by
  rw [descriptorOk_iff, aeadCheck_eq_none_iff, aeadOverlap_eq_false]
  simp only [regionsAccessible, Bool.and_eq_true, List.all_eq_true]
  constructor
  · rintro ⟨a, b, c, d, e, g, h, i, j, l, m, q, n, o⟩
    exact ⟨a, b, c, d, e, g, h, i, ⟨j, l, m, q⟩, n, o⟩
  · rintro ⟨a, b, c, d, e, g, h, i, ⟨j, l, m, q⟩, n, o⟩
    exact ⟨a, b, c, d, e, g, h, i, j, l, m, q, n, o⟩

/-- SEAL, SEALX and OPEN under the prologue's conditions (R206). -/
theorem aeadRun_of_ready {f : Family} {k : Kind} {rs : Reg} {ctx : Ctx} {s : State} (h : AeadReady f k rs ctx s)
    (body : Slot → Work → State → Outcome) :
    aeadRun f k rs ctx body s = body (s.slot ctx) (s.snapshot rs k)
      ((s.logRead (s.regNat rs) 96).log (snapshotTrace k (s.aeadOps rs k))) := by
  obtain ⟨hd, hc⟩ := aeadReady_iff.mp h
  rcases aeadRun_cases f k rs ctx body s with ⟨h1, -⟩ | ⟨-, c, h1, -⟩ | ⟨-, -, h2⟩
  · simp [h1] at hd
  · simp [h1] at hc
  · exact h2

/-! ### The snapshot -/

@[simp] theorem aeadSnapshot_ops (k : Kind) (o : AeadOps) (m : Memory) : (aeadSnapshot k o m).ops = o := rfl
@[simp] theorem aeadSnapshot_nonce (k : Kind) (o : AeadOps) (m : Memory) :
    (aeadSnapshot k o m).nonce = Memory.readBytes m o.nonceAddr o.nonceLen := rfl
@[simp] theorem aeadSnapshot_ad (k : Kind) (o : AeadOps) (m : Memory) :
    (aeadSnapshot k o m).ad = Memory.readBytes m o.adAddr o.adLen := rfl
@[simp] theorem aeadSnapshot_inp (k : Kind) (o : AeadOps) (m : Memory) :
    (aeadSnapshot k o m).inp = Memory.readBytes m o.inAddr o.inLen := rfl
@[simp] theorem aeadSnapshot_extra (o : AeadOps) (m : Memory) :
    (aeadSnapshot .sealingX o m).extra = Memory.readBytes m o.extraAddr o.extraLen := rfl
@[simp] theorem aeadSnapshot_recv (o : AeadOps) (m : Memory) :
    (aeadSnapshot .opening o m).recv = Memory.readBytes m o.tagAddr o.tagLen := rfl
@[simp] theorem snapshot_ops (s : State) (rs : Reg) (k : Kind) : (s.snapshot rs k).ops = s.aeadOps rs k := rfl
@[simp] theorem snapshot_nonce_length (s : State) (rs : Reg) (k : Kind) :
    (s.snapshot rs k).nonce.length = (s.aeadOps rs k).nonceLen := by simp [State.snapshot]
@[simp] theorem snapshot_inp_length (s : State) (rs : Reg) (k : Kind) :
    (s.snapshot rs k).inp.length = (s.aeadOps rs k).inLen := by simp [State.snapshot]
@[simp] theorem snapshot_extra_length (s : State) (rs : Reg) :
    (s.snapshot rs .sealingX).extra.length = (s.aeadOps rs .sealingX).extraLen := by simp [State.snapshot]
@[simp] theorem snapshot_recv_length (s : State) (rs : Reg) :
    (s.snapshot rs .opening).recv.length = (s.aeadOps rs .opening).tagLen := by simp [State.snapshot]

/-! ### How SEAL, SEALX and OPEN end (R210) -/

/-- SEAL's and SEALX's end: both regions written, the count in rd, and nothing else, for an output and a tag region apart. -/
theorem finishSeal_spec (rd : Reg) (o : AeadOps) (out tagRegion : Bytes) (count : Nat) (s : State)
    (h : Region.apart ⟨o.outAddr, out.length⟩ ⟨o.tagAddr, tagRegion.length⟩) :
    ∃ t, finishSeal rd o out tagRegion count s = .next t ∧ Completed .ok s t ∧ t.reg rd = BitVec.ofNat 64 count ∧
      SameRegsExcept [rd] s t ∧ t.slots = s.slots ∧
      Memory.readBytes t.mem o.outAddr out.length = out ∧
      Memory.readBytes t.mem o.tagAddr tagRegion.length = tagRegion ∧
      SameMemOutside [⟨o.outAddr, out.length⟩, ⟨o.tagAddr, tagRegion.length⟩] s t := by
  refine ⟨_, rfl, Completed.of_complete rfl rfl rfl rfl rfl rfl rfl rfl, by simp, fun r hr => ?_, rfl, ?_, ?_, fun a ha => ?_⟩
  · simp only [List.mem_singleton] at hr; simp [hr]
  · simp only [complete_mem, setReg_mem, memWrite_mem]
    rw [Memory.readBytes_writeBytes_apart (by simp only [Region.apart] at h; omega), Memory.readBytes_writeBytes_same]
  · simp only [complete_mem, setReg_mem, memWrite_mem, Memory.readBytes_writeBytes_same]
  · simp only [List.mem_cons, List.not_mem_nil, or_false, forall_eq_or_imp, forall_eq, Region.covers_eq_false] at ha
    simp only [complete_mem, setReg_mem, memWrite_mem]
    rw [Memory.read_writeBytes_outside ha.2, Memory.read_writeBytes_outside ha.1]

/-- The end of an OPEN whose tag verified: the output region written, its length in rd, and nothing else. -/
theorem finishOpen_spec (rd : Reg) (o : AeadOps) (out : Bytes) (s : State) :
    ∃ t, finishOpen rd o out s = .next t ∧ Completed .ok s t ∧ t.reg rd = BitVec.ofNat 64 o.inLen ∧
      SameRegsExcept [rd] s t ∧ t.slots = s.slots ∧ Memory.readBytes t.mem o.outAddr out.length = out ∧
      SameMemOutside [⟨o.outAddr, out.length⟩] s t := by
  refine ⟨_, rfl, Completed.of_complete rfl rfl rfl rfl rfl rfl rfl rfl, by simp, fun r hr => ?_, rfl, ?_, fun a ha => ?_⟩
  · simp only [List.mem_singleton] at hr; simp [hr]
  · simp only [complete_mem, setReg_mem, memWrite_mem, Memory.readBytes_writeBytes_same]
  · simp only [List.mem_cons, List.not_mem_nil, or_false, forall_eq, Region.covers_eq_false] at ha
    simp only [complete_mem, setReg_mem, memWrite_mem]
    rw [Memory.read_writeBytes_outside ha]

/-! ### Names for the descriptor words of a state -/

theorem aeadOps_eq (s : State) (rs : Reg) (k : Kind) : aeadOps s.mem (s.regNat rs) k = s.aeadOps rs k := rfl
theorem initOps_eq (s : State) (rs : Reg) : initOps s.mem (s.regNat rs) = s.initOps rs := rfl

/-- The write set of a SEAL, SEALX or OPEN whose checks pass (R209, R506). -/
theorem aeadWriteSet_of_ready {f : Family} {k : Kind} {rs : Reg} {ctx : Ctx} {s : State} (h : AeadReady f k rs ctx s) :
    aeadWriteSet f k rs ctx s = writeRegions k (s.aeadOps rs k) (s.slot ctx).tagLen := by
  obtain ⟨hd, hc⟩ := aeadReady_iff.mp h
  simp [aeadWriteSet, hd, aeadOps_eq, hc]

/-- The write set of a SEAL, SEALX or OPEN is among the regions it names (R95, R506). -/
theorem aeadWriteSet_subset {f : Family} {k : Kind} {rs : Reg} {ctx : Ctx} {s : State} {r : Region}
    (h : r ∈ aeadWriteSet f k rs ctx s) : r ∈ (aeadFootprint k rs ctx s).writes := by
  simp only [aeadWriteSet] at h
  split at h
  · exact h
  · cases h

/-- The tag length of a well-formed EAX or GCM-SIV context (R250, R300). -/
theorem Slot.wf_tagLen {sl : Slot} (h : sl.wf) (hv : sl.valid = true) (hf : sl.alg.family ≠ .ccp) : sl.tagLen = 16 := by
  unfold Slot.wf at h
  rw [if_pos hv] at h
  have := h.2.2.1
  revert this
  cases hh : sl.alg.family <;> simp_all [Family.tagOk]

/-- The tag length of a well-formed context is 1 to 16 (R44). -/
theorem Slot.wf_tagLen_range {sl : Slot} (h : sl.wf) (hv : sl.valid = true) : 1 ≤ sl.tagLen ∧ sl.tagLen ≤ 16 := by
  unfold Slot.wf at h
  rw [if_pos hv] at h
  have := h.2.2.1
  revert this
  cases hh : sl.alg.family <;> simp +contextual [Family.tagOk]

/-! ### The record unit -/

/-- REC.XMAC's public checks pass exactly when none of their conditions holds (R410, R412). -/
theorem xmacCheck_eq_none_iff {p : Platform} {d : Nat} {o : XmacOps} :
    xmacCheck p d o = none ↔ 1 ≤ o.md ∧ o.md ≤ 64 ∧ o.md ≤ o.origLen ∧ Region.apart ⟨o.outAddr, o.md⟩ ⟨o.dataAddr, o.origLen⟩ ∧
      Region.apart ⟨o.outAddr, o.md⟩ ⟨d, 40⟩ ∧
      p.accessible o.dataAddr o.origLen .read = true ∧ p.accessible o.outAddr o.md .write = true := by
  rw [← Region.overlaps_eq_false, ← Region.overlaps_eq_false]
  unfold xmacCheck Config.maxMd
  constructor
  · intro h
    split at h <;> [cases h; skip]
    split at h <;> [cases h; skip]
    split at h <;> [cases h; skip]
    split at h <;> [cases h; skip]
    rename_i h1 h2 h4 h3
    simp only [Bool.not_eq_true', Bool.and_eq_false_iff, not_or, Bool.not_eq_false] at h3
    exact ⟨by omega, by omega, by omega, by simpa using h2, by simpa using h4, h3.1, h3.2⟩
  · rintro ⟨h1, h2, h3, h4, h7, h5, h6⟩
    rw [if_neg (by omega), h4, h7, h5, h6]
    simp

/-- The codes REC.XMAC's checks raise (R410, R451). -/
theorem xmacCheck_codes {p : Platform} {d : Nat} {o : XmacOps} {c : Code} (h : xmacCheck p d o = some c) : c = .config ∨ c = .busErr := by
  unfold xmacCheck at h
  split at h <;> [(cases h; simp); skip]
  split at h <;> [(cases h; simp); skip]
  split at h <;> [(cases h; simp); skip]
  split at h <;> [(cases h; simp); cases h]

/-- The ways REC.XMAC ends (R410): its output bytes are the rotated buffer of the scan. -/
theorem execRecXmac_cases (rs : Reg) (s : State) :
    (descriptorOk s.platform (s.regNat rs) 40 = false ∧ execRecXmac rs s = finish .busErr s) ∨
    (descriptorOk s.platform (s.regNat rs) 40 = true ∧ ∃ c, xmacCheck s.platform (s.regNat rs) (xmacOps s.mem (s.regNat rs)) = some c ∧
      execRecXmac rs s = finish c (s.logRead (s.regNat rs) 40)) ∨
    (descriptorOk s.platform (s.regNat rs) 40 = true ∧ xmacCheck s.platform (s.regNat rs) (xmacOps s.mem (s.regNat rs)) = none ∧
      ∀ o, o = xmacOps s.mem (s.regNat rs) → ∀ start, start = xmacScanStart o.md o.origLen →
        ∀ c, c = xmacGather (s.memRead (o.dataAddr + start) (o.origLen - start)) o.md o.inLen o.origLen →
        execRecXmac rs s = finish .ok
          ((((s.logRead (s.regNat rs) 40).logRead (o.dataAddr + start) (o.origLen - start)).setWork
            { s.work with rot := c.rot }).memWrite o.outAddr
            (xmacRotate o.md o.md 1 c.rotateOffset c.rot))) := by
  unfold execRecXmac
  cases hd : descriptorOk s.platform (s.regNat rs) 40
  · exact .inl ⟨rfl, by simp only [hd, Bool.not_false, if_true]⟩
  · refine .inr ?_
    simp only [hd, Bool.not_true, Bool.false_eq_true, if_false]
    cases hc : xmacCheck s.platform (s.regNat rs) (xmacOps s.mem (s.regNat rs)) with
    | some c => exact .inl ⟨trivial, c, rfl, rfl⟩
    | none =>
      refine .inr ⟨trivial, rfl, ?_⟩
      intro o ho start hs c hcc
      subst hcc; subst hs; subst ho
      dsimp only

/-- The ways REC.RMPAD ends (R402, R403). -/
theorem execRecRmpad_cases (rd rs : Reg) (s : State) :
    (rd.val % 2 ≠ 0 ∧ execRecRmpad rd rs s = finish .illegal s) ∨
    (rd.val % 2 = 0 ∧ descriptorOk s.platform (s.regNat rs) 32 = false ∧ execRecRmpad rd rs s = finish .busErr s) ∨
    (rd.val % 2 = 0 ∧ descriptorOk s.platform (s.regNat rs) 32 = true ∧ ∀ o, o = rmpadOps s.mem (s.regNat rs) →
      (1 + o.macSize > o.inLen ∧ execRecRmpad rd rs s = finish .bufSmall (s.logRead (s.regNat rs) 32)) ∨
      (1 + o.macSize ≤ o.inLen ∧ s.platform.accessible o.dataAddr o.inLen .read = false ∧
        execRecRmpad rd rs s = finish .busErr (s.logRead (s.regNat rs) 32)) ∨
      (1 + o.macSize ≤ o.inLen ∧ s.platform.accessible o.dataAddr o.inLen .read = true ∧
        ∀ r, r = rmpadResult (s.memRead o.dataAddr o.inLen) o.inLen o.macSize → execRecRmpad rd rs s =
          finish .ok ((((s.logRead (s.regNat rs) 32).log (rmpadTrace o.dataAddr o.inLen)).setReg rd r.1).setReg (rd + 1) r.2))) := by
  unfold execRecRmpad
  by_cases he : rd.val % 2 = 0
  · refine .inr ?_
    simp only [he, ne_eq, not_true_eq_false, if_false]
    cases hd : descriptorOk s.platform (s.regNat rs) 32
    · exact .inl ⟨trivial, rfl, by simp only [Bool.not_false, if_true]⟩
    · refine .inr ⟨trivial, rfl, ?_⟩
      rintro _ rfl
      simp only [Bool.not_true, Bool.false_eq_true, if_false]
      by_cases ho : 1 + (rmpadOps s.mem (s.regNat rs)).macSize > (rmpadOps s.mem (s.regNat rs)).inLen
      · exact .inl ⟨ho, by simp only [ho, if_true]⟩
      · refine .inr ?_
        simp only [ho, if_false]
        cases ha : s.platform.accessible (rmpadOps s.mem (s.regNat rs)).dataAddr (rmpadOps s.mem (s.regNat rs)).inLen .read
        · exact .inl ⟨by omega, rfl, by simp only [Bool.not_false, if_true]⟩
        · refine .inr ⟨by omega, rfl, ?_⟩
          rintro _ rfl
          simp only [Bool.not_true, Bool.false_eq_true, if_false]
  · exact .inl ⟨he, by simp only [ne_eq, he, not_false_eq_true, if_true]⟩

/-! ### How OPEN and REC.XMAC end -/

/-- The end of a command that writes one region and no register, with any code: REC.XMAC and an SIV.OPEN whose tag failed. -/
theorem finish_memWrite_spec (c : Code) (a : Nat) (out : Bytes) (s u : State) (h : Completed c s (u.complete c))
    (hx : u.x = s.x) (hs : u.slots = s.slots) (hm : u.mem = s.mem) :
    ∃ t, finish c (u.memWrite a out) = .next t ∧ Completed c s t ∧ t.x = s.x ∧ t.slots = s.slots ∧
      Memory.readBytes t.mem a out.length = out ∧ SameMemOutside [⟨a, out.length⟩] s t ∧
      t.bus = u.bus ++ busRange .write a out.length := by
  refine ⟨_, rfl, h.memWrite a out, by simpa using hx, by simpa using hs, ?_, ?_, rfl⟩
  · simp only [complete_mem, memWrite_mem, Memory.readBytes_writeBytes_same]
  · exact SameMemOutside.of_memWrite hm (by simp)

/-! ### The window -/

/-- A write at a window offset (R34). -/
theorem hostMove_winWrite {s : State} {a : Word} {off width : Nat} {v : Word} (h : a.toNat = s.platform.base.toNat + off)
    (ho : off < 0x200) : hostMove (.winWrite a width v) s = .next (winWrite off width v s) := by
  have hw : windowOffset s.platform a = some off := by
    rw [windowOffset, if_pos ⟨by omega, by omega⟩]; congr 1; omega
  simp [hostMove, hw]

/-- A read at a window offset (R34). -/
theorem hostMove_winRead {s : State} {a : Word} {off width : Nat} (h : a.toNat = s.platform.base.toNat + off)
    (ho : off < 0x200) : hostMove (.winRead a width) s = .next (winRead off width s) := by
  have hw : windowOffset s.platform a = some off := by
    rw [windowOffset, if_pos ⟨by omega, by omega⟩]; congr 1; omega
  simp [hostMove, hw]

end Sys2Proof.Machine
end

