-- ==== Sys2Proof/Laws/Engine.lean ====
section
/-! SUPPORT. What the engine's transitions do, said once: a phase that goes on, a phase that ends, the prologue's phase. -/

namespace Sys2Proof.Machine

@[simp] theorem goTo_eq (s : State) (p : Phase) (w : Work) : s.goTo p w = .next (s.setPhase p w) := rfl

/-- A phase of the running command's sequencer. -/
theorem engineTick_of_phase {s : State} {w : Word32} {i : Instr} {c : AeadCommand} {r : Outcome} (hr : s.running = some w)
    (hd : decode w = .ok i) (hc : sequenced i = some c) (hp : phaseTick c s = some r) : engineTick s = r := by
  simp [engineTick, hr, hd, hc, hp]

/-- A command without a sequencer. -/
theorem engineTick_of_unsequenced {s : State} {w : Word32} {i : Instr} (hr : s.running = some w) (hd : decode w = .ok i)
    (hc : sequenced i = none) : engineTick s = exec i s := by
  simp [engineTick, hr, hd, hc]

/-- The first of n + 1 phases. -/
theorem runTicks_succ {s t : State} (n : Nat) (hr : s.running.isSome) (h : engineTick s = .next t) :
    runTicks (n + 1) s = runTicks n t := by
  have : s.running ≠ none := by cases hs : s.running <;> simp_all
  simp [runTicks, this, h]

/-- A completed command has no phase left. -/
theorem runTicks_of_idle {s : State} (n : Nat) (h : s.running = none) : runTicks n s = .next s := by
  cases n <;> simp [runTicks, h]

/-- A phase that goes on. -/
theorem runTicks_goTo {s : State} {w : Word32} {i : Instr} {c : AeadCommand} {t : State} {p : Phase} {b : Work} (n : Nat)
    (hr : s.running = some w) (hd : decode w = .ok i) (hc : sequenced i = some c) (hp : phaseTick c s = some (t.goTo p b)) :
    runTicks (n + 1) s = runTicks n (t.setPhase p b) :=
  runTicks_succ n (by simp [hr]) (by rw [engineTick_of_phase hr hd hc hp, goTo_eq])

/-- A phase that ends the command. -/
theorem runTicks_finish {s : State} {w : Word32} {i : Instr} {c : AeadCommand} {t : State} (n : Nat) (hr : s.running = some w)
    (hd : decode w = .ok i) (hc : sequenced i = some c) (hp : phaseTick c s = some (.next t)) (ht : t.running = none) :
    runTicks (n + 1) s = .next t := by
  rw [runTicks_succ n (by simp [hr]) (engineTick_of_phase hr hd hc hp), runTicks_of_idle n ht]

/-- The prologue's phase when its checks pass: the descriptor and the input regions read, the snapshot taken (R90, R206). -/
theorem prologueTick_of_ready {c : AeadCommand} {s : State} (h : AeadReady c.family c.kind c.rs c.ctx s) (p : Phase) :
    prologueTick c p s = ((s.logRead (s.regNat c.rs) 96).log (snapshotTrace c.kind (s.aeadOps c.rs c.kind))).goTo p
      (s.snapshot c.rs c.kind) := aeadRun_of_ready h _

/-- The prologue's phase and the whole command end in the same state when a check fails, and otherwise part at the snapshot
(R206). -/
theorem prologueTick_cases (c : AeadCommand) (p : Phase) (body : Slot → Work → State → Outcome) (s : State) :
    (∃ code u, prologueTick c p s = finish code u ∧ aeadRun c.family c.kind c.rs c.ctx body s = finish code u ∧
      u.mem = s.mem ∧ u.x = s.x ∧ u.slots = s.slots ∧ Completed code s (u.complete code)) ∨
    (AeadReady c.family c.kind c.rs c.ctx s ∧
      ∀ u, u = (s.logRead (s.regNat c.rs) 96).log (snapshotTrace c.kind (s.aeadOps c.rs c.kind)) →
        prologueTick c p s = u.goTo p (s.snapshot c.rs c.kind) ∧
        aeadRun c.family c.kind c.rs c.ctx body s = body (s.slot c.ctx) (s.snapshot c.rs c.kind) u) := by
  rcases aeadRun_cases c.family c.kind c.rs c.ctx body s with ⟨h1, h⟩ | ⟨h1, e, h2, h⟩ | ⟨h1, h2, h⟩
  · exact .inl ⟨_, s, by simp [prologueTick, aeadRun, h1], h, rfl, rfl, rfl, .complete _ _⟩
  · refine .inl ⟨_, _, ?_, h, rfl, rfl, rfl, (Completed.complete _ _).logRead _ _⟩
    simp only [State.aeadOps] at h2
    simp [prologueTick, aeadRun, h1, h2]
  · have hr := aeadReady_iff.mpr ⟨h1, h2⟩
    exact .inr ⟨hr, by rintro u rfl; exact ⟨prologueTick_of_ready hr p, h⟩⟩

end Sys2Proof.Machine
end

