-- ==== Sys2Proof/Laws/PerInstr.lean ====
section
/-! SUPPORT. One statement for every command, proved command by command: its encoding finds its row of the opcode map by the op
byte, and a well-formed command's encoding has the row's pattern under the row's mask (30_encoding.md R126, R128). -/

namespace Sys2Proof.Laws.OpcodeMatch

/-- The encoding of i is in a row of R126, and matches the row's pattern when i is well-formed. -/
def Statement (i : Instr) : Prop :=
  ∃ r, rowOf (encode i) = some r ∧ (WellFormed i → encode i &&& r.mask = r.pattern)

theorem nop : Statement .nop := ⟨_, rfl, fun _ => rfl⟩

theorem ctMsb (rd rs1 : Reg) : Statement (.ctMsb rd rs1) :=
  ⟨_, rowOf_of_opByte (v := opWord 0x10) ((opByte_wordR _ rd rs1 0 0).trans (by decide)),
    fun _ => (wordR_mask2 _ rd rs1).trans (by decide)⟩

theorem ctIszero (rd rs1 : Reg) : Statement (.ctIszero rd rs1) :=
  ⟨_, rowOf_of_opByte (v := opWord 0x11) ((opByte_wordR _ rd rs1 0 0).trans (by decide)),
    fun _ => (wordR_mask2 _ rd rs1).trans (by decide)⟩

theorem ctEq (rd rs1 rs2 : Reg) : Statement (.ctEq rd rs1 rs2) :=
  ⟨_, rowOf_of_opByte (v := opWord 0x12) ((opByte_wordR _ rd rs1 rs2 0).trans (by decide)),
    fun _ => (wordR_mask3 _ rd rs1 rs2).trans (by decide)⟩

theorem ctLt (rd rs1 rs2 : Reg) : Statement (.ctLt rd rs1 rs2) :=
  ⟨_, rowOf_of_opByte (v := opWord 0x13) ((opByte_wordR _ rd rs1 rs2 0).trans (by decide)),
    fun _ => (wordR_mask3 _ rd rs1 rs2).trans (by decide)⟩

theorem ctGe (rd rs1 rs2 : Reg) : Statement (.ctGe rd rs1 rs2) :=
  ⟨_, rowOf_of_opByte (v := opWord 0x14) ((opByte_wordR _ rd rs1 rs2 0).trans (by decide)),
    fun _ => (wordR_mask3 _ rd rs1 rs2).trans (by decide)⟩

theorem ctLe (rd rs1 rs2 : Reg) : Statement (.ctLe rd rs1 rs2) :=
  ⟨_, rowOf_of_opByte (v := opWord 0x15) ((opByte_wordR _ rd rs1 rs2 0).trans (by decide)),
    fun _ => (wordR_mask3 _ rd rs1 rs2).trans (by decide)⟩

theorem ctGt (rd rs1 rs2 : Reg) : Statement (.ctGt rd rs1 rs2) :=
  ⟨_, rowOf_of_opByte (v := opWord 0x16) ((opByte_wordR _ rd rs1 rs2 0).trans (by decide)),
    fun _ => (wordR_mask3 _ rd rs1 rs2).trans (by decide)⟩

theorem ctSel (rd rs1 rs2 rs3 : Reg) : Statement (.ctSel rd rs1 rs2 rs3) :=
  ⟨_, rowOf_of_opByte (v := opWord 0x17) ((opByte_wordR _ rd rs1 rs2 rs3).trans (by decide)),
    fun _ => (wordR_mask4 _ rd rs1 rs2 rs3).trans (by decide)⟩

theorem ctMsb8 (rd rs1 : Reg) : Statement (.ctMsb8 rd rs1) :=
  ⟨_, rowOf_of_opByte (v := opWord 0x18) ((opByte_wordR _ rd rs1 0 0).trans (by decide)),
    fun _ => (wordR_mask2 _ rd rs1).trans (by decide)⟩

theorem ctIszero8 (rd rs1 : Reg) : Statement (.ctIszero8 rd rs1) :=
  ⟨_, rowOf_of_opByte (v := opWord 0x19) ((opByte_wordR _ rd rs1 0 0).trans (by decide)),
    fun _ => (wordR_mask2 _ rd rs1).trans (by decide)⟩

theorem ctEq8 (rd rs1 rs2 : Reg) : Statement (.ctEq8 rd rs1 rs2) :=
  ⟨_, rowOf_of_opByte (v := opWord 0x1A) ((opByte_wordR _ rd rs1 rs2 0).trans (by decide)),
    fun _ => (wordR_mask3 _ rd rs1 rs2).trans (by decide)⟩

theorem ctLt8 (rd rs1 rs2 : Reg) : Statement (.ctLt8 rd rs1 rs2) :=
  ⟨_, rowOf_of_opByte (v := opWord 0x1B) ((opByte_wordR _ rd rs1 rs2 0).trans (by decide)),
    fun _ => (wordR_mask3 _ rd rs1 rs2).trans (by decide)⟩

theorem ctGe8 (rd rs1 rs2 : Reg) : Statement (.ctGe8 rd rs1 rs2) :=
  ⟨_, rowOf_of_opByte (v := opWord 0x1C) ((opByte_wordR _ rd rs1 rs2 0).trans (by decide)),
    fun _ => (wordR_mask3 _ rd rs1 rs2).trans (by decide)⟩

theorem ctLe8 (rd rs1 rs2 : Reg) : Statement (.ctLe8 rd rs1 rs2) :=
  ⟨_, rowOf_of_opByte (v := opWord 0x1D) ((opByte_wordR _ rd rs1 rs2 0).trans (by decide)),
    fun _ => (wordR_mask3 _ rd rs1 rs2).trans (by decide)⟩

theorem ctGt8 (rd rs1 rs2 : Reg) : Statement (.ctGt8 rd rs1 rs2) :=
  ⟨_, rowOf_of_opByte (v := opWord 0x1E) ((opByte_wordR _ rd rs1 rs2 0).trans (by decide)),
    fun _ => (wordR_mask3 _ rd rs1 rs2).trans (by decide)⟩

theorem ctSel8 (rd rs1 rs2 rs3 : Reg) : Statement (.ctSel8 rd rs1 rs2 rs3) :=
  ⟨_, rowOf_of_opByte (v := opWord 0x1F) ((opByte_wordR _ rd rs1 rs2 rs3).trans (by decide)),
    fun _ => (wordR_mask4 _ rd rs1 rs2 rs3).trans (by decide)⟩

theorem ctMemcmp (rd rs1 rs2 rs3 : Reg) : Statement (.ctMemcmp rd rs1 rs2 rs3) :=
  ⟨_, rowOf_of_opByte (v := opWord 0x20) ((opByte_wordR _ rd rs1 rs2 rs3).trans (by decide)),
    fun _ => (wordR_mask4 _ rd rs1 rs2 rs3).trans (by decide)⟩

theorem ctCmxor (rd rs1 rs2 rs3 : Reg) : Statement (.ctCmxor rd rs1 rs2 rs3) :=
  ⟨_, rowOf_of_opByte (v := opWord 0x21) ((opByte_wordR _ rd rs1 rs2 rs3).trans (by decide)),
    fun _ => (wordR_mask4 _ rd rs1 rs2 rs3).trans (by decide)⟩

theorem recRmpad (rd rs : Reg) : Statement (.recRmpad rd rs) :=
  ⟨_, rowOf_of_opByte (v := opWord 0x30) ((opByte_wordD _ rd rs 0).trans (by decide)),
    fun h => (wordD_maskRmpad _ rd rs (by simpa [WellFormed, Instr.wf] using h)).trans (by decide)⟩

theorem recXmac (rs : Reg) : Statement (.recXmac rs) :=
  ⟨_, rowOf_of_opByte (v := opWord 0x31) ((opByte_wordD _ 0 rs 0).trans (by decide)),
    fun _ => (wordD_maskXmac _ rs).trans (by decide)⟩

theorem aeadCleanup (ctx : Ctx) : Statement (.aeadCleanup ctx) :=
  ⟨_, rowOf_of_opByte (v := opWord 0x40) ((opByte_wordD _ 0 0 ctx).trans (by decide)),
    fun _ => (wordD_mask1 _ ctx).trans (by decide)⟩

theorem eaxInit (rs : Reg) (ctx : Ctx) : Statement (.eaxInit rs ctx) :=
  ⟨_, rowOf_of_opByte (v := opWord 0x50) ((opByte_wordD _ 0 rs ctx).trans (by decide)),
    fun _ => (wordD_mask2 _ rs ctx).trans (by decide)⟩

theorem eaxSeal (rd rs : Reg) (ctx : Ctx) : Statement (.eaxSeal rd rs ctx) :=
  ⟨_, rowOf_of_opByte (v := opWord 0x51) ((opByte_wordD _ rd rs ctx).trans (by decide)),
    fun _ => (wordD_mask3 _ rd rs ctx).trans (by decide)⟩

theorem eaxOpen (rd rs : Reg) (ctx : Ctx) : Statement (.eaxOpen rd rs ctx) :=
  ⟨_, rowOf_of_opByte (v := opWord 0x52) ((opByte_wordD _ rd rs ctx).trans (by decide)),
    fun _ => (wordD_mask3 _ rd rs ctx).trans (by decide)⟩

theorem sivInit (rs : Reg) (ctx : Ctx) : Statement (.sivInit rs ctx) :=
  ⟨_, rowOf_of_opByte (v := opWord 0x60) ((opByte_wordD _ 0 rs ctx).trans (by decide)),
    fun _ => (wordD_mask2 _ rs ctx).trans (by decide)⟩

theorem sivSeal (rd rs : Reg) (ctx : Ctx) : Statement (.sivSeal rd rs ctx) :=
  ⟨_, rowOf_of_opByte (v := opWord 0x61) ((opByte_wordD _ rd rs ctx).trans (by decide)),
    fun _ => (wordD_mask3 _ rd rs ctx).trans (by decide)⟩

theorem sivOpen (rd rs : Reg) (ctx : Ctx) : Statement (.sivOpen rd rs ctx) :=
  ⟨_, rowOf_of_opByte (v := opWord 0x62) ((opByte_wordD _ rd rs ctx).trans (by decide)),
    fun _ => (wordD_mask3 _ rd rs ctx).trans (by decide)⟩

theorem ccpInit (rs : Reg) (ctx : Ctx) : Statement (.ccpInit rs ctx) :=
  ⟨_, rowOf_of_opByte (v := opWord 0x70) ((opByte_wordD _ 0 rs ctx).trans (by decide)),
    fun _ => (wordD_mask2 _ rs ctx).trans (by decide)⟩

theorem ccpSeal (rd rs : Reg) (ctx : Ctx) : Statement (.ccpSeal rd rs ctx) :=
  ⟨_, rowOf_of_opByte (v := opWord 0x71) ((opByte_wordD _ rd rs ctx).trans (by decide)),
    fun _ => (wordD_mask3 _ rd rs ctx).trans (by decide)⟩

theorem ccpSealx (rd rs : Reg) (ctx : Ctx) : Statement (.ccpSealx rd rs ctx) :=
  ⟨_, rowOf_of_opByte (v := opWord 0x72) ((opByte_wordD _ rd rs ctx).trans (by decide)),
    fun _ => (wordD_mask3 _ rd rs ctx).trans (by decide)⟩

theorem ccpOpen (rd rs : Reg) (ctx : Ctx) : Statement (.ccpOpen rd rs ctx) :=
  ⟨_, rowOf_of_opByte (v := opWord 0x73) ((opByte_wordD _ rd rs ctx).trans (by decide)),
    fun _ => (wordD_mask3 _ rd rs ctx).trans (by decide)⟩

end Sys2Proof.Laws.OpcodeMatch
end

