-- ==== Sys2Proof/Tests/Slice0.lean ====
section
/-! SUPPORT. Tests on fixed values, their expected results from 95_test_vectors.md or computed by hand from the rules, and for every
obligation with hypotheses a concrete state that meets them. -/

section Tests
open Sys2Proof Sys2Proof.Machine

/-! ### Helpers -/

/-- The bytes from address a up, as memory cells; a zero byte is not listed. -/
def cellsOf : Nat → Bytes → Memory
  | _, [] => []
  | a, b :: bs => if b = 0 then cellsOf (a + 1) bs else (a, b) :: cellsOf (a + 1) bs

/-- A descriptor block of words from address a up. -/
def wordsOf (a : Nat) (ws : List Nat) : Memory := cellsOf a (ws.flatMap (leBytes 8))

/-- The platform of the memory vectors: RAM at 0 to 0xFFFF. The window's base is the test's own. -/
def ramPlatform : Platform := { base := 0xF0000000, sivAccel := false, access := .grants [⟨0, 0x10000, true, true⟩] }

/-- An idle engine with the given registers and memory. -/
def lab (x : Vector Word 8) (m : Memory) : State := { State.resetOn ramPlatform with x := x, mem := m }

/-- A register after a command. -/
def regAfter (i : Instr) (s : State) (r : Reg) : Option Word :=
  match exec i s with
  | .next t => some (t.reg r)
  | .fault _ => none
  | .refused _ => none

/-- The completion code of a command. -/
def codeAfter (i : Instr) (s : State) : Option Code :=
  match exec i s with
  | .next t => some t.err
  | .fault _ => none
  | .refused _ => none

/-- The n bytes at a after a command. -/
def bytesAfter (i : Instr) (s : State) (a n : Nat) : Option Bytes :=
  match exec i s with
  | .next t => some (Memory.readBytes t.mem a n)
  | .fault _ => none
  | .refused _ => none

/-! ### Well-formedness: each check refuses an ill-formed term -/

theorem test_wellFormed_refuses_odd_rd : ∀ rd rs : Reg, rd.val % 2 = 1 → ¬WellFormed (.recRmpad rd rs) := by decide
theorem test_wellFormed_even_rd : WellFormed (.recRmpad 6 7) ∧ WellFormed (.recRmpad 0 0) := by decide

/-! ### Decoding: words written out from R121 to R126, and those of L2.3 -/

theorem test_decode_ct_words :
    decode 0x10200000#32 = .ok (.ctMsb 1 0) ∧ decode 0x11D40000#32 = .ok (.ctIszero 6 5) ∧
    decode 0x12AE0000#32 = .ok (.ctEq 5 3 4) ∧ decode 0x13408000#32 = .ok (.ctLt 2 0 1) ∧
    decode 0x14E48000#32 = .ok (.ctGe 7 1 1) ∧ decode 0x15040000#32 = .ok (.ctLe 0 1 0) ∧
    decode 0x16298000#32 = .ok (.ctGt 1 2 3) ∧ decode 0x17642000#32 = .ok (.ctSel 3 1 0 2) := by decide
theorem test_decode_ct8_words :
    decode 0x18E00000#32 = .ok (.ctMsb8 7 0) ∧ decode 0x19FC0000#32 = .ok (.ctIszero8 7 7) ∧
    decode 0x1A098000#32 = .ok (.ctEq8 0 2 3) ∧ decode 0x1BE40000#32 = .ok (.ctLt8 7 1 0) ∧
    decode 0x1C3F8000#32 = .ok (.ctGe8 1 7 7) ∧ decode 0x1D970000#32 = .ok (.ctLe8 4 5 6) ∧
    decode 0x1E408000#32 = .ok (.ctGt8 2 0 1) ∧ decode 0x1F099000#32 = .ok (.ctSel8 0 2 3 1) := by decide
theorem test_decode_memory_words :
    decode 0x2082A000#32 = .ok (.ctMemcmp 4 0 5 2) ∧ decode 0x20977000#32 = .ok (.ctMemcmp 4 5 6 7) ∧
    decode 0x21053000#32 = .ok (.ctCmxor 0 1 2 3) ∧ decode 0x30DC0000#32 = .ok (.recRmpad 6 7) ∧
    decode 0x30400000#32 = .ok (.recRmpad 2 0) ∧ decode 0x311C0000#32 = .ok (.recXmac 7) ∧
    decode 0x31040000#32 = .ok (.recXmac 1) := by decide
theorem test_decode_aead_words :
    decode 0x40000300#32 = .ok (.aeadCleanup 3) ∧ decode 0x50000100#32 = .ok (.eaxInit 0 1) ∧
    decode 0x51640100#32 = .ok (.eaxSeal 3 1 1) ∧ decode 0x52880100#32 = .ok (.eaxOpen 4 2 1) ∧
    decode 0x60140300#32 = .ok (.sivInit 5 3) ∧ decode 0x61640200#32 = .ok (.sivSeal 3 1 2) ∧
    decode 0x62280000#32 = .ok (.sivOpen 1 2 0) ∧ decode 0x70000000#32 = .ok (.ccpInit 0 0) ∧
    decode 0x71640000#32 = .ok (.ccpSeal 3 1 0) ∧ decode 0x72FC0300#32 = .ok (.ccpSealx 7 7 3) ∧
    decode 0x73880000#32 = .ok (.ccpOpen 4 2 0) ∧ decode 0x00000000#32 = .ok .nop := by decide

/-- V-ENC-14 to V-ENC-20. -/
theorem test_decode_illegal :
    decode 0x00000001#32 = .error (.badField "NOP") ∧ decode 0x53000000#32 = .error (.reservedOpcode 0x53#8) ∧
    decode 0x10000001#32 = .error (.badField "CT.MSB") ∧ decode 0x50000400#32 = .error (.badField "EAX.INIT") ∧
    decode 0x30200000#32 = .error (.badField "REC.RMPAD") ∧ decode 0x12000001#32 = .error (.badField "CT.EQ") ∧
    decode 0xFF000000#32 = .error (.reservedOpcode 0xFF#8) := by decide

/-- The first and last op byte of each unassigned range of R127. -/
theorem test_decode_reserved_boundaries :
    ∀ op ∈ [0x01#8, 0x0F#8, 0x22#8, 0x2F#8, 0x32#8, 0x3F#8, 0x41#8, 0x4F#8, 0x53#8, 0x5F#8, 0x63#8, 0x6F#8, 0x74#8, 0xFF#8],
      decode (op ++ 0#24) = .error (.reservedOpcode op) := by decide

theorem test_decodeTableWord : decodeTableWord 32 0x13408000 = some (.ctLt 2 0 1) ∧ decodeTableWord 32 0x53000000 = none := by
  decide

/-! ### The CT unit (L2.1, L2.2) -/

/-- x[0] = a, x[1] = b, x[2] = m. -/
def ctLab (a b m : Word) : State := lab #v[a, b, m, 0, 0, 0, 0, 0] []

/-- V-CT-1 to V-CT-3. -/
theorem test_ct_msb : regAfter (.ctMsb 3 0) (ctLab 0 0 0) 3 = some 0 ∧
    regAfter (.ctMsb 3 0) (ctLab 0x8000000000000000 0 0) 3 = some ones ∧
    regAfter (.ctMsb 0 0) (ctLab 0x7FFFFFFFFFFFFFFF 0 0) 0 = some 0 := by decide

/-- V-CT-12 to V-CT-15. -/
theorem test_ct_iszero : regAfter (.ctIszero 3 0) (ctLab 0 0 0) 3 = some ones ∧
    regAfter (.ctIszero 3 0) (ctLab 1 0 0) 3 = some 0 ∧
    regAfter (.ctIszero 3 0) (ctLab 0x8000000000000000 0 0) 3 = some 0 ∧
    regAfter (.ctIszero 3 0) (ctLab ones 0 0) 3 = some 0 := by decide

/-- V-CT-4, V-CT-9. -/
theorem test_ct_lt : regAfter (.ctLt 3 0 1) (ctLab 3 5 0) 3 = some ones ∧
    regAfter (.ctLt 3 0 1) (ctLab 0x8000000000000000 0x7FFFFFFFFFFFFFFF 0) 3 = some 0 := by decide

/-- V-CT-6, V-CT-7. -/
theorem test_ct_ge : regAfter (.ctGe 3 0 1) (ctLab 7 7 0) 3 = some ones ∧
    regAfter (.ctGe 3 0 1) (ctLab 0 ones 0) 3 = some 0 := by decide

/-- V-CT-8, V-CT-11. -/
theorem test_ct_le : regAfter (.ctLe 3 0 1) (ctLab ones 0 0) 3 = some 0 ∧
    regAfter (.ctLe 3 0 1) (ctLab 0 0 0) 3 = some ones := by decide

/-- V-CT-5, V-CT-10. -/
theorem test_ct_gt : regAfter (.ctGt 3 0 1) (ctLab 5 3 0) 3 = some ones ∧
    regAfter (.ctGt 3 0 1) (ctLab 0x7FFFFFFFFFFFFFFF 0x8000000000000000 0) 3 = some 0 := by decide

/-- V-CT-16, V-CT-17, V-CT-19. -/
theorem test_ct_eq : regAfter (.ctEq 3 0 1) (ctLab 5 5 0) 3 = some ones ∧
    regAfter (.ctEq 3 0 1) (ctLab 0 0x8000000000000000 0) 3 = some 0 ∧
    regAfter (.ctEq 3 0 1) (ctLab 0x1234 0x1235 0) 3 = some 0 := by decide

/-- V-CT-20 to V-CT-22. -/
theorem test_ct_sel : regAfter (.ctSel 3 0 1 2) (ctLab 0x1111 0x2222 ones) 3 = some 0x1111 ∧
    regAfter (.ctSel 3 0 1 2) (ctLab 0x1111 0x2222 0) 3 = some 0x2222 ∧
    regAfter (.ctSel 3 0 1 2) (ctLab 0xAAAAAAAABBBBBBBB 0xCCCCCCCCDDDDDDDD 0x00000000FFFFFFFF) 3 =
      some 0xCCCCCCCCBBBBBBBB := by decide

/-- V-CT-23 to V-CT-25, and the other 8-bit comparisons by R158. -/
theorem test_ct8 : regAfter (.ctLt8 3 0 1) (ctLab 3 5 0) 3 = some 0xFF ∧
    regAfter (.ctEq8 3 0 1) (ctLab 0x8000000000000000 0 0) 3 = some 0 ∧
    regAfter (.ctGe8 3 0 1) (ctLab 5 3 0) 3 = some 0xFF ∧
    regAfter (.ctLe8 3 0 1) (ctLab 7 7 0) 3 = some 0xFF ∧ regAfter (.ctGt8 3 0 1) (ctLab 7 7 0) 3 = some 0 ∧
    regAfter (.ctMsb8 3 0) (ctLab 0x80 0 0) 3 = some 0 ∧ regAfter (.ctIszero8 3 0) (ctLab 0x100 0 0) 3 = some 0 := by decide

/-- V-CT-26, V-CT-27. -/
theorem test_ct_sel8 : regAfter (.ctSel8 3 0 1 2) (ctLab 0x12F0 0x340F 0x0F) 3 = some 0 ∧
    regAfter (.ctSel8 3 0 1 2) (ctLab 0xAB 0xCD 0xFFFFFF00) 3 = some 0xCD := by decide

/-- 0x100: 010203, 0x200: 010207. -/
def memcmpLab (a b n : Word) : State :=
  lab #v[a, b, n, 9, 0, 0, 0, 0] (cellsOf 0x100 [1, 2, 3] ++ cellsOf 0x200 [1, 2, 7])

/-- V-CT-30, V-CT-31. -/
theorem test_ct_memcmp : regAfter (.ctMemcmp 3 0 1 2) (memcmpLab 0x100 0x200 3) 3 = some 4 ∧
    regAfter (.ctMemcmp 3 0 1 2) (memcmpLab 0x100 0x200 0) 3 = some 0 := by decide

/-- V-CT-32. -/
theorem test_ct_memcmp_buserr : codeAfter (.ctMemcmp 3 0 1 2) (memcmpLab 0xFFFE 0x100 4) = some .busErr ∧
    regAfter (.ctMemcmp 3 0 1 2) (memcmpLab 0xFFFE 0x100 4) 3 = some 9 := by decide

/-- Destination, source, length, mask. -/
def cmxorLab (d s n m : Word) (mem : Memory) : State := lab #v[d, s, n, m, 0, 0, 0, 0] mem

/-- V-CT-33, V-CT-34. -/
theorem test_ct_cmxor :
    bytesAfter (.ctCmxor 0 1 2 3) (cmxorLab 0x100 0x200 2 ones (cellsOf 0x100 [0x0f, 0x0f] ++ cellsOf 0x200 [0xf0, 0x33])) 0x100 2
      = some [0xff, 0x3c] ∧
    bytesAfter (.ctCmxor 0 1 2 3) (cmxorLab 0x100 0x200 2 0x0F (cellsOf 0x100 [0x0f, 0x0f] ++ cellsOf 0x200 [0xf0, 0x33])) 0x100 2
      = some [0x0f, 0x0c] := by decide

/-- V-CT-36, V-CT-37. -/
theorem test_ct_cmxor_overlap :
    bytesAfter (.ctCmxor 0 0 2 3) (cmxorLab 0x100 0 2 0xFF (cellsOf 0x100 [0xab, 0xcd])) 0x100 2 = some [0, 0] ∧
    bytesAfter (.ctCmxor 0 1 2 3) (cmxorLab 0x101 0x100 3 ones (cellsOf 0x100 [1, 2, 3, 4])) 0x100 4 = some [1, 3, 0, 4] := by
  decide


/-! ### The record unit (L2.5) -/

/-- A record at 0x1000 with REC.RMPAD's descriptor at 0x2000 and REC.XMAC's at 0x2040; x[0] and x[1] point at them. -/
def recLab (record : Bytes) (macSize inLen : Nat) : State :=
  lab #v[0x2000, 0x2040, 0, 0, 0, 0, 0, 0]
    (cellsOf 0x1000 record ++ wordsOf 0x2000 [0x1000, record.length, 16, macSize] ++
      wordsOf 0x2040 [0x3000, macSize, 0x1000, inLen, record.length])

def recordA : Bytes := [0x10, 0x11, 0x12, 0x13, 0x14, 0xa0, 0xa1, 0xa2, 0xa3, 3, 3, 3, 3]
def recordB : Bytes := [0x10, 0x11, 0x12, 0x13, 0x14, 0xa0, 0xa1, 0xa2, 0xa3, 3, 3, 2, 3]
def recordD : Bytes := [0xee, 0xee, 0xee, 0xee, 0xee, 0xee, 9]
def recordI : Bytes := [9, 8, 7, 0x5a, 1, 1]

/-- The two results of REC.RMPAD a2, (a0). -/
def rmpadOf (s : State) : Option Word × Option Word := (regAfter (.recRmpad 2 0) s 2, regAfter (.recRmpad 2 0) s 3)

/-- V-REC-A, V-REC-B. -/
theorem test_rmpad_valid_and_wrong_byte :
    rmpadOf (recLab recordA 4 0) = (some ones, some 9) ∧ rmpadOf (recLab recordB 4 0) = (some 0, some 13) := by decide

/-- V-REC-D, V-REC-E, V-REC-G, V-REC-C. -/
theorem test_rmpad_edges :
    rmpadOf (recLab recordD 2 0) = (some 0, some 7) ∧ rmpadOf (recLab [0x55, 0x55, 0x55, 0] 2 0) = (some ones, some 3) ∧
    rmpadOf (recLab [1, 2, 3, 4, 0] 4 0) = (some ones, some 4) ∧
    codeAfter (.recRmpad 2 0) (recLab [0] 4 0) = some .bufSmall := by decide

/-- V-REC-A, V-REC-B, V-REC-D, V-REC-I. -/
theorem test_xmac :
    bytesAfter (.recXmac 1) (recLab recordA 4 9) 0x3000 4 = some [0xa0, 0xa1, 0xa2, 0xa3] ∧
    bytesAfter (.recXmac 1) (recLab recordB 4 13) 0x3000 4 = some [3, 3, 2, 3] ∧
    bytesAfter (.recXmac 1) (recLab recordD 2 7) 0x3000 2 = some [0xee, 9] ∧
    bytesAfter (.recXmac 1) (recLab recordI 1 4) 0x3000 1 = some [0x5a] := by decide

set_option maxRecDepth 8000 in
/-- V-REC-F: a record of md + 256 bytes whose MAC is its first md bytes (C3), gathered from the whole window. -/
theorem test_xmac_full_window :
    (fun c : XmacScan => xmacRotate 3 3 1 c.rotateOffset c.rot) (xmacGather ([1, 2, 3] ++ List.replicate 256 0xff) 3 3 259) =
      [1, 2, 3] := by decide

/-- V-REC-E2 to V-REC-E4: md 0, md 65, md above the record's length. -/
theorem test_xmac_config :
    codeAfter (.recXmac 1) (recLab recordA 0 0) = some .config ∧
    codeAfter (.recXmac 1) (recLab recordA 14 0) = some .config ∧ codeAfter (.recXmac 1) (recLab recordA 13 0) = some .ok := by
  decide

/-- V-REC-T: the bus traces of records A and B. -/
theorem test_rec_trace : ∀ r ∈ [recordA, recordB],
    (match exec (.recRmpad 2 0) (recLab r 4 0) with
      | .next t => some t.bus
      | .fault _ => none
      | .refused _ => none) = some (busRange .read 0x2000 32 ++ ⟨.read, 0x100C⟩ ::
        [⟨.read, 0x100C⟩, ⟨.read, 0x100B⟩, ⟨.read, 0x100A⟩, ⟨.read, 0x1009⟩, ⟨.read, 0x1008⟩, ⟨.read, 0x1007⟩, ⟨.read, 0x1006⟩,
         ⟨.read, 0x1005⟩, ⟨.read, 0x1004⟩, ⟨.read, 0x1003⟩, ⟨.read, 0x1002⟩, ⟨.read, 0x1001⟩, ⟨.read, 0x1000⟩]) := by decide

/-! ### INIT, SEAL and OPEN (L2.6 to L2.9) -/

/-- V-EAX-5. -/
theorem test_dbl : dbl (0x80 :: zeros 15) = zeros 15 ++ [0x87] ∧ dbl (zeros 15 ++ [1]) = zeros 15 ++ [2] := by decide

/-- V-SIV-5. -/
theorem test_siv_counter_wraps :
    ctrBlock0 ([0xff, 0xff, 0xff, 0xff] ++ zeros 12) = [0xff, 0xff, 0xff, 0xff] ++ zeros 11 ++ [0x80] ∧
    sivCounter (ctrBlock0 ([0xff, 0xff, 0xff, 0xff] ++ zeros 12)) 1 = zeros 15 ++ [0x80] := by decide

/-- CCP's MAC input of "hdr" and 5 ciphertext bytes (R353), GCM-SIV's of 1 and 2 bytes (R303). -/
theorem test_mac_inputs :
    ccpMacInput [0x68, 0x64, 0x72] [1, 2, 3, 4, 5] =
      [0x68, 0x64, 0x72] ++ zeros 13 ++ [1, 2, 3, 4, 5] ++ zeros 11 ++ [3] ++ zeros 7 ++ [5] ++ zeros 7 ∧
    sivHashInput [7] [8, 9] = [7] ++ zeros 15 ++ [8, 9] ++ zeros 14 ++ [8] ++ zeros 7 ++ [16] ++ zeros 7 ∧
    preTag (List.replicate 16 0xff) (List.replicate 12 0x0f) = List.replicate 12 0xf0 ++ [0xff, 0xff, 0xff, 0x7f] := by decide

/-- INIT's descriptor at the address, the key at 0x100; x[0] points at it. -/
def initLab (d : Word) (keyAddr keyLen tagReq : Nat) : State :=
  lab #v[d, 0, 0, 0, 0, 0, 0, 0] (cellsOf 0x100 [0xAA] ++ wordsOf 0x200 [keyAddr, keyLen, tagReq])

/-- V-ERR-1 to V-ERR-3, V-ERR-6. -/
theorem test_eax_init_codes :
    codeAfter (.eaxInit 0 0) (initLab 0x204 0x100 16 0) = some .busErr ∧
    codeAfter (.eaxInit 0 0) (initLab 0x200 0x100 24 0) = some .config ∧
    codeAfter (.eaxInit 0 0) (initLab 0x200 0x100 16 12) = some .config ∧
    codeAfter (.eaxInit 0 0) (initLab 0x200 0xFFF0 32 0) = some .busErr ∧
    codeAfter (.eaxInit 0 0) (initLab 0x200 0x100 32 0) = some .ok := by decide

/-- V-ERR-4, V-ERR-5, and R351: the slot's tag length. -/
theorem test_ccp_init :
    codeAfter (.ccpInit 0 0) (initLab 0x200 0x100 32 17) = some .config ∧
    codeAfter (.ccpInit 0 0) (initLab 0x200 0x100 16 0) = some .config ∧
    (match exec (.ccpInit 0 2) (initLab 0x200 0x100 32 8) with
      | .next t => some (t.slot 2)
      | .fault _ => none
      | .refused _ => none) = some ⟨true, .ccp, 8, 0xAA :: zeros 31, zeros 16, zeros 16⟩ := by decide

/-- R301: GCM-SIV-128 pads its key with zeros. -/
theorem test_siv_init :
    (match exec (.sivInit 0 3) (initLab 0x200 0x100 16 16) with
      | .next t => some (t.slot 3)
      | .fault _ => none
      | .refused _ => none) = some ⟨true, .siv128, 16, 0xAA :: zeros 31, zeros 16, zeros 16⟩ := by decide

/-- The words of an AEAD descriptor block (R204). -/
def aeadWords (out cap inp n nonce nonceLen ad adLen tag tagLen extra extraLen : Nat) : List Nat :=
  [out, cap, inp, n, nonce, nonceLen, ad, adLen, tag, tagLen, extra, extraLen]

/-- An engine whose four slots hold EAX, GCM-SIV and CCP contexts and nothing, the last CCP one with tag length 8; descriptors at
0x200 and 0x300; nonce, AAD, input and trailer bytes from 0x100 up. x[1] and x[2] point at the descriptors. -/
def eaxCtx : Slot := eaxSlot .eax128 16 (List.replicate 16 0x11)
def sivCtx : Slot := sivSlot .siv128 16 (List.replicate 16 0x22)
def ccpCtx : Slot := ccpSlot .ccp 8 (List.replicate 32 0x33)
def aeadLab (first second : List Nat) : State :=
  { lab #v[0, 0x200, 0x300, 0, 0, 0, 0, 0]
      (cellsOf 0x100 (List.replicate 16 0x01) ++ cellsOf 0x120 [2, 3, 4] ++ cellsOf 0x140 (List.replicate 5 0x61) ++
        cellsOf 0x150 [0x58, 0x59] ++ wordsOf 0x200 first ++ wordsOf 0x300 second) with
    slots := #v[eaxCtx, sivCtx, ccpCtx, Slot.empty] }

/-- V-ERR-9 to V-ERR-21 for EAX.SEAL on one default descriptor. -/
def eaxErr (first : List Nat) : Option Code := codeAfter (.eaxSeal 3 1 0) (aeadLab first [])
theorem test_eax_seal_config : eaxErr (aeadWords 0x400 16 0x500 16 0x600 12 0 0 0x800 16 0 0) = some .config ∧
    eaxErr (aeadWords 0x508 16 0x500 16 0x600 16 0 0 0x800 16 0 0) = some .config ∧
    eaxErr (aeadWords 0x400 16 0x500 16 0x600 16 0 0 0x60F 16 0 0) = some .config ∧
    eaxErr (aeadWords 0x400 0 0x500 16 0x600 12 0 0 0x800 16 0 0) = some .config := by decide
/-- Output region over the last byte of the descriptor block at 0x200, just after it, and tag region over its first byte (R92, R202,
R512). -/
theorem test_aead_descriptor_overlap : eaxErr (aeadWords 0x25F 16 0x500 16 0x600 16 0 0 0x800 16 0 0) = some .config ∧
    eaxErr (aeadWords 0x260 16 0x500 16 0x600 16 0 0 0x800 16 0 0) = some .ok ∧
    eaxErr (aeadWords 0x400 16 0x500 16 0x600 16 0 0 0x1F1 16 0 0) = some .config ∧
    codeAfter (.sivOpen 3 1 1) (aeadLab (aeadWords 0x210 16 0x500 16 0x600 12 0 0 0x800 16 0 0) []) = some .config := by decide
theorem test_eax_seal_lengths : eaxErr (aeadWords 0x400 0 0x500 (2 ^ 36 + 1) 0x600 16 0 0 0x800 16 0 0) = some .tooLarge ∧
    eaxErr (aeadWords 0x400 0 0x500 (2 ^ 36) 0x600 16 0 0 0x800 16 0 0) = some .bufSmall ∧
    eaxErr (aeadWords 0x400 16 0x500 16 0x600 16 0 (2 ^ 61) 0x800 16 0 0) = some .tooLarge ∧
    eaxErr (aeadWords 0x400 15 0x500 16 0x600 16 0 0 0x800 16 0 0) = some .bufSmall ∧
    eaxErr (aeadWords 0x400 16 0x500 16 0x600 16 0 0 0x800 15 0 0) = some .bufSmall ∧
    eaxErr (aeadWords 0x400 16 0xFFF8 16 0x600 16 0 0 0x800 16 0 0) = some .busErr := by decide
theorem test_ctxerr :
    codeAfter (.sivSeal 3 1 0) (aeadLab (aeadWords 0x400 16 0x500 16 0x600 12 0 0 0x800 16 0 0) []) = some .ctxErr ∧
    codeAfter (.eaxSeal 3 1 3) (aeadLab (aeadWords 0x400 16 0x500 16 0x600 16 0 0 0x800 16 0 0) []) = some .ctxErr ∧
    codeAfter (.eaxInit 1 0) (aeadLab [0x100, 16, 0] []) = some .ctxErr := by decide

/-- A descriptor that ends past the RAM, and one at an address that is no multiple of 8 (R202). -/
theorem test_descriptor_buserr : codeAfter (.sivOpen 3 1 1) { lab #v[0, 0xFFA8, 0, 0, 0, 0, 0, 0] [] with slots := #v[eaxCtx, sivCtx,
      ccpCtx, Slot.empty] } = some .busErr ∧
    codeAfter (.ccpSeal 3 1 2) { lab #v[0, 0x201, 0, 0, 0, 0, 0, 0] [] with slots := #v[eaxCtx, sivCtx, ccpCtx, Slot.empty] } =
      some .busErr := by decide

/-- V-ERR-22 to V-ERR-27, on a context with tag length 8. -/
theorem test_ccp_codes :
    codeAfter (.ccpOpen 3 1 2) (aeadLab (aeadWords 0x400 16 0x500 16 0x100 12 0 0 0x800 7 0 0) []) = some .config ∧
    codeAfter (.ccpSeal 3 1 2) (aeadLab (aeadWords 0x400 0 0x500 (2 ^ 38 - 64) 0x100 12 0 0 0x800 8 0 0) []) = some .bufSmall ∧
    codeAfter (.ccpSeal 3 1 2) (aeadLab (aeadWords 0x400 0 0x500 (2 ^ 38 - 63) 0x100 12 0 0 0x800 8 0 0) []) = some .tooLarge ∧
    codeAfter (.ccpSealx 3 1 2) (aeadLab (aeadWords 0x400 0 0x500 (2 ^ 38 - 64) 0x100 12 0 0 0x800 17 0x900 1) []) =
      some .tooLarge ∧
    codeAfter (.ccpSealx 3 1 2) (aeadLab (aeadWords 0x400 0 0x500 0 0x100 12 0 0 0x800 9 0x900 2) []) = some .bufSmall := by
  decide

/-- V-ERR-8 and V-ERR-27: x[rd] of SEAL; V-CCP-3: of SEALX, whose trailer counts. -/
theorem test_seal_counts :
    regAfter (.eaxSeal 3 1 0) (aeadLab (aeadWords 0x400 16 0x500 16 0x600 16 0 0 0x800 16 0 0) []) 3 = some 16 ∧
    regAfter (.ccpSeal 3 1 2) (aeadLab (aeadWords 0x400 0 0x500 0 0x100 12 0 0 0x800 8 0x900 2) []) 3 = some 8 ∧
    regAfter (.ccpSealx 3 1 2) (aeadLab (aeadWords 0x400 3 0x140 3 0x100 12 0 0 0x403 18 0x150 2) []) 3 = some 10 := by
  decide

/-- V-ERR-28. -/
theorem test_cleanup_and_nop :
    codeAfter (.aeadCleanup 3) (aeadLab [] []) = some .ok ∧ codeAfter .nop (aeadLab [] []) = some .ok ∧
    (match exec (.aeadCleanup 1) (aeadLab [] []) with
      | .next t => some (t.slot 1)
      | .fault _ => none
      | .refused _ => none) = some Slot.empty := by decide

/-! ### The register window and the system (L2.4) -/

/-- The value the host reads from the window. -/
def hostReads (off width : Nat) (s : State) : Option Word :=
  match hostMove (.winRead (s.platform.base + BitVec.ofNat 64 off) width) s with
  | .next t => some t.readData
  | .fault _ => none
  | .refused _ => none

/-- The state after moves of the host and turns of the engine. -/
def after : List Move → State → Option State
  | [], s => some s
  | m :: rest, s =>
    match step { s with moves := [m] } with
    | .next t => after rest t
    | .fault _ => none
    | .refused _ => none

/-- A write to the window. -/
def put (off width : Nat) (v : Word) : Move := .host (.winWrite (0xF0000000 + BitVec.ofNat 64 off) width v)

/-- What the host reads after moves. -/
def readAfter (ms : List Move) (off width : Nat) (s : State) : Option Word := (after ms s).bind (hostReads off width)

/-- The engine after power-on. -/
def fresh : State := lab (Vector.replicate 8 0) []

/-- V-SYS-1. -/
theorem test_power_on :
    hostReads 0 4 fresh = some 0x43544145 ∧ hostReads 4 4 fresh = some 0x40400004 ∧ hostReads 8 4 fresh = some 0 ∧
    hostReads 12 4 fresh = some 0 ∧ hostReads 0x40 8 fresh = some 0 ∧ hostReads 0x100 8 fresh = some 0x0000050010101010 ∧
    hostReads 0x108 8 fresh = some 0x0000050010101020 ∧ hostReads 0x110 8 fresh = some 0x0000060010100C10 ∧
    hostReads 0x118 8 fresh = some 0x0000060010100C20 ∧ hostReads 0x120 8 fresh = some 0x0000070110100C20 := by decide

/-- V-SYS-2. -/
theorem test_power_on_accelerated :
    hostReads 4 4 (State.resetOn { ramPlatform with sivAccel := true }) = some 0x40400104 := by decide

/-- V-SYS-3, V-SYS-4. -/
def ltMoves : List Move := [put 0x40 8 3, put 0x48 8 5, put 0x10 4 0x13408000, .engine]
theorem test_command_flow : readAfter ltMoves 0x0C 4 fresh = some 0x1302 ∧ readAfter ltMoves 0x50 8 fresh = some ones ∧
    readAfter (ltMoves ++ [put 0x0C 4 2]) 0x0C 4 fresh = some 0x1300 := by decide

/-- V-SYS-5. -/
theorem test_illegal_word : readAfter [put 0x10 4 0x53000000, .engine] 0x0C 4 fresh = some 0x5352 := by decide

/-- V-SYS-6. -/
theorem test_interrupt : readAfter [put 8 4 1, put 0x10 4 0, .engine] 0x0C 4 fresh = some 2 ∧
    (after [put 8 4 1, put 0x10 4 0, .engine] fresh).map State.irq = some true ∧
    (after [put 8 4 1, put 0x10 4 0, .engine, put 0x0C 4 2] fresh).map State.irq = some false := by decide

/-- V-SYS-7. -/
theorem test_overrun : readAfter [put 0x10 4 0, put 0x10 4 0x13408000, .engine] 0x0C 4 fresh = some 6 ∧
    readAfter [put 0x10 4 0, put 0x10 4 0x13408000, .engine, put 0x0C 4 4] 0x0C 4 fresh = some 2 := by decide

/-- V-SYS-8, V-SYS-9. -/
theorem test_argument_halves :
    readAfter [put 0x58 4 0x11111111, put 0x5C 4 0x22222222] 0x58 8 fresh = some 0x2222222211111111 ∧
    readAfter [put 0x40 2 7] 0x40 8 fresh = some 0 := by decide

/-- V-SYS-10. -/
theorem test_ignored_writes :
    after [put 0 4 0, put 4 4 0, put 0x100 8 0, put 0x20 4 5] fresh = some fresh ∧ hostReads 0x20 4 fresh = some 0 ∧
    hostReads 0x10 4 fresh = some 0 := by decide

/-- V-SYS-11: a soft reset empties the slots. -/
theorem test_soft_reset : (after [put 8 4 3] (aeadLab [] [])).map (fun t => (t.slot 2, t.irqEn, t.reg 1)) =
    some (Slot.empty, false, 0) := by decide

/-- V-SYS-12: the abort of an EAX.OPEN before its tag has verified leaves the output region as it was. -/
theorem test_abort_before_verification :
    (after [put 0x10 4 0x52440000, .tick, .tick, put 8 4 2]
      (aeadLab (aeadWords 0x400 16 0x140 5 0x100 16 0x120 3 0x150 16 0 0) [])).map
        (fun t => (t.busy, t.done, Memory.readBytes t.mem 0x400 5)) = some (false, false, zeros 5) := by decide

/-! ### Witnesses: for every obligation with hypotheses, values that meet them -/

theorem test_witness_DecodeOfEncode : WellFormed (.recRmpad 6 7) ∧ WellFormed (.ccpSealx 7 7 3) := by decide
theorem test_witness_EncodeOfDecode : decode 0x30DC0000#32 = .ok (.recRmpad 6 7) ∧ decode 0#32 = .ok .nop := by decide

/-- The first word that is illegal by its op byte and by its fields, written to the CMD register of an idle engine. -/
theorem test_witness_IllegalWords : fresh.busy = false ∧
    (0xF0000010 : Word).toNat = fresh.platform.base.toNat + 0x010 ∧
    (∃ e, decode ((0xFFFFFFFF53000000 : Word).truncate 32) = .error e) ∧ ∃ e, decode ((0x30200000 : Word).truncate 32) = .error e :=
  ⟨by decide, by decide, ⟨.reservedOpcode 0x53#8, by decide⟩, ⟨.badField "REC.RMPAD", by decide⟩⟩

/-- An engine that has accepted CT.LT a2, a0, a1. -/
def running : State := (ctLab 3 5 0).accept 0x13408000#32
theorem test_witness_StepRunsDecodedCommand :
    running.running = some 0x13408000#32 ∧ decode 0x13408000#32 = .ok (.ctLt 2 0 1) ∧ running.moves = [] ∧
    ({ running with moves := [.engine, .tick] } : State).moves = .engine :: [.tick] ∧
    ({ running with moves := [.host .powerOn] } : State).moves = .host .powerOn :: [] ∧
    fresh.running = none ∧ fresh.moves = [] := by decide

/-- The addresses of the window's registers, at the first and the last offset of each clause; base 0 too. -/
theorem test_witness_window_addresses :
    (∀ off ∈ [0x000, 0x004, 0x008, 0x00C, 0x010, 0x014, 0x03C, 0x080, 0x0FC, 0x100, 0x108, 0x110, 0x118, 0x120, 0x128, 0x1FC],
      (0xF0000000 + BitVec.ofNat 64 off).toNat = fresh.platform.base.toNat + off ∧
      (BitVec.ofNat 64 off).toNat = State.reset.platform.base.toNat + off) := by decide
theorem test_witness_CmdWrite : (0xF0000010 : Word).toNat = fresh.platform.base.toNat + 0x010 ∧ fresh.busy = false ∧
    (0xF0000010 : Word).toNat = running.platform.base.toNat + 0x010 ∧ running.busy = true := by decide
theorem test_witness_StatusWriteClears : (0xF000000C : Word).toNat = fresh.platform.base.toNat + 0x00C ∧
    (2 : Word).getLsbD 1 = true ∧ (4 : Word).getLsbD 1 = false ∧ (4 : Word).getLsbD 2 = true ∧ (2 : Word).getLsbD 2 = false := by
  decide
theorem test_witness_StatusRead : (0xF000000C : Word).toNat = running.platform.base.toNat + 0x00C := by decide
theorem test_witness_ConstantWindowRegisters :
    (0x03C % 4 = 0 ∧ 0x014 ≤ 0x03C ∧ 0x03C < 0x040) ∧ (0x080 % 4 = 0 ∧ 0x080 ≤ 0x080 ∧ 0x080 < 0x100) ∧
    (0x1FC % 4 = 0 ∧ 0x128 ≤ 0x1FC ∧ 0x1FC < 0x200) ∧ (0x120 % 8 = 0 ∧ 0x100 ≤ 0x120 ∧ 0x120 < 0x128) ∧
    (0x018 % 8 = 0 ∧ 0x038 % 8 = 0 ∧ 0x0F8 % 8 = 0 ∧ 0x128 % 8 = 0 ∧ 0x1F8 % 8 = 0) ∧
    (0xF0000124 : Word).toNat = (0xF0000120 : Word).toNat + 4 := by decide
theorem test_witness_ArgumentAccessIdle : fresh.busy = false ∧
    (0xF0000040 : Word).toNat = fresh.platform.base.toNat + 0x040 + 8 * (0 : Reg).val ∧
    (0xF0000078 : Word).toNat = fresh.platform.base.toNat + 0x040 + 8 * (7 : Reg).val ∧
    (0xF000007C : Word).toNat = fresh.platform.base.toNat + 0x044 + 8 * (7 : Reg).val := by decide
theorem test_witness_ArgumentAccessBusy : running.busy = true ∧
    (0xF0000078 : Word).toNat = running.platform.base.toNat + 0x040 + 8 * (7 : Reg).val ∧
    (0xF0000044 : Word).toNat = running.platform.base.toNat + 0x044 + 8 * (0 : Reg).val := by decide
theorem test_witness_MalformedWindowAccess : ∀ p ∈ [(0x000, 2), (0x1FF, 1), (0x042, 4), (0x044, 8), (0x000, 8), (0x010, 8)],
    p.1 < 0x200 ∧ (0xF0000000 + BitVec.ofNat 64 p.1).toNat = fresh.platform.base.toNat + p.1 ∧
      ((p.2 ≠ 4 ∧ p.2 ≠ 8) ∨ p.1 % p.2 ≠ 0 ∨ (p.2 = 8 ∧ p.1 < 0x014)) := by decide
theorem test_witness_ControlAndInterrupt : (0xF0000008 : Word).toNat = fresh.platform.base.toNat + 0x008 ∧
    (1 : Word).getLsbD 1 = false ∧ exec .nop fresh = .next (fresh.complete .ok) ∧
    hostMove (.winWrite 0xF0000010 4 0) fresh = .next (fresh.accept 0) := ⟨by decide, by decide, rfl, rfl⟩

/-! CT.MEMCMP and CT.CMXOR: up to the last byte of RAM, an empty region at any address, and overlapping regions. -/

theorem test_witness_MemcmpCompletes : ∀ p ∈ [((0xFFFD : Nat), 3), (0x12345, 0), (0, 0x10000)],
    ramPlatform.accessible p.1 p.2 .read = true := by decide
theorem test_witness_MemcmpCompletes_state :
    (memcmpLab 0xFFFD 0x100 3).platform.accessible ((memcmpLab 0xFFFD 0x100 3).regNat 0) ((memcmpLab 0xFFFD 0x100 3).regNat 2) .read
      = true ∧
    (memcmpLab 0xFFFD 0x100 3).platform.accessible ((memcmpLab 0xFFFD 0x100 3).regNat 1) ((memcmpLab 0xFFFD 0x100 3).regNat 2) .read
      = true := by decide
theorem test_witness_CmxorCompletes :
    (cmxorLab 0xFFFE 0xFFFD 2 ones []).platform.accessible ((cmxorLab 0xFFFE 0xFFFD 2 ones []).regNat 0)
      ((cmxorLab 0xFFFE 0xFFFD 2 ones []).regNat 2) .readwrite = true ∧
    (cmxorLab 0xFFFE 0xFFFD 2 ones []).platform.accessible ((cmxorLab 0xFFFE 0xFFFD 2 ones []).regNat 1)
      ((cmxorLab 0xFFFE 0xFFFD 2 ones []).regNat 2) .read = true := by decide
theorem test_witness_CtMemoryBusErr :
    (memcmpLab 0xFFFE 0x100 3).platform.accessible ((memcmpLab 0xFFFE 0x100 3).regNat 0) ((memcmpLab 0xFFFE 0x100 3).regNat 2) .read
      = false ∧
    (memcmpLab 0 ones 1).platform.accessible ((memcmpLab 0 ones 1).regNat 1) ((memcmpLab 0 ones 1).regNat 2) .read = false ∧
    (cmxorLab 0xFFFF 0 2 0 []).platform.accessible ((cmxorLab 0xFFFF 0 2 0 []).regNat 0) ((cmxorLab 0xFFFF 0 2 0 []).regNat 2)
      .readwrite = false ∧
    (cmxorLab 0 0x10000 1 0 []).platform.accessible ((cmxorLab 0 0x10000 1 0 []).regNat 1) ((cmxorLab 0 0x10000 1 0 []).regNat 2)
      .read = false := by decide

/-! REC.RMPAD and REC.XMAC: the shortest record, and the bounds of R411. -/

/-- The record has exactly 1 + mac_size bytes. -/
theorem test_witness_RmpadCompletes : RmpadReady 2 0 (recLab [1, 2, 3, 4, 0] 4 0) :=
  ⟨by decide, ⟨by decide, by decide⟩, by decide, by decide⟩

/-- The platform with the whole bus space as RAM, and the length and mac_size for which R403's sum wraps (log 23). -/
theorem test_witness_RmpadCompletes_wrap : RmpadReady 2 0
    { State.reset with x := #v[0x2000, 0, 0, 0, 0, 0, 0, 0], mem := wordsOf 0x2000 [0, 2 ^ 64 - 1, 16, 2 ^ 64 - 2] } :=
  ⟨by decide, ⟨by decide, by decide⟩, by decide, by decide⟩

/-- md = 4 and orig_len = in_len + 256 = 260; md = orig_len = in_len = 13; in_len below md; in_len = orig_len + md. -/
theorem test_witness_XmacCompletes : XmacReady 1 (recLab recordA 13 13) :=
  ⟨⟨by decide, by decide⟩, by decide, by decide, by decide, by unfold Region.apart; decide, by unfold Region.apart; decide,
    by decide, by decide⟩
theorem test_witness_XmacExtractsMac_window :
    XmacReady 1 (lab #v[0, 0x2040, 0, 0, 0, 0, 0, 0] (wordsOf 0x2040 [0x3000, 4, 0x1000, 4, 260])) ∧
    (xmacOps (wordsOf 0x2040 [0x3000, 4, 0x1000, 4, 260]) 0x2040) = ⟨0x3000, 4, 0x1000, 4, 260⟩ :=
  ⟨⟨⟨by decide, by decide⟩, by decide, by decide, by decide, by unfold Region.apart; decide, by unfold Region.apart; decide,
    by decide, by decide⟩, by decide⟩
theorem test_witness_XmacExtractsMac_zero :
    XmacReady 1 (recLab recordA 4 3) ∧ (xmacOps (recLab recordA 4 3).mem 0x2040).inLen < (xmacOps (recLab recordA 4 3).mem 0x2040).md ∧
    XmacReady 1 (recLab recordA 4 17) ∧ (xmacOps (recLab recordA 4 17).mem 0x2040).origLen +
      (xmacOps (recLab recordA 4 17).mem 0x2040).md ≤ (xmacOps (recLab recordA 4 17).mem 0x2040).inLen :=
  ⟨⟨⟨by decide, by decide⟩, by decide, by decide, by decide, by unfold Region.apart; decide, by unfold Region.apart; decide,
    by decide, by decide⟩, by decide,
    ⟨⟨by decide, by decide⟩, by decide, by decide, by decide, by unfold Region.apart; decide, by unfold Region.apart; decide,
    by decide, by decide⟩, by decide⟩

/-- One state for each clause: odd rd, misaligned and inaccessible descriptor, record one byte too short, record past the RAM. -/
theorem test_witness_RmpadErrors :
    codeAfter (.recRmpad 3 0) (recLab recordA 4 0) = some .illegal ∧
    codeAfter (.recRmpad 2 0) (lab #v[0x2004, 0, 0, 0, 0, 0, 0, 0] []) = some .busErr ∧
    codeAfter (.recRmpad 2 0) (lab #v[0xFFE8, 0, 0, 0, 0, 0, 0, 0] []) = some .busErr ∧
    codeAfter (.recRmpad 2 0) (recLab [1, 2, 3, 0] 4 0) = some .bufSmall ∧
    codeAfter (.recRmpad 2 0) (lab #v[0x2000, 0, 0, 0, 0, 0, 0, 0] (wordsOf 0x2000 [0xFFFC, 5, 16, 4])) = some .busErr := by decide

/-- One state for each clause: misaligned descriptor, md 65, output over the record's last byte, output past the RAM. -/
theorem test_witness_XmacErrors :
    codeAfter (.recXmac 0) (lab #v[0x2004, 0, 0, 0, 0, 0, 0, 0] []) = some .busErr ∧
    codeAfter (.recXmac 0) (lab #v[0x2000, 0, 0, 0, 0, 0, 0, 0] (wordsOf 0x2000 [0x3000, 65, 0x1000, 0, 100])) = some .config ∧
    codeAfter (.recXmac 0) (lab #v[0x2000, 0, 0, 0, 0, 0, 0, 0] (wordsOf 0x2000 [0x1009, 4, 0x1000, 0, 10])) = some .config ∧
    codeAfter (.recXmac 0) (lab #v[0x2000, 0, 0, 0, 0, 0, 0, 0] (wordsOf 0x2000 [0x100A, 4, 0x1000, 0, 10])) = some .ok ∧
    codeAfter (.recXmac 0) (lab #v[0x2000, 0, 0, 0, 0, 0, 0, 0] (wordsOf 0x2000 [0xFFFD, 4, 0x1000, 0, 10])) = some .busErr := by
  decide

/-- Output over the first and the last byte of the descriptor block, and just after it (R92, R202, R512). -/
theorem test_xmac_descriptor_overlap : ∀ p ∈ [(0x1FFD, Code.config), (0x2027, .config), (0x2028, .ok), (0x1FFC, .ok)],
    codeAfter (.recXmac 0) (lab #v[0x2000, 0, 0, 0, 0, 0, 0, 0] (wordsOf 0x2000 [p.1, 4, 0x1000, 0, 10])) = some p.2 := by decide

/-- A word with op byte 0 and another bit set. -/
theorem test_witness_NopCompletes : (0x00000001 : Word32).extractLsb' 24 8 = 0 ∧ (0x00000001 : Word32) ≠ 0 ∧
    (0x00FFFFFF : Word32).extractLsb' 24 8 = 0 ∧ (0x00FFFFFF : Word32) ≠ 0 := by decide

/-! INIT under its conditions, for both key lengths and the tag lengths 0, 1 and 16. -/

theorem test_witness_EaxInitCompletes :
    InitReady .eax 0 0 .eax128 (initLab 0x200 0x100 16 0) ∧ InitReady .eax 0 3 .eax256 (initLab 0x200 0xFFE0 32 16) :=
  ⟨⟨⟨by decide, by decide⟩, by decide, by decide, by decide, by decide⟩,
    ⟨⟨by decide, by decide⟩, by decide, by decide, by decide, by decide⟩⟩
theorem test_witness_SivInitCompletes :
    InitReady .siv 0 0 .siv128 (initLab 0x200 0x100 16 16) ∧ InitReady .siv 0 3 .siv256 (initLab 0x200 0xFFE0 32 0) :=
  ⟨⟨⟨by decide, by decide⟩, by decide, by decide, by decide, by decide⟩,
    ⟨⟨by decide, by decide⟩, by decide, by decide, by decide, by decide⟩⟩
theorem test_witness_CcpInitCompletes :
    InitReady .ccp 0 0 .ccp (initLab 0x200 0x100 32 1) ∧ InitReady .ccp 0 3 .ccp (initLab 0x200 0xFFE0 32 0) :=
  ⟨⟨⟨by decide, by decide⟩, by decide, by decide, by decide, by decide⟩,
    ⟨⟨by decide, by decide⟩, by decide, by decide, by decide, by decide⟩⟩

/-- The commands PrologueErrors speaks of. -/
theorem test_witness_PrologueErrors : sequenced (.eaxSeal 3 1 0) = some ⟨.eax, .sealing, 3, 1, 0⟩ ∧
    sequenced (.sivOpen 3 1 1) = some ⟨.siv, .opening, 3, 1, 1⟩ ∧ sequenced (.ccpSealx 3 1 2) = some ⟨.ccp, .sealingX, 3, 1, 2⟩ := by decide

/-! SEAL, SEALX and OPEN on the contexts of `aeadLab`. SEAL reads 5 bytes at 0x140 and writes 0x400 and 0x500; OPEN reads those and
writes 0x600. What an opaque function gives is put in memory by `poke`. -/

/-- The state with bytes put in bus memory. -/
def poke (a : Nat) (bs : Bytes) (s : State) : State := { s with mem := Memory.writeBytes s.mem a bs }

/-- What an OPEN or a SEAL reads of its descriptor block, and so its conditions, are as before where the block's bytes are. -/
theorem aeadOps_of_same {s t : State} {rs : Reg} {k : Kind} (hr : t.reg rs = s.reg rs)
    (hm : ∀ a, s.regNat rs ≤ a → a < s.regNat rs + 96 → Memory.read t.mem a = Memory.read s.mem a) :
    t.aeadOps rs k = s.aeadOps rs k := by
  have hn : t.regNat rs = s.regNat rs := by simp [State.regNat, hr]
  have hw : ∀ j, j + 8 ≤ 96 → le64At t.mem (s.regNat rs + j) = le64At s.mem (s.regNat rs + j) := fun j hj => by
    unfold le64At
    rw [Memory.readBytes_congr fun b h1 h2 => hm b (by omega) (by omega)]
  simp only [State.aeadOps, aeadOps, hn, hw 8 (by omega), hw 16 (by omega), hw 24 (by omega), hw 32 (by omega), hw 40 (by omega),
    hw 48 (by omega), hw 56 (by omega), hw 64 (by omega), hw 72 (by omega), hw 80 (by omega), hw 88 (by omega)]
  have := hw 0 (by omega)
  simp only [Nat.add_zero] at this
  rw [this]

theorem ready_of_same {f : Family} {s t : State} {rs : Reg} {k : Kind} {ctx : Ctx} (h : AeadReady f k rs ctx s)
    (hp : t.platform = s.platform) (hs : t.slot ctx = s.slot ctx) (hr : t.reg rs = s.reg rs)
    (hm : ∀ a, s.regNat rs ≤ a → a < s.regNat rs + 96 → Memory.read t.mem a = Memory.read s.mem a) :
    AeadReady f k rs ctx t := by
  have ho := aeadOps_of_same (k := k) hr hm
  have hn : t.regNat rs = s.regNat rs := by simp [State.regNat, hr]
  rw [aeadReady_iff] at h ⊢
  rwa [ho, hp, hs, hn]

/-- Conditions after bytes have been put outside the descriptor block. -/
theorem ready_poke {f : Family} {s : State} {rs : Reg} {k : Kind} {ctx : Ctx} {a : Nat} {bs : Bytes}
    (h : AeadReady f k rs ctx s) (hd : s.regNat rs + 96 ≤ a ∨ a + bs.length ≤ s.regNat rs) : AeadReady f k rs ctx (poke a bs s) :=
  ready_of_same h rfl rfl rfl fun b h1 h2 => Memory.read_writeBytes_outside (by omega)

theorem aeadOps_poke {s : State} {rs : Reg} {k : Kind} {a : Nat} {bs : Bytes}
    (hd : s.regNat rs + 96 ≤ a ∨ a + bs.length ≤ s.regNat rs) : (poke a bs s).aeadOps rs k = s.aeadOps rs k :=
  aeadOps_of_same rfl fun b h1 h2 => Memory.read_writeBytes_outside (by omega)

/-- A string with every byte changed. -/
theorem changed_ne (bs : Bytes) (h : 0 < bs.length) : bs.map (· ^^^ 1) ≠ bs := by
  cases bs with
  | nil => simp at h
  | cons b bs =>
    simp

def nonce16 : Bytes := List.replicate 16 0x01
def nonce12 : Bytes := List.replicate 12 0x01
def aad : Bytes := [2, 3, 4]
def text : Bytes := List.replicate 5 0x61

def eaxWords : State := aeadLab (aeadWords 0x400 16 0x140 5 0x100 16 0x120 3 0x500 16 0 0)
  (aeadWords 0x600 16 0x400 5 0x100 16 0x120 3 0x500 16 0 0)
def sivWords : State := aeadLab (aeadWords 0x400 16 0x140 5 0x100 12 0x120 3 0x500 16 0 0)
  (aeadWords 0x600 16 0x400 5 0x100 12 0x120 3 0x500 16 0 0)
def ccpWords : State := aeadLab (aeadWords 0x400 16 0x140 5 0x100 12 0x120 3 0x500 8 0 0)
  (aeadWords 0x600 16 0x400 5 0x100 12 0x120 3 0x500 8 0 0)
def ccpxWords : State := aeadLab (aeadWords 0x400 5 0x140 5 0x100 12 0x120 3 0x405 10 0x150 2)
  (aeadWords 0x600 7 0x400 7 0x100 12 0x120 3 0x407 8 0 0)

theorem eaxCtx_wf : eaxCtx.wf := by
  unfold Slot.wf
  rw [if_pos (by decide)]
  exact ⟨by decide, by decide, by decide, fun _ => ⟨rfl, rfl⟩, fun h => absurd (by decide) h⟩
theorem sivCtx_wf : sivCtx.wf := by
  unfold Slot.wf
  rw [if_pos (by decide)]
  exact ⟨by decide, by decide, by decide, fun h => absurd h (by decide), fun _ => by decide⟩
theorem ccpCtx_wf : ccpCtx.wf := by
  unfold Slot.wf
  rw [if_pos (by decide)]
  exact ⟨by decide, by decide, by decide, fun h => absurd h (by decide), fun _ => by decide⟩

theorem test_witness_EaxSealCompletes : AeadReady .eax .sealing 1 0 eaxWords ∧ (eaxWords.slot 0).wf :=
  ⟨aeadReady_iff.mpr ⟨by decide, by decide⟩, eaxCtx_wf⟩
theorem test_witness_SivSealCompletes : AeadReady .siv .sealing 1 1 sivWords ∧ (sivWords.slot 1).wf :=
  ⟨aeadReady_iff.mpr ⟨by decide, by decide⟩, sivCtx_wf⟩
theorem test_witness_CcpSealCompletes : AeadReady .ccp .sealing 1 2 ccpWords ∧ (ccpWords.slot 2).wf :=
  ⟨aeadReady_iff.mpr ⟨by decide, by decide⟩, ccpCtx_wf⟩
theorem test_witness_CcpSealxCompletes : AeadReady .ccp .sealingX 1 2 ccpxWords ∧ (ccpxWords.slot 2).wf :=
  ⟨aeadReady_iff.mpr ⟨by decide, by decide⟩, ccpCtx_wf⟩

/-- The formulas' premises: whole and partial last blocks, a GCM-SIV context, a nonce and a tag of their lengths. -/
theorem test_witness_formulas : (∀ b ∈ [nonce16, nonce16], b.length = 16) ∧
    (∀ n ∈ [1, 15, 16], 1 ≤ (List.replicate n (0x61 : Byte)).length ∧ (List.replicate n (0x61 : Byte)).length ≤ 16) ∧
    sivCtx.alg.family = .siv ∧ nonce12.length = 12 ∧ nonce16.length = 16 := by decide

/-- The bounds of R206 to R209 met exactly: no text, no AAD, no room to spare, in place; the highest lengths of R207. -/
theorem test_witness_AeadReady_bounds :
    AeadReady .eax .opening 1 0 (aeadLab (aeadWords 0x140 5 0x140 5 0x100 16 0 0 0x500 16 0 0) []) ∧
    AeadReady .ccp .sealing 1 2 (aeadLab (aeadWords 0 0 0 0 0x100 12 0 0 0x500 8 0 0) []) ∧
    AeadReady .siv .sealing 1 1 { aeadLab (aeadWords 0x2000000000 (2 ^ 36) 0x1000000000 (2 ^ 36) 0x100 12 0x100000000000
      (2 ^ 61 - 1) 0x500 16 0 0) [] with platform := Platform.default } ∧
    AeadReady .ccp .sealing 1 2 { aeadLab (aeadWords 0x8000000000 (2 ^ 38 - 64) 0x8000000000 (2 ^ 38 - 64) 0x100 12 0 0 0x500 8
      0 0) [] with platform := Platform.default } :=
  ⟨aeadReady_iff.mpr ⟨by decide, by decide⟩, aeadReady_iff.mpr ⟨by decide, by decide⟩, aeadReady_iff.mpr ⟨by decide, by decide⟩,
    aeadReady_iff.mpr ⟨by decide, by decide⟩⟩

/-! OPEN with the recomputed tag, and with every byte of it changed. -/

/-- The ciphertext and the received tag put in memory for the descriptor at x[2]. -/
theorem snapshot_two {f : Family} {ctx : Ctx} {s : State} {o : AeadOps} {c tag : Bytes} (h : AeadReady f .opening 2 ctx s)
    (ho : s.aeadOps 2 .opening = o) (hd : s.regNat 2 = 0x300) (hc : o.inLen = c.length) (ht : o.tagLen = tag.length)
    (hn : o.nonceAddr + o.nonceLen ≤ o.inAddr) (ha : o.adAddr + o.adLen ≤ o.inAddr) (hi : 0x360 ≤ o.inAddr)
    (hit : o.inAddr + c.length ≤ o.tagAddr) :
    let u := poke o.tagAddr tag (poke o.inAddr c s)
    AeadReady f .opening 2 ctx u ∧ u.aeadOps 2 .opening = o ∧
      (u.snapshot 2 .opening).nonce = Memory.readBytes s.mem o.nonceAddr o.nonceLen ∧
      (u.snapshot 2 .opening).ad = Memory.readBytes s.mem o.adAddr o.adLen ∧
      (u.snapshot 2 .opening).inp = c ∧ (u.snapshot 2 .opening).recv = tag := by
  intro u
  have hu : u.aeadOps 2 .opening = o := by
    rw [aeadOps_poke (by simp only [State.regNat, poke, State.reg] at hd ⊢; omega), aeadOps_poke (by omega), ho]
  refine ⟨ready_poke (ready_poke h (by omega)) (by simp only [State.regNat, poke, State.reg] at hd ⊢; omega), hu, ?_, ?_, ?_, ?_⟩ <;>
    simp only [State.snapshot, hu, aeadSnapshot_nonce, aeadSnapshot_ad, aeadSnapshot_inp, aeadSnapshot_recv] <;>
    simp only [u, poke]
  · rw [Memory.readBytes_writeBytes_apart (by omega), Memory.readBytes_writeBytes_apart (by omega)]
  · rw [Memory.readBytes_writeBytes_apart (by omega), Memory.readBytes_writeBytes_apart (by omega)]
  · rw [Memory.readBytes_writeBytes_apart (by omega), hc, Memory.readBytes_writeBytes_same]
  · rw [ht, Memory.readBytes_writeBytes_same]

/-- The second descriptor of `eaxWords`, `sivWords` and `ccpWords`. -/
def openOps (nonceLen t : Nat) : AeadOps :=
  { outAddr := 0x600, outCap := 16, inAddr := 0x400, inLen := 5, nonceAddr := 0x100, nonceLen := nonceLen, adAddr := 0x120,
    adLen := 3, tagAddr := 0x500, tagLen := t, extraAddr := 0, extraLen := 0 }

/-- An engine about to open a ciphertext c and a tag. -/
def opening (c tag : Bytes) (s : State) : State := poke 0x500 tag (poke 0x400 c s)

theorem eaxOpening (c tag : Bytes) (hc : c.length = 5) (ht : tag.length = 16) :
    AeadReady .eax .opening 2 0 (opening c tag eaxWords) ∧ ((opening c tag eaxWords).slot 0).wf ∧
      ((opening c tag eaxWords).snapshot 2 .opening).nonce = nonce16 ∧
      ((opening c tag eaxWords).snapshot 2 .opening).ad = aad ∧ ((opening c tag eaxWords).snapshot 2 .opening).inp = c ∧
      ((opening c tag eaxWords).snapshot 2 .opening).recv = tag := by
  obtain ⟨h1, -, h3, h4, h5, h6⟩ := snapshot_two (f := .eax) (ctx := 0) (s := eaxWords) (o := openOps 16 16) (c := c) (tag := tag)
    (aeadReady_iff.mpr ⟨by decide, by decide⟩) (by decide) (by decide) hc.symm ht.symm (by decide) (by decide) (by decide)
    (by rw [hc]; decide)
  exact ⟨h1, eaxCtx_wf, h3.trans (by decide), h4.trans (by decide), h5, h6⟩

theorem sivOpening (c tag : Bytes) (hc : c.length = 5) (ht : tag.length = 16) :
    AeadReady .siv .opening 2 1 (opening c tag sivWords) ∧ ((opening c tag sivWords).slot 1).wf ∧
      ((opening c tag sivWords).snapshot 2 .opening).nonce = nonce12 ∧
      ((opening c tag sivWords).snapshot 2 .opening).ad = aad ∧ ((opening c tag sivWords).snapshot 2 .opening).inp = c ∧
      ((opening c tag sivWords).snapshot 2 .opening).recv = tag := by
  obtain ⟨h1, -, h3, h4, h5, h6⟩ := snapshot_two (f := .siv) (ctx := 1) (s := sivWords) (o := openOps 12 16) (c := c) (tag := tag)
    (aeadReady_iff.mpr ⟨by decide, by decide⟩) (by decide) (by decide) hc.symm ht.symm (by decide) (by decide) (by decide)
    (by rw [hc]; decide)
  exact ⟨h1, sivCtx_wf, h3.trans (by decide), h4.trans (by decide), h5, h6⟩

theorem ccpOpening (c tag : Bytes) (hc : c.length = 5) (ht : tag.length = 8) :
    AeadReady .ccp .opening 2 2 (opening c tag ccpWords) ∧ ((opening c tag ccpWords).slot 2).wf ∧
      ((opening c tag ccpWords).snapshot 2 .opening).nonce = nonce12 ∧
      ((opening c tag ccpWords).snapshot 2 .opening).ad = aad ∧ ((opening c tag ccpWords).snapshot 2 .opening).inp = c ∧
      ((opening c tag ccpWords).snapshot 2 .opening).recv = tag := by
  obtain ⟨h1, -, h3, h4, h5, h6⟩ := snapshot_two (f := .ccp) (ctx := 2) (s := ccpWords) (o := openOps 12 8) (c := c) (tag := tag)
    (aeadReady_iff.mpr ⟨by decide, by decide⟩) (by decide) (by decide) hc.symm ht.symm (by decide) (by decide) (by decide)
    (by rw [hc]; decide)
  exact ⟨h1, ccpCtx_wf, h3.trans (by decide), h4.trans (by decide), h5, h6⟩

/-- EAX.OPEN of a ciphertext of five equal bytes with its tag. -/
def eaxRight (x : Byte) : State := opening (List.replicate 5 x) (eaxTag eaxCtx nonce16 aad (List.replicate 5 x)) eaxWords

theorem test_witness_EaxOpenCompletes_right :
    AeadReady .eax .opening 2 0 (eaxRight 0x61) ∧ ((eaxRight 0x61).slot 0).wf ∧ ((eaxRight 0x61).snapshot 2 .opening).recv =
      eaxTag ((eaxRight 0x61).slot 0) ((eaxRight 0x61).snapshot 2 .opening).nonce ((eaxRight 0x61).snapshot 2 .opening).ad
        ((eaxRight 0x61).snapshot 2 .opening).inp := by
  obtain ⟨h1, h2, h3, h4, h5, h6⟩ := eaxOpening text (eaxTag eaxCtx nonce16 aad text) (by decide) (by simp)
  exact ⟨h1, h2, by rw [eaxRight, ← text, h3, h4, h5, h6]; rfl⟩

theorem test_witness_EaxOpenCompletes_wrong :
    let s := opening text ((eaxTag eaxCtx nonce16 aad text).map (· ^^^ 1)) eaxWords
    AeadReady .eax .opening 2 0 s ∧ (s.slot 0).wf ∧ (s.snapshot 2 .opening).recv ≠
      eaxTag (s.slot 0) (s.snapshot 2 .opening).nonce (s.snapshot 2 .opening).ad (s.snapshot 2 .opening).inp := by
  obtain ⟨h1, h2, h3, h4, h5, h6⟩ := eaxOpening text ((eaxTag eaxCtx nonce16 aad text).map (· ^^^ 1)) (by decide) (by simp)
  refine ⟨h1, h2, ?_⟩
  rw [h3, h4, h5, h6]
  exact changed_ne _ (by simp)

/-- The record keys of `sivCtx` and the tag of `text`. -/
def sivK : Bytes × Bytes := sivKeys sivCtx nonce12
def sivT : Bytes := sivTag sivK.1 sivK.2 nonce12 aad text

theorem test_witness_SivOpenCompletes_right :
    let s := opening (sivCtr sivK.2 sivT text) sivT sivWords
    AeadReady .siv .opening 2 1 s ∧ (s.slot 1).wf ∧
      let w := s.snapshot 2 .opening
      let keys := sivKeys (s.slot 1) w.nonce
      w.recv = sivTag keys.1 keys.2 w.nonce w.ad (sivCtr keys.2 w.recv w.inp) := by
  obtain ⟨h1, h2, h3, h4, h5, h6⟩ := sivOpening (sivCtr sivK.2 sivT text) sivT (by rw [sivCtr_length]; decide) (sivTag_length _ _ _ _ _)
  refine ⟨h1, h2, ?_⟩
  simp only [h3, h4, h5, h6, show (opening (sivCtr sivK.2 sivT text) sivT sivWords).slot 1 = sivCtx from rfl]
  rw [show (sivKeys sivCtx nonce12).2 = sivK.2 from rfl, sivCtr_sivCtr]
  rfl

/-- No text, so that the candidate plaintext does not depend on the received tag. -/
def sivEmpty : State := aeadLab [] (aeadWords 0x600 16 0x400 0 0x100 12 0x120 3 0x500 16 0 0)
def sivWrong : State := poke 0x500 ((sivTag sivK.1 sivK.2 nonce12 aad []).map (· ^^^ 1)) (poke 0x400 [] sivEmpty)
theorem test_witness_SivOpenCompletes_wrong :
    AeadReady .siv .opening 2 1 sivWrong ∧ (sivWrong.slot 1).wf ∧
      let w := sivWrong.snapshot 2 .opening
      let keys := sivKeys (sivWrong.slot 1) w.nonce
      w.recv ≠ sivTag keys.1 keys.2 w.nonce w.ad (sivCtr keys.2 w.recv w.inp) := by
  obtain ⟨h1, -, h3, h4, h5, h6⟩ := snapshot_two (f := .siv) (ctx := 1) (s := sivEmpty) (o := { openOps 12 16 with inLen := 0 })
    (c := []) (tag := (sivTag sivK.1 sivK.2 nonce12 aad []).map (· ^^^ 1)) (aeadReady_iff.mpr ⟨by decide, by decide⟩) (by decide)
    (by decide) rfl (by simp [openOps]) (by decide) (by decide) (by decide) (by decide)
  refine ⟨h1, sivCtx_wf, ?_⟩
  show (sivWrong.snapshot 2 .opening).recv ≠ _
  rw [show sivWrong.slot 1 = sivCtx from rfl]
  erw [h3, h4, h5, h6]
  have hn : Memory.readBytes sivEmpty.mem (openOps 12 16).nonceAddr (openOps 12 16).nonceLen = nonce12 := by decide
  have ha : Memory.readBytes sivEmpty.mem (openOps 12 16).adAddr (openOps 12 16).adLen = aad := by decide
  rw [hn, ha, show sivCtr (sivKeys sivCtx nonce12).2 _ [] = [] from List.length_eq_zero_iff.mp (sivCtr_length _ _ _)]
  exact changed_ne _ (by simp)

theorem test_witness_CcpOpenCompletes_right :
    let s := opening text (ccpMac ccpCtx nonce12 aad text) ccpWords
    AeadReady .ccp .opening 2 2 s ∧ (s.slot 2).wf ∧ (s.snapshot 2 .opening).recv =
      ccpMac (s.slot 2) (s.snapshot 2 .opening).nonce (s.snapshot 2 .opening).ad (s.snapshot 2 .opening).inp := by
  obtain ⟨h1, h2, h3, h4, h5, h6⟩ := ccpOpening text (ccpMac ccpCtx nonce12 aad text) (by decide) (by rw [ccpMac_length]; decide)
  refine ⟨h1, h2, ?_⟩
  rw [h3, h4, h5, h6]; rfl

theorem test_witness_CcpOpenCompletes_wrong :
    let s := opening text ((ccpMac ccpCtx nonce12 aad text).map (· ^^^ 1)) ccpWords
    AeadReady .ccp .opening 2 2 s ∧ (s.slot 2).wf ∧ (s.snapshot 2 .opening).recv ≠
      ccpMac (s.slot 2) (s.snapshot 2 .opening).nonce (s.snapshot 2 .opening).ad (s.snapshot 2 .opening).inp := by
  obtain ⟨h1, h2, h3, h4, h5, h6⟩ := ccpOpening text ((ccpMac ccpCtx nonce12 aad text).map (· ^^^ 1)) (by decide)
    (by rw [List.length_map, ccpMac_length]; decide)
  refine ⟨h1, h2, ?_⟩
  rw [h3, h4, h5, h6]
  exact changed_ne _ (by rw [ccpMac_length]; decide)

/-! Round trips: the state after a SEAL, whose second descriptor opens what it wrote, and that state with the tag changed. -/

/-- What the round trips need of the state after a SEAL of the first descriptor. -/
theorem sealed_hyps {f : Family} {ctx : Ctx} {s t : State} {nl n : Nat} (h : AeadReady f .opening 2 ctx s)
    (ho : s.aeadOps 2 .opening = openOps nl n) (hd : s.regNat 2 = 0x300) (hnl : nl ≤ 16)
    (hp : t.platform = s.platform) (hs : t.slots = s.slots) (hr : t.reg 2 = s.reg 2)
    (hm : SameMemOutside [⟨0x400, 5⟩, ⟨0x500, n⟩] s t) :
    AeadReady f .opening 2 ctx t ∧ t.slot ctx = s.slot ctx ∧ t.aeadOps 2 .opening = openOps nl n ∧
      (t.snapshot 2 .opening).nonce = Memory.readBytes s.mem 0x100 nl ∧ (t.snapshot 2 .opening).ad = Memory.readBytes s.mem 0x120 3 ∧
      (t.snapshot 2 .opening).inp = Memory.readBytes t.mem 0x400 5 ∧
      (t.snapshot 2 .opening).recv = Memory.readBytes t.mem 0x500 n := by
  have hout : ∀ a, a < 0x400 → Memory.read t.mem a = Memory.read s.mem a := fun a ha => hm a (by
    simp only [List.mem_cons, List.not_mem_nil, or_false, forall_eq_or_imp, forall_eq, Region.covers_eq_false]; omega)
  have hw : ∀ a, s.regNat 2 ≤ a → a < s.regNat 2 + 96 → Memory.read t.mem a = Memory.read s.mem a := fun a h1 h2 =>
    hout a (by omega)
  have ho' := (aeadOps_of_same (k := .opening) hr hw).trans ho
  refine ⟨ready_of_same h hp (slot_congr hs ctx) hr hw, slot_congr hs ctx, ho', ?_, ?_, ?_, ?_⟩ <;>
    simp only [State.snapshot, ho', aeadSnapshot_nonce, aeadSnapshot_ad, aeadSnapshot_inp, aeadSnapshot_recv, openOps]
  · exact Memory.readBytes_congr fun b _ h2 => hout b (by omega)
  · exact Memory.readBytes_congr fun b _ h2 => hout b (by omega)

/-- The first descriptor of `eaxWords`, `sivWords` and `ccpWords`. -/
def sealOps (nonceLen t : Nat) : AeadOps :=
  { outAddr := 0x400, outCap := 16, inAddr := 0x140, inLen := 5, nonceAddr := 0x100, nonceLen := nonceLen, adAddr := 0x120,
    adLen := 3, tagAddr := 0x500, tagLen := t, extraAddr := 0, extraLen := 0 }

/-- The hypotheses of a round trip about the state u that is opened: what SEAL wrote in t is its input. -/
def OpensWhat (f : Family) (ctx : Ctx) (s t u : State) : Prop :=
  AeadReady f .opening 2 ctx u ∧ u.slot ctx = s.slot ctx ∧
    (u.snapshot 2 .opening).nonce = (s.snapshot 1 .sealing).nonce ∧ (u.snapshot 2 .opening).ad = (s.snapshot 1 .sealing).ad ∧
    (u.snapshot 2 .opening).inp = Memory.readBytes t.mem (s.aeadOps 1 .sealing).outAddr (s.aeadOps 1 .sealing).inLen

/-- The received tag changed, and nothing else that OPEN reads. -/
theorem poked_hyps {f : Family} {ctx : Ctx} {t : State} {nl n : Nat} {bs : Bytes} (h : AeadReady f .opening 2 ctx t)
    (ho : t.aeadOps 2 .opening = openOps nl n) (hd : t.regNat 2 = 0x300) (hnl : nl ≤ 16) (hb : bs.length = n) :
    AeadReady f .opening 2 ctx (poke 0x500 bs t) ∧
      ((poke 0x500 bs t).snapshot 2 .opening).nonce = (t.snapshot 2 .opening).nonce ∧
      ((poke 0x500 bs t).snapshot 2 .opening).ad = (t.snapshot 2 .opening).ad ∧
      ((poke 0x500 bs t).snapshot 2 .opening).inp = (t.snapshot 2 .opening).inp ∧
      ((poke 0x500 bs t).snapshot 2 .opening).recv = bs := by
  have hops : (poke 0x500 bs t).aeadOps 2 .opening = openOps nl n := (aeadOps_poke (by omega)).trans ho
  refine ⟨ready_poke h (by omega), ?_, ?_, ?_, ?_⟩ <;>
    simp only [State.snapshot, hops, ho, aeadSnapshot_nonce, aeadSnapshot_ad, aeadSnapshot_inp, aeadSnapshot_recv, openOps] <;>
    simp only [poke]
  · exact Memory.readBytes_writeBytes_apart (by omega)
  · exact Memory.readBytes_writeBytes_apart (by omega)
  · exact Memory.readBytes_writeBytes_apart (by omega)
  · rw [← hb]; exact Memory.readBytes_writeBytes_same _ _ _

/-- A SEAL's end on the first descriptor gives a state that the second opens, with the right tag and with a wrong one. -/
theorem sealed_roundtrip {f : Family} {ctx : Ctx} {s : State} {nl n : Nat} (ho1 : s.aeadOps 1 .sealing = sealOps nl n)
    (h2 : AeadReady f .opening 2 ctx s) (ho2 : s.aeadOps 2 .opening = openOps nl n) (hd : s.regNat 2 = 0x300) (hnl : nl ≤ 16)
    (hn : 0 < n) (out tag : Bytes) (count : Nat) (hout : out.length = 5) (htag : tag.length = n) (tr : List BusAccess) :
    ∃ t, finishSeal 3 (s.aeadOps 1 .sealing) out tag count (s.log tr) = .next t ∧ OpensWhat f ctx s t t ∧
      (t.snapshot 2 .opening).recv = Memory.readBytes t.mem (s.aeadOps 1 .sealing).tagAddr n ∧
      ∃ u, OpensWhat f ctx s t u ∧ (u.snapshot 2 .opening).recv ≠ Memory.readBytes t.mem (s.aeadOps 1 .sealing).tagAddr n := by
  have hc : (s.snapshot 1 .sealing).nonce = Memory.readBytes s.mem 0x100 nl ∧
      (s.snapshot 1 .sealing).ad = Memory.readBytes s.mem 0x120 3 := by
    simp only [State.snapshot, ho1, aeadSnapshot_nonce, aeadSnapshot_ad, sealOps, and_self]
  obtain ⟨t, e, hcomp, -, hregs, hslots, -, -, hmem⟩ := finishSeal_spec 3 (sealOps nl n) out tag count (s.log tr)
    (by simp only [Region.apart, sealOps]; omega)
  rw [hout, htag] at hmem
  have hr : t.reg 2 = s.reg 2 := hregs 2 (by decide)
  obtain ⟨g1, g2, g3, g4, g5, g6, g7⟩ := sealed_hyps (t := t) h2 ho2 hd hnl hcomp.platform hslots hr hmem
  have hne := changed_ne (Memory.readBytes t.mem 0x500 n) (by simpa using hn)
  obtain ⟨p1, p2, p3, p4, p5⟩ := poked_hyps (bs := (Memory.readBytes t.mem 0x500 n).map (· ^^^ 1)) g1 g3
    (by rw [State.regNat, hr]; exact hd) hnl (by simp)
  refine ⟨t, by rw [ho1]; exact e, ⟨g1, g2, by rw [hc.1, g4], by rw [hc.2, g5], by rw [ho1]; exact g6⟩, by rw [ho1]; exact g7, _,
    ⟨p1, g2, by rw [p2, hc.1, g4], by rw [p3, hc.2, g5], by rw [p4, ho1]; exact g6⟩, ?_⟩
  rw [p5, ho1]; exact hne

/-- The trace of the prologue and the snapshot, as one list. -/
theorem prologue_log (s : State) (a n : Nat) (l : List BusAccess) : (s.logRead a n).log l = s.log (busRange .read a n ++ l) := by
  simp [State.logRead, State.log]

theorem test_witness_EaxRoundTrip : ∃ t, AeadReady .eax .sealing 1 0 eaxWords ∧ (eaxWords.slot 0).wf ∧
    exec (.eaxSeal 3 1 0) eaxWords = .next t ∧ OpensWhat .eax 0 eaxWords t t ∧
    (t.snapshot 2 .opening).recv = Memory.readBytes t.mem (eaxWords.aeadOps 1 .sealing).tagAddr 16 ∧
    ∃ u, OpensWhat .eax 0 eaxWords t u ∧
      (u.snapshot 2 .opening).recv ≠ Memory.readBytes t.mem (eaxWords.aeadOps 1 .sealing).tagAddr 16 := by
  have hready := test_witness_EaxSealCompletes.1
  obtain ⟨t, e, h⟩ := sealed_roundtrip (f := .eax) (ctx := 0) (s := eaxWords) (nl := 16) (n := 16) (by decide)
    (aeadReady_iff.mpr ⟨by decide, by decide⟩) (by decide) (by decide) (by decide) (by decide) _ _ 16
    ((eaxCtr_length (eaxWords.slot 0) _ _).trans ((snapshot_inp_length eaxWords 1 .sealing).trans (by decide))) (eaxTag_length _ _ _ _) _
  refine ⟨t, hready, eaxCtx_wf, ?_, h⟩
  show execEaxSeal 3 1 0 eaxWords = _
  rw [execEaxSeal, aeadRun_of_ready hready, eaxSealBody, snapshot_ops, prologue_log]
  exact e

theorem test_witness_SivRoundTrip : ∃ t, AeadReady .siv .sealing 1 1 sivWords ∧ (sivWords.slot 1).wf ∧
    exec (.sivSeal 3 1 1) sivWords = .next t ∧ OpensWhat .siv 1 sivWords t t ∧
    (t.snapshot 2 .opening).recv = Memory.readBytes t.mem (sivWords.aeadOps 1 .sealing).tagAddr 16 := by
  have hready := test_witness_SivSealCompletes.1
  obtain ⟨t, e, h, h', -⟩ := sealed_roundtrip (f := .siv) (ctx := 1) (s := sivWords) (nl := 12) (n := 16) (by decide)
    (aeadReady_iff.mpr ⟨by decide, by decide⟩) (by decide) (by decide) (by decide) (by decide) _ _ 16
    ((sivCtr_length _ _ _).trans ((snapshot_inp_length sivWords 1 .sealing).trans (by decide))) (sivTag_length _ _ _ _ _) _
  refine ⟨t, hready, sivCtx_wf, ?_, h, h'⟩
  show execSivSeal 3 1 1 sivWords = _
  rw [execSivSeal, aeadRun_of_ready hready, sivSealBody, snapshot_ops, prologue_log]
  exact e

theorem test_witness_CcpRoundTrip : ∃ t, AeadReady .ccp .sealing 1 2 ccpWords ∧ (ccpWords.slot 2).wf ∧
    exec (.ccpSeal 3 1 2) ccpWords = .next t ∧ OpensWhat .ccp 2 ccpWords t t ∧
    (t.snapshot 2 .opening).recv = Memory.readBytes t.mem (ccpWords.aeadOps 1 .sealing).tagAddr 8 ∧
    ∃ u, OpensWhat .ccp 2 ccpWords t u ∧
      (u.snapshot 2 .opening).recv ≠ Memory.readBytes t.mem (ccpWords.aeadOps 1 .sealing).tagAddr 8 := by
  have hready := test_witness_CcpSealCompletes.1
  have hin : (ccpWords.aeadOps 1 .sealing).inLen = 5 := by decide
  obtain ⟨t, e, h⟩ := sealed_roundtrip (f := .ccp) (ctx := 2) (s := ccpWords) (nl := 12) (n := 8) (by decide)
    (aeadReady_iff.mpr ⟨by decide, by decide⟩) (by decide) (by decide) (by decide) (by decide)
    (xorBytes (ccpWords.snapshot 1 .sealing).inp (ccpKeystream (ccpWords.slot 2).key (ccpWords.snapshot 1 .sealing).nonce 0
      (ccpWords.aeadOps 1 .sealing).inLen)) _ (ccpWords.slot 2).tagLen
    (by rw [xorBytes_length, ccpKeystream_length, snapshot_inp_length, hin]; rfl)
    ((ccpMac_length (ccpWords.slot 2) _ _ _).trans (by decide)) _
  refine ⟨t, hready, ccpCtx_wf, ?_, h⟩
  show execCcpSeal 3 1 2 ccpWords = _
  rw [execCcpSeal, aeadRun_of_ready hready, ccpSealBody, snapshot_ops, prologue_log]
  exact e

/-- The trailer's ciphertext and the tag follow the ciphertext at 0x400, and the second descriptor opens them as one text. -/
theorem test_witness_CcpTrailerRoundTrip : ∃ t, AeadReady .ccp .sealingX 1 2 ccpxWords ∧ (ccpxWords.slot 2).wf ∧
    exec (.ccpSealx 3 1 2) ccpxWords = .next t ∧ AeadReady .ccp .opening 2 2 t ∧ t.slot 2 = ccpxWords.slot 2 ∧
    let o := ccpxWords.aeadOps 1 .sealingX
    (t.snapshot 2 .opening).nonce = (ccpxWords.snapshot 1 .sealingX).nonce ∧
    (t.snapshot 2 .opening).ad = (ccpxWords.snapshot 1 .sealingX).ad ∧
    (t.snapshot 2 .opening).inp = Memory.readBytes t.mem o.outAddr o.inLen ++ Memory.readBytes t.mem o.tagAddr o.extraLen ∧
    (t.snapshot 2 .opening).recv = Memory.readBytes t.mem (o.tagAddr + o.extraLen) (ccpxWords.slot 2).tagLen := by
  have hready := test_witness_CcpSealxCompletes.1
  have ho : ccpxWords.aeadOps 1 .sealingX = ⟨0x400, 5, 0x140, 5, 0x100, 12, 0x120, 3, 0x405, 10, 0x150, 2⟩ := by decide
  have ho2 : ccpxWords.aeadOps 2 .opening = ⟨0x600, 7, 0x400, 7, 0x100, 12, 0x120, 3, 0x407, 8, 0, 0⟩ := by decide
  have hopen : AeadReady .ccp .opening 2 2 ccpxWords := aeadReady_iff.mpr ⟨by decide, by decide⟩
  have hd : ccpxWords.regNat 2 = 0x300 := by decide
  have ht : (ccpxWords.slot 2).tagLen = 8 := by decide
  have hwf : (ccpxWords.slot 2).wf := ccpCtx_wf
  generalize ccpxWords = s at *
  have e : exec (.ccpSealx 3 1 2) s = ccpSealxBody 3 (s.slot 2) (s.snapshot 1 .sealingX) _ := aeadRun_of_ready hready _
  rw [ccpSealxBody, snapshot_ops, prologue_log] at e
  obtain ⟨t, e', hcomp, -, hregs, hslots, -, -, hmem⟩ := finishSeal_spec 3 (s.aeadOps 1 .sealingX)
    (xorBytes (s.snapshot 1 .sealingX).inp (ccpKeystream (s.slot 2).key (s.snapshot 1 .sealingX).nonce 0 (s.aeadOps 1 .sealingX).inLen))
    (xorBytes (s.snapshot 1 .sealingX).extra (ccpKeystream (s.slot 2).key (s.snapshot 1 .sealingX).nonce
      (s.aeadOps 1 .sealingX).inLen (s.aeadOps 1 .sealingX).extraLen) ++ ccpMac (s.slot 2) (s.snapshot 1 .sealingX).nonce
      (s.snapshot 1 .sealingX).ad (xorBytes (s.snapshot 1 .sealingX).inp (ccpKeystream (s.slot 2).key
        (s.snapshot 1 .sealingX).nonce 0 (s.aeadOps 1 .sealingX).inLen) ++ xorBytes (s.snapshot 1 .sealingX).extra
          (ccpKeystream (s.slot 2).key (s.snapshot 1 .sealingX).nonce (s.aeadOps 1 .sealingX).inLen
            (s.aeadOps 1 .sealingX).extraLen)))
    ((s.aeadOps 1 .sealingX).extraLen + (s.slot 2).tagLen)
    (s.log (busRange .read (s.regNat 1) 96 ++ snapshotTrace .sealingX (s.aeadOps 1 .sealingX)))
    (by simp [Region.apart, ho, ht])
  have hm : ∀ a, a < 0x400 → Memory.read t.mem a = Memory.read s.mem a := fun a ha => hmem a (by
    simp only [List.mem_cons, List.not_mem_nil, or_false, forall_eq_or_imp, forall_eq, Region.covers_eq_false, ho]; omega)
  have hw : ∀ a, s.regNat 2 ≤ a → a < s.regNat 2 + 96 → Memory.read t.mem a = Memory.read s.mem a := fun a h1 h2 => hm a (by omega)
  have hr : t.reg 2 = s.reg 2 := hregs 2 (by decide)
  have hot := (aeadOps_of_same (k := .opening) hr hw).trans ho2
  refine ⟨t, hready, hwf, e.trans e', ready_of_same hopen hcomp.platform (slot_congr hslots 2) hr hw, slot_congr hslots 2, ?_, ?_, ?_, ?_⟩
    <;> simp only [State.snapshot, hot, ho, aeadSnapshot_nonce, aeadSnapshot_ad, aeadSnapshot_inp, aeadSnapshot_recv, ht]
  · exact Memory.readBytes_congr fun b _ h2 => hm b (by omega)
  · exact Memory.readBytes_congr fun b _ h2 => hm b (by omega)
  · exact Memory.readBytes_append t.mem 0x400 5 2

/-! The whole machine: an engine that runs EAX.SEAL a3, (a1), c0 on the contexts and descriptors of `eaxWords`. -/

def sealing : State := eaxWords.accept 0x51640000#32

theorem sealing_ready : AeadReady .eax .sealing 1 0 sealing := aeadReady_iff.mpr ⟨by decide, by decide⟩

theorem sealing_inv : sealing.Inv where
  memWf := by decide
  memBounded := by decide
  slotsWf c := by
    match c with
    | 0 => exact eaxCtx_wf
    | 1 => exact sivCtx_wf
    | 2 => exact ccpCtx_wf
    | 3 => show Slot.wf Slot.empty; unfold Slot.wf; rw [if_neg (by decide)]
  notDone _ := rfl
  idleCleared h := by simp [sealing, State.accept] at h
  phaseOk w hw := by
    have : w = 0x51640000#32 := by simpa [sealing, State.accept, eq_comm] using hw
    subst this
    show phaseFits _ .s0
    rw [phaseFits, show decode 0x51640000#32 = .ok (.eaxSeal 3 1 0) by decide]
    show Phase.s0 ∈ phasesOf ⟨.eax, .sealing, 3, 1, 0⟩
    decide
  buffers w i c hw hd _ hp := by
    have : w = 0x51640000#32 := by simpa [sealing, State.accept, eq_comm] using hw
    subst this
    rw [show decode 0x51640000#32 = .ok (.eaxSeal 3 1 0) by decide] at hd
    cases hd
    exact absurd rfl hp
  accel := rfl

theorem sealing_next : ∃ t, exec (.eaxSeal 3 1 0) sealing = .next t ∧ t.err = .ok := by
  show ∃ t, execEaxSeal 3 1 0 sealing = .next t ∧ t.err = .ok
  rw [execEaxSeal, aeadRun_of_ready sealing_ready]
  exact ⟨_, rfl, rfl⟩

theorem test_witness_InvKeptByStep : sealing.Inv ∧ ∃ t, step sealing = .next t := by
  obtain ⟨t, ht, -⟩ := sealing_next
  refine ⟨sealing_inv, t, ?_⟩
  rw [← ht]
  show engineTurn sealing = _
  rw [engineTurn, show sealing.running = some 0x51640000#32 from rfl]
  simp only [show decode 0x51640000#32 = .ok (.eaxSeal 3 1 0) by decide]
  exact if_pos rfl

theorem test_witness_CodesByCommand : WellFormed (.recRmpad 2 0) ∧ exec (.recRmpad 2 0) (recLab [0] 4 0) =
    .next (((recLab [0] 4 0).logRead 0x2000 32).complete .bufSmall) := ⟨by decide, rfl⟩

/-- A command that completes with BUSERR, and GCM-SIV's OPEN that completes with AUTHFAIL. -/
theorem test_witness_RegistersWrittenOnlyOnOk : exec (.eaxInit 0 0) (initLab 0x204 0x100 16 0) =
    .next ((initLab 0x204 0x100 16 0).complete .busErr) ∧ ((initLab 0x204 0x100 16 0).complete .busErr).err ≠ .ok :=
  ⟨rfl, by decide⟩
theorem test_witness_ErrorsWriteNothing : ∃ t, exec (.sivOpen 4 2 1) sivWrong = .next t ∧ t.err = .authFail ∧ t.err ≠ .ok := by
  obtain ⟨h1, -, h3⟩ := test_witness_SivOpenCompletes_wrong
  have hl : (sivWrong.snapshot 2 .opening).recv.length = 16 := by
    rw [snapshot_recv_length, h1.tagLen rfl]; decide
  generalize sivWrong = s at *
  show ∃ t, execSivOpen 4 2 1 s = .next t ∧ _
  rw [execSivOpen, aeadRun_of_ready h1, sivOpenBody]
  rw [if_pos (fun h => h3 ((memcmpBytes_eq_zero (by simp [hl])).mp h).symm)]
  exact ⟨_, rfl, rfl, fun h => by cases h⟩
theorem test_witness_SlotsWrittenOnlyByInitAndCleanup :
    exec (.aeadCleanup 1) (aeadLab [] []) = .next (((aeadLab [] []).setSlot 1 Slot.empty).complete .ok) ∧
    (((aeadLab [] []).setSlot 1 Slot.empty).complete .ok).slot 1 ≠ (aeadLab [] []).slot 1 := ⟨rfl, by decide⟩

/-- Steps that change slot 1: the engine's turn on AEAD.CLEANUP, a soft reset, a power-on reset. -/
theorem test_witness_SlotsWrittenOnlyByInitAndCleanup_steps :
    ∀ ms ∈ [[put 0x10 4 0x40000100, .engine], [put 8 4 2], [.host .powerOn]],
      (after ms (aeadLab [] [])).map (·.slot 1) = some Slot.empty ∧ (aeadLab [] []).slot 1 ≠ Slot.empty := by decide
theorem test_witness_MemoryChangesOnlyInWriteSet : sealing.Inv ∧ ∃ t, exec (.eaxSeal 3 1 0) sealing = .next t :=
  ⟨sealing_inv, sealing_next.imp fun _ h => h.1⟩
theorem test_witness_MemoryChangesOnlyInWriteSet_names : ∀ r ∈ writeSet (.eaxSeal 3 1 0) sealing,
    r ∈ (footprint (.eaxSeal 3 1 0) sealing).writes ∧ writeSet (.eaxSeal 3 1 0) sealing ≠ [] := by decide

/-- Two records with different secrets, and two ciphertexts that both verify. -/
theorem test_witness_BusTraceIsPublic : PublicEq (.recXmac 1) (recLab recordA 4 9) (recLab recordB 4 13) :=
  ⟨by decide, by decide, by decide, by decide⟩
theorem eaxRight_ok (x : Byte) : ∃ t, exec (.eaxOpen 4 2 0) (eaxRight x) = .next t ∧ t.err = .ok := by
  obtain ⟨h1, -, h3, h4, h5, h6⟩ := eaxOpening (List.replicate 5 x) (eaxTag eaxCtx nonce16 aad (List.replicate 5 x)) (by simp)
    (by simp)
  have hs : (eaxRight x).slot 0 = eaxCtx := rfl
  change AeadReady .eax .opening 2 0 (eaxRight x) at h1
  show ∃ t, execEaxOpen 4 2 0 (eaxRight x) = .next t ∧ t.err = .ok
  rw [execEaxOpen, aeadRun_of_ready h1, eaxOpenBody, hs]
  change ((eaxRight x).snapshot 2 .opening).nonce = _ at h3
  change ((eaxRight x).snapshot 2 .opening).ad = _ at h4
  change ((eaxRight x).snapshot 2 .opening).inp = _ at h5
  change ((eaxRight x).snapshot 2 .opening).recv = _ at h6
  rw [h3, h4, h5, h6, if_neg (not_not.mpr ((memcmpBytes_eq_zero rfl).mpr rfl))]
  exact ⟨_, rfl, rfl⟩
theorem test_witness_BusTraceIsPublic_open : PublicEq (.eaxOpen 4 2 0) (eaxRight 0x61) (eaxRight 0x62) ∧
    ∃ t t', exec (.eaxOpen 4 2 0) (eaxRight 0x61) = .next t ∧ exec (.eaxOpen 4 2 0) (eaxRight 0x62) = .next t' ∧ t.err = t'.err := by
  have hops : ∀ x, (eaxRight x).aeadOps 2 .opening = eaxWords.aeadOps 2 .opening := fun x =>
    (aeadOps_poke (.inl (by show 0x300 + 96 ≤ 0x500; decide))).trans
      (aeadOps_poke (.inl (by show 0x300 + 96 ≤ 0x400; decide)))
  obtain ⟨t, h, e⟩ := eaxRight_ok 0x61
  obtain ⟨t', h', e'⟩ := eaxRight_ok 0x62
  exact ⟨⟨rfl, rfl, rfl, (hops _).trans (hops _).symm, rfl, rfl, rfl⟩, t, t', h, h', e.trans e'.symm⟩

theorem test_witness_AcceleratedPathChangesNothing : ∃ t, exec (.sivInit 0 0) (initLab 0x200 0x100 16 16) = .next t := ⟨_, rfl⟩
/-- An engine with word w running in a writing phase. -/
def writing (w : Word32) (p : Phase) : State := (fresh.accept w).setPhase p Work.cleared
theorem test_witness_PhasesRefineCommand_buffers : ∀ q ∈ [(0x51640000#32, Phase.s5), (0x52880000, .o5), (0x61640100, .ctr),
      (0x62880100, .ctr), (0x62880100, .verify), (0x71640200, .q6), (0x72640200, .q6), (0x73880200, .q8)],
    (writing q.1 q.2).running = some q.1 ∧ (writing q.1 q.2).phase = q.2 ∧
      (writing q.1 q.2).work.tag.length = (writing q.1 q.2).work.recv.length := by decide
theorem test_witness_PhasesRefineCommand : sealing.running = some 0x51640000#32 ∧
    decode 0x51640000#32 = .ok (.eaxSeal 3 1 0) ∧ sealing.phase = startPhase (.eaxSeal 3 1 0) := by decide

/-! EAX.OPEN and CCP.OPEN of a right tag, phase by phase. -/

/-- The state after the prologue's reads. -/
def prologued (s : State) (rs : Reg) (k : Kind) : State :=
  (s.logRead (s.regNat rs) 96).log (snapshotTrace k (s.aeadOps rs k))

theorem eaxOpen_reaches_o5 {s : State} {w : Word32} {rd rs : Reg} {ctx : Ctx} (hr : s.running = some w)
    (hd : decode w = .ok (.eaxOpen rd rs ctx)) (hp : s.phase = .o0) (h : AeadReady .eax .opening rs ctx s)
    (ht : (s.snapshot rs .opening).recv = eaxTag (s.slot ctx) (s.snapshot rs .opening).nonce (s.snapshot rs .opening).ad
      (s.snapshot rs .opening).inp) : ∃ t, runTicks 5 s = .next t ∧ t.phase = .o5 := by
  have hc : sequenced (.eaxOpen rd rs ctx) = some ⟨.eax, .opening, rd, rs, ctx⟩ := rfl
  have h0 : phaseTick ⟨.eax, .opening, rd, rs, ctx⟩ s = some ((prologued s rs .opening).goTo .o1 (s.snapshot rs .opening)) := by
    simp only [phaseTick, eaxOpenTick, hp]
    rw [prologueTick_of_ready h]; rfl
  have hur : (prologued s rs .opening).running = some w := hr
  rw [show s.slot ctx = (prologued s rs .opening).slot ctx from rfl] at ht
  generalize prologued s rs .opening = u at *
  generalize s.snapshot rs .opening = d at *
  have e1 (v : Work) : runTicks 4 (u.setPhase .o1 v) =
      runTicks 3 (u.setPhase .o2 { v with omacN := slotOmac (u.slot ctx) 0 v.nonce }) := runTicks_goTo 3 hur hd hc rfl
  have e2 (v : Work) : runTicks 3 (u.setPhase .o2 v) =
      runTicks 2 (u.setPhase .o3 { v with omacH := slotOmac (u.slot ctx) 1 v.ad }) := runTicks_goTo 2 hur hd hc rfl
  have e3 (v : Work) : runTicks 2 (u.setPhase .o3 v) =
      runTicks 1 (u.setPhase .o4 { v with omacC := slotOmac (u.slot ctx) 2 v.inp }) := runTicks_goTo 1 hur hd hc rfl
  have e4 (v : Work) (hv : memcmpBytes (xorBytes (xorBytes v.omacC v.omacN) v.omacH) v.recv = 0) : runTicks 1 (u.setPhase .o4 v) =
      .next (u.setPhase .o5 { v with tag := xorBytes (xorBytes v.omacC v.omacN) v.omacH }) :=
    runTicks_goTo (s := u.setPhase .o4 v) (t := u.setPhase .o4 v) 0 hur hd hc (by
      exact congrArg some (if_pos hv))
  have hv : memcmpBytes (eaxTag (u.slot ctx) d.nonce d.ad d.inp) d.recv = 0 := (memcmpBytes_eq_zero (by rw [ht])).mpr ht.symm
  exact ⟨_, (runTicks_goTo 4 hr hd hc h0).trans ((e1 _).trans ((e2 _).trans ((e3 _).trans (e4 _ hv)))), rfl⟩

theorem test_witness_DecryptPhaseNeedsVerifiedTag_eax : ∃ t, ((eaxRight 0x61).accept 0x52880000#32).running = some 0x52880000#32 ∧
    (((eaxRight 0x61).accept 0x52880000#32).slot 0).wf ∧ decode 0x52880000#32 = .ok (.eaxOpen 4 2 0) ∧
    ((eaxRight 0x61).accept 0x52880000#32).phase = .o0 ∧
    runTicks 5 ((eaxRight 0x61).accept 0x52880000#32) = .next t ∧ t.phase = .o5 := by
  obtain ⟨h1, h2, h3⟩ := test_witness_EaxOpenCompletes_right
  have hp : ((eaxRight 0x61).accept 0x52880000#32).phase = .o0 := by rfl
  obtain ⟨t, ht⟩ := eaxOpen_reaches_o5 (s := (eaxRight 0x61).accept 0x52880000#32) (w := 0x52880000#32) (rd := 4) (rs := 2)
    (ctx := 0) rfl (by decide) hp (ready_of_same h1 rfl rfl rfl fun _ _ _ => rfl) h3
  exact ⟨t, rfl, h2, by decide, hp, ht⟩

theorem ccpOpen_reaches_q8 {s : State} {w : Word32} {rd rs : Reg} {ctx : Ctx} (hr : s.running = some w)
    (hd : decode w = .ok (.ccpOpen rd rs ctx)) (hp : s.phase = .q0) (h : AeadReady .ccp .opening rs ctx s)
    (ht : (s.snapshot rs .opening).recv = (poly1305 (ccpPolyKey (s.slot ctx).key (s.snapshot rs .opening).nonce)
      (pad16 (pad16 (s.snapshot rs .opening).ad ++ (s.snapshot rs .opening).inp) ++
        leBytes 8 (s.snapshot rs .opening).ad.length ++ leBytes 8 ((s.snapshot rs .opening).inp.length +
          (s.snapshot rs .opening).extra.length))).take (s.slot ctx).tagLen) : ∃ t, runTicks 7 s = .next t ∧ t.phase = .q8 := by
  have hc : sequenced (.ccpOpen rd rs ctx) = some ⟨.ccp, .opening, rd, rs, ctx⟩ := rfl
  have h0 : phaseTick ⟨.ccp, .opening, rd, rs, ctx⟩ s = some ((prologued s rs .opening).goTo .q1 (s.snapshot rs .opening)) := by
    simp only [phaseTick, ccpTick, hp]
    rw [prologueTick_of_ready h]; rfl
  have hur : (prologued s rs .opening).running = some w := hr
  rw [show s.slot ctx = (prologued s rs .opening).slot ctx from rfl] at ht
  generalize prologued s rs .opening = u at *
  generalize s.snapshot rs .opening = d at *
  have e1 (v : Work) : runTicks 6 (u.setPhase .q1 v) =
      runTicks 5 (u.setPhase .q2 { v with polyKey := ccpPolyKey (u.slot ctx).key v.nonce }) := runTicks_goTo 5 hur hd hc rfl
  have e2 (v : Work) : runTicks 5 (u.setPhase .q2 v) = runTicks 4 (u.setPhase .q3 { v with macIn := pad16 v.ad }) :=
    runTicks_goTo 4 hur hd hc rfl
  have e3 (v : Work) : runTicks 4 (u.setPhase .q3 v) = runTicks 3 (u.setPhase .q4 { v with macIn := v.macIn ++ v.inp }) :=
    runTicks_goTo 3 hur hd hc rfl
  have e4 (v : Work) : runTicks 3 (u.setPhase .q4 v) = runTicks 2 (u.setPhase .q5 v) := runTicks_goTo 2 hur hd hc rfl
  have e5 (v : Work) : runTicks 2 (u.setPhase .q5 v) = runTicks 1 (u.setPhase .q7
      (let m := pad16 v.macIn ++ leBytes 8 v.ad.length ++ leBytes 8 (v.inp.length + v.extra.length)
      { v with macIn := m, tag := (poly1305 v.polyKey m).take (u.slot ctx).tagLen })) := runTicks_goTo 1 hur hd hc rfl
  have e6 (v : Work) (hv : memcmpBytes v.tag v.recv = 0) : runTicks 1 (u.setPhase .q7 v) = .next (u.setPhase .q8 v) :=
    runTicks_goTo (s := u.setPhase .q7 v) (t := u.setPhase .q7 v) 0 hur hd hc (by
      exact congrArg some (if_pos hv))
  exact ⟨_, (runTicks_goTo 6 hr hd hc h0).trans ((e1 _).trans ((e2 _).trans ((e3 _).trans ((e4 _).trans ((e5 _).trans
    (e6 _ ((memcmpBytes_eq_zero (congrArg List.length ht.symm)).mpr ht.symm))))))), rfl⟩

def ccpRight : State := opening text (ccpMac ccpCtx nonce12 aad text) ccpWords
theorem test_witness_DecryptPhaseNeedsVerifiedTag_ccp : ∃ t, (ccpRight.accept 0x73880200#32).running = some 0x73880200#32 ∧
    ((ccpRight.accept 0x73880200#32).slot 2).wf ∧ decode 0x73880200#32 = .ok (.ccpOpen 4 2 2) ∧
    (ccpRight.accept 0x73880200#32).phase = .q0 ∧ runTicks 7 (ccpRight.accept 0x73880200#32) = .next t ∧ t.phase = .q8 := by
  obtain ⟨h1, h2, -⟩ := test_witness_CcpOpenCompletes_right
  obtain ⟨-, -, h3, h4, h5, h6⟩ := ccpOpening text (ccpMac ccpCtx nonce12 aad text) (by decide) (by rw [ccpMac_length]; decide)
  have hp : (ccpRight.accept 0x73880200#32).phase = .q0 := by rfl
  have hx : (ccpRight.snapshot 2 .opening).extra = [] := rfl
  obtain ⟨t, ht⟩ := ccpOpen_reaches_q8 (s := ccpRight.accept 0x73880200#32) (w := 0x73880200#32) (rd := 4) (rs := 2) (ctx := 2) rfl
    (by decide) hp (ready_of_same h1 rfl rfl rfl fun _ _ _ => rfl) (by
      show (ccpRight.snapshot 2 .opening).recv = (poly1305 (ccpPolyKey ccpCtx.key (ccpRight.snapshot 2 .opening).nonce)
        (pad16 (pad16 (ccpRight.snapshot 2 .opening).ad ++ (ccpRight.snapshot 2 .opening).inp) ++
          leBytes 8 (ccpRight.snapshot 2 .opening).ad.length ++ leBytes 8 ((ccpRight.snapshot 2 .opening).inp.length +
            (ccpRight.snapshot 2 .opening).extra.length))).take ccpCtx.tagLen
      change (ccpRight.snapshot 2 .opening).nonce = _ at h3
      change (ccpRight.snapshot 2 .opening).ad = _ at h4
      change (ccpRight.snapshot 2 .opening).inp = _ at h5
      change (ccpRight.snapshot 2 .opening).recv = _ at h6
      rw [h3, h4, h5, h6, hx, ccpMac, show ccpMacInput aad text = pad16 (pad16 aad ++ text) ++ leBytes 8 aad.length ++
        leBytes 8 (text.length + ([] : Bytes).length) by decide])
  exact ⟨t, rfl, h2, by decide, hp, ht⟩
/-- EAX.SEAL after its prologue: a busy engine past its command's first phase. -/
def inS1 : State := (prologued sealing 1 .sealing).setPhase .s1 (sealing.snapshot 1 .sealing)
theorem sealing_tick : runTicks 1 sealing = .next inS1 := by
  have h0 : phaseTick ⟨.eax, .sealing, 3, 1, 0⟩ sealing =
      some ((prologued sealing 1 .sealing).goTo .s1 (sealing.snapshot 1 .sealing)) := by
    simp only [phaseTick, eaxSealTick, show sealing.phase = .s0 by rfl]
    rw [prologueTick_of_ready (c := ⟨.eax, .sealing, 3, 1, 0⟩) sealing_ready]; rfl
  exact runTicks_goTo (i := .eaxSeal 3 1 0) 0 (w := 0x51640000#32) rfl (by decide) rfl h0
theorem test_witness_DecryptPhaseNeedsVerifiedTag_running : decode 0x51640000#32 = .ok (.eaxSeal 3 1 0) ∧
    runTicks 1 sealing = .next inS1 ∧ inS1.running.isSome := ⟨by decide, sealing_tick, rfl⟩

/-- The states past the first phase meet the invariant too. -/
theorem inS1_inv : inS1.Inv where
  memWf := sealing_inv.memWf
  memBounded := sealing_inv.memBounded
  slotsWf := sealing_inv.slotsWf
  notDone _ := rfl
  idleCleared h := by cases h
  phaseOk w hw := by
    have : w = 0x51640000#32 := (Option.some.inj hw).symm
    subst this
    show phaseFits _ .s1
    rw [phaseFits, show decode 0x51640000#32 = .ok (.eaxSeal 3 1 0) by decide]
    show Phase.s1 ∈ phasesOf ⟨.eax, .sealing, 3, 1, 0⟩
    decide
  buffers w i c hw hd hc _ := by
    have : w = 0x51640000#32 := (Option.some.inj hw).symm
    subst this
    rw [show decode 0x51640000#32 = .ok (.eaxSeal 3 1 0) by decide] at hd
    cases hd
    cases hc
    exact ⟨ready_of_same sealing_ready rfl rfl rfl fun _ _ _ => rfl, rfl, by simp [inS1]; rfl, rfl, by decide, by decide, by decide,
      by decide⟩
  accel := rfl
theorem test_witness_InvKeptByStep_running : inS1.Inv ∧ inS1.phase ≠ startPhase (.eaxSeal 3 1 0) := ⟨inS1_inv, by decide⟩
theorem test_witness_StepRunsDecodedCommand_running : sealing.phase = startPhase (.eaxSeal 3 1 0) ∧
    inS1.running = some 0x51640000#32 ∧ inS1.phase ≠ startPhase (.eaxSeal 3 1 0) ∧ inS1.moves = [] ∧
    ({ inS1 with moves := [.tick] } : State).moves = .tick :: [] := by decide
theorem test_witness_EveryCommandCompletes : inS1.busy = true ∧ running.busy = true := by decide

/-- An accepted command of each of the five sequencers, in its first phase and with its conditions. -/
theorem test_witness_PhasesComputeTags :
    (decode 0x51640000#32 = .ok (.eaxSeal 3 1 0) ∧ sealing.phase = .s0 ∧ AeadReady .eax .sealing 1 0 sealing) ∧
    (decode 0x61640100#32 = .ok (.sivSeal 3 1 1) ∧ (sivWords.accept 0x61640100#32).phase = .p0 ∧
      AeadReady .siv .sealing 1 1 (sivWords.accept 0x61640100#32)) ∧
    (decode 0x62880100#32 = .ok (.sivOpen 4 2 1) ∧ (sivWords.accept 0x62880100#32).phase = .p0 ∧
      AeadReady .siv .opening 2 1 (sivWords.accept 0x62880100#32)) ∧
    (decode 0x71640200#32 = .ok (.ccpSeal 3 1 2) ∧ (ccpWords.accept 0x71640200#32).phase = .q0 ∧
      AeadReady .ccp .sealing 1 2 (ccpWords.accept 0x71640200#32)) ∧
    (decode 0x72640200#32 = .ok (.ccpSealx 3 1 2) ∧ (ccpxWords.accept 0x72640200#32).phase = .q0 ∧
      AeadReady .ccp .sealingX 1 2 (ccpxWords.accept 0x72640200#32)) :=
  ⟨⟨by decide, by decide, sealing_ready⟩, ⟨by decide, by decide, aeadReady_iff.mpr ⟨by decide, by decide⟩⟩,
    ⟨by decide, by decide, aeadReady_iff.mpr ⟨by decide, by decide⟩⟩, ⟨by decide, by decide, aeadReady_iff.mpr ⟨by decide, by decide⟩⟩,
    by decide, by decide, aeadReady_iff.mpr ⟨by decide, by decide⟩⟩

/-- SIV.OPEN, by the table of R311, on a 16-byte root key: T3 after P0, K0 to K3 and KA; H1 after X1, which has written M; V. -/
def phaseAfter (n : Nat) (s : State) : Option Phase :=
  match runTicks n s with
  | .next t => some t.phase
  | .fault _ => none
  | .refused _ => none
theorem test_sivOpen_phases : phaseAfter 6 (sivWords.accept 0x62880100#32) = some .counter ∧
    phaseAfter 7 (sivWords.accept 0x62880100#32) = some .ctr ∧ phaseAfter 8 (sivWords.accept 0x62880100#32) = some .hash ∧
    phaseAfter 11 (sivWords.accept 0x62880100#32) = some .verify := by decide

/-! Reset, abort and the host's side of memory. -/

theorem test_witness_ResetState : (0xF0000008 : Word).toNat = sealing.platform.base.toNat + 0x008 ∧
    (0xF0000008 : Word).toNat = fresh.platform.base.toNat + 0x008 ∧ (2 : Word).getLsbD 1 = true ∧ (3 : Word).getLsbD 1 = true ∧
    fresh.busy = false := by decide
theorem test_witness_AbortDrawsWriteSet : sealing.Inv ∧ sealing.running = some 0x51640000#32 ∧
    decode 0x51640000#32 = .ok (.eaxSeal 3 1 0) ∧ (0xF0000008 : Word).toNat = sealing.platform.base.toNat + 0x008 ∧
    (2 : Word).getLsbD 1 = true := ⟨sealing_inv, by decide⟩

/-- An engine that has accepted an illegal word. -/
def illegal : State := (aeadLab [] []).accept 0x53000000#32
theorem illegal_inv : illegal.Inv where
  memWf := by decide
  memBounded := by decide
  slotsWf := sealing_inv.slotsWf
  notDone _ := rfl
  idleCleared h := by cases h
  phaseOk w hw := by
    have : w = 0x53000000#32 := (Option.some.inj hw).symm
    subst this
    rw [phaseFits, show decode 0x53000000#32 = .error (.reservedOpcode 0x53#8) by decide]
    rfl
  buffers w i c hw hd _ _ := by
    have : w = 0x53000000#32 := (Option.some.inj hw).symm
    subst this
    rw [show decode 0x53000000#32 = .error (.reservedOpcode 0x53#8) by decide] at hd
    cases hd
  accel := rfl
theorem test_witness_AbortDrawsWriteSet_illegal : illegal.Inv ∧ illegal.running = some 0x53000000#32 ∧
    ∃ e, decode 0x53000000#32 = .error e := ⟨illegal_inv, rfl, .reservedOpcode 0x53#8, by decide⟩

/-- A command whose checks fail, its output too small, still has the regions its descriptor names, and an empty write set (R95, log
21). -/
def failing : State := (aeadLab (aeadWords 0x400 4 0x140 5 0x100 16 0x120 3 0x500 16 0 0) []).accept 0x51640000#32
theorem test_failing_command_regions : writeSet (.eaxSeal 3 1 0) failing = [] ∧
    hostMove (.busWrite 0x144 [1]) failing = .refused .hostRace ∧ hostMove (.busWrite 0x25F [1]) failing = .refused .hostRace ∧
    hostMove (.busRead 0x50F) failing = .refused .hostRace ∧
    hostMove (.busWrite 0x145 [1]) failing = .next { failing with mem := Memory.writeBytes failing.mem 0x145 [1] } :=
  ⟨by decide, rfl, rfl, rfl, rfl⟩

/-- While EAX.SEAL runs: beside its regions, on the first and last byte of its output, and on its input. -/
theorem test_witness_HostBusAccess :
    (∀ r ∈ sealing.runningFootprint.reads ++ sealing.runningFootprint.writes, r.overlaps ⟨0x405, 2⟩ = false) ∧
    (∀ r ∈ sealing.runningFootprint.writes, r.covers 0x140 = false) ∧
    (∃ r ∈ (footprint (.eaxSeal 3 1 0) sealing).reads ++ (footprint (.eaxSeal 3 1 0) sealing).writes,
      r.overlaps ⟨0x404, 2⟩ = true) ∧
    (∃ r ∈ (footprint (.eaxSeal 3 1 0) sealing).reads ++ (footprint (.eaxSeal 3 1 0) sealing).writes,
      r.overlaps ⟨0x140, 1⟩ = true) ∧
    (∃ r ∈ (footprint (.eaxSeal 3 1 0) sealing).writes, r.covers 0x400 = true) ∧
    fresh.running = none := by decide

end Tests
end

/-! SUPPORT. The sequencers (R257, R258, R311, R358) against the one transition of R12, and the dispatch of a step (R464): every
command ends; what each phase does; what the buffers hold at a writing phase; the statements O55 and O5. -/

namespace Sys2Proof.Machine

/-! ### Every command completes (R12, R41) -/

/-- The outcome is the completion, with some code, of the command that ran in s (R41). -/
def Ends (s : State) (o : Outcome) : Prop := ∃ c t, o = .next t ∧ Completed c s t

theorem ends_finish {c : Code} {s u : State} (h : Completed c s (u.complete c)) : Ends s (finish c u) := ⟨c, _, rfl, h⟩

/-- Bus accesses before an ending do not matter to it. -/
theorem Ends.of_log {s : State} {o : Outcome} {l : List BusAccess} (h : Ends (s.log l) o) : Ends s o := by
  obtain ⟨c, t, ho, ht⟩ := h
  exact ⟨c, t, ho, ht.err, ht.done, ht.running, ht.phase, ht.work, ht.irqEn, ht.ovr, ht.lastop, ht.sivAccel, ht.platform,
    ht.moves, ht.readData, ht.free⟩

theorem ends_ctResult (rd : Reg) (v : Word) (s : State) : Ends s (ctResult rd v s) :=
  ends_finish ((Completed.complete _ s).setReg rd v)

theorem ends_finishSeal (rd : Reg) (o : AeadOps) (out tagRegion : Bytes) (count : Nat) (s : State) :
    Ends s (finishSeal rd o out tagRegion count s) :=
  ends_finish ((((Completed.complete _ s).memWrite _ _).memWrite _ _).setReg _ _)

theorem ends_finishOpen (rd : Reg) (o : AeadOps) (out : Bytes) (s : State) : Ends s (finishOpen rd o out s) :=
  ends_finish (((Completed.complete _ s).memWrite _ _).setReg _ _)

theorem ends_execCtMemcmp (rd rs1 rs2 rs3 : Reg) (s : State) : Ends s (execCtMemcmp rd rs1 rs2 rs3 s) := by
  unfold execCtMemcmp
  dsimp only
  split
  · exact ends_finish (((Completed.complete _ s).log _).setReg _ _)
  · exact ends_finish (.complete _ s)

theorem ends_execCtCmxor (rd rs1 rs2 rs3 : Reg) (s : State) : Ends s (execCtCmxor rd rs1 rs2 rs3 s) := by
  unfold execCtCmxor
  dsimp only
  split
  · obtain ⟨m, l, h⟩ := cmxorBytes_same (s.regNat rs2) (s.regNat rd) (s.regNat rs1) (trunc8 (s.reg rs3)) s
    rw [h]
    exact ends_finish (.of_complete rfl rfl rfl rfl rfl rfl rfl rfl)
  · exact ends_finish (.complete _ s)

theorem ends_execRecRmpad (rd rs : Reg) (s : State) : Ends s (execRecRmpad rd rs s) := by
  rcases execRecRmpad_cases rd rs s with ⟨-, h⟩ | ⟨-, -, h⟩ | ⟨-, -, h⟩
  · rw [h]; exact ends_finish (.complete _ s)
  · rw [h]; exact ends_finish (.complete _ s)
  · rcases h _ rfl with ⟨-, h⟩ | ⟨-, -, h⟩ | ⟨-, -, h⟩
    · rw [h]; exact ends_finish ((Completed.complete _ s).logRead _ _)
    · rw [h]; exact ends_finish ((Completed.complete _ s).logRead _ _)
    · rw [h _ rfl]
      exact ends_finish (((((Completed.complete _ s).logRead _ _).log _).setReg _ _).setReg _ _)

theorem ends_execRecXmac (rs : Reg) (s : State) : Ends s (execRecXmac rs s) := by
  rcases execRecXmac_cases rs s with ⟨-, h⟩ | ⟨-, c, -, h⟩ | ⟨-, -, h⟩
  · rw [h]; exact ends_finish (.complete _ s)
  · rw [h]; exact ends_finish ((Completed.complete _ s).logRead _ _)
  · rw [h _ rfl _ rfl _ rfl]
    exact ends_finish (((((Completed.complete _ s).logRead _ _).logRead _ _).setWork _).memWrite _ _)

theorem ends_initRun (f : Family) (rs : Reg) (ctx : Ctx) (mk : Alg → Nat → Bytes → Slot) (s : State) :
    Ends s (initRun f rs ctx mk s) := by
  rcases initRun_cases f rs ctx mk s with ⟨-, h⟩ | ⟨-, c, -, h⟩ | ⟨-, alg, -, h⟩
  · rw [h]; exact ends_finish (.complete _ s)
  · rw [h]; exact ends_finish ((Completed.complete _ s).logRead _ _)
  · rw [h]; exact ends_finish ((((Completed.complete _ s).logRead _ _).logRead _ _).setSlot _ _)

/-- A SEAL, SEALX or OPEN ends when its family's part after the prologue does. -/
theorem ends_aeadRun (f : Family) (k : Kind) (rs : Reg) (ctx : Ctx) {body : Slot → Work → State → Outcome} (s : State)
    (hb : ∀ sl d u, Ends u (body sl d u)) : Ends s (aeadRun f k rs ctx body s) := by
  rcases aeadRun_cases f k rs ctx body s with ⟨-, h⟩ | ⟨-, c, -, h⟩ | ⟨-, -, h⟩
  · rw [h]; exact ends_finish (.complete _ s)
  · rw [h]; exact ends_finish ((Completed.complete _ s).logRead _ _)
  · rw [h]; exact (hb _ _ _).of_log.of_log

theorem ends_eaxOpenBody (rd : Reg) (sl : Slot) (d : Work) (s : State) : Ends s (eaxOpenBody rd sl d s) := by
  unfold eaxOpenBody
  split
  · exact ends_finish (.complete _ s)
  · exact ends_finishOpen rd _ _ s

theorem ends_sivOpenBody (rd : Reg) (sl : Slot) (d : Work) (s : State) : Ends s (sivOpenBody rd sl d s) := by
  unfold sivOpenBody
  dsimp only
  split
  · exact ends_finish ((Completed.complete _ s).memWrite _ _)
  · exact ends_finishOpen rd _ _ s

theorem ends_ccpOpenBody (rd : Reg) (sl : Slot) (d : Work) (s : State) : Ends s (ccpOpenBody rd sl d s) := by
  unfold ccpOpenBody
  split
  · exact ends_finish (.complete _ s)
  · exact ends_finishOpen rd _ _ s

/-- The one transition of R12 completes its command, whatever the command and the state. -/
theorem exec_ends (i : Instr) (s : State) : Ends s (exec i s) := by
  cases i with
  | nop => exact ends_finish (.complete _ s)
  | ctMsb rd rs1 => exact ends_ctResult rd _ s
  | ctIszero rd rs1 => exact ends_ctResult rd _ s
  | ctEq rd rs1 rs2 => exact ends_ctResult rd _ s
  | ctLt rd rs1 rs2 => exact ends_ctResult rd _ s
  | ctGe rd rs1 rs2 => exact ends_ctResult rd _ s
  | ctLe rd rs1 rs2 => exact ends_ctResult rd _ s
  | ctGt rd rs1 rs2 => exact ends_ctResult rd _ s
  | ctSel rd rs1 rs2 rs3 => exact ends_ctResult rd _ s
  | ctMsb8 rd rs1 => exact ends_ctResult rd _ s
  | ctIszero8 rd rs1 => exact ends_ctResult rd _ s
  | ctEq8 rd rs1 rs2 => exact ends_ctResult rd _ s
  | ctLt8 rd rs1 rs2 => exact ends_ctResult rd _ s
  | ctGe8 rd rs1 rs2 => exact ends_ctResult rd _ s
  | ctLe8 rd rs1 rs2 => exact ends_ctResult rd _ s
  | ctGt8 rd rs1 rs2 => exact ends_ctResult rd _ s
  | ctSel8 rd rs1 rs2 rs3 => exact ends_ctResult rd _ s
  | ctMemcmp rd rs1 rs2 rs3 => exact ends_execCtMemcmp rd rs1 rs2 rs3 s
  | ctCmxor rd rs1 rs2 rs3 => exact ends_execCtCmxor rd rs1 rs2 rs3 s
  | recRmpad rd rs => exact ends_execRecRmpad rd rs s
  | recXmac rs => exact ends_execRecXmac rs s
  | aeadCleanup ctx => exact ends_finish ((Completed.complete _ s).setSlot ctx _)
  | eaxInit rs ctx => exact ends_initRun .eax rs ctx _ s
  | sivInit rs ctx => exact ends_initRun .siv rs ctx _ s
  | ccpInit rs ctx => exact ends_initRun .ccp rs ctx _ s
  | eaxSeal rd rs ctx => exact ends_aeadRun .eax .sealing rs ctx s fun _ _ _ => ends_finishSeal ..
  | eaxOpen rd rs ctx => exact ends_aeadRun .eax .opening rs ctx s (ends_eaxOpenBody rd)
  | sivSeal rd rs ctx => exact ends_aeadRun .siv .sealing rs ctx s fun _ _ _ => ends_finishSeal ..
  | sivOpen rd rs ctx => exact ends_aeadRun .siv .opening rs ctx s (ends_sivOpenBody rd)
  | ccpSeal rd rs ctx => exact ends_aeadRun .ccp .sealing rs ctx s fun _ _ _ => ends_finishSeal ..
  | ccpSealx rd rs ctx => exact ends_aeadRun .ccp .sealingX rs ctx s fun _ _ _ => ends_finishSeal ..
  | ccpOpen rd rs ctx => exact ends_aeadRun .ccp .opening rs ctx s (ends_ccpOpenBody rd)

/-! ### Running phases -/

@[simp] theorem setPhase_setPhase (s : State) (p q : Phase) (d e : Work) :
    (s.setPhase p d).setPhase q e = s.setPhase q e := rfl

section
variable {s u : State} {w : Word32} {i : Instr} {c : AeadCommand}

/-- A phase that ends the command is the last one. -/
theorem runTicks_last {o : Outcome} (n : Nat) (hr : s.running = some w) (h : engineTick s = o) (ho : Ends s o) :
    runTicks (n + 1) s = o := by
  obtain ⟨e, t, rfl, ht⟩ := ho
  rw [runTicks_succ n (by simp [hr]) h, runTicks_of_idle n ht.running]

/-- A phase that does no more than go on, on the buffers d. -/
theorem runTicks_setPhase {p q : Phase} {d e : Work} (n : Nat) (hr : u.running = some w) (hd : decode w = .ok i)
    (hc : sequenced i = some c) (hp : phaseTick c (u.setPhase p d) = some ((u.setPhase p d).goTo q e)) :
    runTicks (n + 1) (u.setPhase p d) = runTicks n (u.setPhase q e) :=
  runTicks_goTo n hr hd hc hp

/-- A phase that ends the command, on the buffers d. -/
theorem runTicks_setPhase_last {p : Phase} {d : Work} {o : Outcome} (n : Nat) (hr : u.running = some w)
    (h : engineTick (u.setPhase p d) = o) (ho : Ends (u.setPhase p d) o) : runTicks (n + 1) (u.setPhase p d) = o :=
  runTicks_last n hr h ho

/-- A command whose phases after the prologue do what its `body` does refines `body` after the prologue (R206). -/
theorem runTicks_prologue {f : Family} {k : Kind} {rd rs : Reg} {ctx : Ctx} {body : Slot → Work → State → Outcome}
    {p : Phase} (n : Nat) (hr : s.running = some w) (hd : decode w = .ok i) (hc : sequenced i = some ⟨f, k, rd, rs, ctx⟩)
    (hp : phaseTick ⟨f, k, rd, rs, ctx⟩ s = some (prologueTick ⟨f, k, rd, rs, ctx⟩ p s))
    (hb : ∀ u, u.running = some w → runTicks n (u.setPhase p (s.snapshot rs k)) = body (u.slot ctx) (s.snapshot rs k) u) :
    runTicks (n + 1) s = aeadRun f k rs ctx body s := by
  rcases prologueTick_cases ⟨f, k, rd, rs, ctx⟩ p body s with ⟨code, u, h, h', -⟩ | ⟨-, h⟩
  · rw [h, finish] at hp
    rw [h', runTicks_finish n hr hd hc hp rfl, finish]
  · obtain ⟨h, h'⟩ := h _ rfl
    rw [h] at hp
    rw [h', runTicks_goTo n hr hd hc hp]
    exact hb _ hr

/-- A command without a sequencer is one phase. -/
theorem runTicks_of_unsequenced (n : Nat) (hr : s.running = some w) (hd : decode w = .ok i) (hc : sequenced i = none) :
    runTicks (n + 1) s = exec i s :=
  runTicks_last n hr (engineTick_of_unsequenced hr hd hc) (exec_ends i s)

end

/-! ### The phases of R257 and R258 (EAX) -/

section
variable {s u : State} {w : Word32} {rd rs : Reg} {ctx : Ctx}

theorem phaseTick_s1 (u : State) (d : Work) : phaseTick ⟨.eax, .sealing, rd, rs, ctx⟩ (u.setPhase .s1 d) =
    some ((u.setPhase .s1 d).goTo .s2 { d with omacN := slotOmac (u.slot ctx) 0 d.nonce }) := rfl

theorem phaseTick_s2 (u : State) (d : Work) : phaseTick ⟨.eax, .sealing, rd, rs, ctx⟩ (u.setPhase .s2 d) =
    some ((u.setPhase .s2 d).goTo .s3 { d with omacH := slotOmac (u.slot ctx) 1 d.ad }) := rfl

theorem phaseTick_s3 (u : State) (d : Work) : phaseTick ⟨.eax, .sealing, rd, rs, ctx⟩ (u.setPhase .s3 d) =
    some ((u.setPhase .s3 d).goTo .s4 { d with
      out := eaxCtr (slotEnc (u.slot ctx)) d.omacN d.inp
      omacC := slotOmac (u.slot ctx) 2 (eaxCtr (slotEnc (u.slot ctx)) d.omacN d.inp) }) := rfl

theorem phaseTick_s4 (u : State) (d : Work) : phaseTick ⟨.eax, .sealing, rd, rs, ctx⟩ (u.setPhase .s4 d) =
    some ((u.setPhase .s4 d).goTo .s5 { d with tag := xorBytes (xorBytes d.omacC d.omacN) d.omacH }) := rfl

theorem phaseTick_o1 (u : State) (d : Work) : phaseTick ⟨.eax, .opening, rd, rs, ctx⟩ (u.setPhase .o1 d) =
    some ((u.setPhase .o1 d).goTo .o2 { d with omacN := slotOmac (u.slot ctx) 0 d.nonce }) := rfl

theorem phaseTick_o2 (u : State) (d : Work) : phaseTick ⟨.eax, .opening, rd, rs, ctx⟩ (u.setPhase .o2 d) =
    some ((u.setPhase .o2 d).goTo .o3 { d with omacH := slotOmac (u.slot ctx) 1 d.ad }) := rfl

theorem phaseTick_o3 (u : State) (d : Work) : phaseTick ⟨.eax, .opening, rd, rs, ctx⟩ (u.setPhase .o3 d) =
    some ((u.setPhase .o3 d).goTo .o4 { d with omacC := slotOmac (u.slot ctx) 2 d.inp }) := rfl

/-- S5 writes the ciphertext and tag buffers. -/
theorem engineTick_s5 (hr : s.running = some w) (hd : decode w = .ok (.eaxSeal rd rs ctx)) (hp : s.phase = .s5) :
    engineTick s = finishSeal rd s.work.ops s.work.out s.work.tag 16 s :=
  engineTick_of_phase hr hd rfl (by simp only [phaseTick, eaxSealTick, hp])

/-- O4 compares the tags (R258). -/
theorem engineTick_o4 (hr : s.running = some w) (hd : decode w = .ok (.eaxOpen rd rs ctx)) (hp : s.phase = .o4) :
    engineTick s =
      if memcmpBytes (xorBytes (xorBytes s.work.omacC s.work.omacN) s.work.omacH) s.work.recv = 0 then
        s.goTo .o5 { s.work with tag := xorBytes (xorBytes s.work.omacC s.work.omacN) s.work.omacH }
      else finish .authFail s :=
  engineTick_of_phase hr hd rfl (by simp only [phaseTick, eaxOpenTick, hp])

/-- O5 decrypts the input buffer. -/
theorem engineTick_o5 (hr : s.running = some w) (hd : decode w = .ok (.eaxOpen rd rs ctx)) (hp : s.phase = .o5) :
    engineTick s = finishOpen rd s.work.ops (eaxCtr (slotEnc (s.slot ctx)) s.work.omacN s.work.inp) s :=
  engineTick_of_phase hr hd rfl (by simp only [phaseTick, eaxOpenTick, hp])

/-- The buffers at S5 of an EAX.SEAL with snapshot d (R257). -/
theorem runTicks_eaxSeal_s5 (n : Nat) (hr : u.running = some w) (hd : decode w = .ok (.eaxSeal rd rs ctx)) (d : Work) :
    ∃ e, runTicks (n + 4) (u.setPhase .s1 d) = runTicks n (u.setPhase .s5 e) ∧ e.ops = d.ops ∧
      e.out = eaxCtr (slotEnc (u.slot ctx)) (slotOmac (u.slot ctx) 0 d.nonce) d.inp ∧
      e.tag = eaxTag (u.slot ctx) d.nonce d.ad e.out :=
  ⟨_, calc runTicks (n + 4) (u.setPhase .s1 d)
      _ = runTicks (n + 3) (u.setPhase .s2 _) := runTicks_setPhase _ hr hd rfl (phaseTick_s1 u _)
      _ = runTicks (n + 2) (u.setPhase .s3 _) := runTicks_setPhase _ hr hd rfl (phaseTick_s2 u _)
      _ = runTicks (n + 1) (u.setPhase .s4 _) := runTicks_setPhase _ hr hd rfl (phaseTick_s3 u _)
      _ = runTicks n (u.setPhase .s5 _) := runTicks_setPhase _ hr hd rfl (phaseTick_s4 u _),
    rfl, rfl, rfl⟩

/-- The buffers at O4 of an EAX.OPEN with snapshot d (R258). -/
theorem runTicks_eaxOpen_o4 (n : Nat) (hr : u.running = some w) (hd : decode w = .ok (.eaxOpen rd rs ctx)) (d : Work) :
    ∃ e, runTicks (n + 3) (u.setPhase .o1 d) = runTicks n (u.setPhase .o4 e) ∧ e.ops = d.ops ∧ e.inp = d.inp ∧
      e.recv = d.recv ∧ e.omacN = slotOmac (u.slot ctx) 0 d.nonce ∧
      xorBytes (xorBytes e.omacC e.omacN) e.omacH = eaxTag (u.slot ctx) d.nonce d.ad d.inp :=
  ⟨_, calc runTicks (n + 3) (u.setPhase .o1 d)
      _ = runTicks (n + 2) (u.setPhase .o2 _) := runTicks_setPhase _ hr hd rfl (phaseTick_o1 u _)
      _ = runTicks (n + 1) (u.setPhase .o3 _) := runTicks_setPhase _ hr hd rfl (phaseTick_o2 u _)
      _ = runTicks n (u.setPhase .o4 _) := runTicks_setPhase _ hr hd rfl (phaseTick_o3 u _),
    rfl, rfl, rfl, rfl, rfl⟩

/-- From S1 on, EAX.SEAL's phases do what it does after its prologue (R255). -/
theorem runTicks_eaxSealBody (n : Nat) (hr : u.running = some w) (hd : decode w = .ok (.eaxSeal rd rs ctx)) (d : Work) :
    runTicks (n + 5) (u.setPhase .s1 d) = eaxSealBody rd (u.slot ctx) d u := by
  obtain ⟨e, hrun, hops, hout, htag⟩ := runTicks_eaxSeal_s5 (n + 1) hr hd d
  rw [hrun, runTicks_setPhase_last (p := .s5) n hr (engineTick_s5 hr hd rfl) (ends_finishSeal ..)]
  simp only [setPhase_work, hops, htag, hout]
  rfl

/-- From O1 on, EAX.OPEN's phases do what it does after its prologue (R256). -/
theorem runTicks_eaxOpenBody (n : Nat) (hr : u.running = some w) (hd : decode w = .ok (.eaxOpen rd rs ctx)) (d : Work) :
    runTicks (n + 5) (u.setPhase .o1 d) = eaxOpenBody rd (u.slot ctx) d u := by
  obtain ⟨e, hrun, hops, hinp, hrecv, hN, htag⟩ := runTicks_eaxOpen_o4 (n + 2) hr hd d
  have ho4 := engineTick_o4 (s := u.setPhase .o4 e) hr hd rfl
  simp only [setPhase_work, htag, hrecv] at ho4
  rw [hrun, eaxOpenBody]
  by_cases h : memcmpBytes (eaxTag (u.slot ctx) d.nonce d.ad d.inp) d.recv = 0
  · rw [if_pos h] at ho4
    rw [runTicks_succ (n + 1) (by simp [hr]) ho4, if_neg (not_not.mpr h), setPhase_setPhase,
      runTicks_setPhase_last (p := .o5) n hr (engineTick_o5 hr hd rfl) (ends_finishOpen ..)]
    simp only [setPhase_work, hops, hinp, hN]
    rfl
  · rw [if_neg h] at ho4
    rw [runTicks_setPhase_last (n + 1) hr ho4 (ends_finish (.complete _ _)), if_pos h]
    rfl

theorem runTicks_eaxSeal (hr : s.running = some w) (hd : decode w = .ok (.eaxSeal rd rs ctx)) (hp : s.phase = .s0) :
    runTicks 20 s = execEaxSeal rd rs ctx s :=
  runTicks_prologue 19 hr hd rfl (by simp only [phaseTick, eaxSealTick, hp]) fun _ hu => runTicks_eaxSealBody 14 hu hd _

theorem runTicks_eaxOpen (hr : s.running = some w) (hd : decode w = .ok (.eaxOpen rd rs ctx)) (hp : s.phase = .o0) :
    runTicks 20 s = execEaxOpen rd rs ctx s :=
  runTicks_prologue 19 hr hd rfl (by simp only [phaseTick, eaxOpenTick, hp]) fun _ hu => runTicks_eaxOpenBody 14 hu hd _

end

/-! ### The phases of R358 (ChaCha20-Poly1305) -/

theorem pad16_length_mod (bs : Bytes) : (pad16 bs).length % 16 = 0 := by
  simp only [pad16, List.length_append, zeros_length]
  omega

/-- Padding after a string of whole blocks pads what follows it. -/
theorem pad16_append {a : Bytes} (b : Bytes) (h : a.length % 16 = 0) : pad16 (a ++ b) = a ++ pad16 b := by
  have hmod : (a.length + b.length) % 16 = b.length % 16 := by omega
  simp only [pad16, List.length_append, hmod, List.append_assoc]

/-- The MAC of what Q2 to Q5 absorb: the padded AAD, a ciphertext c of n bytes padded with it, the two lengths (R353, R358). -/
theorem poly1305_absorbed (sl : Slot) (nonce a c : Bytes) {n : Nat} (h : c.length = n) :
    (poly1305 (ccpPolyKey sl.key nonce) (pad16 (pad16 a ++ c) ++ leBytes 8 a.length ++ leBytes 8 n)).take sl.tagLen =
      ccpMac sl nonce a c := by
  rw [pad16_append c (pad16_length_mod a), ← h]
  rfl

theorem snapshot_extra_of_sealing (s : State) (rs : Reg) : (s.snapshot rs .sealing).extra = [] := rfl
theorem snapshot_extra_of_opening (s : State) (rs : Reg) : (s.snapshot rs .opening).extra = [] := rfl
theorem snapshot_xout (s : State) (rs : Reg) (k : Kind) : (s.snapshot rs k).xout = [] := rfl
theorem snapshot_mat (s : State) (rs : Reg) (k : Kind) : (s.snapshot rs k).mat = [] := rfl
theorem aeadOps_extraLen_of_sealing (s : State) (rs : Reg) : (s.aeadOps rs .sealing).extraLen = 0 := rfl

/-- The ciphertext, or for OPEN the plaintext, of a ChaCha20-Poly1305 command with snapshot d (R355 to R357). -/
def Work.ccpText (d : Work) (sl : Slot) : Bytes := xorBytes d.inp (ccpKeystream sl.key d.nonce 0 d.ops.inLen)

/-- The trailer ciphertext of a CCP.SEALX with snapshot d (R356). -/
def Work.ccpTrailer (d : Work) (sl : Slot) : Bytes :=
  xorBytes d.extra (ccpKeystream sl.key d.nonce d.ops.inLen d.ops.extraLen)

theorem ccpText_length {d : Work} (sl : Slot) (h : d.inp.length = d.ops.inLen) : (d.ccpText sl).length = d.inp.length := by
  simp [Work.ccpText, h]

theorem ccpTrailer_length {d : Work} (sl : Slot) (h : d.extra.length = d.ops.extraLen) :
    (d.ccpTrailer sl).length = d.extra.length := by
  simp [Work.ccpTrailer, h]

section
variable {s u : State} {w : Word32} {rd rs : Reg} {ctx : Ctx}

theorem phaseTick_q1 (k : Kind) (u : State) (d : Work) : phaseTick ⟨.ccp, k, rd, rs, ctx⟩ (u.setPhase .q1 d) =
    some ((u.setPhase .q1 d).goTo .q2 { d with polyKey := ccpPolyKey (u.slot ctx).key d.nonce }) := rfl

theorem phaseTick_q2 (k : Kind) (u : State) (d : Work) : phaseTick ⟨.ccp, k, rd, rs, ctx⟩ (u.setPhase .q2 d) =
    some ((u.setPhase .q2 d).goTo .q3 { d with macIn := pad16 d.ad }) := rfl

/-- Q3 of OPEN absorbs the input. -/
theorem phaseTick_q3_opening {k : Kind} (hk : k = .opening) (u : State) (d : Work) :
    phaseTick ⟨.ccp, k, rd, rs, ctx⟩ (u.setPhase .q3 d) =
      some ((u.setPhase .q3 d).goTo .q4 { d with macIn := d.macIn ++ d.inp }) := if_pos hk

/-- Q3 of SEAL and SEALX encrypts, and absorbs the ciphertext. -/
theorem phaseTick_q3 {k : Kind} (hk : k ≠ .opening) (u : State) (d : Work) :
    phaseTick ⟨.ccp, k, rd, rs, ctx⟩ (u.setPhase .q3 d) = some ((u.setPhase .q3 d).goTo .q4 { d with
      out := d.ccpText (u.slot ctx), macIn := d.macIn ++ d.ccpText (u.slot ctx) }) := if_neg hk

/-- Q4 of SEALX encrypts the trailer, and absorbs its ciphertext. -/
theorem phaseTick_q4_sealingX {k : Kind} (hk : k = .sealingX) (u : State) (d : Work) :
    phaseTick ⟨.ccp, k, rd, rs, ctx⟩ (u.setPhase .q4 d) = some ((u.setPhase .q4 d).goTo .q5 { d with
      xout := d.ccpTrailer (u.slot ctx), macIn := d.macIn ++ d.ccpTrailer (u.slot ctx) }) :=
  if_pos hk

theorem phaseTick_q4 {k : Kind} (hk : k ≠ .sealingX) (u : State) (d : Work) :
    phaseTick ⟨.ccp, k, rd, rs, ctx⟩ (u.setPhase .q4 d) = some ((u.setPhase .q4 d).goTo .q5 d) := if_neg hk

theorem phaseTick_q5_opening {k : Kind} (hk : k = .opening) (u : State) (d : Work) :
    phaseTick ⟨.ccp, k, rd, rs, ctx⟩ (u.setPhase .q5 d) =
    some ((u.setPhase .q5 d).goTo .q7 { d with
      macIn := pad16 d.macIn ++ leBytes 8 d.ad.length ++ leBytes 8 (d.inp.length + d.extra.length)
      tag := (poly1305 d.polyKey (pad16 d.macIn ++ leBytes 8 d.ad.length ++
        leBytes 8 (d.inp.length + d.extra.length))).take (u.slot ctx).tagLen }) := by
  subst hk; rfl

theorem phaseTick_q5 {k : Kind} (hk : k ≠ .opening) (u : State) (d : Work) :
    phaseTick ⟨.ccp, k, rd, rs, ctx⟩ (u.setPhase .q5 d) =
    some ((u.setPhase .q5 d).goTo .q6 { d with
      macIn := pad16 d.macIn ++ leBytes 8 d.ad.length ++ leBytes 8 (d.inp.length + d.extra.length)
      tag := (poly1305 d.polyKey (pad16 d.macIn ++ leBytes 8 d.ad.length ++
        leBytes 8 (d.inp.length + d.extra.length))).take (u.slot ctx).tagLen }) := by
  rw [← if_neg (c := k = .opening) (t := Phase.q7) (e := Phase.q6) hk]; rfl

/-- Q6 of CCP.SEAL and CCP.SEALX writes the ciphertext buffer and the tag region's buffers. -/
theorem engineTick_q6 {i : Instr} {k : Kind} (hr : s.running = some w) (hd : decode w = .ok i)
    (hc : sequenced i = some ⟨.ccp, k, rd, rs, ctx⟩) (hp : s.phase = .q6) :
    engineTick s = finishSeal rd s.work.ops s.work.out (s.work.xout ++ s.work.tag)
      (s.work.ops.extraLen + (s.slot ctx).tagLen) s :=
  engineTick_of_phase hr hd hc (by simp only [phaseTick, ccpTick, hp])

/-- Q7 compares the tags (R358). -/
theorem engineTick_q7 (hr : s.running = some w) (hd : decode w = .ok (.ccpOpen rd rs ctx)) (hp : s.phase = .q7) :
    engineTick s = if memcmpBytes s.work.tag s.work.recv = 0 then s.goTo .q8 s.work else finish .authFail s :=
  engineTick_of_phase hr hd rfl (by simp only [phaseTick, ccpTick, hp])

/-- Q8 decrypts the input buffer. -/
theorem engineTick_q8 (hr : s.running = some w) (hd : decode w = .ok (.ccpOpen rd rs ctx)) (hp : s.phase = .q8) :
    engineTick s = finishOpen rd s.work.ops (s.work.ccpText (s.slot ctx)) s :=
  engineTick_of_phase hr hd rfl (by simp only [phaseTick, ccpTick, hp, Work.ccpText])

/-- The buffers at Q6 of a CCP.SEAL (R358). -/
theorem runTicks_ccpSeal_q6 (n : Nat) (hr : u.running = some w) (hd : decode w = .ok (.ccpSeal rd rs ctx)) {d : Work}
    (hinp : d.inp.length = d.ops.inLen) (hextra : d.extra = []) :
    ∃ e, runTicks (n + 5) (u.setPhase .q1 d) = runTicks n (u.setPhase .q6 e) ∧ e.ops = d.ops ∧ e.xout = d.xout ∧
      e.out = d.ccpText (u.slot ctx) ∧
      e.tag = ccpMac (u.slot ctx) d.nonce d.ad (d.ccpText (u.slot ctx)) :=
  ⟨_, calc runTicks (n + 5) (u.setPhase .q1 d)
      _ = runTicks (n + 4) (u.setPhase .q2 _) := runTicks_setPhase _ hr hd rfl (phaseTick_q1 _ u _)
      _ = runTicks (n + 3) (u.setPhase .q3 _) := runTicks_setPhase _ hr hd rfl (phaseTick_q2 _ u _)
      _ = runTicks (n + 2) (u.setPhase .q4 _) := runTicks_setPhase _ hr hd rfl (phaseTick_q3 (by decide) u _)
      _ = runTicks (n + 1) (u.setPhase .q5 _) := runTicks_setPhase _ hr hd rfl (phaseTick_q4 (by decide) u _)
      _ = runTicks n (u.setPhase .q6 _) := runTicks_setPhase _ hr hd rfl (phaseTick_q5 (by decide) u _),
    rfl, rfl, rfl, poly1305_absorbed (u.slot ctx) d.nonce d.ad (d.ccpText (u.slot ctx))
      (by rw [ccpText_length _ hinp, hextra, List.length_nil, Nat.add_zero])⟩

/-- The buffers at Q6 of a CCP.SEALX (R358). -/
theorem runTicks_ccpSealx_q6 (n : Nat) (hr : u.running = some w) (hd : decode w = .ok (.ccpSealx rd rs ctx)) {d : Work}
    (hinp : d.inp.length = d.ops.inLen) (hextra : d.extra.length = d.ops.extraLen) :
    ∃ e, runTicks (n + 5) (u.setPhase .q1 d) = runTicks n (u.setPhase .q6 e) ∧ e.ops = d.ops ∧
      e.out = d.ccpText (u.slot ctx) ∧
      e.xout = d.ccpTrailer (u.slot ctx) ∧
      e.tag = ccpMac (u.slot ctx) d.nonce d.ad (d.ccpText (u.slot ctx) ++ d.ccpTrailer (u.slot ctx)) :=
  ⟨_, calc runTicks (n + 5) (u.setPhase .q1 d)
      _ = runTicks (n + 4) (u.setPhase .q2 _) := runTicks_setPhase _ hr hd rfl (phaseTick_q1 _ u _)
      _ = runTicks (n + 3) (u.setPhase .q3 _) := runTicks_setPhase _ hr hd rfl (phaseTick_q2 _ u _)
      _ = runTicks (n + 2) (u.setPhase .q4 _) := runTicks_setPhase _ hr hd rfl (phaseTick_q3 (by decide) u _)
      _ = runTicks (n + 1) (u.setPhase .q5 _) := runTicks_setPhase _ hr hd rfl (phaseTick_q4_sealingX rfl u _)
      _ = runTicks n (u.setPhase .q6 _) := runTicks_setPhase _ hr hd rfl (phaseTick_q5 (by decide) u _),
    rfl, rfl, rfl, by
      have hlen : (d.ccpText (u.slot ctx) ++ d.ccpTrailer (u.slot ctx)).length = d.inp.length + d.extra.length := by
        rw [List.length_append, ccpText_length _ hinp, ccpTrailer_length _ hextra]
      have hmac := poly1305_absorbed (u.slot ctx) d.nonce d.ad _ hlen
      rw [← List.append_assoc] at hmac
      exact hmac⟩

/-- The buffers at Q7 of a CCP.OPEN (R358). -/
theorem runTicks_ccpOpen_q7 (n : Nat) (hr : u.running = some w) (hd : decode w = .ok (.ccpOpen rd rs ctx)) {d : Work}
    (hextra : d.extra = []) :
    ∃ e, runTicks (n + 5) (u.setPhase .q1 d) = runTicks n (u.setPhase .q7 e) ∧ e.ops = d.ops ∧ e.inp = d.inp ∧
      e.nonce = d.nonce ∧ e.recv = d.recv ∧ e.tag = ccpMac (u.slot ctx) d.nonce d.ad d.inp :=
  ⟨_, calc runTicks (n + 5) (u.setPhase .q1 d)
      _ = runTicks (n + 4) (u.setPhase .q2 _) := runTicks_setPhase _ hr hd rfl (phaseTick_q1 _ u _)
      _ = runTicks (n + 3) (u.setPhase .q3 _) := runTicks_setPhase _ hr hd rfl (phaseTick_q2 _ u _)
      _ = runTicks (n + 2) (u.setPhase .q4 _) := runTicks_setPhase _ hr hd rfl (phaseTick_q3_opening rfl u _)
      _ = runTicks (n + 1) (u.setPhase .q5 _) := runTicks_setPhase _ hr hd rfl (phaseTick_q4 (by decide) u _)
      _ = runTicks n (u.setPhase .q7 _) := runTicks_setPhase _ hr hd rfl (phaseTick_q5_opening rfl u _),
    rfl, rfl, rfl, rfl, poly1305_absorbed (u.slot ctx) d.nonce d.ad d.inp (by rw [hextra, List.length_nil, Nat.add_zero])⟩

/-- From Q1 on, CCP.SEAL's phases do what it does after its prologue (R355). -/
theorem runTicks_ccpSealBody (n : Nat) (hr : u.running = some w) (hd : decode w = .ok (.ccpSeal rd rs ctx)) {d : Work}
    (hinp : d.inp.length = d.ops.inLen) (hextra : d.extra = []) (hlen : d.ops.extraLen = 0) (hxout : d.xout = []) :
    runTicks (n + 6) (u.setPhase .q1 d) = ccpSealBody rd (u.slot ctx) d u := by
  obtain ⟨e, hrun, hops, hx, hout, htag⟩ := runTicks_ccpSeal_q6 (n + 1) hr hd hinp hextra
  rw [hrun, runTicks_setPhase_last (p := .q6) n hr (engineTick_q6 hr hd rfl rfl) (ends_finishSeal ..)]
  simp only [setPhase_work, hops, hx, hxout, hlen, htag, hout, List.nil_append, Nat.zero_add]
  rfl

/-- From Q1 on, CCP.SEALX's phases do what it does after its prologue (R356). -/
theorem runTicks_ccpSealxBody (n : Nat) (hr : u.running = some w) (hd : decode w = .ok (.ccpSealx rd rs ctx)) {d : Work}
    (hinp : d.inp.length = d.ops.inLen) (hextra : d.extra.length = d.ops.extraLen) :
    runTicks (n + 6) (u.setPhase .q1 d) = ccpSealxBody rd (u.slot ctx) d u := by
  obtain ⟨e, hrun, hops, hout, hx, htag⟩ := runTicks_ccpSealx_q6 (n + 1) hr hd hinp hextra
  rw [hrun, runTicks_setPhase_last (p := .q6) n hr (engineTick_q6 hr hd rfl rfl) (ends_finishSeal ..)]
  simp only [setPhase_work, hops, htag, hx, hout]
  rfl

/-- From Q1 on, CCP.OPEN's phases do what it does after its prologue (R357). -/
theorem runTicks_ccpOpenBody (n : Nat) (hr : u.running = some w) (hd : decode w = .ok (.ccpOpen rd rs ctx)) {d : Work}
    (hextra : d.extra = []) : runTicks (n + 7) (u.setPhase .q1 d) = ccpOpenBody rd (u.slot ctx) d u := by
  obtain ⟨e, hrun, hops, hinp, hnonce, hrecv, htag⟩ := runTicks_ccpOpen_q7 (n + 2) hr hd hextra
  have hq7 := engineTick_q7 (s := u.setPhase .q7 e) hr hd rfl
  simp only [setPhase_work, htag, hrecv] at hq7
  rw [hrun, ccpOpenBody]
  by_cases h : memcmpBytes (ccpMac (u.slot ctx) d.nonce d.ad d.inp) d.recv = 0
  · rw [if_pos h] at hq7
    rw [runTicks_succ (n + 1) (by simp [hr]) hq7, if_neg (not_not.mpr h), setPhase_setPhase,
      runTicks_setPhase_last (p := .q8) n hr (engineTick_q8 hr hd rfl) (ends_finishOpen ..)]
    simp only [setPhase_work, Work.ccpText, hops, hinp, hnonce]
    rfl
  · rw [if_neg h] at hq7
    rw [runTicks_setPhase_last (n + 1) hr hq7 (ends_finish (.complete _ _)), if_pos h]
    rfl

theorem runTicks_ccpSeal (hr : s.running = some w) (hd : decode w = .ok (.ccpSeal rd rs ctx)) (hp : s.phase = .q0) :
    runTicks 20 s = execCcpSeal rd rs ctx s :=
  runTicks_prologue 19 hr hd rfl (by simp only [phaseTick, ccpTick, hp]) fun _ hu =>
    runTicks_ccpSealBody 13 hu hd (snapshot_inp_length s rs _) (snapshot_extra_of_sealing s rs)
      (aeadOps_extraLen_of_sealing s rs) (snapshot_xout s rs _)

theorem runTicks_ccpSealx (hr : s.running = some w) (hd : decode w = .ok (.ccpSealx rd rs ctx)) (hp : s.phase = .q0) :
    runTicks 20 s = execCcpSealx rd rs ctx s :=
  runTicks_prologue 19 hr hd rfl (by simp only [phaseTick, ccpTick, hp]) fun _ hu =>
    runTicks_ccpSealxBody 13 hu hd (snapshot_inp_length s rs _) (snapshot_extra_length s rs)

theorem runTicks_ccpOpen (hr : s.running = some w) (hd : decode w = .ok (.ccpOpen rd rs ctx)) (hp : s.phase = .q0) :
    runTicks 20 s = execCcpOpen rd rs ctx s :=
  runTicks_prologue 19 hr hd rfl (by simp only [phaseTick, ccpTick, hp]) fun _ hu =>
    runTicks_ccpOpenBody 12 hu hd (snapshot_extra_of_opening s rs)

end

/-! ### The phases of R311 (GCM-SIV) -/

theorem kdfMat_succ (root nonce : Bytes) (i : Nat) :
    kdfMat root nonce (i + 1) = kdfMat root nonce i ++ kdfBlock root nonce i := by
  simp [kdfMat, List.range_succ]

theorem kdfCount_pos (alg : Alg) : 0 < kdfCount alg := by cases alg <;> decide

theorem kdfCount_le (alg : Alg) : kdfCount alg ≤ 6 := by cases alg <;> decide

/-- The buffers of a GCM-SIV command with snapshot d once i key-derivation blocks are there (R311). -/
def Work.withKdf (d : Work) (sl : Slot) (i : Nat) : Work := { d with mat := kdfMat sl.rawKey d.nonce i }

/-- The buffers of a GCM-SIV command with snapshot d after KA (R311). -/
def Work.withKeys (d : Work) (sl : Slot) : Work :=
  { d.withKdf sl (kdfCount sl.alg) with authKey := (sivKeys sl d.nonce).1, encKey := (sivKeys sl d.nonce).2 }

section
variable {s u : State} {w : Word32} {i : Instr} {k : Kind} {rd rs : Reg} {ctx : Ctx}

theorem phaseTick_kdf (j : Nat) (u : State) (d : Work) :
    phaseTick ⟨.siv, k, rd, rs, ctx⟩ (u.setPhase (.kdf j) (d.withKdf (u.slot ctx) j)) =
      some ((u.setPhase (.kdf j) (d.withKdf (u.slot ctx) j)).goTo
        (if j + 1 < kdfCount (u.slot ctx).alg then .kdf (j + 1) else .assemble) (d.withKdf (u.slot ctx) (j + 1))) := by
  simp only [Work.withKdf, kdfMat_succ]
  rfl

theorem phaseTick_assemble_opening (hk : k = .opening) (u : State) (d : Work) : phaseTick ⟨.siv, k, rd, rs, ctx⟩
    (u.setPhase .assemble (d.withKdf (u.slot ctx) (kdfCount (u.slot ctx).alg))) =
      some ((u.setPhase .assemble (d.withKdf (u.slot ctx) (kdfCount (u.slot ctx).alg))).goTo .counter
        (d.withKeys (u.slot ctx))) := by
  subst hk; rfl

theorem phaseTick_assemble (hk : k = .sealing) (u : State) (d : Work) : phaseTick ⟨.siv, k, rd, rs, ctx⟩
    (u.setPhase .assemble (d.withKdf (u.slot ctx) (kdfCount (u.slot ctx).alg))) =
      some ((u.setPhase .assemble (d.withKdf (u.slot ctx) (kdfCount (u.slot ctx).alg))).goTo .hash
        (d.withKeys (u.slot ctx))) := by
  subst hk; rfl

/-- H1 of OPEN hashes the candidate plaintext. -/
theorem phaseTick_hash_opening (hk : k = .opening) (u : State) (d : Work) :
    phaseTick ⟨.siv, k, rd, rs, ctx⟩ (u.setPhase .hash d) =
      some ((u.setPhase .hash d).goTo .preTag { d with hash := sivHash d.authKey d.ad d.out }) := by
  subst hk; rfl

/-- H1 of SEAL hashes the input. -/
theorem phaseTick_hash (hk : k = .sealing) (u : State) (d : Work) :
    phaseTick ⟨.siv, k, rd, rs, ctx⟩ (u.setPhase .hash d) =
      some ((u.setPhase .hash d).goTo .preTag { d with hash := sivHash d.authKey d.ad d.inp }) := by
  subst hk; rfl

theorem phaseTick_preTag (u : State) (d : Work) : phaseTick ⟨.siv, k, rd, rs, ctx⟩ (u.setPhase .preTag d) =
    some ((u.setPhase .preTag d).goTo .tag { d with hash := preTag d.hash d.nonce }) := rfl

theorem phaseTick_tag_opening (hk : k = .opening) (u : State) (d : Work) :
    phaseTick ⟨.siv, k, rd, rs, ctx⟩ (u.setPhase .tag d) =
      some ((u.setPhase .tag d).goTo .verify { d with tag := aesEnc d.encKey d.hash }) := by
  subst hk; rfl

theorem phaseTick_tag (hk : k = .sealing) (u : State) (d : Work) :
    phaseTick ⟨.siv, k, rd, rs, ctx⟩ (u.setPhase .tag d) =
      some ((u.setPhase .tag d).goTo .counter { d with tag := aesEnc d.encKey d.hash }) := by
  subst hk; rfl

/-- T3 of OPEN takes the counter block from the received tag. -/
theorem phaseTick_counter_opening (hk : k = .opening) (u : State) (d : Work) :
    phaseTick ⟨.siv, k, rd, rs, ctx⟩ (u.setPhase .counter d) =
      some ((u.setPhase .counter d).goTo .ctr { d with ctrBlock := ctrBlock0 d.recv }) := by
  subst hk; rfl

/-- T3 of SEAL takes the counter block from the computed tag. -/
theorem phaseTick_counter (hk : k = .sealing) (u : State) (d : Work) :
    phaseTick ⟨.siv, k, rd, rs, ctx⟩ (u.setPhase .counter d) =
      some ((u.setPhase .counter d).goTo .ctr { d with ctrBlock := ctrBlock0 d.tag }) := by
  subst hk; rfl

/-- X1 of SEAL writes the keystream applied to the input buffer, and the tag buffer. -/
theorem engineTick_ctr_seal (hr : s.running = some w) (hd : decode w = .ok (.sivSeal rd rs ctx)) (hp : s.phase = .ctr) :
    engineTick s = finishSeal rd s.work.ops (sivCtrFrom s.work.encKey s.work.ctrBlock s.work.inp) s.work.tag 16 s :=
  engineTick_of_phase hr hd rfl (by simp only [phaseTick, sivTick, hp, reduceCtorEq, if_false])

/-- X1 of OPEN writes the candidate plaintext and keeps it. -/
theorem engineTick_ctr_open (hr : s.running = some w) (hd : decode w = .ok (.sivOpen rd rs ctx)) (hp : s.phase = .ctr) :
    engineTick s = (s.memWrite s.work.ops.outAddr (sivCtrFrom s.work.encKey s.work.ctrBlock s.work.inp)).goTo .hash
      { s.work with out := sivCtrFrom s.work.encKey s.work.ctrBlock s.work.inp } :=
  engineTick_of_phase hr hd rfl (by simp only [phaseTick, sivTick, hp, if_true])

/-- V compares the tags (R311). -/
theorem engineTick_verify (hr : s.running = some w) (hd : decode w = .ok (.sivOpen rd rs ctx)) (hp : s.phase = .verify) :
    engineTick s = if memcmpBytes s.work.tag s.work.recv = 0 then
      finish .ok (s.setReg rd (BitVec.ofNat 64 s.work.ops.inLen)) else finish .authFail s :=
  engineTick_of_phase hr hd rfl (by simp only [phaseTick, sivTick, hp])

/-- From K(j) through the last key-derivation phase, by induction on how many are left after K(j). -/
theorem runTicks_kdf (n : Nat) (hr : u.running = some w) (hd : decode w = .ok i)
    (hc : sequenced i = some ⟨.siv, k, rd, rs, ctx⟩) (d : Work) (j left : Nat)
    (h : j + (left + 1) = kdfCount (u.slot ctx).alg) :
    runTicks (n + (left + 1)) (u.setPhase (.kdf j) (d.withKdf (u.slot ctx) j)) =
      runTicks n (u.setPhase .assemble (d.withKdf (u.slot ctx) (kdfCount (u.slot ctx).alg))) := by
  induction left generalizing j with
  | zero => rw [runTicks_setPhase n hr hd hc (phaseTick_kdf j u d), if_neg (by omega), h]
  | succ left ih =>
    rw [← Nat.add_assoc, runTicks_setPhase _ hr hd hc (phaseTick_kdf j u d), if_pos (by omega)]
    exact ih (j + 1) (by omega)

/-- From K0 through the last key-derivation phase. -/
theorem runTicks_kdf_all (n : Nat) (hr : u.running = some w) (hd : decode w = .ok i)
    (hc : sequenced i = some ⟨.siv, k, rd, rs, ctx⟩) {d : Work} (hmat : d.mat = []) :
    runTicks (n + kdfCount (u.slot ctx).alg) (u.setPhase (.kdf 0) d) =
      runTicks n (u.setPhase .assemble (d.withKdf (u.slot ctx) (kdfCount (u.slot ctx).alg))) := by
  obtain ⟨left, hleft⟩ := Nat.exists_eq_add_one.mpr (kdfCount_pos (u.slot ctx).alg)
  have h0 : d.withKdf (u.slot ctx) 0 = d := by
    cases d; cases hmat; rfl
  have hrun := runTicks_kdf n hr hd hc d 0 left (by omega)
  rwa [← hleft, h0] at hrun

/-- The buffers at X1 of an SIV.SEAL with snapshot d (R311). -/
theorem runTicks_sivSeal_ctr (n : Nat) (hr : u.running = some w) (hd : decode w = .ok (.sivSeal rd rs ctx)) {d : Work}
    (hmat : d.mat = []) :
    ∃ e, runTicks (n + 5 + kdfCount (u.slot ctx).alg) (u.setPhase (.kdf 0) d) = runTicks n (u.setPhase .ctr e) ∧
      e.ops = d.ops ∧ e.inp = d.inp ∧ e.encKey = (sivKeys (u.slot ctx) d.nonce).2 ∧ e.ctrBlock = ctrBlock0 e.tag ∧
      e.tag = sivTag (sivKeys (u.slot ctx) d.nonce).1 (sivKeys (u.slot ctx) d.nonce).2 d.nonce d.ad d.inp :=
  ⟨_, calc runTicks (n + 5 + kdfCount (u.slot ctx).alg) (u.setPhase (.kdf 0) d)
      _ = runTicks (n + 5) (u.setPhase .assemble _) := runTicks_kdf_all _ hr hd rfl hmat
      _ = runTicks (n + 4) (u.setPhase .hash _) := runTicks_setPhase _ hr hd rfl (phaseTick_assemble rfl u d)
      _ = runTicks (n + 3) (u.setPhase .preTag _) := runTicks_setPhase _ hr hd rfl (phaseTick_hash rfl u _)
      _ = runTicks (n + 2) (u.setPhase .tag _) := runTicks_setPhase _ hr hd rfl (phaseTick_preTag u _)
      _ = runTicks (n + 1) (u.setPhase .counter _) := runTicks_setPhase _ hr hd rfl (phaseTick_tag rfl u _)
      _ = runTicks n (u.setPhase .ctr _) := runTicks_setPhase _ hr hd rfl (phaseTick_counter rfl u _),
    rfl, rfl, rfl, rfl, rfl⟩

/-- The buffers at X1 of an SIV.OPEN with snapshot d (R311). -/
theorem runTicks_sivOpen_ctr (n : Nat) (hr : u.running = some w) (hd : decode w = .ok (.sivOpen rd rs ctx)) {d : Work}
    (hmat : d.mat = []) :
    ∃ e, runTicks (n + 2 + kdfCount (u.slot ctx).alg) (u.setPhase (.kdf 0) d) = runTicks n (u.setPhase .ctr e) ∧
      e.ops = d.ops ∧ e.nonce = d.nonce ∧ e.ad = d.ad ∧ e.inp = d.inp ∧ e.recv = d.recv ∧
      e.authKey = (sivKeys (u.slot ctx) d.nonce).1 ∧ e.encKey = (sivKeys (u.slot ctx) d.nonce).2 ∧
      e.ctrBlock = ctrBlock0 d.recv :=
  ⟨_, calc runTicks (n + 2 + kdfCount (u.slot ctx).alg) (u.setPhase (.kdf 0) d)
      _ = runTicks (n + 2) (u.setPhase .assemble _) := runTicks_kdf_all _ hr hd rfl hmat
      _ = runTicks (n + 1) (u.setPhase .counter _) := runTicks_setPhase _ hr hd rfl (phaseTick_assemble_opening rfl u d)
      _ = runTicks n (u.setPhase .ctr _) := runTicks_setPhase _ hr hd rfl (phaseTick_counter_opening rfl u _),
    rfl, rfl, rfl, rfl, rfl, rfl, rfl, rfl⟩

/-- The buffers and the memory after X1 of an SIV.OPEN with snapshot d: the candidate plaintext is kept and written (R310,
R311). -/
theorem runTicks_sivOpen_hash (n : Nat) (hr : u.running = some w) (hd : decode w = .ok (.sivOpen rd rs ctx)) {d : Work}
    (hmat : d.mat = []) :
    ∃ e, runTicks (n + 3 + kdfCount (u.slot ctx).alg) (u.setPhase (.kdf 0) d) =
        runTicks n ((u.memWrite d.ops.outAddr e.out).setPhase .hash e) ∧
      e.ops = d.ops ∧ e.nonce = d.nonce ∧ e.ad = d.ad ∧ e.recv = d.recv ∧
      e.authKey = (sivKeys (u.slot ctx) d.nonce).1 ∧ e.encKey = (sivKeys (u.slot ctx) d.nonce).2 ∧
      e.out = sivCtr (sivKeys (u.slot ctx) d.nonce).2 d.recv d.inp := by
  obtain ⟨e, hrun, hops, hnonce, had, hinp, hrecv, hauth, henc, hcb⟩ := runTicks_sivOpen_ctr (n + 1) hr hd hmat
  have hx1 := runTicks_succ n (by simp [hr]) (engineTick_ctr_open (s := u.setPhase .ctr e) hr hd rfl)
  refine ⟨{ e with out := sivCtrFrom e.encKey e.ctrBlock e.inp }, ?_, hops, hnonce, had, hrecv, hauth, henc, ?_⟩
  · rw [← hops]
    exact hrun.trans hx1
  · rw [henc, hcb, hinp, sivCtr]

/-- The buffers at V of an SIV.OPEN that has the buffers d at H1 (R311). -/
theorem runTicks_sivOpen_verify (n : Nat) (hr : u.running = some w) (hd : decode w = .ok (.sivOpen rd rs ctx)) (d : Work) :
    ∃ e, runTicks (n + 3) (u.setPhase .hash d) = runTicks n (u.setPhase .verify e) ∧ e.ops = d.ops ∧ e.recv = d.recv ∧
      e.out = d.out ∧ e.tag = sivTag d.authKey d.encKey d.nonce d.ad d.out :=
  ⟨_, calc runTicks (n + 3) (u.setPhase .hash d)
      _ = runTicks (n + 2) (u.setPhase .preTag _) := runTicks_setPhase _ hr hd rfl (phaseTick_hash_opening rfl u _)
      _ = runTicks (n + 1) (u.setPhase .tag _) := runTicks_setPhase _ hr hd rfl (phaseTick_preTag u _)
      _ = runTicks n (u.setPhase .verify _) := runTicks_setPhase _ hr hd rfl (phaseTick_tag_opening rfl u _),
    rfl, rfl, rfl, rfl⟩

/-- From K0 on, SIV.SEAL's phases do what it does after its prologue (R309). -/
theorem runTicks_sivSealBody {m : Nat} (hm : 12 ≤ m) (hr : u.running = some w) (hd : decode w = .ok (.sivSeal rd rs ctx))
    {d : Work} (hmat : d.mat = []) : runTicks m (u.setPhase (.kdf 0) d) = sivSealBody rd (u.slot ctx) d u := by
  obtain ⟨n, rfl⟩ : ∃ n, m = n + 1 + 5 + kdfCount (u.slot ctx).alg :=
    ⟨m - 6 - kdfCount (u.slot ctx).alg, by have := kdfCount_le (u.slot ctx).alg; omega⟩
  obtain ⟨e, hrun, hops, hinp, hkey, hcb, htag⟩ := runTicks_sivSeal_ctr (n + 1) hr hd hmat
  rw [hrun, runTicks_setPhase_last (p := .ctr) n hr (engineTick_ctr_seal hr hd rfl) (ends_finishSeal ..)]
  simp only [setPhase_work, hops, hinp, hkey, hcb, htag]
  rfl

/-- From K0 on, SIV.OPEN's phases do what it does after its prologue (R310). -/
theorem runTicks_sivOpenBody {m : Nat} (hm : 13 ≤ m) (hr : u.running = some w) (hd : decode w = .ok (.sivOpen rd rs ctx))
    {d : Work} (hmat : d.mat = []) : runTicks m (u.setPhase (.kdf 0) d) = sivOpenBody rd (u.slot ctx) d u := by
  obtain ⟨n, rfl⟩ : ∃ n, m = n + 1 + 3 + 3 + kdfCount (u.slot ctx).alg :=
    ⟨m - 7 - kdfCount (u.slot ctx).alg, by have := kdfCount_le (u.slot ctx).alg; omega⟩
  obtain ⟨e, hrun, hops, hnonce, had, hrecv, hauth, henc, hout⟩ := runTicks_sivOpen_hash (n + 1 + 3) hr hd hmat
  have hrm : (u.memWrite d.ops.outAddr e.out).running = some w := hr
  obtain ⟨e', hrun', hops', hrecv', -, htag⟩ := runTicks_sivOpen_verify (n + 1) hrm hd e
  have hv := engineTick_verify (s := (u.memWrite d.ops.outAddr e.out).setPhase .verify e') hrm hd rfl
  simp only [setPhase_work, htag, hrecv', hops', hauth, henc, hnonce, had, hops, hrecv] at hv
  rw [hrun, hrun', sivOpenBody, ← hout]
  by_cases h : memcmpBytes
      (sivTag (sivKeys (u.slot ctx) d.nonce).1 (sivKeys (u.slot ctx) d.nonce).2 d.nonce d.ad e.out) d.recv = 0
  · rw [if_pos h] at hv
    rw [runTicks_setPhase_last n hrm hv (ends_finish ((Completed.complete _ _).setReg _ _)), if_neg (not_not.mpr h)]
    rfl
  · rw [if_neg h] at hv
    rw [runTicks_setPhase_last n hrm hv (ends_finish (.complete _ _)), if_pos h]
    rfl

theorem runTicks_sivSeal (hr : s.running = some w) (hd : decode w = .ok (.sivSeal rd rs ctx)) (hp : s.phase = .p0) :
    runTicks 20 s = execSivSeal rd rs ctx s :=
  runTicks_prologue 19 hr hd rfl (by simp only [phaseTick, sivTick, hp]) fun _ hu =>
    runTicks_sivSealBody (by decide) hu hd (snapshot_mat s rs _)

theorem runTicks_sivOpen (hr : s.running = some w) (hd : decode w = .ok (.sivOpen rd rs ctx)) (hp : s.phase = .p0) :
    runTicks 20 s = execSivOpen rd rs ctx s :=
  runTicks_prologue 19 hr hd rfl (by simp only [phaseTick, sivTick, hp]) fun _ hu =>
    runTicks_sivOpenBody (by decide) hu hd (snapshot_mat s rs _)

end

/-! ### The phases together -/

section
variable {s : State} {w : Word32} {rd rs : Reg} {ctx : Ctx}

/-- Every command, run phase by phase from its first phase, ends as its one transition (R12). -/
theorem runTicks_eq_exec {i : Instr} (hr : s.running = some w) (hd : decode w = .ok i) (hp : s.phase = startPhase i) :
    runTicks 20 s = exec i s := by
  cases i with
  | eaxSeal rd rs ctx => exact runTicks_eaxSeal hr hd hp
  | eaxOpen rd rs ctx => exact runTicks_eaxOpen hr hd hp
  | sivSeal rd rs ctx => exact runTicks_sivSeal hr hd hp
  | sivOpen rd rs ctx => exact runTicks_sivOpen hr hd hp
  | ccpSeal rd rs ctx => exact runTicks_ccpSeal hr hd hp
  | ccpSealx rd rs ctx => exact runTicks_ccpSealx hr hd hp
  | ccpOpen rd rs ctx => exact runTicks_ccpOpen hr hd hp
  | _ => exact runTicks_of_unsequenced 19 hr hd rfl

/-! ### The phases that write or decide -/

/-- SEAL's and SEALX's end writes the strings it is given, the output's first, and the count to rd. -/
theorem finishSeal_writes (rd : Reg) (o : AeadOps) (out tagRegion : Bytes) (count : Nat) (s : State) :
    ∃ t, finishSeal rd o out tagRegion count s = .next t ∧ Completed .ok s t ∧ t.reg rd = BitVec.ofNat 64 count ∧
      t.mem = Memory.writeBytes (Memory.writeBytes s.mem o.outAddr out) o.tagAddr tagRegion :=
  ⟨_, rfl, (((Completed.complete _ s).memWrite _ _).memWrite _ _).setReg _ _, by simp, rfl⟩

/-- The end of an OPEN whose tag verified writes the string it is given, and in_len to rd. -/
theorem finishOpen_writes (rd : Reg) (o : AeadOps) (out : Bytes) (s : State) :
    ∃ t, finishOpen rd o out s = .next t ∧ Completed .ok s t ∧ t.reg rd = BitVec.ofNat 64 o.inLen ∧
      t.mem = Memory.writeBytes s.mem o.outAddr out :=
  ⟨_, rfl, ((Completed.complete _ s).memWrite _ _).setReg _ _, by simp, rfl⟩

/-- What X1 of OPEN leaves: the candidate plaintext in memory and in its buffer, registers and slots as before. -/
theorem engineTick_ctr_open_writes (hr : s.running = some w) (hd : decode w = .ok (.sivOpen rd rs ctx)) (hp : s.phase = .ctr) :
    ∃ t, engineTick s = .next t ∧ t.running = some w ∧ t.phase = .hash ∧
      t.work = { s.work with out := sivCtrFrom s.work.encKey s.work.ctrBlock s.work.inp } ∧
      t.mem = Memory.writeBytes s.mem s.work.ops.outAddr (sivCtrFrom s.work.encKey s.work.ctrBlock s.work.inp) ∧
      SameRegsExcept [] s t ∧ SameSlotsExcept [] s t :=
  ⟨_, engineTick_ctr_open hr hd hp, hr, rfl, rfl, rfl, .of_x rfl, .of_slots rfl⟩

/-- What V leaves: rd when the tags are equal, nothing but AUTHFAIL when they differ. -/
theorem engineTick_verify_decides (hr : s.running = some w) (hd : decode w = .ok (.sivOpen rd rs ctx)) (hp : s.phase = .verify)
    (hlen : s.work.tag.length = s.work.recv.length) :
    ∃ t, engineTick s = .next t ∧ t.mem = s.mem ∧
      (s.work.tag = s.work.recv → Completed .ok s t ∧ t.reg rd = BitVec.ofNat 64 s.work.ops.inLen) ∧
      (s.work.tag ≠ s.work.recv → NothingWritten .authFail s t) := by
  have hv := engineTick_verify hr hd hp
  by_cases h : s.work.tag = s.work.recv
  · rw [if_pos ((memcmpBytes_eq_zero hlen).mpr h)] at hv
    exact ⟨_, hv, rfl, fun _ => ⟨(Completed.complete _ s).setReg _ _, by simp⟩, fun hne => absurd h hne⟩
  · rw [if_neg (mt (memcmpBytes_eq_zero hlen).mp h)] at hv
    exact ⟨_, hv, rfl, fun heq => absurd heq h, fun _ => nothingWritten_complete _ s⟩

end

/-- Settles O55: from the prologue on, each sequencer's phases fill the buffers that the command's rule names, and end as it
does; a writing phase is one equation of its sequencer. -/
theorem phasesRefineCommand : Obligations.PhasesRefineCommand := by
  refine ⟨fun s w i hr hd hp => runTicks_eq_exec hr hd hp, fun s w rd rs ctx hr => ⟨?s5, ?o5, ?sealX1, ?openX1, ?v, ?q6, ?q8⟩⟩
  case s5 =>
    intro hd hp
    rw [engineTick_s5 hr hd hp]
    exact finishSeal_writes ..
  case o5 =>
    intro hd hp
    rw [engineTick_o5 hr hd hp]
    exact finishOpen_writes ..
  case sealX1 =>
    intro hd hp
    rw [engineTick_ctr_seal hr hd hp]
    exact finishSeal_writes ..
  case openX1 => exact engineTick_ctr_open_writes hr
  case v => exact engineTick_verify_decides hr
  case q6 =>
    rintro (hd | hd) hp
    · rw [engineTick_q6 hr hd rfl hp]
      exact finishSeal_writes ..
    · rw [engineTick_q6 hr hd rfl hp]
      exact finishSeal_writes ..
  case q8 =>
    intro hd hp
    rw [engineTick_q8 hr hd hp]
    exact finishOpen_writes ..

/-! ### A step, by the head of the moves (R464) -/

section
variable {s : State} {w : Word32} {i : Instr} {rest : List Move}

theorem step_of_nil (h : s.moves = []) : step s = engineTurn s := by simp only [step, h]

theorem step_of_engine (h : s.moves = .engine :: rest) : step s = engineTurn { s with moves := rest } := by
  simp only [step, h]

theorem step_of_tick (h : s.moves = .tick :: rest) : step s = engineTick { s with moves := rest } := by
  simp only [step, h]

theorem step_of_host {m : HostMove} (h : s.moves = .host m :: rest) : step s = hostMove m { s with moves := rest } := by
  simp only [step, h]

/-- The turn of an engine whose command is in its first phase. -/
theorem engineTurn_of_start (hr : s.running = some w) (hd : decode w = .ok i) (hp : s.phase = startPhase i) :
    engineTurn s = exec i s := by
  simp only [engineTurn, hr, hd, hp, if_true]

/-- The turn of an engine whose command is past its first phase. -/
theorem engineTurn_of_later (hr : s.running = some w) (hd : decode w = .ok i) (hp : s.phase ≠ startPhase i) :
    engineTurn s = runTicks 20 s := by
  simp only [engineTurn, hr, hd, hp, if_false]

theorem engineTurn_of_idle (hr : s.running = none) : engineTurn s = .next s := by simp only [engineTurn, hr]

theorem accept_phase (s : State) (hd : decode w = .ok i) : (s.accept w).phase = startPhase i := by
  simp only [State.accept, hd]

theorem withFetchWord_eq (s : State) (w : Word32) : s.withFetchWord 32 w.toNat = State.accept { s with moves := [] } w := by
  rw [State.withFetchWord, Nat.mod_eq_of_lt w.isLt, BitVec.ofNat_toNat, BitVec.setWidth_eq]

/-- A command word just accepted, with no move left, runs as its command (R40, R41). -/
theorem step_withFetchWord (s : State) (hd : decode w = .ok i) :
    step (s.withFetchWord 32 w.toNat) = exec i (State.accept { s with moves := [] } w) := by
  rw [withFetchWord_eq, step_of_nil rfl, engineTurn_of_start (accept_running _ w) hd (accept_phase _ hd)]

end

/-- Settles O5, by the cases of the head of the moves and of the running command's phase. -/
theorem stepRunsDecodedCommand : Obligations.StepRunsDecodedCommand := by
  refine ⟨fun s w i rest hr hd => ⟨fun hp => ⟨fun hm => ?_, fun hm => ?_⟩, fun hp => ⟨fun hm => ?_, fun hm => ?_⟩⟩,
    fun s w i hd => step_withFetchWord s hd, fun s rest hm => step_of_tick hm, fun s m rest hm => step_of_host hm,
    fun s hr hm => (step_of_nil hm).trans (engineTurn_of_idle hr)⟩
  · rw [step_of_nil hm, engineTurn_of_start hr hd hp]
  · rw [step_of_engine hm, engineTurn_of_start (s := { s with moves := rest }) hr hd hp]
  · rw [step_of_nil hm, engineTurn_of_later hr hd hp]
  · rw [step_of_engine hm, engineTurn_of_later (s := { s with moves := rest }) hr hd hp]

end Sys2Proof.Machine

/-! SUPPORT. What a command leaves of registers and slots, what a phase of a sequencer can do, and what a move of the host can do
(10_state.md); the statements O47, O49 and O51. -/

namespace Sys2Proof.Machine

/-! ### What a command writes besides memory (R31, R45, R210) -/

/-- The outcome changes no slot, no register outside `dst`, and no register at all unless its code is OK. -/
def WritesOnly (dst : List Reg) (s : State) (o : Outcome) : Prop :=
  ∀ t, o = .next t → SameRegsExcept dst s t ∧ (t.err ≠ .ok → SameRegsExcept [] s t) ∧ t.slots = s.slots

section
variable {dst : List Reg} {s u : State}

theorem SameRegsExcept.setReg {r : Reg} (h : SameRegsExcept dst s u) (hr : r ∈ dst) (v : Word) :
    SameRegsExcept dst s (u.setReg r v) := by
  intro q hq
  rw [reg_setReg, if_neg (ne_of_mem_of_not_mem hr hq).symm]
  exact h q hq

theorem writesOnly_finish (c : Code) (hx : u.x = s.x) (hs : u.slots = s.slots) : WritesOnly dst s (finish c u) := by
  rintro t ⟨⟩
  exact ⟨.of_x hx, fun _ => .of_x hx, hs⟩

theorem writesOnly_finish_ok (hx : SameRegsExcept dst s u) (hs : u.slots = s.slots) : WritesOnly dst s (finish .ok u) := by
  rintro t ⟨⟩
  exact ⟨hx, fun h => absurd rfl h, hs⟩

theorem WritesOnly.of_log {o : Outcome} {l : List BusAccess} (h : WritesOnly dst (s.log l) o) : WritesOnly dst s o := h

variable {rd : Reg} (s)

theorem writesOnly_ctResult (v : Word) : WritesOnly [rd] s (ctResult rd v s) :=
  writesOnly_finish_ok ((SameRegsExcept.of_x rfl).setReg (by simp) v) rfl

theorem writesOnly_finishSeal (o : AeadOps) (out tagRegion : Bytes) (count : Nat) :
    WritesOnly [rd] s (finishSeal rd o out tagRegion count s) :=
  writesOnly_finish_ok (SameRegsExcept.setReg (.of_x rfl) (by simp) _) rfl

theorem writesOnly_finishOpen (o : AeadOps) (out : Bytes) : WritesOnly [rd] s (finishOpen rd o out s) :=
  writesOnly_finish_ok (SameRegsExcept.setReg (.of_x rfl) (by simp) _) rfl

theorem writesOnly_execCtMemcmp (rs1 rs2 rs3 : Reg) : WritesOnly [rd] s (execCtMemcmp rd rs1 rs2 rs3 s) := by
  unfold execCtMemcmp
  dsimp only
  split
  · exact writesOnly_finish_ok (SameRegsExcept.setReg (.of_x rfl) (by simp) _) rfl
  · exact writesOnly_finish _ rfl rfl

theorem writesOnly_execCtCmxor (rs1 rs2 rs3 : Reg) : WritesOnly [] s (execCtCmxor rd rs1 rs2 rs3 s) := by
  unfold execCtCmxor
  dsimp only
  split
  · obtain ⟨m, l, h⟩ := cmxorBytes_same (s.regNat rs2) (s.regNat rd) (s.regNat rs1) (trunc8 (s.reg rs3)) s
    rw [h]
    exact writesOnly_finish _ rfl rfl
  · exact writesOnly_finish _ rfl rfl

theorem writesOnly_execRecRmpad (rs : Reg) : WritesOnly [rd, rd + 1] s (execRecRmpad rd rs s) := by
  rcases execRecRmpad_cases rd rs s with ⟨-, h⟩ | ⟨-, -, h⟩ | ⟨-, -, h⟩
  · rw [h]; exact writesOnly_finish _ rfl rfl
  · rw [h]; exact writesOnly_finish _ rfl rfl
  · rcases h _ rfl with ⟨-, h⟩ | ⟨-, -, h⟩ | ⟨-, -, h⟩
    · rw [h]; exact writesOnly_finish _ rfl rfl
    · rw [h]; exact writesOnly_finish _ rfl rfl
    · rw [h _ rfl]
      exact writesOnly_finish_ok ((SameRegsExcept.setReg (.of_x rfl) (by simp) _).setReg (by simp) _) rfl

theorem writesOnly_execRecXmac (rs : Reg) : WritesOnly [] s (execRecXmac rs s) := by
  rcases execRecXmac_cases rs s with ⟨-, h⟩ | ⟨-, c, -, h⟩ | ⟨-, -, h⟩
  · rw [h]; exact writesOnly_finish _ rfl rfl
  · rw [h]; exact writesOnly_finish _ rfl rfl
  · rw [h _ rfl _ rfl _ rfl]; exact writesOnly_finish _ (by simp) (by simp)

/-- A SEAL, SEALX or OPEN writes what its family's part after the prologue does. -/
theorem writesOnly_aeadRun (f : Family) (k : Kind) (rs : Reg) (ctx : Ctx) {body : Slot → Work → State → Outcome}
    (hb : ∀ sl d u, WritesOnly dst u (body sl d u)) : WritesOnly dst s (aeadRun f k rs ctx body s) := by
  rcases aeadRun_cases f k rs ctx body s with ⟨-, h⟩ | ⟨-, c, -, h⟩ | ⟨-, -, h⟩
  · rw [h]; exact writesOnly_finish _ rfl rfl
  · rw [h]; exact writesOnly_finish _ rfl rfl
  · rw [h]; exact (hb _ _ _).of_log.of_log

theorem writesOnly_eaxOpenBody (sl : Slot) (d : Work) : WritesOnly [rd] s (eaxOpenBody rd sl d s) := by
  unfold eaxOpenBody
  split
  · exact writesOnly_finish _ rfl rfl
  · exact writesOnly_finishOpen s _ _

theorem writesOnly_sivOpenBody (sl : Slot) (d : Work) : WritesOnly [rd] s (sivOpenBody rd sl d s) := by
  unfold sivOpenBody
  dsimp only
  split
  · exact writesOnly_finish _ rfl rfl
  · exact writesOnly_finishOpen s _ _

theorem writesOnly_ccpOpenBody (sl : Slot) (d : Work) : WritesOnly [rd] s (ccpOpenBody rd sl d s) := by
  unfold ccpOpenBody
  split
  · exact writesOnly_finish _ rfl rfl
  · exact writesOnly_finishOpen s _ _

end

/-- Every command but INIT and AEAD.CLEANUP writes its destinations alone, and no slot. -/
theorem exec_writesOnly (i : Instr) (s : State) (hc : ∀ ctx, i ≠ .aeadCleanup ctx)
    (hi : ∀ f rs ctx, i ≠ Family.initInstr f rs ctx) : WritesOnly (destinations i) s (exec i s) := by
  cases i with
  | nop => exact writesOnly_finish _ rfl rfl
  | ctMemcmp rd rs1 rs2 rs3 => exact writesOnly_execCtMemcmp s rs1 rs2 rs3
  | ctCmxor rd rs1 rs2 rs3 => exact writesOnly_execCtCmxor s rs1 rs2 rs3
  | recRmpad rd rs => exact writesOnly_execRecRmpad s rs
  | recXmac rs => exact writesOnly_execRecXmac s rs
  | aeadCleanup ctx => exact absurd rfl (hc ctx)
  | eaxInit rs ctx => exact absurd rfl (hi .eax rs ctx)
  | sivInit rs ctx => exact absurd rfl (hi .siv rs ctx)
  | ccpInit rs ctx => exact absurd rfl (hi .ccp rs ctx)
  | eaxSeal rd rs ctx => exact writesOnly_aeadRun s .eax .sealing rs ctx fun _ _ u => writesOnly_finishSeal u _ _ _ _
  | eaxOpen rd rs ctx => exact writesOnly_aeadRun s .eax .opening rs ctx fun sl d u => writesOnly_eaxOpenBody u sl d
  | sivSeal rd rs ctx => exact writesOnly_aeadRun s .siv .sealing rs ctx fun _ _ u => writesOnly_finishSeal u _ _ _ _
  | sivOpen rd rs ctx => exact writesOnly_aeadRun s .siv .opening rs ctx fun sl d u => writesOnly_sivOpenBody u sl d
  | ccpSeal rd rs ctx => exact writesOnly_aeadRun s .ccp .sealing rs ctx fun _ _ u => writesOnly_finishSeal u _ _ _ _
  | ccpSealx rd rs ctx => exact writesOnly_aeadRun s .ccp .sealingX rs ctx fun _ _ u => writesOnly_finishSeal u _ _ _ _
  | ccpOpen rd rs ctx => exact writesOnly_aeadRun s .ccp .opening rs ctx fun sl d u => writesOnly_ccpOpenBody u sl d
  | _ => exact writesOnly_ctResult s _

/-! ### INIT and AEAD.CLEANUP (R205, R212) -/

/-- The slot that a family's INIT writes (R252, R301, R351). -/
def Family.slotOf : Family → Alg → Nat → Bytes → Slot
  | .eax => eaxSlot
  | .siv => sivSlot
  | .ccp => ccpSlot

theorem exec_initInstr (f : Family) (rs : Reg) (ctx : Ctx) (s : State) :
    exec (f.initInstr rs ctx) s = initRun f rs ctx f.slotOf s := by cases f <;> rfl

theorem slotOf_valid (f : Family) (alg : Alg) (n : Nat) (key : Bytes) : (f.slotOf alg n key).valid = true := by
  cases f <;> rfl

/-- What INIT leaves: registers and memory as they are, and in an empty slot a context when it completes with OK. -/
theorem exec_initInstr_writes {f : Family} {rs : Reg} {ctx : Ctx} {s t : State} (h : exec (f.initInstr rs ctx) s = .next t) :
    t.x = s.x ∧ t.mem = s.mem ∧ (t.slots = s.slots ∨
      t.err = .ok ∧ (s.slot ctx).valid = false ∧ ∃ alg, f.algOfKeyLen (s.initOps rs).keyLen = some alg ∧
        f.tagOk (initTagLen (s.initOps rs)) = true ∧
        t.slots = (s.setSlot ctx (f.slotOf alg (initTagLen (s.initOps rs))
          (s.memRead (s.initOps rs).keyAddr (s.initOps rs).keyLen))).slots) := by
  rw [exec_initInstr] at h
  rcases initRun_cases f rs ctx f.slotOf s with ⟨-, he⟩ | ⟨-, c, -, he⟩ | ⟨-, alg, hok, he⟩
  · rw [he] at h; cases h; exact ⟨rfl, rfl, .inl rfl⟩
  · rw [he] at h; cases h; exact ⟨rfl, rfl, .inl rfl⟩
  · rw [he] at h; cases h
    obtain ⟨hv, hk, ht, -⟩ := initCheck_ok_iff.mp hok
    exact ⟨rfl, rfl, .inr ⟨rfl, hv, alg, hk, ht, rfl⟩⟩

/-- A slot that INIT has changed is the one it names, was empty and now holds a context. -/
theorem exec_initInstr_slot {f : Family} {rs : Reg} {ctx c : Ctx} {s t : State} (h : exec (f.initInstr rs ctx) s = .next t)
    (hne : t.slot c ≠ s.slot c) : c = ctx ∧ t.err = .ok ∧ (s.slot c).valid = false ∧ (t.slot c).valid = true := by
  obtain ⟨-, -, hs | ⟨herr, hv, alg, -, -, hs⟩⟩ := exec_initInstr_writes h
  · exact absurd (slot_congr hs c) hne
  · have ht := slot_congr hs c
    rw [slot_setSlot] at ht
    by_cases hc : c = ctx
    · subst hc
      rw [if_pos rfl] at ht
      exact ⟨rfl, herr, hv, by rw [ht, slotOf_valid]⟩
    · exact absurd (ht.trans (if_neg hc)) hne

theorem exec_aeadCleanup {ctx : Ctx} {s t : State} (h : exec (.aeadCleanup ctx) s = .next t) :
    t = (s.setSlot ctx Slot.empty).complete .ok := by
  cases h; rfl

/-- A command is AEAD.CLEANUP, an INIT, or writes no slot. -/
theorem slotCommand_cases (i : Instr) (s : State) : (∃ ctx, i = .aeadCleanup ctx) ∨
    (∃ f rs ctx, i = Family.initInstr f rs ctx) ∨ WritesOnly (destinations i) s (exec i s) := by
  by_cases hc : ∃ ctx, i = .aeadCleanup ctx
  · exact .inl hc
  · by_cases hi : ∃ f rs ctx, i = Family.initInstr f rs ctx
    · exact .inr (.inl hi)
    · exact .inr (.inr (exec_writesOnly i s (fun ctx h => hc ⟨ctx, h⟩) fun f rs ctx h => hi ⟨f, rs, ctx, h⟩))

/-- Settles O49: INIT and AEAD.CLEANUP write no register, and every other command its destinations alone. -/
theorem registersWrittenOnlyOnOk : Obligations.RegistersWrittenOnlyOnOk := by
  intro i s t h
  rcases slotCommand_cases i s with ⟨ctx, rfl⟩ | ⟨f, rs, ctx, rfl⟩ | hw
  · rw [exec_aeadCleanup h]
    exact ⟨.of_x rfl, fun _ => .of_x rfl⟩
  · have hx := (exec_initInstr_writes h).1
    exact ⟨.of_x hx, fun _ => .of_x hx⟩
  · obtain ⟨hdst, herr, -⟩ := hw t h
    exact ⟨hdst, herr⟩

/-! ### What a phase can do (R257, R258, R311, R358) -/

/-- The most phases that a command of kind k has left in a phase, that phase included; a command without a sequencer is one. -/
def phasesLeft (k : Kind) : Phase → Nat
  | .idle => 1
  | .s0 => 6 | .s1 => 5 | .s2 => 4 | .s3 => 3 | .s4 => 2 | .s5 => 1
  | .o0 => 6 | .o1 => 5 | .o2 => 4 | .o3 => 3 | .o4 => 2 | .o5 => 1
  | .p0 => 14
  | .kdf i => 8 + (5 - i)
  | .assemble => 7
  | .counter => if k = .opening then 6 else 2
  | .ctr => if k = .opening then 5 else 1
  | .hash => if k = .opening then 4 else 5
  | .preTag => if k = .opening then 3 else 4
  | .tag => if k = .opening then 2 else 3
  | .verify => 1
  | .q0 => 8 | .q1 => 7 | .q2 => 6 | .q3 => 5 | .q4 => 4 | .q5 => 3 | .q6 => 1 | .q7 => 2 | .q8 => 1

/-- The outcome goes on to a phase nearer the end; of the rest only buffers, memory and the trace can have changed. -/
def GoesOn (k : Kind) (s : State) (o : Outcome) : Prop :=
  ∃ m l q e, o = .next { s with mem := m, bus := l, phase := q, work := e } ∧ phasesLeft k q < phasesLeft k s.phase

theorem goesOn_goTo {k : Kind} {s : State} {q : Phase} {e : Work} (h : phasesLeft k q < phasesLeft k s.phase) :
    GoesOn k s (s.goTo q e) := ⟨s.mem, s.bus, q, e, rfl, h⟩

/-- What a phase of command c does: it ends the command, or goes on. -/
def PhaseOutcome (c : AeadCommand) (s : State) (o : Outcome) : Prop :=
  Ends s o ∧ WritesOnly [c.rd] s o ∨ GoesOn c.kind s o

section
variable {c : AeadCommand} {s : State} {o : Outcome}

theorem phaseOutcome_goTo {q : Phase} {e : Work} (h : phasesLeft c.kind q < phasesLeft c.kind s.phase) :
    PhaseOutcome c s (s.goTo q e) := .inr (goesOn_goTo h)

theorem phaseOutcome_authFail : PhaseOutcome c s (finish .authFail s) :=
  .inl ⟨ends_finish (.complete _ s), writesOnly_finish _ rfl rfl⟩

theorem phaseOutcome_finishSeal (ops : AeadOps) (out tagRegion : Bytes) (n : Nat) :
    PhaseOutcome c s (finishSeal c.rd ops out tagRegion n s) :=
  .inl ⟨ends_finishSeal .., writesOnly_finishSeal s _ _ _ _⟩

theorem phaseOutcome_finishOpen (ops : AeadOps) (out : Bytes) : PhaseOutcome c s (finishOpen c.rd ops out s) :=
  .inl ⟨ends_finishOpen .., writesOnly_finishOpen s _ _⟩

theorem phaseOutcome_prologueTick {q : Phase} (h : phasesLeft c.kind q < phasesLeft c.kind s.phase) :
    PhaseOutcome c s (prologueTick c q s) := by
  rcases prologueTick_cases c q (fun _ _ _ => finish .ok s) s with ⟨code, u, he, -, -, hx, hs, hc⟩ | ⟨-, hgo⟩
  · rw [he]
    exact .inl ⟨ends_finish hc, writesOnly_finish _ hx hs⟩
  · rw [(hgo _ rfl).1]
    exact .inr ⟨s.mem, _, q, _, rfl, h⟩

/-- EAX.SEAL (R257). -/
theorem eaxSealTick_outcome (h : eaxSealTick c s = some o) : PhaseOutcome c s o := by
  unfold eaxSealTick at h
  split at h
  next hp => cases h; exact phaseOutcome_prologueTick (by simp [hp, phasesLeft])
  next hp => cases h; exact phaseOutcome_goTo (by simp [hp, phasesLeft])
  next hp => cases h; exact phaseOutcome_goTo (by simp [hp, phasesLeft])
  next hp => cases h; exact phaseOutcome_goTo (by simp [hp, phasesLeft])
  next hp => cases h; exact phaseOutcome_goTo (by simp [hp, phasesLeft])
  next hp => cases h; exact phaseOutcome_finishSeal ..
  next => cases h

/-- EAX.OPEN (R258). -/
theorem eaxOpenTick_outcome (h : eaxOpenTick c s = some o) : PhaseOutcome c s o := by
  unfold eaxOpenTick at h
  split at h
  next hp => cases h; exact phaseOutcome_prologueTick (by simp [hp, phasesLeft])
  next hp => cases h; exact phaseOutcome_goTo (by simp [hp, phasesLeft])
  next hp => cases h; exact phaseOutcome_goTo (by simp [hp, phasesLeft])
  next hp => cases h; exact phaseOutcome_goTo (by simp [hp, phasesLeft])
  next hp =>
    cases h
    split
    · exact phaseOutcome_goTo (by simp [hp, phasesLeft])
    · exact phaseOutcome_authFail
  next hp => cases h; exact phaseOutcome_finishOpen ..
  next => cases h

theorem phasesLeft_after_kdf (k : Kind) (i n : Nat) (h : n ≤ 6) :
    phasesLeft k (if i + 1 < n then .kdf (i + 1) else .assemble) < phasesLeft k (.kdf i) := by
  split
  · simp only [phasesLeft]; omega
  · simp only [phasesLeft]; omega

/-- SIV.SEAL and SIV.OPEN (R311): X1 of OPEN writes memory and goes on. -/
theorem sivTick_outcome (h : sivTick c s = some o) : PhaseOutcome c s o := by
  unfold sivTick at h
  split at h
  next hp => cases h; exact phaseOutcome_prologueTick (by simp [hp, phasesLeft])
  next i hp => cases h; exact phaseOutcome_goTo (by rw [hp]; exact phasesLeft_after_kdf _ i _ (kdfCount_le _))
  next hp => cases h; exact phaseOutcome_goTo (by rw [hp]; split <;> simp [phasesLeft, *])
  next hp => cases h; exact phaseOutcome_goTo (by simp only [hp, phasesLeft]; split <;> decide)
  next hp => cases h; exact phaseOutcome_goTo (by simp only [hp, phasesLeft]; split <;> decide)
  next hp => cases h; exact phaseOutcome_goTo (by rw [hp]; split <;> simp [phasesLeft, *])
  next hp => cases h; exact phaseOutcome_goTo (by simp only [hp, phasesLeft]; split <;> decide)
  next hp =>
    cases h
    split
    next hk => exact .inr ⟨_, _, _, _, rfl, by simp [hp, hk, phasesLeft]⟩
    next => exact phaseOutcome_finishSeal ..
  next hp =>
    cases h
    split
    · exact .inl ⟨ends_finish ((Completed.complete _ s).setReg _ _),
        writesOnly_finish_ok (SameRegsExcept.setReg (.of_x rfl) (by simp) _) rfl⟩
    · exact phaseOutcome_authFail
  next => cases h

/-- CCP.SEAL, CCP.SEALX and CCP.OPEN (R358). -/
theorem ccpTick_outcome (h : ccpTick c s = some o) : PhaseOutcome c s o := by
  unfold ccpTick at h
  split at h
  next hp => cases h; exact phaseOutcome_prologueTick (by simp [hp, phasesLeft])
  next hp => cases h; exact phaseOutcome_goTo (by simp [hp, phasesLeft])
  next hp => cases h; exact phaseOutcome_goTo (by simp [hp, phasesLeft])
  next hp =>
    split at h
    · cases h; exact phaseOutcome_goTo (by simp [hp, phasesLeft])
    · cases h; exact phaseOutcome_goTo (by simp [hp, phasesLeft])
  next hp =>
    split at h
    · cases h; exact phaseOutcome_goTo (by simp [hp, phasesLeft])
    · cases h; exact phaseOutcome_goTo (by simp [hp, phasesLeft])
  next hp => cases h; exact phaseOutcome_goTo (by rw [hp]; split <;> simp [phasesLeft])
  next hp => cases h; exact phaseOutcome_finishSeal ..
  next hp =>
    cases h
    split
    · exact phaseOutcome_goTo (by simp [hp, phasesLeft])
    · exact phaseOutcome_authFail
  next hp => cases h; exact phaseOutcome_finishOpen ..
  next => cases h

/-- A phase of a sequencer ends its command or goes on to a phase nearer the end. -/
theorem phaseTick_outcome (h : phaseTick c s = some o) : PhaseOutcome c s o := by
  unfold phaseTick at h
  split at h
  next => exact eaxOpenTick_outcome h
  next => exact eaxSealTick_outcome h
  next => cases h
  next => exact sivTick_outcome h
  next => exact ccpTick_outcome h

end

theorem phasesLeft_pos (k : Kind) (p : Phase) : 0 < phasesLeft k p := by
  cases p <;> grind [phasesLeft]

theorem phasesLeft_le (k : Kind) (p : Phase) : phasesLeft k p ≤ 14 := by
  cases p <;> grind [phasesLeft]

/-! ### The engine's turn ends its command (R41, R521) -/

/-- Memory, trace, phase and buffers before an ending do not matter to it. -/
theorem Ends.of_goesOn {s : State} {o : Outcome} {m : Memory} {l : List BusAccess} {q : Phase} {e : Work}
    (h : Ends { s with mem := m, bus := l, phase := q, work := e } o) : Ends s o := by
  obtain ⟨c, t, ho, ht⟩ := h
  exact ⟨c, t, ho, ht.err, ht.done, ht.running, ht.phase, ht.work, ht.irqEn, ht.ovr, ht.lastop, ht.sivAccel, ht.platform,
    ht.moves, ht.readData, ht.free⟩

section
variable {s t : State} {w : Word32} {i : Instr} {c : AeadCommand}

/-- A phase of the engine: a phase of its command's sequencer, or else the whole command. -/
theorem engineTick_cases (hr : s.running = some w) (hd : decode w = .ok i) :
    engineTick s = exec i s ∨ ∃ c, sequenced i = some c ∧ phaseTick c s = some (engineTick s) := by
  cases hc : sequenced i with
  | none => exact .inl (engineTick_of_unsequenced hr hd hc)
  | some c =>
    cases hp : phaseTick c s with
    | none => exact .inl (by simp [engineTick, hr, hd, hc, hp])
    | some o => exact .inr ⟨c, rfl, by rw [engineTick_of_phase hr hd hc hp, hp]⟩

theorem exec_slots_of_sequenced (hc : sequenced i = some c) (h : exec i s = .next t) : t.slots = s.slots := by
  rcases slotCommand_cases i s with ⟨ctx, rfl⟩ | ⟨f, rs, ctx, rfl⟩ | hw
  · cases hc
  · cases f <;> cases hc
  · exact (hw t h).2.2

/-- A phase of a sequenced command ends it, and writes no slot then, or goes on. -/
theorem engineTick_outcome (hr : s.running = some w) (hd : decode w = .ok i) (hc : sequenced i = some c) :
    Ends s (engineTick s) ∧ (∀ t, engineTick s = .next t → t.slots = s.slots) ∨ GoesOn c.kind s (engineTick s) := by
  rcases engineTick_cases hr hd with he | ⟨c', hc', hp⟩
  · rw [he]
    exact .inl ⟨exec_ends i s, fun t => exec_slots_of_sequenced hc⟩
  · obtain rfl : c = c' := Option.some.inj (hc.symm.trans hc')
    exact (phaseTick_outcome hp).imp_left fun ⟨hends, hw⟩ => ⟨hends, fun t h => (hw t h).2.2⟩

/-- A sequenced command ends within the phases it has left, whatever phase it is in, and writes no slot. -/
theorem runTicks_ends (hr : s.running = some w) (hd : decode w = .ok i) (hc : sequenced i = some c) (n : Nat)
    (hn : phasesLeft c.kind s.phase ≤ n) :
    Ends s (runTicks n s) ∧ ∀ t, runTicks n s = .next t → t.slots = s.slots := by
  induction n generalizing s with
  | zero => exact absurd hn (phasesLeft_pos c.kind s.phase).not_ge
  | succ n ih =>
    rcases engineTick_outcome hr hd hc with h | ⟨m, l, q, e, ho, hlt⟩
    · rw [runTicks_last n hr rfl h.1]
      exact h
    · rw [runTicks_succ n (by simp [hr]) ho]
      obtain ⟨hends, hslots⟩ := ih (s := { s with mem := m, bus := l, phase := q, work := e }) hr
        (Nat.le_of_lt_succ (hlt.trans_le hn))
      exact ⟨hends.of_goesOn, hslots⟩

theorem engineTurn_of_illegal {e : DecodeError} (hr : s.running = some w) (hd : decode w = .error e) :
    engineTurn s = finish .illegal s := by simp only [engineTurn, hr, hd]

theorem engineTick_of_illegal {e : DecodeError} (hr : s.running = some w) (hd : decode w = .error e) :
    engineTick s = finish .illegal s := by simp only [engineTick, hr, hd]

theorem engineTick_of_idle (hr : s.running = none) : engineTick s = .next s := by simp only [engineTick, hr]

theorem engineTick_slots (hr : s.running = some w) (hd : decode w = .ok i) (hc : sequenced i = some c)
    (h : engineTick s = .next t) : t.slots = s.slots := by
  rcases engineTick_outcome hr hd hc with ⟨-, hs⟩ | ⟨m, l, q, e, ho, -⟩
  · exact hs t h
  · cases ho.symm.trans h; rfl

/-- A command's turn is its one transition, or ends it without writing a slot. -/
theorem engineTurn_cases (hr : s.running = some w) (hd : decode w = .ok i) :
    engineTurn s = exec i s ∨ Ends s (engineTurn s) ∧ ∀ t, engineTurn s = .next t → t.slots = s.slots := by
  by_cases hp : s.phase = startPhase i
  · exact .inl (engineTurn_of_start hr hd hp)
  · rw [engineTurn_of_later hr hd hp]
    cases hc : sequenced i with
    | none => exact .inl (runTicks_of_unsequenced 19 hr hd hc)
    | some c => exact .inr (runTicks_ends hr hd hc 20 ((phasesLeft_le _ _).trans (by decide)))

theorem engineTurn_ends (hr : s.running = some w) : Ends s (engineTurn s) := by
  cases hd : decode w with
  | error e =>
    rw [engineTurn_of_illegal hr hd]
    exact ends_finish (.complete _ s)
  | ok i =>
    rcases engineTurn_cases hr hd with he | ⟨hends, -⟩
    · rw [he]
      exact exec_ends i s
    · exact hends

end

/-- Settles O47: each command's rule ends with a completion, and each phase ends its command or comes nearer to its end. -/
theorem everyCommandCompletes : Obligations.EveryCommandCompletes := by
  constructor
  · intro i s
    obtain ⟨c, t, h⟩ := exec_ends i s
    exact ⟨t, c, h⟩
  · intro s hb
    obtain ⟨w, hr⟩ := Option.isSome_iff_exists.mp hb
    obtain ⟨c, t, h⟩ := engineTurn_ends hr
    exact ⟨t, c, h⟩

/-! ### What a move of the host can do (R37 to R43, R486, R500, R502) -/

/-- What a move of the host can do. -/
inductive HostEffect (s : State) : HostMove → State → Prop
  | nothing (m : HostMove) : HostEffect s m s
  | reads (m : HostMove) (v : Word) (n : Nat) : HostEffect s m { s with readData := v, free := n }
  | busWrite (a : Word) (data : Bytes) (hb : a.toNat + data.length ≤ Config.busSize)
      (hr : racesWrite s a.toNat data.length = false) :
      HostEffect s (.busWrite a data) { s with mem := Memory.writeBytes s.mem a.toNat data }
  | irqEn (m : HostMove) (b : Bool) : HostEffect s m { s with irqEn := b }
  | flags (m : HostMove) (d o : Bool) (hd : d = true → s.done = true) : HostEffect s m { s with done := d, ovr := o }
  | accepts (m : HostMove) (w : Word32) (hi : s.running = none) : HostEffect s m (s.accept w)
  | writesReg (m : HostMove) (i : Reg) (v : Word) (hi : s.running = none) : HostEffect s m (s.setReg i v)
  | softReset (a v : Word) (ha : a.toNat = s.platform.base.toNat + 0x008) (hv : v.getLsbD 1 = true) :
      HostEffect s (.winWrite a 4 v) s.resetNow
  | powerOn : HostEffect s .powerOn s.resetNow

theorem windowOffset_eq_some {p : Platform} {a : Word} {off : Nat} (h : windowOffset p a = some off) :
    a.toNat = p.base.toNat + off := by
  unfold windowOffset at h
  split at h
  · cases h; omega
  · cases h

/-- CTRL is reached by a 32-bit access at offset 0x008 alone (R34, R85). -/
theorem winReg_eq_ctrl {off width : Nat} (h : winReg off width = some .ctrl) : off = 0x008 ∧ width = 4 := by
  unfold winReg wideReg at h
  grind

theorem running_eq_none {s : State} : s.busy = false ↔ s.running = none := by simp [State.busy]

/-- What a write at a window offset does. -/
theorem winWrite_effect (s : State) {a : Word} {off : Nat} (width : Nat) (v : Word)
    (ha : a.toNat = s.platform.base.toNat + off) : HostEffect s (.winWrite a width v) (winWrite off width v s) := by
  unfold winWrite
  split
  next => exact .nothing _
  next => exact .nothing _
  next => exact .nothing _
  next hw =>
    obtain ⟨rfl, rfl⟩ := winReg_eq_ctrl hw
    unfold ctrlWrite
    split
    · exact .softReset a v ha ‹_›
    · exact .irqEn _ _
  next => exact .flags _ _ _ fun h => (Bool.and_eq_true_iff.mp h).1
  next =>
    unfold cmdWrite
    split
    · exact .flags _ s.done _ id
    · exact .accepts _ _ (running_eq_none.mp (Bool.eq_false_iff.mpr ‹_›))
  next =>
    unfold argWrite
    split
    · exact .nothing _
    · exact .writesReg _ _ _ (running_eq_none.mp (Bool.eq_false_iff.mpr ‹_›))
  next => exact .nothing _
  next => exact .nothing _

/-- What a read at a window offset does. -/
theorem winRead_effect (s : State) (m : HostMove) (off width : Nat) : HostEffect s m (winRead off width s) := by
  unfold winRead
  split
  · exact .reads _ _ _
  · split
    · exact .reads _ _ _
    · exact .reads _ _ s.free

/-- A host move that does not stop has one of the effects of HostEffect. -/
theorem hostMove_effect {s t : State} {m : HostMove} (h : hostMove m s = .next t) : HostEffect s m t := by
  cases m with
  | winWrite a width v =>
    simp only [hostMove] at h
    split at h
    next => cases h; exact .nothing _
    next off ho => cases h; exact winWrite_effect s width v (windowOffset_eq_some ho)
  | winRead a width =>
    simp only [hostMove] at h
    split at h
    next => cases h; exact .nothing _
    next => cases h; exact winRead_effect s _ _ _
  | busWrite a data =>
    simp only [hostMove] at h
    split at h
    next => cases h
    next hb =>
      split at h
      next => cases h
      next hr => cases h; exact .busWrite a data (by omega) (by simpa using hr)
  | busRead a =>
    simp only [hostMove] at h
    split at h
    next => cases h
    next => cases h; exact .reads _ _ s.free
  | powerOn => cases h; exact .powerOn

/-! ### What changes a slot (R45) -/

/-- A command that changes a slot is AEAD.CLEANUP, or an INIT on an empty slot, and names the slot. -/
theorem exec_slot_changed {i : Instr} {s t : State} {c : Ctx} (h : exec i s = .next t) (hne : t.slot c ≠ s.slot c) :
    (i = .aeadCleanup c ∧ t.slot c = Slot.empty) ∨
    (∃ f rs, i = Family.initInstr f rs c ∧ t.err = .ok ∧ (s.slot c).valid = false ∧ (t.slot c).valid = true) := by
  rcases slotCommand_cases i s with ⟨ctx, rfl⟩ | ⟨f, rs, ctx, rfl⟩ | hw
  · have ht : t.slot c = if c = ctx then Slot.empty else s.slot c := by rw [exec_aeadCleanup h]; simp
    by_cases hc : c = ctx
    · rw [if_pos hc] at ht
      exact .inl ⟨by rw [hc], ht⟩
    · exact absurd (ht.trans (if_neg hc)) hne
  · obtain ⟨rfl, hslot⟩ := exec_initInstr_slot h hne
    exact .inr ⟨f, rs, rfl, hslot⟩
  · exact absurd (slot_congr (hw t h).2.2 c) hne

section
variable {s t : State} {c : Ctx}

/-- A transition of the engine that changes a slot is the one transition of the command that runs. -/
theorem engine_exec_of_slot_changed {o : Outcome} (ho : o = engineTurn s ∨ o = engineTick s) (h : o = .next t)
    (hne : t.slot c ≠ s.slot c) : ∃ w i, s.running = some w ∧ decode w = .ok i ∧ exec i s = .next t := by
  cases hr : s.running with
  | none =>
    rw [engineTurn_of_idle hr, engineTick_of_idle hr, or_self] at ho
    cases ho.symm.trans h
    exact absurd rfl hne
  | some w =>
    cases hd : decode w with
    | error e =>
      rw [engineTurn_of_illegal hr hd, engineTick_of_illegal hr hd, or_self] at ho
      cases ho.symm.trans h
      exact absurd (slot_complete s .illegal c) hne
    | ok i =>
      refine ⟨w, i, rfl, hd, ?_⟩
      rcases ho with rfl | rfl
      · rcases engineTurn_cases hr hd with he | ⟨-, hs⟩
        · exact he ▸ h
        · exact absurd (slot_congr (hs t h) c) hne
      · cases hc : sequenced i with
        | none => exact engineTick_of_unsequenced hr hd hc ▸ h
        | some a => exact absurd (slot_congr (engineTick_slots hr hd hc h) c) hne

/-- A transition of the engine that changes a slot completes an AEAD.CLEANUP, or an INIT on an empty slot, that names it. -/
theorem engine_slot_changed {o : Outcome} (ho : o = engineTurn s ∨ o = engineTick s) (h : o = .next t)
    (hne : t.slot c ≠ s.slot c) :
    (∃ w, s.running = some w ∧ t.running = none ∧ decode w = .ok (.aeadCleanup c) ∧ t.slot c = Slot.empty) ∨
    (∃ w f rs, s.running = some w ∧ t.running = none ∧ decode w = .ok (Family.initInstr f rs c) ∧ t.err = .ok ∧
      (s.slot c).valid = false ∧ (t.slot c).valid = true) := by
  obtain ⟨w, i, hr, hd, hexec⟩ := engine_exec_of_slot_changed ho h hne
  obtain ⟨code, u, hu, hcomp⟩ := exec_ends i s
  cases hexec.symm.trans hu
  rcases exec_slot_changed hexec hne with ⟨rfl, hempty⟩ | ⟨f, rs, rfl, hslot⟩
  · exact .inl ⟨w, hr, hcomp.running, hd, hempty⟩
  · exact .inr ⟨w, f, rs, hr, hcomp.running, hd, hslot⟩

/-- A host move that changes a slot is a reset, which empties it. -/
theorem hostMove_slot_changed {m : HostMove} (h : hostMove m s = .next t) (hne : t.slot c ≠ s.slot c) :
    t.slot c = Slot.empty ∧ (m = .powerOn ∨
      ∃ a v, m = .winWrite a 4 v ∧ a.toNat = s.platform.base.toNat + 0x008 ∧ v.getLsbD 1 = true) := by
  cases hostMove_effect h with
  | softReset a v ha hv => exact ⟨slot_resetNow s c, .inr ⟨a, v, rfl, ha, hv⟩⟩
  | powerOn => exact ⟨slot_resetNow s c, .inl rfl⟩
  | _ => exact absurd rfl hne

end

/-- Settles O51: exec_slot_changed for the commands, and for a step the head of its moves. -/
theorem slotsWrittenOnlyByInitAndCleanup : Obligations.SlotsWrittenOnlyByInitAndCleanup := by
  refine ⟨fun i s t c h hne => exec_slot_changed h hne, fun s t c h hne => ?_⟩
  rcases hm : s.moves with _ | ⟨m, rest⟩
  · exact (engine_slot_changed (.inl (step_of_nil hm)) h hne).imp_right .inl
  · cases m with
    | engine => exact (engine_slot_changed (s := { s with moves := rest }) (.inl (step_of_engine hm)) h hne).imp_right .inl
    | tick => exact (engine_slot_changed (s := { s with moves := rest }) (.inr (step_of_tick hm)) h hne).imp_right .inl
    | host m =>
      rw [step_of_host hm] at h
      obtain ⟨hempty, rfl | ⟨a, v, rfl, ha, hv⟩⟩ := hostMove_slot_changed (s := { s with moves := rest }) h hne
      · exact .inr (.inr (.inl ⟨hempty, rest, rfl⟩))
      · exact .inr (.inr (.inr ⟨hempty, a, v, rest, rfl, ha, hv⟩))

end Sys2Proof.Machine

/-! SUPPORT. The invariant of the machine: memory and slots after a command, the buffers of the phases, the host's moves; the
statements O45 and O46. -/

namespace Sys2Proof.Machine

/-! ### Bus memory in canonical form (R80) -/

/-- The memory is in canonical form and within the bus space. -/
def Memory.Canonical (m : Memory) : Prop := Memory.wf m = true ∧ Memory.bounded m = true

theorem Memory.Canonical.writeBytes {m : Memory} (h : m.Canonical) {a : Nat} {bs : Bytes}
    (hb : bs.length = 0 ∨ a + bs.length ≤ Config.busSize) : (Memory.writeBytes m a bs).Canonical :=
  ⟨Memory.writeBytes_wf a bs h.1, Memory.writeBytes_bounded h.2 hb⟩

/-- A region that is accessible holds every string that is no longer than it (R81). -/
theorem accessible_within_bus {p : Platform} {a n k : Nat} {d : Dir} (h : p.accessible a n d = true) (hk : k ≤ n) :
    k = 0 ∨ a + k ≤ Config.busSize := by
  have := Platform.accessible_bound h
  omega

theorem admits_within_bus {p : Platform} {r : Region} {k : Nat} {d : Dir} (h : p.admits r d = true) (hk : k ≤ r.n) :
    k = 0 ∨ r.addr + k ≤ Config.busSize := accessible_within_bus h hk

theorem cmxorBytes_canonical (n pd ps : Nat) (m8 : Byte) (s : State) (h : s.mem.Canonical)
    (hb : n = 0 ∨ pd + n ≤ Config.busSize) : (cmxorBytes n pd ps m8 s).mem.Canonical := by
  induction n generalizing pd ps s with
  | zero => exact h
  | succ n ih => exact ih _ _ _ (h.writeBytes (.inr (by simp; omega))) (by omega)

/-! ### The slots after a command (R44, R205, R212) -/

theorem Slot.empty_wf : Slot.empty.wf := rfl

/-- The key length that names an algorithm is that algorithm's, and the algorithm is of the family (R205). -/
theorem algOfKeyLen_eq_some {f : Family} {n : Nat} {alg : Alg} (h : f.algOfKeyLen n = some alg) :
    alg.family = f ∧ alg.keyLen = n := by
  cases f <;> simp only [Family.algOfKeyLen] at h <;> grind [Alg.family, Alg.keyLen]

theorem Alg.keyLen_le (alg : Alg) : alg.keyLen ≤ 32 := by cases alg <;> decide

section
variable {alg : Alg} {key : Bytes} (t : Nat)

theorem plainSlot_key_length (h : key.length = alg.keyLen) : (plainSlot alg t key).key.length = 32 := by
  have := alg.keyLen_le
  simp only [plainSlot, List.length_append, zeros_length]
  omega

theorem plainSlot_key_drop (h : key.length = alg.keyLen) :
    (plainSlot alg t key).key.drop alg.keyLen = zeros (32 - alg.keyLen) := by
  simp only [plainSlot, ← h, List.drop_left]

theorem plainSlot_rawKey (h : key.length = alg.keyLen) : (plainSlot alg t key).rawKey = key := by
  simp only [Slot.rawKey, plainSlot, ← h, List.take_left]

theorem plainSlot_tagLen (h : t < 32) : (plainSlot alg t key).tagLen = t := by
  simp only [plainSlot, Slot.tagLen, BitVec.toNat_ofNat]
  omega

end

theorem Family.tagOk_lt {f : Family} {t : Nat} (h : f.tagOk t = true) : t < 32 := by
  cases f <;> simp [Family.tagOk] at h <;> omega

/-- A context with zero masks is well-formed (R300, R350). -/
theorem plainSlot_wf {alg : Alg} {t : Nat} {key : Bytes} (hf : alg.family ≠ .eax) (ht : alg.family.tagOk t = true)
    (hk : key.length = alg.keyLen) : (plainSlot alg t key).wf := by
  unfold Slot.wf
  rw [if_pos (by rfl), plainSlot_tagLen t (Family.tagOk_lt ht)]
  exact ⟨plainSlot_key_length t hk, plainSlot_key_drop t hk, ht, fun h => absurd h hf, fun _ => ⟨rfl, rfl⟩⟩

/-- A context with EAX's masks is well-formed (R250, R252). -/
theorem eaxSlot_wf {alg : Alg} (n : Nat) {key : Bytes} (hf : alg.family = .eax) (hk : key.length = alg.keyLen) :
    (eaxSlot alg n key).wf := by
  have hraw : (eaxSlot alg n key).rawKey = key := plainSlot_rawKey 16 hk
  have htag : alg.family.tagOk 16 = true := by rw [hf]; rfl
  unfold Slot.wf
  rw [if_pos (by rfl), hraw]
  exact ⟨plainSlot_key_length 16 hk, plainSlot_key_drop 16 hk, htag, fun _ => ⟨rfl, rfl⟩, fun h => absurd hf h⟩

/-- The slot that INIT writes is well-formed (R205). -/
theorem slotOf_wf {f : Family} {alg : Alg} {n t : Nat} {key : Bytes} (ha : f.algOfKeyLen n = some alg)
    (ht : f.tagOk t = true) (hk : key.length = n) : (f.slotOf alg t key).wf := by
  obtain ⟨rfl, rfl⟩ := algOfKeyLen_eq_some ha
  cases hf : alg.family with
  | eax => exact eaxSlot_wf t hf hk
  | siv => exact plainSlot_wf (by simp [hf]) (by rw [hf]; rfl) hk
  | ccp => exact plainSlot_wf (by simp [hf]) ht hk

theorem setSlot_wf {s : State} (h : ∀ c, (s.slot c).wf) {ctx : Ctx} {sl : Slot} (hsl : sl.wf) (c : Ctx) :
    ((s.setSlot ctx sl).slot c).wf := by
  rw [slot_setSlot]
  split
  · exact hsl
  · exact h c

/-- Every command leaves slots well-formed. -/
theorem exec_slots_wf {i : Instr} {s t : State} (h : exec i s = .next t) (hs : ∀ c, (s.slot c).wf) (c : Ctx) :
    (t.slot c).wf := by
  rcases slotCommand_cases i s with ⟨ctx, rfl⟩ | ⟨f, rs, ctx, rfl⟩ | hw
  · rw [exec_aeadCleanup h]
    exact setSlot_wf hs Slot.empty_wf c
  · obtain ⟨-, -, ht | ⟨-, -, alg, ha, htag, ht⟩⟩ := exec_initInstr_writes h
    · rw [slot_congr ht]
      exact hs c
    · rw [slot_congr ht]
      exact setSlot_wf hs (slotOf_wf ha htag (Memory.readBytes_length ..)) c
  · rw [slot_congr (hw t h).2.2]
    exact hs c

/-! ### Memory after a command without a sequencer -/

theorem execCtMemcmp_mem {rd rs1 rs2 rs3 : Reg} {s t : State} (h : execCtMemcmp rd rs1 rs2 rs3 s = .next t) :
    t.mem = s.mem := by
  unfold execCtMemcmp at h
  dsimp only at h
  split at h
  · cases h; rfl
  · cases h; rfl

theorem execCtCmxor_canonical {rd rs1 rs2 rs3 : Reg} {s t : State} (h : execCtCmxor rd rs1 rs2 rs3 s = .next t)
    (hm : s.mem.Canonical) : t.mem.Canonical := by
  unfold execCtCmxor at h
  dsimp only at h
  split at h
  next ha =>
    cases h
    exact cmxorBytes_canonical _ _ _ _ s hm (Platform.accessible_bound (Bool.and_eq_true_iff.mp ha).1)
  next => cases h; exact hm

theorem execRecRmpad_mem {rd rs : Reg} {s t : State} (h : execRecRmpad rd rs s = .next t) : t.mem = s.mem := by
  rcases execRecRmpad_cases rd rs s with ⟨-, he⟩ | ⟨-, -, he⟩ | ⟨-, -, he⟩
  · cases he.symm.trans h; rfl
  · cases he.symm.trans h; rfl
  · rcases he _ rfl with ⟨-, he⟩ | ⟨-, -, he⟩ | ⟨-, -, he⟩
    · cases he.symm.trans h; rfl
    · cases he.symm.trans h; rfl
    · rw [he _ rfl, finish_eq_next] at h
      rw [h]
      simp

theorem execRecXmac_canonical {rs : Reg} {s t : State} (h : execRecXmac rs s = .next t) (hm : s.mem.Canonical) :
    t.mem.Canonical := by
  rcases execRecXmac_cases rs s with ⟨-, he⟩ | ⟨-, c, -, he⟩ | ⟨-, hc, he⟩
  · cases he.symm.trans h; exact hm
  · cases he.symm.trans h; exact hm
  · obtain ⟨-, -, -, -, -, -, hout⟩ := xmacCheck_eq_none_iff.mp hc
    rw [he _ rfl _ rfl _ rfl, finish_eq_next] at h
    rw [h, complete_mem, memWrite_mem, setWork_mem, logRead_mem, logRead_mem]
    refine hm.writeBytes ?_
    rw [xmacRotate_length _ _ _ _ _ (xmacGather_rot_length ..)]
    exact Platform.accessible_bound hout

/-- A command without a sequencer leaves memory canonical. -/
theorem exec_canonical_of_unsequenced {i : Instr} {s t : State} (hi : sequenced i = none) (h : exec i s = .next t)
    (hm : s.mem.Canonical) : t.mem.Canonical := by
  cases i with
  | ctMemcmp rd rs1 rs2 rs3 => rw [execCtMemcmp_mem h]; exact hm
  | ctCmxor rd rs1 rs2 rs3 => exact execCtCmxor_canonical h hm
  | recRmpad rd rs => rw [execRecRmpad_mem h]; exact hm
  | recXmac rs => exact execRecXmac_canonical (rs := rs) (s := s) (t := t) h hm
  | eaxInit rs ctx => rw [(exec_initInstr_writes (f := .eax) (rs := rs) (ctx := ctx) h).2.1]; exact hm
  | sivInit rs ctx => rw [(exec_initInstr_writes (f := .siv) (rs := rs) (ctx := ctx) h).2.1]; exact hm
  | ccpInit rs ctx => rw [(exec_initInstr_writes (f := .ccp) (rs := rs) (ctx := ctx) h).2.1]; exact hm
  | eaxSeal rd rs ctx => cases hi
  | eaxOpen rd rs ctx => cases hi
  | sivSeal rd rs ctx => cases hi
  | sivOpen rd rs ctx => cases hi
  | ccpSeal rd rs ctx => cases hi
  | ccpSealx rd rs ctx => cases hi
  | ccpOpen rd rs ctx => cases hi
  | _ => cases h; exact hm

/-! ### The invariant after a completion and after a phase that goes on -/

theorem State.Inv.canonical {s : State} (h : s.Inv) : s.mem.Canonical := ⟨h.memWf, h.memBounded⟩

/-- An idle engine with cleared buffers meets the invariant when its memory and its slots do. -/
theorem inv_of_idle {s : State} (hm : s.mem.Canonical) (hs : ∀ c, (s.slot c).wf) (ha : s.sivAccel = s.platform.sivAccel)
    (hr : s.running = none) (hp : s.phase = .idle) (hw : s.work = Work.cleared) : s.Inv where
  memWf := hm.1
  memBounded := hm.2
  slotsWf := hs
  notDone h := by rw [hr] at h; cases h
  idleCleared _ := ⟨hp, hw⟩
  phaseOk w h := by rw [hr] at h; cases h
  buffers w i c h := by rw [hr] at h; cases h
  accel := ha

/-- A completion keeps the invariant when memory and slots stay well-formed. -/
theorem State.Inv.of_completed {s t : State} {c : Code} (h : s.Inv) (hc : Completed c s t) (hm : t.mem.Canonical)
    (hs : ∀ c, (t.slot c).wf) : t.Inv :=
  inv_of_idle hm hs (by rw [hc.sivAccel, hc.platform, h.accel]) hc.running hc.phase hc.work

/-- The buffers of a command whose descriptor words are o and whose tag length is t fit the regions they are written to. -/
structure Work.Fits (e : Work) (o : AeadOps) (t : Nat) : Prop where
  ops : e.ops = o
  inp : e.inp.length = o.inLen
  extra : e.extra.length = o.extraLen
  omacC : e.omacC.length ≤ 16
  out : e.out.length ≤ o.inLen
  xout : e.xout.length ≤ o.extraLen
  tag : e.tag.length ≤ t

theorem buffersFit_iff {c : AeadCommand} {s : State} : BuffersFit c s ↔
    AeadReady c.family c.kind c.rs c.ctx s ∧ s.work.Fits (s.aeadOps c.rs c.kind) (s.slot c.ctx).tagLen :=
  ⟨fun ⟨h, a, b, d, e, f, g, i⟩ => ⟨h, a, b, d, e, f, g, i⟩, fun ⟨h, a, b, d, e, f, g, i⟩ => ⟨h, a, b, d, e, f, g, i⟩⟩

/-- The snapshot fits, with no other buffer filled yet (R90). -/
theorem snapshot_fits (s : State) (c : AeadCommand) (t : Nat) :
    (s.snapshot c.rs c.kind).Fits (s.aeadOps c.rs c.kind) t where
  ops := rfl
  inp := snapshot_inp_length ..
  extra := by
    cases hk : c.kind with
    | sealing => rfl
    | sealingX => exact snapshot_extra_length ..
    | opening => rfl
  omacC := Nat.zero_le _
  out := Nat.zero_le _
  xout := Nat.zero_le _
  tag := Nat.zero_le _

/-- The prologue's conditions depend on the registers, the slots, the platform and the descriptor's words. -/
theorem AeadReady.of_same {f : Family} {k : Kind} {rs : Reg} {ctx : Ctx} {s u : State} (h : AeadReady f k rs ctx s)
    (hx : u.x = s.x) (hs : u.slots = s.slots) (hp : u.platform = s.platform) (ho : u.aeadOps rs k = s.aeadOps rs k) :
    AeadReady f k rs ctx u := by
  have hreg : u.regNat rs = s.regNat rs := congrArg BitVec.toNat (reg_congr hx rs)
  rw [aeadReady_iff] at h ⊢
  rwa [hreg, hp, ho, slot_congr hs ctx]

section
variable {s : State} {w : Word32} {i : Instr} {c : AeadCommand}

theorem phaseFits_iff_mem (hd : decode w = .ok i) (hc : sequenced i = some c) {q : Phase} :
    phaseFits w q ↔ q ∈ phasesOf c := by simp only [phaseFits, hd, hc]

/-- A phase that goes on keeps the invariant when the descriptor's words stay as they are and the new buffers fit. -/
theorem State.Inv.goesOn (h : s.Inv) (hr : s.running = some w) (hd : decode w = .ok i) (hc : sequenced i = some c)
    {m : Memory} {l : List BusAccess} {q : Phase} {e : Work} (hm : m.Canonical) (hq : q ∈ phasesOf c)
    (hready : AeadReady c.family c.kind c.rs c.ctx s) (ho : Machine.aeadOps m (s.regNat c.rs) c.kind = s.aeadOps c.rs c.kind)
    (he : e.Fits (s.aeadOps c.rs c.kind) (s.slot c.ctx).tagLen) :
    State.Inv { s with mem := m, bus := l, phase := q, work := e } where
  memWf := hm.1
  memBounded := hm.2
  slotsWf := h.slotsWf
  notDone := h.notDone
  idleCleared hn := by cases hr.symm.trans hn
  phaseOk w' hr' := by
    cases hr.symm.trans hr'
    exact (phaseFits_iff_mem hd hc).mpr hq
  buffers w' i' c' hr' hd' hc' _ := by
    cases hr.symm.trans hr'
    cases hd.symm.trans hd'
    cases hc.symm.trans hc'
    have hops : State.aeadOps { s with mem := m, bus := l, phase := q, work := e } c.rs c.kind = s.aeadOps c.rs c.kind := ho
    rw [buffersFit_iff, hops]
    exact ⟨hready.of_same rfl rfl rfl hops, he⟩
  accel := h.accel

/-- A phase that only fills buffers. -/
theorem State.Inv.goTo (h : s.Inv) (hr : s.running = some w) (hd : decode w = .ok i) (hc : sequenced i = some c)
    (hb : BuffersFit c s) {q : Phase} {e : Work} (hq : q ∈ phasesOf c)
    (he : e.Fits (s.aeadOps c.rs c.kind) (s.slot c.ctx).tagLen) : (s.setPhase q e).Inv :=
  h.goesOn hr hd hc h.canonical hq hb.ready rfl he

/-- The prologue's phase (R206). -/
theorem prologueTick_inv (h : s.Inv) (hr : s.running = some w) (hd : decode w = .ok i) (hc : sequenced i = some c)
    {q : Phase} (hq : q ∈ phasesOf c) {t : State} (ht : prologueTick c q s = .next t) : t.Inv := by
  rcases prologueTick_cases c q (fun _ _ _ => finish .ok s) s with ⟨code, u, he, -, hm, -, hs, hcomp⟩ | ⟨hready, hgo⟩
  · cases he.symm.trans ht
    exact h.of_completed hcomp (hm ▸ h.canonical) fun x => by rw [slot_complete, slot_congr hs]; exact h.slotsWf x
  · cases (hgo _ rfl).1.symm.trans ht
    exact h.goesOn hr hd hc h.canonical hq hready rfl (snapshot_fits s c _)

/-- A tag that failed (R210). -/
theorem authFail_inv (h : s.Inv) : (s.complete .authFail).Inv :=
  h.of_completed (.complete _ s) h.canonical h.slotsWf

/-- A string no longer than the output region lies within the bus space (R206). -/
theorem AeadReady.out_within_bus (h : AeadReady c.family c.kind c.rs c.ctx s) {k : Nat}
    (hk : k ≤ (s.aeadOps c.rs c.kind).inLen) : k = 0 ∨ (s.aeadOps c.rs c.kind).outAddr + k ≤ Config.busSize := by
  have hout := h.writes (outRegion _) List.mem_cons_self
  have hk' := admits_within_bus hout hk
  exact hk'

/-- A string no longer than the tag region lies within the bus space (R206). -/
theorem AeadReady.tag_within_bus (h : AeadReady c.family c.kind c.rs c.ctx s) (ho : c.kind ≠ .opening) {k : Nat}
    (hk : k ≤ (s.aeadOps c.rs c.kind).extraLen + (s.slot c.ctx).tagLen) :
    k = 0 ∨ (s.aeadOps c.rs c.kind).tagAddr + k ≤ Config.busSize := by
  obtain ⟨f, kind, rd, rs, ctx⟩ := c
  cases kind with
  | sealing =>
    have h0 : (s.aeadOps rs .sealing).extraLen = 0 := aeadOps_extraLen_of_sealing s rs
    rw [h0, Nat.zero_add] at hk
    have htag := h.writes ⟨(s.aeadOps rs .sealing).tagAddr, (s.slot ctx).tagLen⟩ (by simp [writeRegions, otherWrites])
    have hk' := admits_within_bus htag hk
    exact hk'
  | sealingX =>
    have htag := h.writes ⟨(s.aeadOps rs .sealingX).tagAddr, (s.aeadOps rs .sealingX).extraLen + (s.slot ctx).tagLen⟩
      (by simp [writeRegions, otherWrites])
    have hk' := admits_within_bus htag hk
    exact hk'
  | opening => exact absurd rfl ho

/-- The end of a SEAL or SEALX whose strings fit their regions (R210). -/
theorem finishSeal_inv (h : s.Inv) (hb : BuffersFit c s) (ho : c.kind ≠ .opening) {out tagRegion : Bytes} {n : Nat}
    (hout : out.length ≤ s.work.ops.inLen) (htag : tagRegion.length ≤ s.work.ops.extraLen + (s.slot c.ctx).tagLen)
    {t : State} (ht : finishSeal c.rd s.work.ops out tagRegion n s = .next t) : t.Inv := by
  rw [hb.ops] at hout htag ht
  obtain ⟨u, hu, hcomp, -, hmem⟩ := finishSeal_writes c.rd (s.aeadOps c.rs c.kind) out tagRegion n s
  cases hu.symm.trans ht
  refine h.of_completed hcomp ?_ fun x => ?_
  · rw [hmem]
    exact (h.canonical.writeBytes (hb.ready.out_within_bus hout)).writeBytes (hb.ready.tag_within_bus ho htag)
  · rw [slot_congr (writesOnly_finishSeal s _ _ _ _ _ ht).2.2]
    exact h.slotsWf x

/-- The end of an OPEN whose string fits the output region (R210). -/
theorem finishOpen_inv (h : s.Inv) (hb : BuffersFit c s) {out : Bytes} (hout : out.length ≤ s.work.ops.inLen)
    {t : State} (ht : finishOpen c.rd s.work.ops out s = .next t) : t.Inv := by
  rw [hb.ops] at hout ht
  obtain ⟨u, hu, hcomp, -, hmem⟩ := finishOpen_writes c.rd (s.aeadOps c.rs c.kind) out s
  cases hu.symm.trans ht
  refine h.of_completed hcomp ?_ fun x => ?_
  · rw [hmem]
    exact h.canonical.writeBytes (hb.ready.out_within_bus hout)
  · rw [slot_congr (writesOnly_finishOpen s _ _ _ ht).2.2]
    exact h.slotsWf x

/-- The tag length of a running EAX or GCM-SIV command is 16 (R250, R300). -/
theorem BuffersFit.tagLen (hb : BuffersFit c s) (h : s.Inv) (hf : c.family ≠ .ccp) : (s.slot c.ctx).tagLen = 16 :=
  Slot.wf_tagLen (h.slotsWf c.ctx) hb.ready.valid (hb.ready.family ▸ hf)

end

/-! ### The phases keep the invariant (R257, R258, R311, R358) -/

theorem startPhase_of_sequenced {i : Instr} {c : AeadCommand} (hc : sequenced i = some c) :
    startPhase i = match c.family, c.kind with
      | .eax, .opening => .o0
      | .eax, _ => .s0
      | .siv, _ => .p0
      | .ccp, _ => .q0 := by
  cases i <;> cases hc <;> rfl

/-- What S4 and O4 compute is no longer than a block (R257, R258). -/
theorem xorBytes_length_le {a b : Bytes} {n : Nat} (h : a.length ≤ n) : (xorBytes a b).length ≤ n := by
  rw [xorBytes_length]
  exact (Nat.min_le_left _ _).trans h

section
variable {s t : State} {w : Word32} {rd rs : Reg} {ctx : Ctx}

/-- S1 to S4 fill buffers, S5 writes C and TAG (R257). -/
theorem eaxSealTick_inv {i : Instr} (h : s.Inv) (hr : s.running = some w) (hd : decode w = .ok i)
    (hc : sequenced i = some ⟨.eax, .sealing, rd, rs, ctx⟩)
    (ht : eaxSealTick ⟨.eax, .sealing, rd, rs, ctx⟩ s = some (.next t)) : t.Inv := by
  have hstart : startPhase i = .s0 := startPhase_of_sequenced hc
  by_cases hfirst : s.phase = .s0
  · simp only [eaxSealTick, hfirst] at ht
    exact prologueTick_inv h hr hd hc (by simp [phasesOf]) (Option.some.inj ht)
  · have hb := h.buffers w i _ hr hd hc (hstart ▸ hfirst)
    have hfits := (buffersFit_iff.mp hb).2
    unfold eaxSealTick at ht
    split at ht
    next hp => exact absurd hp hfirst
    next =>
      cases ht
      exact h.goTo hr hd hc hb (by simp [phasesOf]) { hfits with }
    next =>
      cases ht
      exact h.goTo hr hd hc hb (by simp [phasesOf]) { hfits with }
    next =>
      cases ht
      exact h.goTo hr hd hc hb (by simp [phasesOf])
        { hfits with omacC := (slotOmac_length ..).le, out := by simp [hb.inp] }
    next =>
      cases ht
      exact h.goTo hr hd hc hb (by simp [phasesOf]) { hfits with
        tag := (xorBytes_length_le (xorBytes_length_le hb.omacC)).trans (hb.tagLen h nofun).ge }
    next =>
      exact finishSeal_inv h hb nofun (hb.out.trans_eq (by rw [hb.ops])) (hb.tag.trans (Nat.le_add_left _ _))
        (Option.some.inj ht)
    next => cases ht

/-- O1 to O4 fill buffers, O4 may end with AUTHFAIL, O5 writes the plaintext (R258). -/
theorem eaxOpenTick_inv {i : Instr} (h : s.Inv) (hr : s.running = some w) (hd : decode w = .ok i)
    (hc : sequenced i = some ⟨.eax, .opening, rd, rs, ctx⟩)
    (ht : eaxOpenTick ⟨.eax, .opening, rd, rs, ctx⟩ s = some (.next t)) : t.Inv := by
  have hstart : startPhase i = .o0 := startPhase_of_sequenced hc
  by_cases hfirst : s.phase = .o0
  · simp only [eaxOpenTick, hfirst] at ht
    exact prologueTick_inv h hr hd hc (by simp [phasesOf]) (Option.some.inj ht)
  · have hb := h.buffers w i _ hr hd hc (hstart ▸ hfirst)
    have hfits := (buffersFit_iff.mp hb).2
    unfold eaxOpenTick at ht
    split at ht
    next hp => exact absurd hp hfirst
    next =>
      cases ht
      exact h.goTo hr hd hc hb (by simp [phasesOf]) { hfits with }
    next =>
      cases ht
      exact h.goTo hr hd hc hb (by simp [phasesOf]) { hfits with }
    next =>
      cases ht
      exact h.goTo hr hd hc hb (by simp [phasesOf]) { hfits with omacC := (slotOmac_length ..).le }
    next =>
      dsimp only at ht
      split at ht
      · cases ht
        exact h.goTo hr hd hc hb (by simp [phasesOf]) { hfits with
          tag := (xorBytes_length_le (xorBytes_length_le hb.omacC)).trans (hb.tagLen h nofun).ge }
      · cases ht
        exact authFail_inv h
    next =>
      refine finishOpen_inv h hb ?_ (Option.some.inj ht)
      rw [eaxCtr_length, hb.ops, hb.inp]
    next => cases ht

/-! X1 of SIV.OPEN writes memory and goes on: the descriptor's words stay as they are. -/

theorem le64At_writeBytes_apart {m : Memory} {a c : Nat} {bs : Bytes} (h : bs.length = 0 ∨ a + 8 ≤ c ∨ c + bs.length ≤ a) :
    le64At (Memory.writeBytes m c bs) a = le64At m a := by
  rw [le64At, Memory.readBytes_writeBytes_apart (.inr h), le64At]

/-- A write apart from a descriptor block leaves its words (R204). -/
theorem aeadOps_writeBytes_apart {m : Memory} {d c : Nat} {bs : Bytes} (k : Kind)
    (h : Region.apart ⟨c, bs.length⟩ (aeadBlock d)) : aeadOps (Memory.writeBytes m c bs) d k = aeadOps m d k := by
  have hword : ∀ o, o ≤ 88 → le64At (Memory.writeBytes m c bs) (d + o) = le64At m (d + o) := fun o ho =>
    le64At_writeBytes_apart (by simp only [Region.apart, aeadBlock] at h; omega)
  have hfirst : le64At (Memory.writeBytes m c bs) d = le64At m d := hword 0 (by decide)
  simp [aeadOps, hword, hfirst]

/-- The output region of a running command is apart from its descriptor block (R92, R202). -/
theorem AeadReady.aeadOps_after_out {f : Family} {k : Kind} (h : AeadReady f k rs ctx s) {out : Bytes}
    (hout : out.length ≤ (s.aeadOps rs k).inLen) :
    aeadOps (Memory.writeBytes s.mem (s.aeadOps rs k).outAddr out) (s.regNat rs) k = s.aeadOps rs k := by
  have hapart := h.blockApart (outRegion _) List.mem_cons_self
  refine aeadOps_writeBytes_apart k ?_
  simp only [Region.apart, outRegion] at hapart ⊢
  omega

/-- A phase that writes the output region and goes on. -/
theorem State.Inv.writesOut {i : Instr} {c : AeadCommand} (h : s.Inv) (hr : s.running = some w) (hd : decode w = .ok i)
    (hc : sequenced i = some c) (hb : BuffersFit c s) {out : Bytes} (hout : out.length ≤ (s.aeadOps c.rs c.kind).inLen)
    {q : Phase} {e : Work} (hq : q ∈ phasesOf c) (he : e.Fits (s.aeadOps c.rs c.kind) (s.slot c.ctx).tagLen) :
    ((s.memWrite s.work.ops.outAddr out).setPhase q e).Inv := by
  rw [hb.ops]
  have hm := h.canonical.writeBytes (hb.ready.out_within_bus hout)
  exact h.goesOn hr hd hc hm hq hb.ready (hb.ready.aeadOps_after_out hout) he

theorem kdf_next_mem {k : Kind} (j : Nat) {n : Nat} (hn : n ≤ 6) :
    (if j + 1 < n then Phase.kdf (j + 1) else .assemble) ∈ phasesOf ⟨.siv, k, rd, rs, ctx⟩ := by
  split
  next hj =>
    have : j < 5 := by omega
    interval_cases j <;> cases k <;> simp [phasesOf]
  next => cases k <;> simp [phasesOf]

/-- Only X1 writes memory; of OPEN it goes on (R311). -/
theorem sivTick_inv {i : Instr} {k : Kind} (h : s.Inv) (hr : s.running = some w) (hd : decode w = .ok i)
    (hc : sequenced i = some ⟨.siv, k, rd, rs, ctx⟩) (ht : sivTick ⟨.siv, k, rd, rs, ctx⟩ s = some (.next t)) :
    t.Inv := by
  have hstart : startPhase i = .p0 := startPhase_of_sequenced hc
  by_cases hfirst : s.phase = .p0
  · simp only [sivTick, hfirst] at ht
    exact prologueTick_inv h hr hd hc (by cases k <;> simp [phasesOf]) (Option.some.inj ht)
  · have hb := h.buffers w i _ hr hd hc (hstart ▸ hfirst)
    have hfits := (buffersFit_iff.mp hb).2
    unfold sivTick at ht
    split at ht
    next hp => exact absurd hp hfirst
    next j _ =>
      cases ht
      exact h.goTo hr hd hc hb (kdf_next_mem j (kdfCount_le _)) { hfits with }
    next =>
      cases ht
      exact h.goTo hr hd hc hb (by cases k <;> simp [phasesOf]) { hfits with }
    next =>
      cases ht
      exact h.goTo hr hd hc hb (by cases k <;> simp [phasesOf]) { hfits with }
    next =>
      cases ht
      exact h.goTo hr hd hc hb (by cases k <;> simp [phasesOf]) { hfits with }
    next =>
      cases ht
      exact h.goTo hr hd hc hb (by cases k <;> simp [phasesOf]) { hfits with
        tag := (aesEnc_length ..).trans_le (hb.tagLen h nofun).ge }
    next =>
      cases ht
      exact h.goTo hr hd hc hb (by cases k <;> simp [phasesOf]) { hfits with }
    next =>
      have hlen : (sivCtrFrom s.work.encKey s.work.ctrBlock s.work.inp).length = (s.aeadOps rs k).inLen := by
        rw [sivCtrFrom_length, hb.inp]
      dsimp only at ht
      split at ht
      next hk =>
        subst hk
        cases ht
        exact h.writesOut hr hd hc hb hlen.le (by simp [phasesOf]) { hfits with out := hlen.le }
      next hk =>
        exact finishSeal_inv h hb hk (hlen.trans_le (by rw [hb.ops])) (hb.tag.trans (Nat.le_add_left _ _))
          (Option.some.inj ht)
    next =>
      dsimp only at ht
      split at ht
      · cases ht
        exact h.of_completed ((Completed.complete _ s).setReg _ _) h.canonical h.slotsWf
      · cases ht
        exact authFail_inv h
    next => cases ht

/-- Q6 and Q8 alone write memory; Q6 is no phase of OPEN, and Q7 no phase of SEAL or SEALX (R358). -/
theorem ccpTick_inv {i : Instr} {k : Kind} (h : s.Inv) (hr : s.running = some w) (hd : decode w = .ok i)
    (hc : sequenced i = some ⟨.ccp, k, rd, rs, ctx⟩) (ht : ccpTick ⟨.ccp, k, rd, rs, ctx⟩ s = some (.next t)) :
    t.Inv := by
  have hstart : startPhase i = .q0 := startPhase_of_sequenced hc
  have hphase : s.phase ∈ phasesOf ⟨.ccp, k, rd, rs, ctx⟩ := (phaseFits_iff_mem hd hc).mp (h.phaseOk w hr)
  by_cases hfirst : s.phase = .q0
  · simp only [ccpTick, hfirst] at ht
    exact prologueTick_inv h hr hd hc (by cases k <;> simp [phasesOf]) (Option.some.inj ht)
  · have hb := h.buffers w i _ hr hd hc (hstart ▸ hfirst)
    have hfits := (buffersFit_iff.mp hb).2
    unfold ccpTick at ht
    split at ht
    next hp => exact absurd hp hfirst
    next =>
      cases ht
      exact h.goTo hr hd hc hb (by cases k <;> simp [phasesOf]) { hfits with }
    next =>
      cases ht
      exact h.goTo hr hd hc hb (by cases k <;> simp [phasesOf]) { hfits with }
    next =>
      split at ht
      · cases ht
        exact h.goTo hr hd hc hb (by cases k <;> simp [phasesOf]) { hfits with }
      · cases ht
        exact h.goTo hr hd hc hb (by cases k <;> simp [phasesOf]) { hfits with
          out := xorBytes_length_le hb.inp.le }
    next =>
      split at ht
      · cases ht
        exact h.goTo hr hd hc hb (by cases k <;> simp [phasesOf]) { hfits with
          xout := xorBytes_length_le hb.extra.le }
      · cases ht
        exact h.goTo hr hd hc hb (by cases k <;> simp [phasesOf]) hfits
    next =>
      cases ht
      exact h.goTo hr hd hc hb (by cases k <;> simp [phasesOf]) { hfits with
        tag := List.length_take_le _ _ }
    next hp =>
      have hk : k ≠ .opening := by rintro rfl; simp [hp, phasesOf] at hphase
      refine finishSeal_inv h hb hk (hb.out.trans_eq (by rw [hb.ops])) ?_ (Option.some.inj ht)
      rw [List.length_append, hb.ops]
      exact Nat.add_le_add hb.xout hb.tag
    next hp =>
      dsimp only at ht
      split at ht
      · cases ht
        have hk : k = .opening := by cases k <;> simp [hp, phasesOf] at hphase ⊢
        exact h.goTo hr hd hc hb (by simp [hk, phasesOf]) hfits
      · cases ht
        exact authFail_inv h
    next =>
      exact finishOpen_inv h hb (xorBytes_length_le (hb.inp.trans_le (by rw [hb.ops]))) (Option.some.inj ht)
    next => cases ht

end

/-! ### The engine keeps the invariant -/

section
variable {s t : State} {w : Word32} {i : Instr} {c : AeadCommand}

theorem phaseTick_inv (h : s.Inv) (hr : s.running = some w) (hd : decode w = .ok i) (hc : sequenced i = some c)
    (ht : phaseTick c s = some (.next t)) : t.Inv := by
  obtain ⟨f, k, rd, rs, ctx⟩ := c
  cases f with
  | eax =>
    cases k with
    | sealing => exact eaxSealTick_inv h hr hd hc ht
    | sealingX => cases ht
    | opening => exact eaxOpenTick_inv h hr hd hc ht
  | siv => exact sivTick_inv h hr hd hc ht
  | ccp => exact ccpTick_inv h hr hd hc ht

/-- A sequencer has a transition in each of its phases. -/
theorem phaseTick_isSome (hc : sequenced i = some c) : ∀ p ∈ phasesOf c, s.phase = p → (phaseTick c s).isSome := by
  cases i with
  | eaxSeal rd rs ctx => cases hc; simp +contextual [phasesOf, phaseTick, eaxSealTick]
  | eaxOpen rd rs ctx => cases hc; simp +contextual [phasesOf, phaseTick, eaxOpenTick]
  | sivSeal rd rs ctx => cases hc; simp +contextual [phasesOf, phaseTick, sivTick]
  | sivOpen rd rs ctx => cases hc; simp +contextual [phasesOf, phaseTick, sivTick]
  | ccpSeal rd rs ctx => cases hc; simp +contextual [phasesOf, phaseTick, ccpTick]
  | ccpSealx rd rs ctx => cases hc; simp +contextual [phasesOf, phaseTick, ccpTick]
  | ccpOpen rd rs ctx => cases hc; simp +contextual [phasesOf, phaseTick, ccpTick]
  | _ => cases hc

theorem illegal_inv (h : s.Inv) : (s.complete .illegal).Inv := h.of_completed (.complete _ s) h.canonical h.slotsWf

/-- One phase of the engine keeps the invariant. -/
theorem engineTick_inv (h : s.Inv) (ht : engineTick s = .next t) : t.Inv := by
  cases hr : s.running with
  | none => rw [engineTick_of_idle hr] at ht; cases ht; exact h
  | some w =>
    cases hd : decode w with
    | error e => rw [engineTick_of_illegal hr hd] at ht; cases ht; exact illegal_inv h
    | ok i =>
      cases hc : sequenced i with
      | none =>
        rw [engineTick_of_unsequenced hr hd hc] at ht
        obtain ⟨code, u, hu, hcomp⟩ := exec_ends i s
        cases hu.symm.trans ht
        exact h.of_completed hcomp (exec_canonical_of_unsequenced hc ht h.canonical) (exec_slots_wf ht h.slotsWf)
      | some c =>
        have hphase : s.phase ∈ phasesOf c := (phaseFits_iff_mem hd hc).mp (h.phaseOk w hr)
        obtain ⟨o, ho⟩ := Option.isSome_iff_exists.mp (phaseTick_isSome hc _ hphase rfl)
        cases (engineTick_of_phase hr hd hc ho).symm.trans ht
        exact phaseTick_inv h hr hd hc ho

theorem runTicks_inv (n : Nat) (h : s.Inv) (ht : runTicks n s = .next t) : t.Inv := by
  induction n generalizing s with
  | zero => cases ht; exact h
  | succ n ih =>
    simp only [runTicks] at ht
    split at ht
    next => cases ht; exact h
    next =>
      split at ht
      next u hu => exact ih (engineTick_inv h hu) ht
      next => cases ht
      next => cases ht

/-- The engine's turn keeps the invariant: it is its phases one after another (R12). -/
theorem engineTurn_inv (h : s.Inv) (ht : engineTurn s = .next t) : t.Inv := by
  cases hr : s.running with
  | none => rw [engineTurn_of_idle hr] at ht; cases ht; exact h
  | some w =>
    cases hd : decode w with
    | error e => rw [engineTurn_of_illegal hr hd] at ht; cases ht; exact illegal_inv h
    | ok i =>
      by_cases hp : s.phase = startPhase i
      · rw [engineTurn_of_start hr hd hp, ← runTicks_eq_exec hr hd hp] at ht
        exact runTicks_inv 20 h ht
      · rw [engineTurn_of_later hr hd hp] at ht
        exact runTicks_inv 20 h ht

/-! ### The host's moves keep the invariant -/

/-- A host move that leaves registers, slots and the running command's descriptor words as they are. -/
theorem State.Inv.hostChange (h : s.Inv) {m : Memory} {d o e : Bool} {v : Word} {n : Nat} {mv : List Move} (hm : m.Canonical)
    (hdone : d = true → s.done = true)
    (ho : ∀ w i c, s.running = some w → decode w = .ok i → sequenced i = some c →
      Machine.aeadOps m (s.regNat c.rs) c.kind = s.aeadOps c.rs c.kind) :
    State.Inv { s with mem := m, done := d, ovr := o, irqEn := e, readData := v, free := n, moves := mv } where
  memWf := hm.1
  memBounded := hm.2
  slotsWf := h.slotsWf
  notDone hr := Bool.eq_false_iff.mpr fun hd => absurd (hdone hd) (Bool.eq_false_iff.mp (h.notDone hr))
  idleCleared := h.idleCleared
  phaseOk := h.phaseOk
  buffers w i c hr hd hc hp := by
    obtain ⟨hready, hfits⟩ := buffersFit_iff.mp (h.buffers w i c hr hd hc hp)
    have hops : State.aeadOps { s with mem := m, done := d, ovr := o, irqEn := e, readData := v, free := n, moves := mv }
        c.rs c.kind = s.aeadOps c.rs c.kind := ho w i c hr hd hc
    rw [buffersFit_iff, hops]
    exact ⟨hready.of_same rfl rfl rfl hops, hfits⟩
  accel := h.accel

theorem startPhase_mem (hc : sequenced i = some c) : startPhase i ∈ phasesOf c := by
  cases i <;> cases hc <;> exact List.mem_cons_self

theorem startPhase_of_unsequenced (hc : sequenced i = none) : startPhase i = .idle := by
  cases i with
  | eaxSeal rd rs ctx => cases hc
  | eaxOpen rd rs ctx => cases hc
  | sivSeal rd rs ctx => cases hc
  | sivOpen rd rs ctx => cases hc
  | ccpSeal rd rs ctx => cases hc
  | ccpSealx rd rs ctx => cases hc
  | ccpOpen rd rs ctx => cases hc
  | _ => rfl

/-- The phase of a command word just accepted (R41). -/
theorem accept_phaseFits (s : State) (w : Word32) : phaseFits w (s.accept w).phase := by
  cases hd : decode w with
  | error e => simp only [phaseFits, State.accept, hd]
  | ok i =>
    rw [accept_phase s hd]
    cases hc : sequenced i with
    | none =>
      simp only [phaseFits, hd, hc]
      exact startPhase_of_unsequenced hc
    | some c => exact (phaseFits_iff_mem hd hc).mpr (startPhase_mem hc)

/-- Acceptance keeps the invariant (R41). -/
theorem accept_inv (h : s.Inv) (w : Word32) : (s.accept w).Inv where
  memWf := h.memWf
  memBounded := h.memBounded
  slotsWf := h.slotsWf
  notDone _ := rfl
  idleCleared hn := by cases hn
  phaseOk w' hr := by cases hr; exact accept_phaseFits s w
  buffers w' i c hr hd _ hp := by
    cases hr
    exact absurd (accept_phase s hd) hp
  accel := h.accel

/-- The descriptor block of a sequenced command is a region it reads (R204, R512). -/
theorem aeadBlock_mem_footprint (hc : sequenced i = some c) (s : State) :
    aeadBlock (s.regNat c.rs) ∈ (footprint i s).reads := by
  cases i <;> cases hc <;> exact List.mem_cons_self

/-- A host write that touches no region of the running command leaves its descriptor words (R95). -/
theorem aeadOps_of_not_racing (hr : s.running = some w) (hd : decode w = .ok i) (hc : sequenced i = some c) {a : Nat}
    {data : Bytes} (hrace : racesWrite s a data.length = false) :
    aeadOps (Memory.writeBytes s.mem a data) (s.regNat c.rs) c.kind = s.aeadOps c.rs c.kind := by
  have hfoot : s.runningFootprint = footprint i s := by simp only [State.runningFootprint, hr, hd]
  have hover : (aeadBlock (s.regNat c.rs)).overlaps ⟨a, data.length⟩ = false := by
    simp only [racesWrite, hfoot, List.any_eq_false, Bool.not_eq_true] at hrace
    exact hrace _ (List.mem_append_left _ (aeadBlock_mem_footprint hc s))
  refine aeadOps_writeBytes_apart _ ?_
  rw [Region.overlaps_eq_false] at hover
  simp only [Region.apart, aeadBlock] at hover ⊢
  omega

/-! ### Resets keep the invariant (R500, R502, R506) -/

/-- Every region of a command's write set lies within the bus space (R81, R206, R410). -/
theorem aeadWriteSet_bounded {f : Family} {k : Kind} {rs : Reg} {ctx : Ctx} {r : Region}
    (hr : r ∈ aeadWriteSet f k rs ctx s) : r.n = 0 ∨ r.addr + r.n ≤ Config.busSize := by
  by_cases h : AeadReady f k rs ctx s
  · rw [aeadWriteSet_of_ready h] at hr
    exact admits_within_bus (h.writes r hr) le_rfl
  · rw [aeadReady_iff] at h
    simp [aeadWriteSet, aeadOps_eq, h] at hr

theorem cmxorWriteSet_bounded {rd rs1 rs2 : Reg} {r : Region} (hr : r ∈ cmxorWriteSet rd rs1 rs2 s) :
    r.n = 0 ∨ r.addr + r.n ≤ Config.busSize := by
  unfold cmxorWriteSet at hr
  dsimp only at hr
  split at hr
  next ha =>
    rw [List.mem_singleton.mp hr]
    exact Platform.accessible_bound (Bool.and_eq_true_iff.mp ha).1
  next => cases hr

theorem xmacWriteSet_bounded {rs : Reg} {r : Region} (hr : r ∈ xmacWriteSet rs s) :
    r.n = 0 ∨ r.addr + r.n ≤ Config.busSize := by
  unfold xmacWriteSet at hr
  dsimp only at hr
  split at hr
  next ha =>
    obtain ⟨-, -, -, -, -, -, hout⟩ := xmacCheck_eq_none_iff.mp (Option.isNone_iff_eq_none.mp (Bool.and_eq_true_iff.mp ha).2)
    rw [List.mem_singleton.mp hr]
    exact Platform.accessible_bound hout
  next => cases hr

theorem writeSet_bounded {r : Region} (hr : r ∈ writeSet i s) : r.n = 0 ∨ r.addr + r.n ≤ Config.busSize := by
  cases i with
  | ctCmxor rd rs1 rs2 rs3 => exact cmxorWriteSet_bounded hr
  | recXmac rs => exact xmacWriteSet_bounded hr
  | eaxSeal rd rs ctx => exact aeadWriteSet_bounded hr
  | eaxOpen rd rs ctx => exact aeadWriteSet_bounded hr
  | sivSeal rd rs ctx => exact aeadWriteSet_bounded hr
  | sivOpen rd rs ctx => exact aeadWriteSet_bounded hr
  | ccpSeal rd rs ctx => exact aeadWriteSet_bounded hr
  | ccpSealx rd rs ctx => exact aeadWriteSet_bounded hr
  | ccpOpen rd rs ctx => exact aeadWriteSet_bounded hr
  | _ => cases hr

theorem abortRegions_bounded {r : Region} (hr : r ∈ s.abortRegions) : r.n = 0 ∨ r.addr + r.n ≤ Config.busSize := by
  unfold State.abortRegions at hr
  split at hr
  next => cases hr
  next =>
    split at hr
    next => cases hr
    next =>
      split at hr
      · cases hr
      · exact writeSet_bounded hr

theorem resetNow_inv (h : s.Inv) : s.resetNow.Inv :=
  inv_of_idle ⟨drawRegions_wf _ _ h.memWf, drawRegions_bounded h.memBounded fun _ => abortRegions_bounded⟩
    (fun c => by rw [slot_resetNow]; exact Slot.empty_wf) rfl rfl rfl rfl

/-- A host move that does not stop keeps the invariant. -/
theorem hostMove_inv {m : HostMove} (h : s.Inv) (ht : hostMove m s = .next t) : t.Inv := by
  cases hostMove_effect ht with
  | nothing => exact h
  | reads => exact h.hostChange h.canonical id fun _ _ _ _ _ _ => rfl
  | busWrite a data hb hrace =>
    exact h.hostChange (h.canonical.writeBytes (.inr hb)) id fun _ _ _ hr hd hc => aeadOps_of_not_racing hr hd hc hrace
  | irqEn => exact h.hostChange h.canonical id fun _ _ _ _ _ _ => rfl
  | flags _ d o hdone => exact h.hostChange h.canonical hdone fun _ _ _ _ _ _ => rfl
  | accepts _ w => exact accept_inv h w
  | writesReg _ i v hi =>
    obtain ⟨hp, hw⟩ := h.idleCleared hi
    exact inv_of_idle h.canonical h.slotsWf h.accel hi hp hw
  | softReset => exact resetNow_inv h
  | powerOn => exact resetNow_inv h

end

/-- Settles O46: a move of the host, a phase and a turn of the engine each keep the invariant, whatever moves are left. -/
theorem invKeptByStep : Obligations.InvKeptByStep := by
  intro s t h ht
  rcases hm : s.moves with _ | ⟨m, rest⟩
  · exact engineTurn_inv h (step_of_nil hm ▸ ht)
  · have hrest : State.Inv { s with moves := rest } := h.hostChange h.canonical id fun _ _ _ _ _ _ => rfl
    cases m with
    | engine => exact engineTurn_inv hrest (step_of_engine hm ▸ ht)
    | tick => exact engineTick_inv hrest (step_of_tick hm ▸ ht)
    | host m => exact hostMove_inv hrest (step_of_host hm ▸ ht)

/-! ### The reset state (R50, R500) -/

theorem resetNow_inReset (s : State) : InReset s.resetNow :=
  ⟨reg_resetNow s, rfl, rfl, rfl, rfl, rfl, rfl, rfl, slot_resetNow s, rfl, rfl, rfl⟩

/-- A reset of the reset state changes nothing. -/
theorem reset_resetNow : State.reset.resetNow = State.reset := rfl

/-- Settles O45: the reset state is what a reset leaves, and memory with nothing listed is canonical. -/
theorem invAtReset : Obligations.InvAtReset := by
  have hreset : InReset State.reset := reset_resetNow ▸ resetNow_inReset State.reset
  exact ⟨inv_of_idle reset_memory_wf (fun c => by rw [hreset.slots]; exact Slot.empty_wf) rfl rfl rfl rfl, hreset⟩

end Sys2Proof.Machine

/-! SUPPORT. SIV_ACCEL changes no result (10_state.md R47); the statement O54. -/

namespace Sys2Proof.Machine

/-! ### The choice of SIV_ACCEL (R47) -/

/-- The outcome on a platform whose SIV_ACCEL is b. -/
def accelOutcome (b : Bool) : Outcome → Outcome
  | .next t => .next (t.withAccel b)
  | .fault r => .fault r
  | .refused r => .refused r

/-- The transition f commutes with the choice of SIV_ACCEL. -/
def CommutesWithAccel (f : State → Outcome) : Prop := ∀ b s, f (s.withAccel b) = accelOutcome b (f s)

theorem accelOutcome_ite {b : Bool} {p : Prop} [Decidable p] {x y x' y' : Outcome} (hx : x' = accelOutcome b x)
    (hy : y' = accelOutcome b y) : (if p then x' else y') = accelOutcome b (if p then x else y) := by
  split
  · exact hx
  · exact hy

theorem commutes_finishSeal (rd : Reg) (o : AeadOps) (out tagRegion : Bytes) (n : Nat) :
    CommutesWithAccel (finishSeal rd o out tagRegion n) := fun _ _ => rfl

theorem commutes_execCtMemcmp (rd rs1 rs2 rs3 : Reg) : CommutesWithAccel (execCtMemcmp rd rs1 rs2 rs3) := fun _ _ =>
  accelOutcome_ite rfl rfl

theorem cmxorBytes_withAccel (n pd ps : Nat) (m8 : Byte) (s : State) (b : Bool) :
    cmxorBytes n pd ps m8 (s.withAccel b) = (cmxorBytes n pd ps m8 s).withAccel b := by
  induction n generalizing pd ps s with
  | zero => rfl
  | succ n ih => exact ih (pd + 1) (ps + 1) (cmxorByte pd ps m8 s)

theorem commutes_execCtCmxor (rd rs1 rs2 rs3 : Reg) : CommutesWithAccel (execCtCmxor rd rs1 rs2 rs3) := fun b s =>
  accelOutcome_ite (congrArg (finish .ok) (cmxorBytes_withAccel _ _ _ _ s b)) rfl

theorem commutes_execRecRmpad (rd rs : Reg) : CommutesWithAccel (execRecRmpad rd rs) := fun _ _ =>
  accelOutcome_ite rfl (accelOutcome_ite rfl (accelOutcome_ite rfl (accelOutcome_ite rfl rfl)))

section
variable (s : State) (b : Bool)

theorem withAccel_mem : (s.withAccel b).mem = s.mem := rfl
theorem withAccel_regNat (r : Reg) : (s.withAccel b).regNat r = s.regNat r := rfl
theorem withAccel_slot (c : Ctx) : (s.withAccel b).slot c = s.slot c := rfl
theorem withAccel_memRead (a n : Nat) : (s.withAccel b).memRead a n = s.memRead a n := rfl
theorem withAccel_work : (s.withAccel b).work = s.work := rfl
theorem withAccel_logRead (a n : Nat) : (s.withAccel b).logRead a n = (s.logRead a n).withAccel b := rfl
theorem withAccel_log (l : List BusAccess) : (s.withAccel b).log l = (s.log l).withAccel b := rfl
theorem withAccel_setWork (w : Work) : (s.withAccel b).setWork w = (s.setWork w).withAccel b := rfl
theorem withAccel_memWrite (a : Nat) (bs : Bytes) : (s.withAccel b).memWrite a bs = (s.memWrite a bs).withAccel b := rfl
theorem withAccel_setSlot (c : Ctx) (sl : Slot) : (s.withAccel b).setSlot c sl = (s.setSlot c sl).withAccel b := rfl
theorem finish_withAccel (c : Code) : finish c (s.withAccel b) = accelOutcome b (finish c s) := rfl

theorem descriptorOk_withAccel (d n : Nat) : descriptorOk (s.withAccel b).platform d n = descriptorOk s.platform d n := rfl
theorem xmacCheck_withAccel (d : Nat) (o : XmacOps) :
    xmacCheck (s.withAccel b).platform d o = xmacCheck s.platform d o := rfl
theorem initCheck_withAccel (f : Family) (o : InitOps) (sl : Slot) :
    initCheck (s.withAccel b).platform f o sl = initCheck s.platform f o sl := rfl
theorem aeadCheck_withAccel (f : Family) (k : Kind) (d : Nat) (o : AeadOps) (sl : Slot) :
    aeadCheck (s.withAccel b).platform f k d o sl = aeadCheck s.platform f k d o sl := rfl

end

theorem commutes_execRecXmac (rs : Reg) : CommutesWithAccel (execRecXmac rs) := fun b s => by
  simp only [execRecXmac, withAccel_mem, withAccel_regNat, withAccel_memRead, withAccel_work, withAccel_logRead,
    withAccel_setWork, withAccel_memWrite, finish_withAccel, descriptorOk_withAccel, xmacCheck_withAccel]
  refine accelOutcome_ite rfl ?_
  split
  · rfl
  · rfl

theorem commutes_initRun (f : Family) (rs : Reg) (ctx : Ctx) (mk : Alg → Nat → Bytes → Slot) :
    CommutesWithAccel (initRun f rs ctx mk) := fun b s => by
  simp only [initRun, withAccel_mem, withAccel_regNat, withAccel_slot, withAccel_memRead, withAccel_logRead,
    withAccel_setSlot, finish_withAccel, descriptorOk_withAccel, initCheck_withAccel]
  refine accelOutcome_ite rfl ?_
  split
  · rfl
  · rfl

/-- A SEAL, SEALX or OPEN commutes with the choice when its family's part after the prologue does. -/
theorem commutes_aeadRun (f : Family) (k : Kind) (rs : Reg) (ctx : Ctx) {body : Slot → Work → State → Outcome}
    (hb : ∀ sl d, CommutesWithAccel (body sl d)) : CommutesWithAccel (aeadRun f k rs ctx body) := fun b s => by
  simp only [aeadRun, withAccel_mem, withAccel_regNat, withAccel_slot, withAccel_logRead, withAccel_log, finish_withAccel,
    descriptorOk_withAccel, aeadCheck_withAccel]
  refine accelOutcome_ite rfl ?_
  split
  · rfl
  · exact hb _ _ _ _

theorem commutes_eaxOpenBody (rd : Reg) (sl : Slot) (d : Work) : CommutesWithAccel (eaxOpenBody rd sl d) := fun _ _ =>
  accelOutcome_ite rfl rfl

theorem commutes_sivOpenBody (rd : Reg) (sl : Slot) (d : Work) : CommutesWithAccel (sivOpenBody rd sl d) := fun _ _ =>
  accelOutcome_ite rfl rfl

theorem commutes_ccpOpenBody (rd : Reg) (sl : Slot) (d : Work) : CommutesWithAccel (ccpOpenBody rd sl d) := fun _ _ =>
  accelOutcome_ite rfl rfl

/-- Every command commutes with the choice of SIV_ACCEL: no rule reads it. -/
theorem exec_commutes (i : Instr) : CommutesWithAccel (exec i) := by
  cases i with
  | ctMemcmp rd rs1 rs2 rs3 => exact commutes_execCtMemcmp rd rs1 rs2 rs3
  | ctCmxor rd rs1 rs2 rs3 => exact commutes_execCtCmxor rd rs1 rs2 rs3
  | recRmpad rd rs => exact commutes_execRecRmpad rd rs
  | recXmac rs => exact commutes_execRecXmac rs
  | eaxInit rs ctx => exact commutes_initRun .eax rs ctx _
  | sivInit rs ctx => exact commutes_initRun .siv rs ctx _
  | ccpInit rs ctx => exact commutes_initRun .ccp rs ctx _
  | eaxSeal rd rs ctx => exact commutes_aeadRun .eax .sealing rs ctx fun _ _ _ _ => commutes_finishSeal ..
  | eaxOpen rd rs ctx => exact commutes_aeadRun .eax .opening rs ctx (commutes_eaxOpenBody rd)
  | sivSeal rd rs ctx => exact commutes_aeadRun .siv .sealing rs ctx fun _ _ _ _ => commutes_finishSeal ..
  | sivOpen rd rs ctx => exact commutes_aeadRun .siv .opening rs ctx (commutes_sivOpenBody rd)
  | ccpSeal rd rs ctx => exact commutes_aeadRun .ccp .sealing rs ctx fun _ _ _ _ => commutes_finishSeal ..
  | ccpSealx rd rs ctx => exact commutes_aeadRun .ccp .sealingX rs ctx fun _ _ _ _ => commutes_finishSeal ..
  | ccpOpen rd rs ctx => exact commutes_aeadRun .ccp .opening rs ctx (commutes_ccpOpenBody rd)
  | _ => exact fun _ _ => rfl

/-- Settles O54, command by command: none of them reads SIV_ACCEL. -/
theorem acceleratedPathChangesNothing : Obligations.AcceleratedPathChangesNothing := by
  intro i s t b h
  rw [exec_commutes i b s, h, accelOutcome]

end Sys2Proof.Machine

/-! SUPPORT. The register window (10_state.md R34 to R43, R46, R48, R51; 20_memory.md R85): which register an access reaches, what
a read gives and what a write does; the statements O6 to O11, O13 and O58. -/

namespace Sys2Proof.Machine

/-! ### Which register an access reaches (R34, R85) -/

theorem winReg_arg (i : Reg) : winReg (0x040 + 8 * i.val) 8 = some (.arg i .full) ∧
    winReg (0x040 + 8 * i.val) 4 = some (.arg i .low) ∧ winReg (0x044 + 8 * i.val) 4 = some (.arg i .high) := by
  revert i; decide

theorem winReg_desc (k : Fin 5) : winReg (0x100 + 8 * k.val) 8 = some (.desc k.val .full) ∧
    winReg (0x100 + 8 * k.val) 4 = some (.desc k.val .low) ∧ winReg (0x104 + 8 * k.val) 4 = some (.desc k.val .high) := by
  revert k; decide

/-- The reserved offsets of the window (R43). -/
def ReservedOffset (off : Nat) : Prop :=
  (0x014 ≤ off ∧ off < 0x040) ∨ (0x080 ≤ off ∧ off < 0x100) ∨ (0x128 ≤ off ∧ off < 0x200)

theorem wideReg_reserved {off : Nat} (h : ReservedOffset off) (hf : Half) : wideReg off hf = .reserved := by
  unfold ReservedOffset at h
  rw [wideReg, if_neg (by omega), if_neg (by omega)]

theorem winReg_reserved {off width : Nat} (h : ReservedOffset off) (hw : width = 4 ∨ width = 8) (ha : off % width = 0) :
    winReg off width = some .reserved := by
  have hlow : 0x014 ≤ off := by unfold ReservedOffset at h; omega
  rcases hw with rfl | rfl
  · rw [winReg, if_pos ⟨rfl, ha⟩, if_neg (by omega), if_neg (by omega), if_neg (by omega), if_neg (by omega),
      if_neg (by omega), wideReg_reserved h]
  · rw [winReg, if_neg (by omega), if_pos ⟨rfl, ha, by omega⟩, wideReg_reserved h]

/-! ### Accesses to the registers (R34 to R43) -/

section
variable {s : State} {a v x : Word} {off width : Nat} {r : WinReg}

/-- A read of a register that has a value returns it, without side effect (R88). -/
theorem hostMove_read (ha : a.toNat = s.platform.base.toNat + off) (ho : off < 0x200) (hr : winReg off width = some r)
    (hx : winValue s r = some x) : hostMove (.winRead a width) s = .next { s with readData := x } := by
  rw [hostMove_winRead ha ho, winRead, hr]
  simp only [hx]
  rfl

/-- The registers whose writes are ignored (R35, R36, R43, R46). -/
def WinReg.constant : WinReg → Bool
  | .id => true
  | .cap => true
  | .desc _ _ => true
  | .reserved => true
  | .ctrl => false
  | .status => false
  | .cmd => false
  | .arg _ _ => false

theorem hostMove_write_constant (ha : a.toNat = s.platform.base.toNat + off) (ho : off < 0x200)
    (hr : winReg off width = some r) (hc : r.constant = true) : hostMove (.winWrite a width v) s = .next s := by
  rw [hostMove_winWrite ha ho, winWrite, hr]
  cases r with
  | id => rfl
  | cap => rfl
  | desc => rfl
  | reserved => rfl
  | ctrl => cases hc
  | status => cases hc
  | cmd => cases hc
  | arg => cases hc

theorem hostMove_write_ctrl (ha : a.toNat = s.platform.base.toNat + 0x008) :
    hostMove (.winWrite a 4 v) s = .next (ctrlWrite v s) := hostMove_winWrite ha (by decide)

theorem hostMove_write_status (ha : a.toNat = s.platform.base.toNat + 0x00C) :
    hostMove (.winWrite a 4 v) s = .next (statusWrite v s) := hostMove_winWrite ha (by decide)

theorem hostMove_write_cmd (ha : a.toNat = s.platform.base.toNat + 0x010) :
    hostMove (.winWrite a 4 v) s = .next (cmdWrite v s) := hostMove_winWrite ha (by decide)

theorem hostMove_write_arg {i : Reg} {h : Half} (ha : a.toNat = s.platform.base.toNat + off) (ho : off < 0x200)
    (hr : winReg off width = some (.arg i h)) : hostMove (.winWrite a width v) s = .next (argWrite i h v s) := by
  rw [hostMove_winWrite ha ho, winWrite, hr]

theorem cmdWrite_idle (hb : s.busy = false) : cmdWrite v s = s.accept (v.truncate 32) := by simp [cmdWrite, hb]

theorem cmdWrite_busy (hb : s.busy = true) : cmdWrite v s = { s with ovr := true } := by simp [cmdWrite, hb]

theorem argWrite_idle (hb : s.busy = false) (i : Reg) (h : Half) : argWrite i h v s = s.setReg i (putHalf (s.reg i) v h) := by
  simp [argWrite, hb]

theorem argWrite_busy (hb : s.busy = true) (i : Reg) (h : Half) : argWrite i h v s = s := by simp [argWrite, hb]

theorem winValue_arg_idle (hb : s.busy = false) (i : Reg) (h : Half) :
    winValue s (.arg i h) = some (takeHalf (s.reg i) h) := by simp [winValue, hb]

end

/-- Settles O6: a CMD write is cmdWrite, which accepts the word on an idle engine and sets OVR on a busy one. -/
theorem cmdWrite_holds : Obligations.CmdWrite := by
  intro s a v ha
  refine ⟨fun hb => ⟨_, hostMove_write_cmd ha, ?_⟩, fun hb => ?_, hostMove_read ha (by decide) (r := .cmd) rfl rfl⟩
  · rw [cmdWrite_idle hb]
    exact ⟨rfl, rfl, rfl, rfl, rfl, rfl, rfl, rfl, .of_x rfl, .of_slots rfl, .of_mem rfl⟩
  · rw [hostMove_write_cmd ha, cmdWrite_busy hb]

/-! ### A_i (R31, R51, R85) -/

theorem getLsbD_lowMask {i : Nat} (hi : i < 64) : (0xFFFFFFFF : Word).getLsbD i = decide (i < 32) := by
  have h : ∀ j : Fin 64, (0xFFFFFFFF : Word).getLsbD j.val = decide (j.val < 32) := by decide
  exact h ⟨i, hi⟩

theorem getLsbD_highMask {i : Nat} (hi : i < 64) : (0xFFFFFFFF00000000 : Word).getLsbD i = decide (32 ≤ i) := by
  have h : ∀ j : Fin 64, (0xFFFFFFFF00000000 : Word).getLsbD j.val = decide (32 ≤ j.val) := by decide
  exact h ⟨i, hi⟩

/-- A write of the low half keeps bits 63:32. -/
theorem putHalf_low (old v : Word) : putHalf old v .low = old.extractLsb' 32 32 ++ v.extractLsb' 0 32 := by
  apply BitVec.eq_of_getLsbD_eq
  intro i hi
  simp only [putHalf, BitVec.getLsbD_or, BitVec.getLsbD_and, getLsbD_lowMask hi, getLsbD_highMask hi, BitVec.getLsbD_append,
    BitVec.getLsbD_extractLsb']
  by_cases h : i < 32
  · simp [h]
  · simp [h, show i - 32 < 32 by omega, show 32 + (i - 32) = i by omega, show 32 ≤ i by omega]

/-- A write of the high half keeps bits 31:0. -/
theorem putHalf_high (old v : Word) : putHalf old v .high = v.extractLsb' 0 32 ++ old.extractLsb' 0 32 := by
  apply BitVec.eq_of_getLsbD_eq
  intro i hi
  simp only [putHalf, BitVec.getLsbD_or, BitVec.getLsbD_and, BitVec.getLsbD_shiftLeft, getLsbD_lowMask hi,
    BitVec.getLsbD_append, BitVec.getLsbD_extractLsb']
  by_cases h : i < 32
  · simp [h]
  · simp [h, hi, show i - 32 < 32 by omega]

/-- Settles O10, register by register and half by half. -/
theorem argumentAccessIdle : Obligations.ArgumentAccessIdle := by
  intro s i a v hb
  obtain ⟨hfull, hlow, hhigh⟩ := winReg_arg i
  have hi := i.isLt
  refine ⟨fun ha => ?_, fun ha => ?_⟩
  · rw [Nat.add_assoc] at ha
    refine ⟨hostMove_read ha (by omega) hfull (winValue_arg_idle hb i _),
      hostMove_read ha (by omega) hlow (winValue_arg_idle hb i _), ?_, ?_⟩
    · rw [hostMove_write_arg ha (by omega) hfull, argWrite_idle hb]
      rfl
    · rw [hostMove_write_arg ha (by omega) hlow, argWrite_idle hb, putHalf_low]
  · rw [Nat.add_assoc] at ha
    refine ⟨hostMove_read ha (by omega) hhigh (winValue_arg_idle hb i _), ?_⟩
    rw [hostMove_write_arg ha (by omega) hhigh, argWrite_idle hb, putHalf_high]

/-- An access to A_i on a busy engine, whatever its half. -/
theorem hostMove_arg_busy {s : State} {a : Word} {off width : Nat} {i : Reg} {h : Half} (hb : s.busy = true)
    (ha : a.toNat = s.platform.base.toNat + off) (ho : off < 0x200) (hr : winReg off width = some (.arg i h)) (v : Word) :
    hostMove (.winWrite a width v) s = .next s ∧
      ∃ x, hostMove (.winRead a width) s = .next { s with readData := x, free := s.free + 1 } := by
  refine ⟨by rw [hostMove_write_arg ha ho hr, argWrite_busy hb], takeHalf (Config.freeWord s.free) h, ?_⟩
  rw [hostMove_winRead ha ho, winRead, hr]
  simp only [winValue, hb, if_true]
  rfl

/-- Settles O11: the three accesses that reach A_i. -/
theorem argumentAccessBusy : Obligations.ArgumentAccessBusy := by
  intro s i a v width hb h
  obtain ⟨hfull, hlow, hhigh⟩ := winReg_arg i
  have hi := i.isLt
  rcases h with ⟨ha, rfl | rfl⟩ | ⟨ha, rfl⟩
  · exact hostMove_arg_busy hb (ha.trans (Nat.add_assoc ..)) (by omega) hlow v
  · exact hostMove_arg_busy hb (ha.trans (Nat.add_assoc ..)) (by omega) hfull v
  · exact hostMove_arg_busy hb (ha.trans (Nat.add_assoc ..)) (by omega) hhigh v

/-! ### STATUS (R38, R39) -/

/-- Settles O7, bit by bit of the written value. -/
theorem statusWriteClears : Obligations.StatusWriteClears := by
  intro s a v ha
  refine ⟨_, hostMove_write_status ha, ?_, ?_, ?_, ?_, rfl⟩
  · intro h; simp only [statusWrite, h, Bool.not_true, Bool.and_false]
  · intro h; simp only [statusWrite, h, Bool.not_false, Bool.and_true]
  · intro h; simp only [statusWrite, h, Bool.not_true, Bool.and_false]
  · intro h; simp only [statusWrite, h, Bool.not_false, Bool.and_true]

/-- STATUS as a number: the fields at their places (R38). -/
def statusNat (s : State) : Nat :=
  bit s.busy + bit s.done * 2 + bit s.ovr * 4 + s.err.num * 2 ^ 4 + s.lastop.toNat * 2 ^ 8

theorem bit_le_one (b : Bool) : bit b ≤ 1 := by cases b <;> decide

theorem decide_bit_eq_one (b : Bool) : decide (bit b = 1) = b := by cases b <;> rfl

theorem Code.num_lt (c : Code) : c.num < 8 := by cases c <;> decide

theorem statusNat_lt (s : State) : statusNat s < 2 ^ 16 := by
  have := bit_le_one s.busy
  have := bit_le_one s.done
  have := bit_le_one s.ovr
  have := s.err.num_lt
  have := s.lastop.isLt
  unfold statusNat
  omega

theorem statusWord_toNat (s : State) : ((statusWord s).zeroExtend 64).toNat = statusNat s := by
  have := statusNat_lt s
  rw [BitVec.toNat_setWidth, statusWord, BitVec.toNat_ofNat]
  change statusNat s % 2 ^ 32 % 2 ^ 64 = statusNat s
  omega

/-- A bit of STATUS. -/
theorem statusWord_getLsbD (s : State) (k : Nat) :
    ((statusWord s).zeroExtend 64).getLsbD k = decide (statusNat s / 2 ^ k % 2 = 1) := by
  rw [BitVec.getLsbD, statusWord_toNat, Nat.testBit_eq_decide_div_mod_eq]

/-- A field of STATUS of n bits from bit k up. -/
theorem statusWord_field (s : State) (k n : Nat) :
    (((statusWord s).zeroExtend 64).extractLsb' k n).toNat = statusNat s / 2 ^ k % 2 ^ n := by
  rw [BitVec.extractLsb'_toNat, statusWord_toNat, Nat.shiftRight_eq_div_pow]

/-- Settles O8: the place of each field in the number that STATUS is. -/
theorem statusRead : Obligations.StatusRead := by
  intro s a ha
  have hbusy := bit_le_one s.busy
  have hdone := bit_le_one s.done
  have hovr := bit_le_one s.ovr
  have herr := s.err.num_lt
  have hlast := s.lastop.isLt
  refine ⟨_, hostMove_read ha (by decide) (r := .status) rfl rfl, ?_, ?_, ?_, ?_, ?_, ?_, ?_⟩
  · rw [statusWord_getLsbD, show statusNat s / 2 ^ 0 % 2 = bit s.busy by unfold statusNat; omega, decide_bit_eq_one]
  · rw [statusWord_getLsbD, show statusNat s / 2 ^ 1 % 2 = bit s.done by unfold statusNat; omega, decide_bit_eq_one]
  · rw [statusWord_getLsbD, show statusNat s / 2 ^ 2 % 2 = bit s.ovr by unfold statusNat; omega, decide_bit_eq_one]
  · rw [statusWord_getLsbD, decide_eq_false_iff_not]
    unfold statusNat
    omega
  · rw [statusWord_field, show statusNat s / 2 ^ 4 % 2 ^ 4 = s.err.num by unfold statusNat; omega]
    cases s.err <;> rfl
  · apply BitVec.eq_of_toNat_eq
    rw [statusWord_field]
    unfold statusNat
    omega
  · apply BitVec.eq_of_toNat_eq
    rw [statusWord_field]
    have := statusNat_lt s
    change statusNat s / 2 ^ 16 % 2 ^ 48 = 0
    omega

/-! ### ID, CAP, DESC_k and the reserved offsets (R35, R36, R43, R46) -/

theorem capWord_eq (b : Bool) : (capWord b).zeroExtend 64 = 0x40400004 ||| (if b then 0x100 else 0 : Word) := by
  cases b <;> decide

section
variable {s : State} {a v : Word} {off : Nat}

/-- A reserved offset reads 0 and ignores a write, at either width (log 13). -/
theorem hostMove_reserved (ha : a.toNat = s.platform.base.toNat + off) (h : ReservedOffset off) {width : Nat}
    (hw : width = 4 ∨ width = 8) (hal : off % width = 0) :
    hostMove (.winRead a width) s = .next { s with readData := 0 } ∧ hostMove (.winWrite a width v) s = .next s := by
  have ho : off < 0x200 := by unfold ReservedOffset at h; omega
  have hr := winReg_reserved h hw hal
  exact ⟨hostMove_read ha ho hr rfl, hostMove_write_constant ha ho hr rfl⟩

/-- A 64-bit read of DESC_k. -/
theorem hostMove_read_desc (k : Fin 5) (ha : a.toNat = s.platform.base.toNat + (0x100 + 8 * k.val)) :
    hostMove (.winRead a 8) s = .next { s with readData := descWord (algOfIndex k.val) } :=
  hostMove_read ha (by omega) (winReg_desc k).1 rfl

/-- The accesses to DESC_k: 64-bit and 32-bit reads, and that every write is ignored (log 14). -/
theorem hostMove_desc (k : Fin 5) (ha : a.toNat = s.platform.base.toNat + (0x100 + 8 * k.val)) : ∃ x,
    hostMove (.winRead a 8) s = .next { s with readData := x } ∧
    hostMove (.winRead a 4) s = .next { s with readData := x &&& 0xFFFFFFFF } ∧
    hostMove (.winWrite a 8 v) s = .next s ∧ hostMove (.winWrite a 4 v) s = .next s ∧
    ∀ b : Word, b.toNat = a.toNat + 4 → hostMove (.winRead b 4) s = .next { s with readData := x >>> 32 } ∧
      hostMove (.winWrite b 4 v) s = .next s := by
  obtain ⟨hfull, hlow, hhigh⟩ := winReg_desc k
  refine ⟨_, hostMove_read_desc k ha, hostMove_read ha (by omega) hlow rfl, hostMove_write_constant ha (by omega) hfull rfl,
    hostMove_write_constant ha (by omega) hlow rfl, fun b hb => ?_⟩
  have hb' : b.toNat = s.platform.base.toNat + (0x104 + 8 * k.val) := by omega
  exact ⟨hostMove_read hb' (by omega) hhigh rfl, hostMove_write_constant hb' (by omega) hhigh rfl⟩

end

/-- Settles O9: the constant registers one by one, the reserved ranges and DESC_k each by their own lemma. -/
theorem constantWindowRegisters : Obligations.ConstantWindowRegisters := by
  intro s a v off ha
  refine ⟨?id, ?cap, ?cmd, fun h => ⟨?res4, ?res8⟩, ?d0, ?d1, ?d2, ?d3, ?d4, ?desc⟩
  case id =>
    rintro rfl
    exact ⟨hostMove_read ha (by decide) (r := .id) rfl rfl, hostMove_write_constant ha (by decide) (r := .id) rfl rfl⟩
  case cap =>
    rintro rfl
    rw [← capWord_eq]
    exact ⟨hostMove_read ha (by decide) (r := .cap) rfl rfl, hostMove_write_constant ha (by decide) (r := .cap) rfl rfl⟩
  case cmd =>
    rintro rfl
    exact hostMove_read ha (by decide) (r := .cmd) rfl rfl
  case res4 => exact hostMove_reserved ha h (.inl rfl)
  case res8 => exact hostMove_reserved ha h (.inr rfl)
  case d0 => rintro rfl; exact hostMove_read_desc 0 ha
  case d1 => rintro rfl; exact hostMove_read_desc 1 ha
  case d2 => rintro rfl; exact hostMove_read_desc 2 ha
  case d3 => rintro rfl; exact hostMove_read_desc 3 ha
  case d4 => rintro rfl; exact hostMove_read_desc 4 ha
  case desc =>
    intro hlo hhi hal
    obtain ⟨k, rfl⟩ : ∃ k : Fin 5, off = 0x100 + 8 * k.val := ⟨⟨(off - 0x100) / 8, by omega⟩, by simp only; omega⟩
    exact hostMove_desc k ha

/-! ### CTRL, the IRQ level and the resets (R37, R48, R500, R502) -/

theorem ctrlWord_eq (b : Bool) : (ctrlWord b).zeroExtend 64 = (if b then 1 else 0 : Word) := by cases b <;> decide

theorem ctrlWrite_of_srst {v : Word} (s : State) (hv : v.getLsbD 1 = true) : ctrlWrite v s = s.resetNow := if_pos hv

theorem ctrlWrite_of_no_srst {v : Word} (s : State) (hv : v.getLsbD 1 = false) :
    ctrlWrite v s = { s with irqEn := v.getLsbD 0 } := if_neg (Bool.eq_false_iff.mp hv)

/-- Settles O13: IRQ is IRQ_EN and DONE, a completion sets DONE and an acceptance clears it. -/
theorem controlAndInterrupt : Obligations.ControlAndInterrupt := by
  refine ⟨fun s a v ha => ⟨fun hv => ?_, ?_⟩, fun s => Bool.and_eq_true_iff, fun i s t h => ?_, fun s t a v ha hb h => ?_⟩
  · rw [hostMove_write_ctrl ha, ctrlWrite_of_no_srst s hv]
  · rw [← ctrlWord_eq]
    exact hostMove_read ha (by decide) (r := .ctrl) rfl rfl
  · obtain ⟨c, u, hu, hcomp⟩ := exec_ends i s
    cases hu.symm.trans h
    rw [State.irq, hcomp.irqEn, hcomp.done, Bool.and_true]
  · rw [hostMove_write_cmd ha, cmdWrite_idle hb] at h
    cases h
    rw [State.irq, accept_done, Bool.and_false]

theorem abortRegions_of_idle {s : State} (hr : s.running = none) : s.abortRegions = [] := by simp only [State.abortRegions, hr]

/-- A reset of an idle engine leaves bus memory as it is (R500). -/
theorem resetNow_mem_of_idle {s : State} (hr : s.running = none) : s.resetNow.mem = s.mem := by
  rw [resetNow_mem, abortRegions_of_idle hr, drawRegions]

/-- Settles O58: both resets are resetNow. -/
theorem resetState : Obligations.ResetState := by
  intro s a v ha hv
  refine ⟨s.resetNow, ?_, rfl, resetNow_inReset s, rfl, fun hb => .of_mem (resetNow_mem_of_idle (running_eq_none.mp hb))⟩
  rw [hostMove_write_ctrl ha, ctrlWrite_of_srst s hv]

end Sys2Proof.Machine

/-! SUPPORT. What is refused before any access: a malformed window access (20_memory.md R85), and the failures of CT.MEMCMP,
CT.CMXOR, REC.XMAC and of the prologue of SEAL, SEALX and OPEN in the order of R463; the statements O12, O21, O26 and O33. -/

namespace Sys2Proof.Machine

/-! ### Malformed window accesses (R85) -/

/-- An access of a wrong width or alignment, or of 64 bits at a 32-bit register, reaches no register. -/
theorem winReg_malformed {off width : Nat}
    (h : (width ≠ 4 ∧ width ≠ 8) ∨ off % width ≠ 0 ∨ (width = 8 ∧ off < 0x014)) : winReg off width = none := by
  have hnarrow : ¬(width = 4 ∧ off % 4 = 0) := by rintro ⟨rfl, hal⟩; omega
  have hwide : ¬(width = 8 ∧ off % 8 = 0 ∧ 0x018 ≤ off) := by rintro ⟨rfl, hal, hoff⟩; omega
  rw [winReg, if_neg hnarrow, if_neg hwide]

/-- Settles O12: such an access reaches no register, so a write is dropped and a read is a draw. -/
theorem malformedWindowAccess : Obligations.MalformedWindowAccess := by
  intro s a v off width ho ha h
  have hnone := winReg_malformed h
  refine ⟨?_, takeHalf (Config.freeWord s.free) .full, ?_⟩
  · rw [hostMove_winWrite ha ho, winWrite, hnone]
  · rw [hostMove_winRead ha ho, winRead, hnone]
    rfl

/-! ### CT.MEMCMP and CT.CMXOR on an inaccessible region (R176, R177, R81) -/

theorem execCtMemcmp_busErr (rd : Reg) {rs1 rs2 rs3 : Reg} {s : State}
    (h : s.platform.accessible (s.regNat rs1) (s.regNat rs3) .read = false ∨
      s.platform.accessible (s.regNat rs2) (s.regNat rs3) .read = false) :
    execCtMemcmp rd rs1 rs2 rs3 s = finish .busErr s :=
  if_neg (by rwa [Bool.not_eq_true, Bool.and_eq_false_iff])

theorem execCtCmxor_busErr {rd rs1 rs2 : Reg} (rs3 : Reg) {s : State}
    (h : s.platform.accessible (s.regNat rd) (s.regNat rs2) .readwrite = false ∨
      s.platform.accessible (s.regNat rs1) (s.regNat rs2) .read = false) :
    execCtCmxor rd rs1 rs2 rs3 s = finish .busErr s :=
  if_neg (by rwa [Bool.not_eq_true, Bool.and_eq_false_iff])

/-- Settles O21: both commands test their regions before any access. -/
theorem ctMemoryBusErr : Obligations.CtMemoryBusErr := fun s rd _ _ rs3 =>
  ⟨fun h => ⟨_, execCtMemcmp_busErr rd h, nothingWritten_complete _ s, rfl⟩,
    fun h => ⟨_, execCtCmxor_busErr rs3 h, nothingWritten_complete _ s, rfl⟩⟩

/-! ### Endings by the first check that fails (R463) -/

/-- The command has ended as the answer of its checks says: with the raised code and nothing written, or, where none is raised, as
`ok` says. -/
def EndsByCheck (s t : State) (ok : Prop) : Option Code → Prop
  | some c => NothingWritten c s t
  | none => ok

section
variable {s t : State} {ok : Prop}

theorem endsByCheck_some (c : Code) : EndsByCheck s t ok (some c) ↔ NothingWritten c s t := .rfl

theorem endsByCheck_none : EndsByCheck s t ok none ↔ ok := .rfl

theorem endsByCheck_ite (p : Prop) [Decidable p] (x y : Option Code) :
    EndsByCheck s t ok (if p then x else y) ↔ if p then EndsByCheck s t ok x else EndsByCheck s t ok y := by
  split <;> rfl

end

theorem descriptorOk_eq_false_iff {p : Platform} {d n : Nat} :
    descriptorOk p d n = false ↔ d % 8 ≠ 0 ∨ p.accessible d n .read = false := by
  rw [← Bool.not_eq_true, descriptorOk_iff, not_and_or, Bool.not_eq_true]

/-! ### REC.XMAC (R410, R412) -/

/-- REC.XMAC ends with BUSERR where its descriptor block cannot be read, and by its checks otherwise. -/
theorem exec_recXmac_endsByCheck (s : State) (rs : Reg) : ∃ t, exec (.recXmac rs) s = .next t ∧
    if descriptorOk s.platform (s.regNat rs) 40 = false then NothingWritten .busErr s t
    else EndsByCheck s t (t.err = .ok) (xmacCheck s.platform (s.regNat rs) (xmacOps s.mem (s.regNat rs))) := by
  rcases execRecXmac_cases rs s with ⟨hd, h⟩ | ⟨hd, c, hc, h⟩ | ⟨hd, hc, h⟩
  · refine ⟨_, h, ?_⟩
    rw [if_pos hd]
    exact nothingWritten_complete _ s
  · refine ⟨_, h, ?_⟩
    rw [if_neg (by simp [hd]), hc]
    exact nothingWritten_finish c s _
  · refine ⟨_, h _ rfl _ rfl _ rfl, ?_⟩
    rw [if_neg (by simp [hd]), hc]
    rfl

/-- Two non-empty regions overlap when each starts before the other ends (R82). -/
theorem Region.overlaps_iff_of_pos {r q : Region} (hr : 0 < r.n) (hq : 0 < q.n) :
    r.overlaps q = true ↔ r.addr < q.addr + q.n ∧ q.addr < r.addr + r.n := by
  simp [Region.overlaps, hr, hq]

/-- Settles O26: the conditions of REC.XMAC's checks one by one; past the first, md and orig_len are positive. -/
theorem xmacErrors : Obligations.XmacErrors := by
  intro s rs d o
  obtain ⟨t, ht, h⟩ := exec_recXmac_endsByCheck s rs
  simp only [xmacCheck, endsByCheck_ite, endsByCheck_some, endsByCheck_none] at h
  refine ⟨t, ht, (ite_congr (propext descriptorOk_eq_false_iff) (fun _ => rfl) fun _ =>
    ite_congr rfl (fun _ => rfl) fun hmd => ?_).mp h⟩
  have hpos : 0 < o.md ∧ 0 < o.origLen := by omega
  refine ite_congr (propext (Region.overlaps_iff_of_pos hpos.1 hpos.2)) (fun _ => rfl) fun _ =>
    ite_congr (propext (Region.overlaps_iff_of_pos hpos.1 (by simp))) (fun _ => rfl) fun _ =>
    ite_congr (propext ?_) (fun _ => rfl) fun _ => rfl
  rw [Bool.not_eq_true', Bool.and_eq_false_iff]

/-! ### The prologue of SEAL, SEALX and OPEN (R206 to R209) -/

/-- What a sequenced command does after its prologue: the family's rule for SEAL, SEALX or OPEN. -/
def AeadCommand.body (c : AeadCommand) : Slot → Work → State → Outcome :=
  match c.family, c.kind with
  | .eax, .opening => eaxOpenBody c.rd
  | .eax, _ => eaxSealBody c.rd
  | .siv, .opening => sivOpenBody c.rd
  | .siv, _ => sivSealBody c.rd
  | .ccp, .opening => ccpOpenBody c.rd
  | .ccp, .sealing => ccpSealBody c.rd
  | .ccp, .sealingX => ccpSealxBody c.rd

/-- A sequenced command is its prologue and its body. -/
theorem exec_of_sequenced {i : Instr} {c : AeadCommand} (h : sequenced i = some c) (s : State) :
    exec i s = aeadRun c.family c.kind c.rs c.ctx c.body s := by
  cases i <;> cases h <;> rfl

/-- The outcome has the code OK, or AUTHFAIL for an OPEN (R210). -/
def OkOrAuthFail (k : Kind) (o : Outcome) : Prop := ∃ t, o = .next t ∧ (t.err = .ok ∨ (k = .opening ∧ t.err = .authFail))

theorem okOrAuthFail_ok (k : Kind) (s : State) : OkOrAuthFail k (finish .ok s) := ⟨_, rfl, .inl rfl⟩

/-- An OPEN decides by its tag. -/
theorem okOrAuthFail_ite (p : Prop) [Decidable p] (s u : State) :
    OkOrAuthFail .opening (if p then finish .authFail s else finish .ok u) := by
  split
  · exact ⟨_, rfl, .inr ⟨rfl, rfl⟩⟩
  · exact okOrAuthFail_ok _ u

/-- Past its prologue a command ends with OK, or with AUTHFAIL. -/
theorem body_okOrAuthFail (c : AeadCommand) (sl : Slot) (d : Work) (s : State) : OkOrAuthFail c.kind (c.body sl d s) := by
  obtain ⟨f, k, rd, rs, ctx⟩ := c
  cases k with
  | opening => cases f <;> exact okOrAuthFail_ite _ _ _
  | sealing => cases f <;> exact okOrAuthFail_ok _ _
  | sealingX => cases f <;> exact okOrAuthFail_ok _ _

/-- A sequenced command ends with BUSERR where its descriptor block cannot be read, and by its checks otherwise. -/
theorem exec_sequenced_endsByCheck {i : Instr} {c : AeadCommand} (hc : sequenced i = some c) (s : State) :
    ∃ t, exec i s = .next t ∧
      if descriptorOk s.platform (s.regNat c.rs) 96 = false then NothingWritten .busErr s t
      else EndsByCheck s t (t.err = .ok ∨ (c.kind = .opening ∧ t.err = .authFail))
        (aeadCheck s.platform c.family c.kind (s.regNat c.rs) (s.aeadOps c.rs c.kind) (s.slot c.ctx)) := by
  rw [exec_of_sequenced hc]
  rcases aeadRun_cases c.family c.kind c.rs c.ctx c.body s with ⟨hd, h⟩ | ⟨hd, code, hcheck, h⟩ | ⟨hd, hcheck, h⟩
  · refine ⟨_, h, ?_⟩
    rw [if_pos hd]
    exact nothingWritten_complete _ s
  · refine ⟨_, h, ?_⟩
    rw [if_neg (by simp [hd]), hcheck]
    exact nothingWritten_finish code s _
  · obtain ⟨t, ht, herr⟩ := body_okOrAuthFail c (s.slot c.ctx) (s.snapshot c.rs c.kind)
      ((s.logRead (s.regNat c.rs) 96).log (snapshotTrace c.kind (s.aeadOps c.rs c.kind)))
    refine ⟨t, h.trans ht, ?_⟩
    rw [if_neg (by simp [hd]), hcheck]
    exact herr

theorem Alg.nonceLen_eq (alg : Alg) : alg.nonceLen = if alg.family = .eax then 16 else 12 := by cases alg <;> rfl

/-- The limits of R207. -/
theorem tooLarge_iff {alg : Alg} {o : AeadOps} : tooLarge alg o = true ↔
    (alg.family = .ccp ∧ 2 ^ 38 - 64 < o.inLen + o.extraLen) ∨ (alg.family ≠ .ccp ∧ 2 ^ 36 < o.inLen) ∨ 2 ^ 61 ≤ o.adLen := by
  rw [← Bool.not_eq_false, tooLarge_eq_false, WithinLimits]
  simp only [not_and_or, Classical.not_imp, Nat.not_le, Nat.not_lt]

/-- The overlaps of R209, and those with the descriptor block (log 10). -/
theorem aeadOverlap_iff {k : Kind} {d : Nat} {o : AeadOps} {t : Nat} : aeadOverlap k d o t = true ↔
    (outRegion o ≠ inRegion o ∧ (outRegion o).overlaps (inRegion o) = true) ∨
      (∃ r ∈ otherReads k o, (outRegion o).overlaps r = true) ∨
      (∃ w ∈ otherWrites k o t, ∃ r ∈ outRegion o :: readRegions k o, w.overlaps r = true) ∨
      (∃ w ∈ writeRegions k o t, w.overlaps ⟨d, 96⟩ = true) := by
  simp only [aeadOverlap, aeadBlock, Bool.or_eq_true, Bool.and_eq_true, Bool.not_eq_true', beq_eq_false_iff_ne,
    List.any_eq_true, or_assoc]
  rw [and_comm]

theorem regionsAccessible_eq_false_iff {p : Platform} {k : Kind} {o : AeadOps} {t : Nat} : regionsAccessible p k o t = false ↔
    (∃ r ∈ readRegions k o, p.admits r .read = false) ∨ (∃ w ∈ writeRegions k o t, p.admits w .write = false) := by
  simp only [regionsAccessible, Bool.and_eq_false_iff, List.all_eq_false, Bool.not_eq_true]

/-- Settles O33: the conditions of the prologue's checks one by one; past the second, the slot's family is the command's. -/
theorem prologueErrors : Obligations.PrologueErrors := by
  intro i c s hc d o sl
  obtain ⟨t, ht, h⟩ := exec_sequenced_endsByCheck hc s
  simp only [aeadCheck, endsByCheck_ite, endsByCheck_some, endsByCheck_none] at h
  refine ⟨t, ht, (ite_congr (propext descriptorOk_eq_false_iff) (fun _ => rfl) fun _ =>
    ite_congr (propext ?_) (fun _ => rfl) fun hctx => ?_).mp h⟩
  · rw [Bool.not_eq_true', Bool.and_eq_false_iff, decide_eq_false_iff_not]
  · obtain ⟨-, hf⟩ : sl.valid = true ∧ sl.alg.family = c.family := by simpa using hctx
    rw [← hf]
    refine ite_congr (by rw [Alg.nonceLen_eq]) (fun _ => rfl) fun _ =>
      ite_congr rfl (fun _ => rfl) fun _ =>
      ite_congr (propext tooLarge_iff) (fun _ => rfl) fun _ =>
      ite_congr rfl (fun _ => rfl) fun _ =>
      ite_congr rfl (fun _ => rfl) fun _ =>
      ite_congr (propext aeadOverlap_iff) (fun _ => rfl) fun _ =>
      ite_congr (propext ?_) (fun _ => rfl) fun _ => rfl
    rw [Bool.not_eq_true', regionsAccessible_eq_false_iff]

end Sys2Proof.Machine

/-! SUPPORT. Bus memory and its two users: what a command and a phase of it can write (20_memory.md R81, R95, R209, R211), and
which accesses of the host race with the running command (R93 to R95, 70_reset_and_hazards.md R512); the statements O52 and O60. -/

namespace Sys2Proof.Machine

/-! ### Outcomes that change memory in given regions only -/

/-- A string written from a region's start and no longer than it changes no byte outside it. -/
theorem SameMemOutside.memWrite {rs : List Region} {s u : State} (h : SameMemOutside rs s u) {r : Region} (hr : r ∈ rs)
    {bs : Bytes} (hl : bs.length ≤ r.n) : SameMemOutside rs s (u.memWrite r.addr bs) := by
  intro a ha
  have hout := Region.covers_eq_false.mp (ha r hr)
  rw [memWrite_read_outside u r.addr bs a (by omega)]
  exact h a ha

/-- The outcome changes no byte of bus memory outside the regions. -/
def WritesWithin (rs : List Region) (s : State) (o : Outcome) : Prop := ∀ t, o = .next t → SameMemOutside rs s t

section
variable {rs : List Region} {s u : State}

theorem writesWithin_finish {c : Code} (h : SameMemOutside rs s u) : WritesWithin rs s (finish c u) := by
  rintro t ⟨⟩
  exact h

theorem writesWithin_goTo {q : Phase} {e : Work} (h : SameMemOutside rs s u) : WritesWithin rs s (u.goTo q e) := by
  rintro t ⟨⟩
  exact h

/-- An outcome that leaves memory as it is. -/
theorem writesWithin_of_mem {o : Outcome} (h : ∀ t, o = .next t → t.mem = s.mem) : WritesWithin rs s o :=
  fun t ht => .of_mem (h t ht)

end

/-! ### Commands without a sequencer -/

theorem execCtCmxor_writesWithin (rd rs1 rs2 rs3 : Reg) (s : State) :
    WritesWithin (cmxorWriteSet rd rs1 rs2 s) s (execCtCmxor rd rs1 rs2 rs3 s) := by
  unfold execCtCmxor cmxorWriteSet Platform.admits
  dsimp only
  split
  · refine writesWithin_finish fun a ha => ?_
    exact cmxorBytes_read_outside (Region.covers_eq_false.mp (ha _ (List.mem_singleton.mpr rfl)))
  · exact writesWithin_finish (.of_mem rfl)

theorem execRecXmac_writesWithin (rs : Reg) (s : State) : WritesWithin (xmacWriteSet rs s) s (execRecXmac rs s) := by
  rcases execRecXmac_cases rs s with ⟨-, h⟩ | ⟨-, c, -, h⟩ | ⟨hd, hc, h⟩
  · rw [h]
    exact writesWithin_finish (.of_mem rfl)
  · rw [h]
    exact writesWithin_finish (.of_mem rfl)
  · have hset : xmacWriteSet rs s = [⟨(xmacOps s.mem (s.regNat rs)).outAddr, (xmacOps s.mem (s.regNat rs)).md⟩] := by
      simp [xmacWriteSet, hd, hc]
    rw [h _ rfl _ rfl _ rfl, hset]
    refine writesWithin_finish (SameMemOutside.memWrite (.of_mem (by simp)) (List.mem_singleton.mpr rfl) ?_)
    exact (xmacRotate_length _ _ _ _ _ (xmacGather_rot_length ..)).le

/-! ### How SEAL, SEALX and OPEN write (R209, R210) -/

section
variable {f : Family} {k : Kind} {rd rs : Reg} {ctx : Ctx} {s u : State}

/-- The tag region is a region that SEAL and SEALX write (R209). -/
theorem tagRegion_mem_writeRegions (hk : k ≠ .opening) (s : State) (rs : Reg) (t : Nat) :
    ⟨(s.aeadOps rs k).tagAddr, (s.aeadOps rs k).extraLen + t⟩ ∈ writeRegions k (s.aeadOps rs k) t := by
  cases k with
  | sealing =>
    rw [aeadOps_extraLen_of_sealing, Nat.zero_add]
    exact List.mem_cons_of_mem _ List.mem_cons_self
  | sealingX => exact List.mem_cons_of_mem _ List.mem_cons_self
  | opening => exact absurd rfl hk

/-- A string no longer than the output region, written there. -/
theorem AeadReady.writesOut (h : AeadReady f k rs ctx s) (hu : SameMemOutside (aeadWriteSet f k rs ctx s) s u) {out : Bytes}
    (hout : out.length ≤ (s.aeadOps rs k).inLen) :
    SameMemOutside (aeadWriteSet f k rs ctx s) s (u.memWrite (s.aeadOps rs k).outAddr out) := by
  have hmem : outRegion (s.aeadOps rs k) ∈ aeadWriteSet f k rs ctx s := by
    rw [aeadWriteSet_of_ready h]
    exact List.mem_cons_self
  exact hu.memWrite hmem hout

/-- A string no longer than the tag region, written there by SEAL or SEALX. -/
theorem AeadReady.writesTag (h : AeadReady f k rs ctx s) (hk : k ≠ .opening)
    (hu : SameMemOutside (aeadWriteSet f k rs ctx s) s u) {tagRegion : Bytes}
    (htag : tagRegion.length ≤ (s.aeadOps rs k).extraLen + (s.slot ctx).tagLen) :
    SameMemOutside (aeadWriteSet f k rs ctx s) s (u.memWrite (s.aeadOps rs k).tagAddr tagRegion) := by
  have hmem := tagRegion_mem_writeRegions hk s rs (s.slot ctx).tagLen
  rw [← aeadWriteSet_of_ready h] at hmem
  exact hu.memWrite hmem htag

theorem AeadReady.finishSeal_within (h : AeadReady f k rs ctx s) (hk : k ≠ .opening) (hu : u.mem = s.mem)
    {out tagRegion : Bytes} (hout : out.length ≤ (s.aeadOps rs k).inLen)
    (htag : tagRegion.length ≤ (s.aeadOps rs k).extraLen + (s.slot ctx).tagLen) (n : Nat) :
    WritesWithin (aeadWriteSet f k rs ctx s) s (finishSeal rd (s.aeadOps rs k) out tagRegion n u) :=
  writesWithin_finish (h.writesTag hk (h.writesOut (.of_mem hu) hout) htag)

theorem AeadReady.finishOpen_within (h : AeadReady f k rs ctx s) (hu : u.mem = s.mem) {out : Bytes}
    (hout : out.length ≤ (s.aeadOps rs k).inLen) :
    WritesWithin (aeadWriteSet f k rs ctx s) s (finishOpen rd (s.aeadOps rs k) out u) :=
  writesWithin_finish (h.writesOut (.of_mem hu) hout)

end

/-! ### Sequenced commands, from acceptance to completion (R206, R210) -/

section
variable {rd rs : Reg} {ctx : Ctx} {s u : State}

theorem eaxSealBody_within (h : AeadReady .eax .sealing rs ctx s) (ht : (s.slot ctx).tagLen = 16) (hu : u.mem = s.mem) :
    WritesWithin (aeadWriteSet .eax .sealing rs ctx s) s (eaxSealBody rd (s.slot ctx) (s.snapshot rs .sealing) u) :=
  h.finishSeal_within nofun hu (by simp) (by simp [ht]) _

theorem sivSealBody_within (h : AeadReady .siv .sealing rs ctx s) (ht : (s.slot ctx).tagLen = 16) (hu : u.mem = s.mem) :
    WritesWithin (aeadWriteSet .siv .sealing rs ctx s) s (sivSealBody rd (s.slot ctx) (s.snapshot rs .sealing) u) :=
  h.finishSeal_within nofun hu (by simp) (by simp [ht]) _

theorem ccpSealBody_within (h : AeadReady .ccp .sealing rs ctx s) (hu : u.mem = s.mem) :
    WritesWithin (aeadWriteSet .ccp .sealing rs ctx s) s (ccpSealBody rd (s.slot ctx) (s.snapshot rs .sealing) u) :=
  h.finishSeal_within nofun hu (by simp) (by simp) _

theorem ccpSealxBody_within (h : AeadReady .ccp .sealingX rs ctx s) (hu : u.mem = s.mem) :
    WritesWithin (aeadWriteSet .ccp .sealingX rs ctx s) s (ccpSealxBody rd (s.slot ctx) (s.snapshot rs .sealingX) u) :=
  h.finishSeal_within nofun hu (by simp) (by simp) _

theorem eaxOpenBody_within (h : AeadReady .eax .opening rs ctx s) (hu : u.mem = s.mem) :
    WritesWithin (aeadWriteSet .eax .opening rs ctx s) s (eaxOpenBody rd (s.slot ctx) (s.snapshot rs .opening) u) := by
  unfold eaxOpenBody
  split
  · exact writesWithin_finish (.of_mem hu)
  · exact h.finishOpen_within hu (by simp)

/-- The candidate plaintext is written whether or not the tag is right (R310). -/
theorem sivOpenBody_within (h : AeadReady .siv .opening rs ctx s) (hu : u.mem = s.mem) :
    WritesWithin (aeadWriteSet .siv .opening rs ctx s) s (sivOpenBody rd (s.slot ctx) (s.snapshot rs .opening) u) := by
  unfold sivOpenBody
  dsimp only
  split
  · exact writesWithin_finish (h.writesOut (.of_mem hu) (by simp))
  · exact h.finishOpen_within hu (by simp)

theorem ccpOpenBody_within (h : AeadReady .ccp .opening rs ctx s) (hu : u.mem = s.mem) :
    WritesWithin (aeadWriteSet .ccp .opening rs ctx s) s (ccpOpenBody rd (s.slot ctx) (s.snapshot rs .opening) u) := by
  unfold ccpOpenBody
  split
  · exact writesWithin_finish (.of_mem hu)
  · exact h.finishOpen_within hu (by simp)

/-- A SEAL, SEALX or OPEN writes within its write set when its family's part after the prologue does. -/
theorem aeadRun_within {f : Family} {k : Kind} {body : Slot → Work → State → Outcome}
    (hb : AeadReady f k rs ctx s → ∀ u, u.mem = s.mem →
      WritesWithin (aeadWriteSet f k rs ctx s) s (body (s.slot ctx) (s.snapshot rs k) u)) :
    WritesWithin (aeadWriteSet f k rs ctx s) s (aeadRun f k rs ctx body s) := by
  rcases aeadRun_cases f k rs ctx body s with ⟨-, h⟩ | ⟨-, c, -, h⟩ | ⟨hd, hc, h⟩
  · rw [h]
    exact writesWithin_finish (.of_mem rfl)
  · rw [h]
    exact writesWithin_finish (.of_mem rfl)
  · rw [h]
    exact hb (aeadReady_iff.mpr ⟨hd, hc⟩) _ rfl

/-- The tag length of an EAX or GCM-SIV command whose checks pass is 16 (R250, R300). -/
theorem AeadReady.tagLen_eq {f : Family} {k : Kind} (h : AeadReady f k rs ctx s) (hs : (s.slot ctx).wf) (hf : f ≠ .ccp) :
    (s.slot ctx).tagLen = 16 :=
  Slot.wf_tagLen hs h.valid (h.family ▸ hf)

end

/-- A command changes memory in its write set only, from slots that INIT can have left. -/
theorem exec_within (i : Instr) {s : State} (hs : ∀ c, (s.slot c).wf) : WritesWithin (writeSet i s) s (exec i s) := by
  cases i with
  | ctMemcmp rd rs1 rs2 rs3 => exact writesWithin_of_mem fun _ => execCtMemcmp_mem
  | ctCmxor rd rs1 rs2 rs3 => exact execCtCmxor_writesWithin rd rs1 rs2 rs3 s
  | recRmpad rd rs => exact writesWithin_of_mem fun _ => execRecRmpad_mem
  | recXmac rs => exact execRecXmac_writesWithin rs s
  | eaxInit rs ctx => exact writesWithin_of_mem fun _ h => (exec_initInstr_writes (f := .eax) h).2.1
  | sivInit rs ctx => exact writesWithin_of_mem fun _ h => (exec_initInstr_writes (f := .siv) h).2.1
  | ccpInit rs ctx => exact writesWithin_of_mem fun _ h => (exec_initInstr_writes (f := .ccp) h).2.1
  | eaxSeal rd rs ctx => exact aeadRun_within fun h _ => eaxSealBody_within h (h.tagLen_eq (hs ctx) nofun)
  | eaxOpen rd rs ctx => exact aeadRun_within fun h _ => eaxOpenBody_within h
  | sivSeal rd rs ctx => exact aeadRun_within fun h _ => sivSealBody_within h (h.tagLen_eq (hs ctx) nofun)
  | sivOpen rd rs ctx => exact aeadRun_within fun h _ => sivOpenBody_within h
  | ccpSeal rd rs ctx => exact aeadRun_within fun h _ => ccpSealBody_within h
  | ccpSealx rd rs ctx => exact aeadRun_within fun h _ => ccpSealxBody_within h
  | ccpOpen rd rs ctx => exact aeadRun_within fun h _ => ccpOpenBody_within h
  | _ => exact writesWithin_finish (.of_mem rfl)

/-! ### Sequenced commands, phase by phase (R257, R258, R311, R358, log 11) -/

/-- The write set of a sequenced command. -/
def AeadCommand.writeSet (c : AeadCommand) (s : State) : List Region := aeadWriteSet c.family c.kind c.rs c.ctx s

theorem writeSet_of_sequenced {i : Instr} {c : AeadCommand} (h : sequenced i = some c) (s : State) :
    writeSet i s = c.writeSet s := by
  cases i <;> cases h <;> rfl

section
variable {c : AeadCommand} {s : State} {o : Outcome}

/-- The prologue's phase writes no memory (R206). -/
theorem prologueTick_within {q : Phase} : WritesWithin (c.writeSet s) s (prologueTick c q s) :=
  aeadRun_within fun _ _ hu => writesWithin_goTo (.of_mem hu)

theorem BuffersFit.finishSeal_within (hb : BuffersFit c s) (hk : c.kind ≠ .opening) {out tagRegion : Bytes}
    (hout : out.length ≤ (s.aeadOps c.rs c.kind).inLen)
    (htag : tagRegion.length ≤ (s.aeadOps c.rs c.kind).extraLen + (s.slot c.ctx).tagLen) (n : Nat) :
    WritesWithin (c.writeSet s) s (finishSeal c.rd s.work.ops out tagRegion n s) := by
  rw [hb.ops]
  exact hb.ready.finishSeal_within hk rfl hout htag n

theorem BuffersFit.finishOpen_within (hb : BuffersFit c s) {out : Bytes} (hout : out.length ≤ s.work.inp.length) :
    WritesWithin (c.writeSet s) s (finishOpen c.rd s.work.ops out s) := by
  rw [hb.ops]
  exact hb.ready.finishOpen_within rfl (hout.trans_eq hb.inp)

theorem writesWithin_authFail : WritesWithin (c.writeSet s) s (finish .authFail s) := writesWithin_finish (.of_mem rfl)

/-- S5 alone writes memory (R257). -/
theorem eaxSealTick_within (hk : c.kind ≠ .opening) (hb : s.phase ≠ .s0 → BuffersFit c s) (h : eaxSealTick c s = some o) :
    WritesWithin (c.writeSet s) s o := by
  unfold eaxSealTick at h
  split at h
  next => cases h; exact prologueTick_within
  next => cases h; exact writesWithin_goTo (.of_mem rfl)
  next => cases h; exact writesWithin_goTo (.of_mem rfl)
  next => cases h; exact writesWithin_goTo (.of_mem rfl)
  next => cases h; exact writesWithin_goTo (.of_mem rfl)
  next hp =>
    cases h
    have hfit := hb (by simp [hp])
    exact hfit.finishSeal_within hk hfit.out (hfit.tag.trans (Nat.le_add_left _ _)) _
  next => cases h

/-- O5 alone writes memory (R258). -/
theorem eaxOpenTick_within (hb : s.phase ≠ .o0 → BuffersFit c s) (h : eaxOpenTick c s = some o) :
    WritesWithin (c.writeSet s) s o := by
  unfold eaxOpenTick at h
  split at h
  next => cases h; exact prologueTick_within
  next => cases h; exact writesWithin_goTo (.of_mem rfl)
  next => cases h; exact writesWithin_goTo (.of_mem rfl)
  next => cases h; exact writesWithin_goTo (.of_mem rfl)
  next =>
    cases h
    split
    · exact writesWithin_goTo (.of_mem rfl)
    · exact writesWithin_authFail
  next hp => cases h; exact (hb (by simp [hp])).finishOpen_within (eaxCtr_length ..).le
  next => cases h

/-- X1 alone writes memory; of OPEN it goes on (R311). -/
theorem sivTick_within (hb : s.phase ≠ .p0 → BuffersFit c s) (h : sivTick c s = some o) : WritesWithin (c.writeSet s) s o := by
  unfold sivTick at h
  split at h
  next => cases h; exact prologueTick_within
  next => cases h; exact writesWithin_goTo (.of_mem rfl)
  next => cases h; exact writesWithin_goTo (.of_mem rfl)
  next => cases h; exact writesWithin_goTo (.of_mem rfl)
  next => cases h; exact writesWithin_goTo (.of_mem rfl)
  next => cases h; exact writesWithin_goTo (.of_mem rfl)
  next => cases h; exact writesWithin_goTo (.of_mem rfl)
  next hp =>
    cases h
    have hfit := hb (by simp [hp])
    have hlen : (sivCtrFrom s.work.encKey s.work.ctrBlock s.work.inp).length ≤ (s.aeadOps c.rs c.kind).inLen :=
      (sivCtrFrom_length ..).trans_le hfit.inp.le
    split
    · rw [hfit.ops]
      exact writesWithin_goTo (hfit.ready.writesOut (.of_mem rfl) hlen)
    · exact hfit.finishSeal_within ‹_› hlen (hfit.tag.trans (Nat.le_add_left _ _)) _
  next =>
    cases h
    split
    · exact writesWithin_finish (.of_mem rfl)
    · exact writesWithin_authFail
  next => cases h

/-- Q6 and Q8 alone write memory, and Q6 is no phase of OPEN (R358). -/
theorem ccpTick_within (hq6 : s.phase = .q6 → c.kind ≠ .opening) (hb : s.phase ≠ .q0 → BuffersFit c s)
    (h : ccpTick c s = some o) : WritesWithin (c.writeSet s) s o := by
  unfold ccpTick at h
  split at h
  next => cases h; exact prologueTick_within
  next => cases h; exact writesWithin_goTo (.of_mem rfl)
  next => cases h; exact writesWithin_goTo (.of_mem rfl)
  next =>
    split at h
    · cases h; exact writesWithin_goTo (.of_mem rfl)
    · cases h; exact writesWithin_goTo (.of_mem rfl)
  next =>
    split at h
    · cases h; exact writesWithin_goTo (.of_mem rfl)
    · cases h; exact writesWithin_goTo (.of_mem rfl)
  next => cases h; exact writesWithin_goTo (.of_mem rfl)
  next hp =>
    cases h
    have hfit := hb (by simp [hp])
    refine hfit.finishSeal_within (hq6 hp) hfit.out ?_ _
    rw [List.length_append]
    exact Nat.add_le_add hfit.xout hfit.tag
  next =>
    cases h
    split
    · exact writesWithin_goTo (.of_mem rfl)
    · exact writesWithin_authFail
  next hp => cases h; exact (hb (by simp [hp])).finishOpen_within (xorBytes_length_le le_rfl)
  next => cases h

/-- A phase changes memory in its command's write set only, in a state that meets the invariant. -/
theorem phaseTick_within {w : Word32} {i : Instr} (hs : s.Inv) (hr : s.running = some w) (hd : decode w = .ok i)
    (hc : sequenced i = some c) (h : phaseTick c s = some o) : WritesWithin (c.writeSet s) s o := by
  have hphase : s.phase ∈ phasesOf c := (phaseFits_iff_mem hd hc).mp (hs.phaseOk w hr)
  have hfit := hs.buffers w i c hr hd hc
  rw [startPhase_of_sequenced hc] at hfit
  obtain ⟨f, k, rd, rs, ctx⟩ := c
  cases f with
  | eax =>
    cases k with
    | sealing => exact eaxSealTick_within nofun hfit h
    | sealingX => cases h
    | opening => exact eaxOpenTick_within hfit h
  | siv => exact sivTick_within hfit h
  | ccp =>
    refine ccpTick_within (fun hp hk => ?_) hfit h
    cases hk
    simp [hp, phasesOf] at hphase

end

/-- One phase of the engine changes memory in its command's write set only. -/
theorem engineTick_within {s : State} {w : Word32} {i : Instr} (hs : s.Inv) (hr : s.running = some w)
    (hd : decode w = .ok i) : WritesWithin (writeSet i s) s (engineTick s) := by
  rcases engineTick_cases hr hd with he | ⟨c, hc, hp⟩
  · rw [he]
    exact exec_within i hs.slotsWf
  · rw [writeSet_of_sequenced hc]
    exact phaseTick_within hs hr hd hc hp

/-! ### The write set is among the regions a command names (R95, R506) -/

theorem cmxorWriteSet_subset {rd rs1 rs2 : Reg} {s : State} {r : Region} (h : r ∈ cmxorWriteSet rd rs1 rs2 s) :
    r ∈ (cmxorFootprint rd rs1 rs2 s).writes := by
  unfold cmxorWriteSet at h
  dsimp only at h
  split at h
  · exact h
  · cases h

theorem xmacWriteSet_subset {rs : Reg} {s : State} {r : Region} (h : r ∈ xmacWriteSet rs s) :
    r ∈ (xmacFootprint rs s).writes := by
  unfold xmacWriteSet at h
  dsimp only at h
  split at h
  · exact h
  · cases h

theorem writeSet_subset {i : Instr} {s : State} {r : Region} (h : r ∈ writeSet i s) : r ∈ (footprint i s).writes := by
  cases i with
  | ctCmxor rd rs1 rs2 rs3 => exact cmxorWriteSet_subset h
  | recXmac rs => exact xmacWriteSet_subset h
  | eaxSeal rd rs ctx => exact aeadWriteSet_subset h
  | eaxOpen rd rs ctx => exact aeadWriteSet_subset h
  | sivSeal rd rs ctx => exact aeadWriteSet_subset h
  | sivOpen rd rs ctx => exact aeadWriteSet_subset h
  | ccpSeal rd rs ctx => exact aeadWriteSet_subset h
  | ccpSealx rd rs ctx => exact aeadWriteSet_subset h
  | ccpOpen rd rs ctx => exact aeadWriteSet_subset h
  | _ => cases h

/-- Settles O52: every string a command or a phase writes starts at a region of its write set and is no longer than it. -/
theorem memoryChangesOnlyInWriteSet : Obligations.MemoryChangesOnlyInWriteSet :=
  ⟨fun i _ t hs => exec_within i hs.slotsWf t, fun _ _ t _ hs hr hd => engineTick_within hs hr hd t,
    fun _ _ _ => writeSet_subset⟩

/-! ### The host's accesses to bus memory (R93 to R95) -/

section
variable {s : State} {a : Word} {data : Bytes}

theorem racesWrite_eq_false_iff {n m : Nat} : racesWrite s n m = false ↔
    ∀ r ∈ s.runningFootprint.reads ++ s.runningFootprint.writes, r.overlaps ⟨n, m⟩ = false := by
  simp only [racesWrite, List.any_eq_false, Bool.not_eq_true]

theorem racesRead_eq_false_iff {n : Nat} : racesRead s n = false ↔ ∀ r ∈ s.runningFootprint.writes, r.covers n = false := by
  simp only [racesRead, List.any_eq_false, Bool.not_eq_true]

theorem hostMove_busWrite (hb : a.toNat + data.length ≤ Config.busSize) (hr : racesWrite s a.toNat data.length = false) :
    hostMove (.busWrite a data) s = .next { s with mem := Memory.writeBytes s.mem a.toNat data } := by
  rw [hostMove, if_neg (Nat.not_lt.mpr hb), if_neg (Bool.eq_false_iff.mp hr)]

theorem hostMove_busWrite_race (hb : a.toNat + data.length ≤ Config.busSize) (hr : racesWrite s a.toNat data.length = true) :
    hostMove (.busWrite a data) s = .refused .hostRace := by
  rw [hostMove, if_neg (Nat.not_lt.mpr hb), if_pos hr]

theorem hostMove_busRead (hr : racesRead s a.toNat = false) :
    hostMove (.busRead a) s = .next { s with readData := (Memory.read s.mem a.toNat).zeroExtend 64 } := by
  rw [hostMove, if_neg (Bool.eq_false_iff.mp hr)]
  rfl

theorem hostMove_busRead_race (hr : racesRead s a.toNat = true) : hostMove (.busRead a) s = .refused .hostRace := by
  rw [hostMove, if_pos hr]

theorem runningFootprint_of_idle (hr : s.running = none) : s.runningFootprint = ⟨[], []⟩ := by
  simp only [State.runningFootprint, hr, Footprint.none]

theorem runningFootprint_of_command {w : Word32} {i : Instr} (hr : s.running = some w) (hd : decode w = .ok i) :
    s.runningFootprint = footprint i s := by
  simp only [State.runningFootprint, hr, hd]

end

theorem footprint_initInstr (f : Family) (rs : Reg) (ctx : Ctx) (s : State) :
    footprint (f.initInstr rs ctx) s = initFootprint rs s := by
  cases f <;> rfl

theorem footprint_of_sequenced {i : Instr} {c : AeadCommand} (h : sequenced i = some c) (s : State) :
    footprint i s = aeadFootprint c.kind c.rs c.ctx s := by
  cases i <;> cases h <;> rfl

/-- Settles O60: a host access races exactly when it meets a region of the running command's footprint. -/
theorem hostBusAccess : Obligations.HostBusAccess := by
  refine ⟨?write, ?read, ?races, fun s => runningFootprint_of_idle, ?regions⟩
  case write =>
    intro s a data hb hr
    refine ⟨_, hostMove_busWrite hb (racesWrite_eq_false_iff.mpr hr), Memory.readBytes_writeBytes_same .., ?_, rfl⟩
    exact SameMemOutside.of_memWrite (u := s) rfl rfl
  case read =>
    intro s a hr
    exact hostMove_busRead (racesRead_eq_false_iff.mpr hr)
  case races =>
    intro s w i a data r hr hd hb
    rw [← runningFootprint_of_command hr hd]
    refine ⟨fun hmem hover => hostMove_busWrite_race hb ?_, fun hmem hcov => hostMove_busRead_race ?_⟩
    · exact List.any_eq_true.mpr ⟨r, hmem, hover⟩
    · exact List.any_eq_true.mpr ⟨r, hmem, hcov⟩
  case regions =>
    intro s rd rs rs1 rs2 rs3 ctx f
    refine ⟨footprint_initInstr f rs ctx s, fun i c hc => footprint_of_sequenced hc s, rfl, rfl, ?_, ?_⟩
    · rintro o rfl
      rfl
    · rintro o rfl
      rfl

end Sys2Proof.Machine

/-! SUPPORT. Decoding and encoding against each other (30_encoding.md R120 to R128): a row of R126 reads the fields that the
encoding of its command writes, and a word that matches a row has no other bits; the statements O1, O2 and O4. -/

namespace Sys2Proof

/-! ### What the decoder answers (R128) -/

theorem decode_eq_ok_iff {w : Word32} {i : Instr} :
    decode w = .ok i ↔ ∃ r, rowOf w = some r ∧ w &&& r.mask = r.pattern ∧ r.make w = i := by
  unfold decode
  cases rowOf w with
  | none => simp
  | some r => by_cases h : w &&& r.mask = r.pattern <;> simp [h]

theorem decode_of_rowOf_none {w : Word32} (h : rowOf w = none) : decode w = .error (.reservedOpcode (opByte w)) := by
  simp only [decode, h]

theorem rowOf_mem {w : Word32} {r : OpcodeRow} (h : rowOf w = some r) : r ∈ opcodeRows := List.mem_of_find?_eq_some h

/-! ### From a command to its word and back (R121 to R126) -/

theorem rowOf_wordR (op : BitVec 8) (rd rs1 rs2 rs3 : Reg) : rowOf (wordR op rd rs1 rs2 rs3) = rowOf (opWord op) :=
  rowOf_of_opByte ((opByte_wordR op rd rs1 rs2 rs3).trans (opByte_wordR op 0 0 0 0).symm)

theorem rowOf_wordD (op : BitVec 8) (rd rs : Reg) (ctx : Ctx) : rowOf (wordD op rd rs ctx) = rowOf (opWord op) :=
  rowOf_of_opByte ((opByte_wordD op rd rs ctx).trans (opByte_wordR op 0 0 0 0).symm)

section
variable {α : Type} (op : BitVec 8) (rd rs rs1 rs2 rs3 : Reg) (ctx : Ctx)

/-! A command made of the fields that a row reads, for each choice of fields. -/

theorem make2_wordR (f : Reg → Reg → α) :
    f (rdField (wordR op rd rs1 rs2 rs3)) (rs1Field (wordR op rd rs1 rs2 rs3)) = f rd rs1 := by
  rw [rdField_wordR, rs1Field_wordR]

theorem make3_wordR (f : Reg → Reg → Reg → α) :
    f (rdField (wordR op rd rs1 rs2 rs3)) (rs1Field (wordR op rd rs1 rs2 rs3)) (rs2Field (wordR op rd rs1 rs2 rs3)) =
      f rd rs1 rs2 := by
  rw [rdField_wordR, rs1Field_wordR, rs2Field_wordR]

theorem make4_wordR (f : Reg → Reg → Reg → Reg → α) :
    f (rdField (wordR op rd rs1 rs2 rs3)) (rs1Field (wordR op rd rs1 rs2 rs3)) (rs2Field (wordR op rd rs1 rs2 rs3))
      (rs3Field (wordR op rd rs1 rs2 rs3)) = f rd rs1 rs2 rs3 := by
  rw [rdField_wordR, rs1Field_wordR, rs2Field_wordR, rs3Field_wordR]

theorem make_rd_rs_wordD (f : Reg → Reg → α) :
    f (rdField (wordD op rd rs ctx)) (rsField (wordD op rd rs ctx)) = f rd rs := by
  rw [rdField_wordD, rsField_wordD]

theorem make_rs_ctx_wordD (f : Reg → Ctx → α) :
    f (rsField (wordD op rd rs ctx)) (ctxField (wordD op rd rs ctx)) = f rs ctx := by
  rw [rsField_wordD, ctxField_wordD]

theorem make_rd_rs_ctx_wordD (f : Reg → Reg → Ctx → α) :
    f (rdField (wordD op rd rs ctx)) (rsField (wordD op rd rs ctx)) (ctxField (wordD op rd rs ctx)) = f rd rs ctx := by
  rw [rdField_wordD, rsField_wordD, ctxField_wordD]

end

theorem decode_encode_of_row {i : Instr} {r : OpcodeRow} (hmatch : Laws.OpcodeMatch.Statement i)
    (hr : rowOf (encode i) = some r) (hmake : r.make (encode i) = i) (hwf : WellFormed i) : decode (encode i) = .ok i := by
  obtain ⟨q, hq, hmask⟩ := hmatch
  cases hr.symm.trans hq
  exact decode_eq_ok_iff.mpr ⟨r, hr, hmask hwf, hmake⟩

/-- Settles O1, command by command: the op byte gives its row, and the row reads the fields that its encoding wrote. -/
theorem decodeOfEncode : Obligations.DecodeOfEncode := by
  intro i hwf
  cases i with
  | nop => exact decode_encode_of_row Laws.OpcodeMatch.nop rfl rfl hwf
  | ctMsb => exact decode_encode_of_row (Laws.OpcodeMatch.ctMsb ..) (rowOf_wordR ..) (make2_wordR ..) hwf
  | ctIszero => exact decode_encode_of_row (Laws.OpcodeMatch.ctIszero ..) (rowOf_wordR ..) (make2_wordR ..) hwf
  | ctEq => exact decode_encode_of_row (Laws.OpcodeMatch.ctEq ..) (rowOf_wordR ..) (make3_wordR ..) hwf
  | ctLt => exact decode_encode_of_row (Laws.OpcodeMatch.ctLt ..) (rowOf_wordR ..) (make3_wordR ..) hwf
  | ctGe => exact decode_encode_of_row (Laws.OpcodeMatch.ctGe ..) (rowOf_wordR ..) (make3_wordR ..) hwf
  | ctLe => exact decode_encode_of_row (Laws.OpcodeMatch.ctLe ..) (rowOf_wordR ..) (make3_wordR ..) hwf
  | ctGt => exact decode_encode_of_row (Laws.OpcodeMatch.ctGt ..) (rowOf_wordR ..) (make3_wordR ..) hwf
  | ctSel => exact decode_encode_of_row (Laws.OpcodeMatch.ctSel ..) (rowOf_wordR ..) (make4_wordR ..) hwf
  | ctMsb8 => exact decode_encode_of_row (Laws.OpcodeMatch.ctMsb8 ..) (rowOf_wordR ..) (make2_wordR ..) hwf
  | ctIszero8 => exact decode_encode_of_row (Laws.OpcodeMatch.ctIszero8 ..) (rowOf_wordR ..) (make2_wordR ..) hwf
  | ctEq8 => exact decode_encode_of_row (Laws.OpcodeMatch.ctEq8 ..) (rowOf_wordR ..) (make3_wordR ..) hwf
  | ctLt8 => exact decode_encode_of_row (Laws.OpcodeMatch.ctLt8 ..) (rowOf_wordR ..) (make3_wordR ..) hwf
  | ctGe8 => exact decode_encode_of_row (Laws.OpcodeMatch.ctGe8 ..) (rowOf_wordR ..) (make3_wordR ..) hwf
  | ctLe8 => exact decode_encode_of_row (Laws.OpcodeMatch.ctLe8 ..) (rowOf_wordR ..) (make3_wordR ..) hwf
  | ctGt8 => exact decode_encode_of_row (Laws.OpcodeMatch.ctGt8 ..) (rowOf_wordR ..) (make3_wordR ..) hwf
  | ctSel8 => exact decode_encode_of_row (Laws.OpcodeMatch.ctSel8 ..) (rowOf_wordR ..) (make4_wordR ..) hwf
  | ctMemcmp => exact decode_encode_of_row (Laws.OpcodeMatch.ctMemcmp ..) (rowOf_wordR ..) (make4_wordR ..) hwf
  | ctCmxor => exact decode_encode_of_row (Laws.OpcodeMatch.ctCmxor ..) (rowOf_wordR ..) (make4_wordR ..) hwf
  | recRmpad => exact decode_encode_of_row (Laws.OpcodeMatch.recRmpad ..) (rowOf_wordD ..) (make_rd_rs_wordD ..) hwf
  | recXmac =>
    exact decode_encode_of_row (Laws.OpcodeMatch.recXmac ..) (rowOf_wordD ..) (congrArg _ (rsField_wordD ..)) hwf
  | aeadCleanup =>
    exact decode_encode_of_row (Laws.OpcodeMatch.aeadCleanup ..) (rowOf_wordD ..) (congrArg _ (ctxField_wordD ..)) hwf
  | eaxInit => exact decode_encode_of_row (Laws.OpcodeMatch.eaxInit ..) (rowOf_wordD ..) (make_rs_ctx_wordD ..) hwf
  | eaxSeal => exact decode_encode_of_row (Laws.OpcodeMatch.eaxSeal ..) (rowOf_wordD ..) (make_rd_rs_ctx_wordD ..) hwf
  | eaxOpen => exact decode_encode_of_row (Laws.OpcodeMatch.eaxOpen ..) (rowOf_wordD ..) (make_rd_rs_ctx_wordD ..) hwf
  | sivInit => exact decode_encode_of_row (Laws.OpcodeMatch.sivInit ..) (rowOf_wordD ..) (make_rs_ctx_wordD ..) hwf
  | sivSeal => exact decode_encode_of_row (Laws.OpcodeMatch.sivSeal ..) (rowOf_wordD ..) (make_rd_rs_ctx_wordD ..) hwf
  | sivOpen => exact decode_encode_of_row (Laws.OpcodeMatch.sivOpen ..) (rowOf_wordD ..) (make_rd_rs_ctx_wordD ..) hwf
  | ccpInit => exact decode_encode_of_row (Laws.OpcodeMatch.ccpInit ..) (rowOf_wordD ..) (make_rs_ctx_wordD ..) hwf
  | ccpSeal => exact decode_encode_of_row (Laws.OpcodeMatch.ccpSeal ..) (rowOf_wordD ..) (make_rd_rs_ctx_wordD ..) hwf
  | ccpSealx => exact decode_encode_of_row (Laws.OpcodeMatch.ccpSealx ..) (rowOf_wordD ..) (make_rd_rs_ctx_wordD ..) hwf
  | ccpOpen => exact decode_encode_of_row (Laws.OpcodeMatch.ccpOpen ..) (rowOf_wordD ..) (make_rd_rs_ctx_wordD ..) hwf

/-! ### From a word to its command and back (R125, R126) -/

section
variable {w m : Word32} {op : BitVec 8} {lo n : Nat}

theorem opWord_eq_append (op : BitVec 8) : opWord op = op ++ 0#24 := by
  refine BitVec.eq_of_getLsbD_eq fun i hi => ?_
  simp only [opWord, wordR, BitVec.getLsbD_append]
  interval_cases i <;> simp

/-- A field that a mask covers is the pattern's. -/
theorem extractLsb'_of_mask {p : Word32} (h : w &&& m = p) (hm : m.extractLsb' lo n = BitVec.allOnes n) :
    w.extractLsb' lo n = p.extractLsb' lo n := by
  rw [← h, BitVec.extractLsb'_and, hm, BitVec.and_allOnes]

theorem opByte_of_mask (h : w &&& m = opWord op) (hm : opByte m = BitVec.allOnes 8) : opByte w = op :=
  (extractLsb'_of_mask h hm).trans (opByte_wordR op 0 0 0 0)

/-- Outside the op byte, a field that the mask of a matched row covers is 0 (R125). -/
theorem field_eq_zero_of_mask (h : w &&& m = opWord op) (hm : m.extractLsb' lo n = BitVec.allOnes n) (hlo : lo + n ≤ 24) :
    w.extractLsb' lo n = 0#n := by
  rw [extractLsb'_of_mask h hm, opWord_eq_append, BitVec.extractLsb'_append_eq_of_add_le hlo, BitVec.extractLsb'_zero]

theorem regField_val (w : Word32) (lo : Nat) : (regField w lo).val = (w.extractLsb' lo 3).toNat :=
  Nat.mod_eq_of_lt (w.extractLsb' lo 3).isLt

theorem ctxField_val (w : Word32) : (ctxField w).val = (w.extractLsb' 8 2).toNat :=
  Nat.mod_eq_of_lt (w.extractLsb' 8 2).isLt

theorem ofNat_regField (w : Word32) (lo : Nat) : BitVec.ofNat 3 (regField w lo).val = w.extractLsb' lo 3 := by
  rw [regField_val, BitVec.ofNat_toNat, BitVec.setWidth_eq]

theorem ofNat_ctxField (w : Word32) : BitVec.ofNat 4 (ctxField w).val = 0#2 ++ w.extractLsb' 8 2 := by
  rw [ctxField_val, BitVec.ofNat_toNat]
  exact BitVec.setWidth_eq_append (by decide)

/-- A register field that the mask of a matched row covers is 0 (R125). -/
theorem regField_of_mask (h : w &&& m = opWord op) (hm : m.extractLsb' lo 3 = BitVec.allOnes 3) (hlo : lo + 3 ≤ 24) :
    regField w lo = 0 := by
  rw [regField, field_eq_zero_of_mask h hm hlo]
  rfl

/-- The slot field is 0 where the mask of a matched row covers it (R125). -/
theorem ctxField_of_mask (h : w &&& m = opWord op) (hm : m.extractLsb' 8 2 = BitVec.allOnes 2) : ctxField w = 0 := by
  rw [ctxField, field_eq_zero_of_mask h hm (by decide)]
  rfl

/-- A register number is even when the lowest bit of its field is 0. -/
theorem regField_even (h : w.extractLsb' lo 1 = 0#1) : (regField w lo).val % 2 = 0 := by
  have hbit : (w.extractLsb' lo 1).toNat = 0 := by rw [h]; rfl
  rw [regField_val]
  simp only [BitVec.extractLsb'_toNat] at hbit ⊢
  omega

/-- A word is the concatenation of the fields of Format R (R121). -/
theorem append_fieldsR (w : Word32) : opByte w ++ w.extractLsb' 21 3 ++ w.extractLsb' 18 3 ++ w.extractLsb' 15 3 ++
    w.extractLsb' 12 3 ++ w.extractLsb' 0 12 = w := by
  rw [opByte]
  repeat rw [BitVec.extractLsb'_append_extractLsb'_eq_extractLsb' (by decide)]
  exact BitVec.extractLsb'_eq_self

/-- A word is the concatenation of the fields of Format D, its slot field in two halves (R122). -/
theorem append_fieldsD (w : Word32) : opByte w ++ w.extractLsb' 21 3 ++ w.extractLsb' 18 3 ++ w.extractLsb' 12 6 ++
    (w.extractLsb' 10 2 ++ w.extractLsb' 8 2) ++ w.extractLsb' 0 8 = w := by
  rw [opByte]
  repeat rw [BitVec.extractLsb'_append_extractLsb'_eq_extractLsb' (by decide)]
  exact BitVec.extractLsb'_eq_self

/-- A word that matches an op byte and has 0 below its register fields is the Format R word of its fields (R121). -/
theorem wordR_of_mask (h : w &&& m = opWord op) (hop : opByte m = BitVec.allOnes 8)
    (hlow : m.extractLsb' 0 12 = BitVec.allOnes 12) :
    wordR op (rdField w) (rs1Field w) (rs2Field w) (rs3Field w) = w := by
  simp only [wordR, rdField, rs1Field, rs2Field, rs3Field, ofNat_regField]
  rw [← opByte_of_mask h hop, ← field_eq_zero_of_mask h hlow (by decide), append_fieldsR]

/-- A word that matches an op byte and has 0 in the bits 17:10 and 7:0 is the Format D word of its fields (R122). -/
theorem wordD_of_mask (h : w &&& m = opWord op) (hop : opByte m = BitVec.allOnes 8)
    (hmid : m.extractLsb' 12 6 = BitVec.allOnes 6) (hctx : m.extractLsb' 10 2 = BitVec.allOnes 2)
    (hlow : m.extractLsb' 0 8 = BitVec.allOnes 8) : wordD op (rdField w) (rsField w) (ctxField w) = w := by
  simp only [wordD, rdField, rsField, ofNat_regField, ofNat_ctxField]
  rw [← opByte_of_mask h hop, ← field_eq_zero_of_mask h hmid (by decide), ← field_eq_zero_of_mask h hctx (by decide),
    ← field_eq_zero_of_mask h hlow (by decide), append_fieldsD]

/-! For each mask of R126, the fields that it leaves and the zeros that it asks for (R125). -/

theorem wordR_of_mask4 (h : w &&& 0xFF000FFF#32 = opWord op) :
    wordR op (rdField w) (rs1Field w) (rs2Field w) (rs3Field w) = w :=
  wordR_of_mask h (by decide) (by decide)

theorem wordR_of_mask3 (h : w &&& 0xFF007FFF#32 = opWord op) : wordR op (rdField w) (rs1Field w) (rs2Field w) 0 = w := by
  have hrs3 : rs3Field w = 0 := regField_of_mask h (by decide) (by decide)
  simpa only [hrs3] using wordR_of_mask h (by decide) (by decide)

theorem wordR_of_mask2 (h : w &&& 0xFF03FFFF#32 = opWord op) : wordR op (rdField w) (rs1Field w) 0 0 = w := by
  have hrs2 : rs2Field w = 0 := regField_of_mask h (by decide) (by decide)
  have hrs3 : rs3Field w = 0 := regField_of_mask h (by decide) (by decide)
  simpa only [hrs2, hrs3] using wordR_of_mask h (by decide) (by decide)

theorem wordD_of_mask3 (h : w &&& 0xFF03FCFF#32 = opWord op) : wordD op (rdField w) (rsField w) (ctxField w) = w :=
  wordD_of_mask h (by decide) (by decide) (by decide) (by decide)

theorem wordD_of_mask2 (h : w &&& 0xFFE3FCFF#32 = opWord op) : wordD op 0 (rsField w) (ctxField w) = w := by
  have hrd : rdField w = 0 := regField_of_mask h (by decide) (by decide)
  simpa only [hrd] using wordD_of_mask h (by decide) (by decide) (by decide) (by decide)

theorem wordD_of_mask1 (h : w &&& 0xFFFFFCFF#32 = opWord op) : wordD op 0 0 (ctxField w) = w := by
  have hrd : rdField w = 0 := regField_of_mask h (by decide) (by decide)
  have hrs : rsField w = 0 := regField_of_mask h (by decide) (by decide)
  simpa only [hrd, hrs] using wordD_of_mask h (by decide) (by decide) (by decide) (by decide)

theorem wordD_of_maskXmac (h : w &&& 0xFFE3FFFF#32 = opWord op) : wordD op 0 (rsField w) 0 = w := by
  have hrd : rdField w = 0 := regField_of_mask h (by decide) (by decide)
  have hctx : ctxField w = 0 := ctxField_of_mask h (by decide)
  simpa only [hrd, hctx] using wordD_of_mask h (by decide) (by decide) (by decide) (by decide)

theorem wordD_of_maskRmpad (h : w &&& 0xFF23FFFF#32 = opWord op) :
    (rdField w).val % 2 = 0 ∧ wordD op (rdField w) (rsField w) 0 = w := by
  have hctx : ctxField w = 0 := ctxField_of_mask h (by decide)
  refine ⟨regField_even (field_eq_zero_of_mask h (by decide) (by decide)), ?_⟩
  simpa only [hctx] using wordD_of_mask h (by decide) (by decide) (by decide) (by decide)

end

/-- Every word that matches the row is the encoding of the well-formed command the row makes of it. -/
def OpcodeRow.Inverts (r : OpcodeRow) : Prop :=
  ∀ w, w &&& r.mask = r.pattern → WellFormed (r.make w) ∧ encode (r.make w) = w

theorem opcodeRows_invert : ∀ r ∈ opcodeRows, r.Inverts := by
  simp only [opcodeRows, List.forall_mem_cons]
  refine ⟨?nop, ?ctMsb, ?ctIszero, ?ctEq, ?ctLt, ?ctGe, ?ctLe, ?ctGt, ?ctSel, ?ctMsb8, ?ctIszero8, ?ctEq8, ?ctLt8, ?ctGe8,
    ?ctLe8, ?ctGt8, ?ctSel8, ?ctMemcmp, ?ctCmxor, ?recRmpad, ?recXmac, ?aeadCleanup, ?eaxInit, ?eaxSeal, ?eaxOpen,
    ?sivInit, ?sivSeal, ?sivOpen, ?ccpInit, ?ccpSeal, ?ccpSealx, ?ccpOpen, by simp⟩
  case nop => exact fun _ h => ⟨rfl, h.symm.trans BitVec.and_allOnes⟩
  case ctMsb | ctIszero | ctMsb8 | ctIszero8 => exact fun _ h => ⟨rfl, wordR_of_mask2 h⟩
  case ctEq | ctLt | ctGe | ctLe | ctGt | ctEq8 | ctLt8 | ctGe8 | ctLe8 | ctGt8 => exact fun _ h => ⟨rfl, wordR_of_mask3 h⟩
  case ctSel | ctSel8 | ctMemcmp | ctCmxor => exact fun _ h => ⟨rfl, wordR_of_mask4 h⟩
  case recRmpad =>
    intro w h
    obtain ⟨heven, hw⟩ := wordD_of_maskRmpad (op := 0x30) h
    exact ⟨beq_iff_eq.mpr heven, hw⟩
  case recXmac => exact fun _ h => ⟨rfl, wordD_of_maskXmac h⟩
  case aeadCleanup => exact fun _ h => ⟨rfl, wordD_of_mask1 h⟩
  case eaxInit | sivInit | ccpInit => exact fun _ h => ⟨rfl, wordD_of_mask2 h⟩
  case eaxSeal | eaxOpen | sivSeal | sivOpen | ccpSeal | ccpSealx | ccpOpen => exact fun _ h => ⟨rfl, wordD_of_mask3 h⟩

/-- Settles O2: an accepted word matches a row of R126, and the row's mask pins every bit that its command does not read. -/
theorem encodeOfDecode : Obligations.EncodeOfDecode := by
  intro w i hd
  obtain ⟨r, hr, hmask, rfl⟩ := decode_eq_ok_iff.mp hd
  exact opcodeRows_invert r (rowOf_mem hr) w hmask

/-- Settles O4, by decoding each word. -/
theorem decodedWords : Obligations.DecodedWords := by
  unfold Obligations.DecodedWords
  decide

/-! ### Which words are illegal (R127) -/

/-- The op bytes that R126 leaves unassigned (R127). -/
def ReservedOp (op : Nat) : Prop :=
  (0x01 ≤ op ∧ op ≤ 0x0F) ∨ (0x22 ≤ op ∧ op ≤ 0x2F) ∨ (0x32 ≤ op ∧ op ≤ 0x3F) ∨ (0x41 ≤ op ∧ op ≤ 0x4F) ∨
    (0x53 ≤ op ∧ op ≤ 0x5F) ∨ (0x63 ≤ op ∧ op ≤ 0x6F) ∨ 0x74 ≤ op

theorem opcodeRows_not_reserved : ∀ r ∈ opcodeRows, ¬ ReservedOp (opByte r.pattern).toNat := by
  unfold ReservedOp
  decide

theorem decode_of_reserved {w : Word32} (h : ReservedOp (opByte w).toNat) : decode w = .error (.reservedOpcode (opByte w)) := by
  refine decode_of_rowOf_none (List.find?_eq_none.mpr fun r hr hop => opcodeRows_not_reserved r hr ?_)
  rwa [beq_iff_eq.mp hop]

theorem decode_error_iff {w : Word32} : (∃ e, decode w = .error e) ↔ ∀ i, WellFormed i → encode i ≠ w := by
  constructor
  · rintro ⟨e, he⟩ i hwf rfl
    cases he.symm.trans (decodeOfEncode i hwf)
  · intro hno
    cases hd : decode w with
    | error e => exact ⟨e, rfl⟩
    | ok i =>
      obtain ⟨hwf, hw⟩ := encodeOfDecode w i hd
      exact absurd hw (hno i hwf)

end Sys2Proof

/-! SUPPORT. What becomes of an illegal word (30_encoding.md R127) and of an aborted command (70_reset_and_hazards.md R506); the
statements O3 and O59. -/

namespace Sys2Proof.Machine

/-! ### Illegal words (R127) -/

/-- Settles O3: decoding and encoding are inverse, no row has a reserved op byte, and an illegal word's turn is a completion. -/
theorem illegalWords : Obligations.IllegalWords := by
  refine ⟨fun w => decode_error_iff, fun w => decode_of_reserved, ?_⟩
  rintro s a v hb ha ⟨e, he⟩
  refine ⟨s.accept (v.truncate 32), (s.accept (v.truncate 32)).complete .illegal, ?_, rfl, engineTurn_of_illegal rfl he, rfl,
    nothingWritten_complete .illegal _, rfl, .of_x rfl, .of_slots rfl, .of_mem rfl⟩
  rw [hostMove_write_cmd ha, cmdWrite_idle hb]

/-! ### What an abort draws (R506, log 8) -/

section
variable {s : State} {w : Word32} {i : Instr}

theorem SameMemOutside.mono {rs qs : List Region} {t : State} (h : SameMemOutside rs s t) (hsub : rs ⊆ qs) :
    SameMemOutside qs s t := fun a ha => h a fun r hr => ha r (hsub hr)

/-- A reset changes no byte outside the regions that an abort draws. -/
theorem resetNow_sameMemOutside (s : State) : SameMemOutside s.abortRegions s s.resetNow := fun a ha => by
  rw [resetNow_mem, read_drawRegions_outside ha]

theorem abortRegions_of_illegal {e : DecodeError} (hr : s.running = some w) (hd : decode w = .error e) :
    s.abortRegions = [] := by simp only [State.abortRegions, hr, hd]

theorem abortRegions_of_command (hr : s.running = some w) (hd : decode w = .ok i) :
    s.abortRegions = if verifiesFirst i && !(s.phase == .o5 || s.phase == .q8) then [] else writeSet i s := by
  simp only [State.abortRegions, hr, hd]

theorem abortRegions_subset (hr : s.running = some w) (hd : decode w = .ok i) : s.abortRegions ⊆ writeSet i s := by
  rw [abortRegions_of_command hr hd]
  split
  · exact List.nil_subset _
  · exact List.Subset.refl _

/-- Before the phase that writes, a command that verifies first has nothing drawn (R213, R506). -/
theorem abortRegions_of_unverified (hr : s.running = some w) (hd : decode w = .ok i) (hv : verifiesFirst i = true)
    (ho5 : s.phase ≠ .o5) (hq8 : s.phase ≠ .q8) : s.abortRegions = [] := by
  simp [abortRegions_of_command hr hd, hv, ho5, hq8]

theorem State.Inv.phase_mem {c : AeadCommand} (h : s.Inv) (hr : s.running = some w) (hd : decode w = .ok i)
    (hc : sequenced i = some c) : s.phase ∈ phasesOf c := (phaseFits_iff_mem hd hc).mp (h.phaseOk w hr)

end

/-- Settles O59: the reset draws the abort's regions, and a running OPEN is in a phase of its own sequencer. -/
theorem abortDrawsWriteSet : Obligations.AbortDrawsWriteSet := by
  intro s a v w hs hr ha hv
  have hdraw : SameMemOutside s.abortRegions s s.resetNow := resetNow_sameMemOutside s
  refine ⟨s.resetNow, ?_, resetNow_inReset s, ?illegal, ?command, ?eaxOpen, ?ccpOpen⟩
  · rw [hostMove_write_ctrl ha, ctrlWrite_of_srst s hv]
  case illegal =>
    rintro ⟨e, he⟩
    rwa [abortRegions_of_illegal hr he] at hdraw
  case command => exact fun i hd => hdraw.mono (abortRegions_subset hr hd)
  case eaxOpen =>
    intro rd rs ctx hd ho5
    have hq8 : s.phase ≠ .q8 := ne_of_mem_of_not_mem (hs.phase_mem hr hd rfl) (by simp [phasesOf])
    rwa [abortRegions_of_unverified hr hd rfl ho5 hq8] at hdraw
  case ccpOpen =>
    intro rd rs ctx hd hq8
    have ho5 : s.phase ≠ .o5 := ne_of_mem_of_not_mem (hs.phase_mem hr hd rfl) (by simp [phasesOf])
    rwa [abortRegions_of_unverified hr hd rfl ho5 hq8] at hdraw

end Sys2Proof.Machine

/-! SUPPORT. The CT unit (40_ct_primitives.md): the values of the word functions and of their 8-bit forms, what a CT register
command leaves, CT.MEMCMP's result and CT.CMXOR's loop byte by byte; the statements O14 to O20. -/

namespace Sys2Proof.Machine

/-! ### The word functions (R151 to R157) -/

/-- Bit 63 of a word, as an inequality. -/
theorem getLsbD_63 (a : Word) : a.getLsbD 63 = decide (2 ^ 63 ≤ a.toNat) := BitVec.msb_eq_decide a

/-- `ct_msb` spreads bit 63 over the word (R151). -/
theorem ctMsb_eq (a : Word) : ctMsb a = if a.getLsbD 63 then ones else 0 := by
  have hbit : a >>> 63 = if a.getLsbD 63 then 1 else 0 := by
    have hlt := a.isLt
    have hshift : (a >>> 63).toNat = a.toNat / 2 ^ 63 := by rw [BitVec.toNat_ushiftRight, Nat.shiftRight_eq_div_pow]
    apply BitVec.eq_of_toNat_eq
    rw [hshift, getLsbD_63]
    by_cases h : 2 ^ 63 ≤ a.toNat
    · rw [if_pos (decide_eq_true h)]
      exact (by omega : a.toNat / 2 ^ 63 = 1)
    · rw [if_neg (mt of_decide_eq_true h)]
      exact (by omega : a.toNat / 2 ^ 63 = 0)
  rw [ctMsb, hbit]
  cases a.getLsbD 63 <;> rfl

/-- `ct_lt`'s formula on one bit of a, b and a - b (R152). -/
theorem ctLt_bit (x y d : Bool) : (x ^^ ((x ^^ y) || (d ^^ x))) = if x = y then d else y := by revert x y d; decide

/-- Words whose top bits differ compare as those bits do; otherwise a - b has its top bit set exactly when it borrows (R152). -/
theorem ctLt_eq (a b : Word) : ctLt a b = if a.toNat < b.toNat then ones else 0 := by
  have hborrow : (a ^^^ ((a ^^^ b) ||| ((a - b) ^^^ a))).getLsbD 63 = decide (a.toNat < b.toNat) := by
    have hsub : (a - b).toNat = (2 ^ 64 - b.toNat + a.toNat) % 2 ^ 64 := BitVec.toNat_sub a b
    have hlt := b.isLt
    simp only [BitVec.getLsbD_xor, BitVec.getLsbD_or]
    rw [ctLt_bit, getLsbD_63, getLsbD_63, getLsbD_63, hsub]
    split
    · rename_i htop
      have := decide_eq_decide.mp htop
      exact decide_eq_decide.mpr (by omega)
    · rename_i htop
      have := mt decide_eq_decide.mpr htop
      exact decide_eq_decide.mpr (by omega)
  rw [ctLt, ctMsb_eq, hborrow]
  simp only [decide_eq_true_eq]

theorem not_mask (p : Prop) [Decidable p] : ~~~(if p then ones else 0 : Word) = if ¬p then ones else 0 := by
  by_cases h : p
  · rw [if_pos h, if_neg (not_not.mpr h)]; decide
  · rw [if_neg h, if_pos h]; decide

theorem ctGe_eq (a b : Word) : ctGe a b = if b.toNat ≤ a.toNat then ones else 0 := by
  rw [ctGe, ctLt_eq, not_mask]
  simp only [Nat.not_lt]

theorem ctLe_eq (a b : Word) : ctLe a b = if a.toNat ≤ b.toNat then ones else 0 := ctGe_eq b a

theorem ctGt_eq (a b : Word) : ctGt a b = if b.toNat < a.toNat then ones else 0 := ctLt_eq b a

/-- Bit 63 is clear in a and set in a - 1 for a = 0 alone (R155). -/
theorem ctIsZero_eq (a : Word) : ctIsZero a = if a = 0 then ones else 0 := by
  have hbit : (~~~a &&& (a - 1)).getLsbD 63 = decide (a = 0) := by
    have hsub : (a - 1).toNat = (2 ^ 64 - 1 + a.toNat) % 2 ^ 64 := BitVec.toNat_sub a 1
    have hzero : a = 0 ↔ a.toNat = 0 := BitVec.toNat_eq
    simp only [BitVec.getLsbD_and, BitVec.getLsbD_not]
    rw [getLsbD_63, getLsbD_63, hsub]
    rw [Bool.eq_iff_iff]
    simp only [hzero, Bool.and_eq_true, Bool.not_eq_true', decide_eq_true_eq, decide_eq_false_iff_not]
    omega
  rw [ctIsZero, ctMsb_eq, hbit]
  simp only [decide_eq_true_eq]

theorem ctEq_eq (a b : Word) : ctEq a b = if a = b then ones else 0 := by
  rw [ctEq, ctIsZero_eq]
  simp only [show (a ^^^ b = 0) ↔ a = b from BitVec.xor_eq_zero_iff]

theorem ctSel_ones (a b : Word) : ctSel ones a b = a := by
  rw [ctSel, BitVec.allOnes_and, BitVec.not_allOnes, BitVec.zero_and, BitVec.or_zero]

theorem ctSel_zero (a b : Word) : ctSel 0 a b = b := by
  change ctSel 0#64 a b = b
  rw [ctSel, BitVec.zero_and, BitVec.not_zero, BitVec.allOnes_and, BitVec.zero_or]

/-- `ct_sel` chooses bit by bit (R157). -/
theorem ctSel_getLsbD {i : Nat} (m a b : Word) (hi : i < 64) :
    (ctSel m a b).getLsbD i = if m.getLsbD i then a.getLsbD i else b.getLsbD i := by
  simp only [ctSel, BitVec.getLsbD_or, BitVec.getLsbD_and, BitVec.getLsbD_not, hi, decide_true, Bool.true_and]
  cases m.getLsbD i <;> simp

/-- Settles O14: the formulas are the definitions, the values are the lemmas above. -/
theorem ctWordFunctions : Obligations.CtWordFunctions := fun m a b =>
  ⟨⟨rfl, ctMsb_eq a⟩, ⟨rfl, ctLt_eq a b⟩, ⟨rfl, ctGe_eq a b⟩, ⟨rfl, ctLe_eq a b⟩, ⟨rfl, ctGt_eq a b⟩, ⟨rfl, ctIsZero_eq a⟩,
    ⟨rfl, ctEq_eq a b⟩, rfl, ctSel_ones a b, ctSel_zero a b, fun _ => ctSel_getLsbD m a b⟩

/-! ### Their 8-bit forms (R158) -/

/-- The low byte of a mask. -/
theorem trunc8_mask (p : Prop) [Decidable p] : trunc8 (if p then ones else 0) = if p then 0xFF#8 else 0 := by
  by_cases h : p
  · rw [if_pos h, if_pos h]; decide
  · rw [if_neg h, if_neg h]; decide

/-- `ct_sel_8` on the low bytes is the low byte of `ct_sel`. -/
theorem ctSel8_eq (m a b : Word) : ctSel8 m a b = trunc8 (ctSel m a b) := by
  simp [ctSel8, ctSelByte, ctSel, trunc8, BitVec.setWidth_and, BitVec.setWidth_or, BitVec.setWidth_not]

theorem ctSel8_getLsbD {i : Nat} (m a b : Word) (hi : i < 8) :
    (ctSel8 m a b).getLsbD i = if m.getLsbD i then a.getLsbD i else b.getLsbD i := by
  rw [ctSel8_eq, ← ctSel_getLsbD m a b (by omega)]
  simp [trunc8, hi]

section
variable (a b : Word)

theorem ctMsb8_eq : ctMsb8 a = if a.getLsbD 63 then 0xFF#8 else 0 := by rw [ctMsb8, ctMsb_eq, trunc8_mask]
theorem ctIsZero8_eq : ctIsZero8 a = if a = 0 then 0xFF#8 else 0 := by rw [ctIsZero8, ctIsZero_eq, trunc8_mask]
theorem ctEq8_eq : ctEq8 a b = if a = b then 0xFF#8 else 0 := by rw [ctEq8, ctEq_eq, trunc8_mask]
theorem ctLt8_eq : ctLt8 a b = if a.toNat < b.toNat then 0xFF#8 else 0 := by rw [ctLt8, ctLt_eq, trunc8_mask]
theorem ctGe8_eq : ctGe8 a b = if b.toNat ≤ a.toNat then 0xFF#8 else 0 := by rw [ctGe8, ctGe_eq, trunc8_mask]
theorem ctLe8_eq : ctLe8 a b = if a.toNat ≤ b.toNat then 0xFF#8 else 0 := by rw [ctLe8, ctLe_eq, trunc8_mask]
theorem ctGt8_eq : ctGt8 a b = if b.toNat < a.toNat then 0xFF#8 else 0 := by rw [ctGt8, ctGt_eq, trunc8_mask]

end

/-- Settles O15: each 8-bit form is the low byte of a mask; CT.SEL.8 is decided bit by bit. -/
theorem ctByteFunctions : Obligations.CtByteFunctions := fun m a b =>
  ⟨⟨rfl, ctMsb8_eq a⟩, ⟨rfl, ctIsZero8_eq a⟩, ⟨rfl, ctEq8_eq a b⟩, ⟨rfl, ctLt8_eq a b⟩, ⟨rfl, ctGe8_eq a b⟩, ⟨rfl, ctLe8_eq a b⟩,
    ⟨rfl, ctGt8_eq a b⟩, fun _ => ctSel8_getLsbD m a b⟩

/-! ### The CT register commands (R150, R160 to R175) -/

/-- The template of R150: rd takes the result and nothing else is written. -/
theorem ctResult_writesReg {rd : Reg} {v w : Word} (s : State) (h : v = w) :
    ∃ t, ctResult rd v s = .next t ∧ WritesReg rd w s t := by
  refine ⟨_, rfl, (Completed.complete .ok s).setReg rd v, ?_, fun r hr => ?_, fun _ _ => rfl, fun _ _ => rfl, rfl⟩
  · simp [h]
  · simp [List.mem_singleton.not.mp hr]

/-- Settles O16: every comparison is the template of R150 on the value of its word function. -/
theorem ctCompareCommands : Obligations.CtCompareCommands := by
  intro s rd rs1 rs2 a b
  have hmsb : ctMsb a = if 2 ^ 63 ≤ a.toNat then ones else 0 := by rw [ctMsb_eq, getLsbD_63]; simp only [decide_eq_true_eq]
  exact ⟨ctResult_writesReg s hmsb, ctResult_writesReg s (ctIsZero_eq a), ctResult_writesReg s (ctEq_eq a b),
    ctResult_writesReg s (ctLt_eq a b), ctResult_writesReg s (ctGe_eq a b), ctResult_writesReg s (ctLe_eq a b),
    ctResult_writesReg s (ctGt_eq a b)⟩

/-- A byte mask in rd. -/
theorem zext64_mask (p : Prop) [Decidable p] : zext64 (if p then 0xFF#8 else 0) = if p then 0xFF else 0 := by
  by_cases h : p
  · rw [if_pos h, if_pos h]; decide
  · rw [if_neg h, if_neg h]; decide

/-- The template of R150 on a byte mask. -/
theorem ctResult_writesByteMask {rd : Reg} {v : Byte} {p : Prop} [Decidable p] (s : State) (h : v = if p then 0xFF#8 else 0) :
    ∃ t, ctResult rd (zext64 v) s = .next t ∧ WritesReg rd (if p then 0xFF else 0) s t :=
  ctResult_writesReg s (by rw [h, zext64_mask])

/-- Settles O17: as O16, on the 8-bit forms. -/
theorem ctByteCompareCommands : Obligations.CtByteCompareCommands := by
  intro s rd rs1 rs2 a b
  have hmsb : ctMsb8 a = if 2 ^ 63 ≤ a.toNat then 0xFF#8 else 0 := by rw [ctMsb8_eq, getLsbD_63]; simp only [decide_eq_true_eq]
  exact ⟨ctResult_writesByteMask s hmsb, ctResult_writesByteMask s (ctIsZero8_eq a), ctResult_writesByteMask s (ctEq8_eq a b),
    ctResult_writesByteMask s (ctLt8_eq a b), ctResult_writesByteMask s (ctGe8_eq a b), ctResult_writesByteMask s (ctLe8_eq a b),
    ctResult_writesByteMask s (ctGt8_eq a b)⟩

/-- A word's low byte in rd is the word with its other bits cleared. -/
theorem zext64_trunc8 (v : Word) : zext64 (trunc8 v) = v &&& 0xFF := by
  apply BitVec.eq_of_toNat_eq
  have hmod : (v &&& 0xFF).toNat = v.toNat % 2 ^ 8 := Nat.and_two_pow_sub_one_eq_mod v.toNat 8
  rw [hmod]
  simp only [zext64, trunc8, BitVec.truncate_eq_setWidth, BitVec.toNat_setWidth]
  omega

/-- Settles O18: CT.SEL is the template of R150, CT.SEL.8 the same on the low byte. -/
theorem ctSelectCommands : Obligations.CtSelectCommands := by
  intro s rd rs1 rs2 rs3 v
  have hlow : zext64 (ctSel8 (s.reg rs3) (s.reg rs1) (s.reg rs2)) = v &&& 0xFF := by rw [ctSel8_eq, zext64_trunc8]; rfl
  exact ⟨ctResult_writesReg s rfl, ctResult_writesReg s hlow⟩

/-! ### CT.MEMCMP (R176) -/

/-- A bit of an OR of bytes is a bit of one of them. -/
theorem foldl_or_getLsbD (l : Bytes) (x : Byte) (j : Nat) :
    (l.foldl (· ||| ·) x).getLsbD j = true ↔ x.getLsbD j = true ∨ ∃ b ∈ l, b.getLsbD j = true := by
  induction l generalizing x with
  | nil => simp
  | cons y ys ih => simp [ih, or_assoc]

/-- Bit j of CT.MEMCMP's function over two regions says whether a pair of bytes differs in bit j. -/
theorem memcmpBytes_readBytes_getLsbD (m : Memory) (pa pb n j : Nat) :
    (memcmpBytes (Memory.readBytes m pa n) (Memory.readBytes m pb n)).getLsbD j = true ↔
      ∃ i, i < n ∧ (Memory.read m (pa + i) ^^^ Memory.read m (pb + i)).getLsbD j = true := by
  rw [memcmpBytes, foldl_or_getLsbD]
  simp only [List.mem_iff_getElem, xorBytes_getElem, Memory.readBytes_getElem, xorBytes_length, Memory.readBytes_length,
    Nat.min_self]
  constructor
  · rintro (h | ⟨_, ⟨i, hi, rfl⟩, hbit⟩)
    · simp at h
    · exact ⟨i, hi, hbit⟩
  · rintro ⟨i, hi, hbit⟩
    exact .inr ⟨_, ⟨i, hi, rfl⟩, hbit⟩

/-- Two regions of one length hold the same string when they agree byte by byte. -/
theorem readBytes_eq_iff {m : Memory} {pa pb n : Nat} : Memory.readBytes m pa n = Memory.readBytes m pb n ↔
    ∀ i, i < n → Memory.read m (pa + i) = Memory.read m (pb + i) := by
  simp [List.ext_getElem_iff]

theorem zext64_getLsbD (b : Byte) (j : Nat) : (zext64 b).getLsbD j = b.getLsbD j := by
  simp only [zext64, BitVec.zeroExtend_eq_setWidth, BitVec.getLsbD_setWidth]
  by_cases hj : j < 64
  · simp [hj]
  · simp [hj, BitVec.getLsbD_of_ge b j (by omega)]

theorem zext64_eq_zero {b : Byte} : zext64 b = 0 ↔ b = 0 := by
  have hlt := b.isLt
  change zext64 b = 0#64 ↔ b = 0#8
  simp only [zext64, BitVec.toNat_eq, BitVec.zeroExtend_eq_setWidth, BitVec.toNat_setWidth, BitVec.toNat_zero]
  omega

/-- CT.MEMCMP of two readable strings (R176). -/
theorem execCtMemcmp_ok (rd : Reg) {rs1 rs2 rs3 : Reg} {s : State}
    (ha : s.platform.accessible (s.regNat rs1) (s.regNat rs3) .read = true)
    (hb : s.platform.accessible (s.regNat rs2) (s.regNat rs3) .read = true) :
    execCtMemcmp rd rs1 rs2 rs3 s = finish .ok ((s.log (memcmpTrace (s.regNat rs1) (s.regNat rs2) (s.regNat rs3))).setReg rd
      (zext64 (memcmpBytes (s.memRead (s.regNat rs1) (s.regNat rs3)) (s.memRead (s.regNat rs2) (s.regNat rs3))))) :=
  if_pos (by rw [ha, hb]; rfl)

/-- Settles O19: rd holds the OR of the differences, and the trace is that of R176 whatever the bytes are. -/
theorem memcmpCompletes : Obligations.MemcmpCompletes := by
  intro s rd rs1 rs2 rs3 pa pb n ha hb
  refine ⟨_, execCtMemcmp_ok rd ha hb, ((Completed.complete .ok s).log _).setReg rd _, fun j => ?_, ?_, fun r hr => ?_,
    fun _ _ => rfl, fun _ _ => rfl, rfl⟩
  · rw [reg_complete, reg_setReg, if_pos rfl, zext64_getLsbD]
    exact memcmpBytes_readBytes_getLsbD s.mem pa pb n j
  · rw [reg_complete, reg_setReg, if_pos rfl, zext64_eq_zero, memcmpBytes_eq_zero (by simp [State.memRead])]
    exact readBytes_eq_iff
  · simp [List.mem_singleton.not.mp hr]

/-! ### CT.CMXOR (R177) -/

theorem cmxorByte_read (pd ps : Nat) (m8 : Byte) (s : State) (b : Nat) :
    Memory.read (cmxorByte pd ps m8 s).mem b =
      if b = pd then Memory.read s.mem pd ^^^ (Memory.read s.mem ps &&& m8) else Memory.read s.mem b :=
  Memory.read_write s.mem pd _ b

/-- Destination byte i after CT.CMXOR's loop: a source byte below it in the destination has been written before it is read. -/
theorem cmxorBytes_read_inside {n pd ps i : Nat} {m8 : Byte} {s : State} (h : i < n) :
    Memory.read (cmxorBytes n pd ps m8 s).mem (pd + i) = Memory.read s.mem (pd + i) ^^^
      ((if pd ≤ ps + i ∧ ps + i < pd + i then Memory.read (cmxorBytes n pd ps m8 s).mem (ps + i)
        else Memory.read s.mem (ps + i)) &&& m8) := by
  induction n generalizing pd ps i s with
  | zero => omega
  | succ n ih =>
    rw [cmxorBytes]
    have hfirst : Memory.read (cmxorBytes n (pd + 1) (ps + 1) m8 (cmxorByte pd ps m8 s)).mem pd =
        Memory.read (cmxorByte pd ps m8 s).mem pd := cmxorBytes_read_outside (by omega)
    cases i with
    | zero =>
      rw [if_neg (by omega)]
      simp only [Nat.add_zero, hfirst, cmxorByte_read, if_true]
    | succ i =>
      have hlater := ih (pd := pd + 1) (ps := ps + 1) (s := cmxorByte pd ps m8 s) (Nat.lt_of_succ_lt_succ h)
      rw [show pd + (i + 1) = pd + 1 + i by omega, show ps + (i + 1) = ps + 1 + i by omega, hlater, cmxorByte_read,
        if_neg (by omega)]
      congr 2
      by_cases hsrc : ps + 1 + i = pd
      · rw [if_neg (by omega), if_pos (by omega), hsrc, hfirst]
      · rw [cmxorByte_read, if_neg hsrc]
        exact if_congr (by omega) rfl rfl

/-- CT.CMXOR's loop writes memory and the trace alone. -/
theorem cmxorBytes_frame (n pd ps : Nat) (m8 : Byte) (s : State) :
    Completed .ok s ((cmxorBytes n pd ps m8 s).complete .ok) ∧ (cmxorBytes n pd ps m8 s).x = s.x ∧
      (cmxorBytes n pd ps m8 s).slots = s.slots := by
  obtain ⟨m, l, h⟩ := cmxorBytes_same n pd ps m8 s
  rw [h]
  exact ⟨.of_complete rfl rfl rfl rfl rfl rfl rfl rfl, rfl, rfl⟩

/-- CT.CMXOR on accessible regions (R177). -/
theorem execCtCmxor_ok {rd rs1 rs2 : Reg} (rs3 : Reg) {s : State}
    (hd : s.platform.accessible (s.regNat rd) (s.regNat rs2) .readwrite = true)
    (hs : s.platform.accessible (s.regNat rs1) (s.regNat rs2) .read = true) :
    execCtCmxor rd rs1 rs2 rs3 s =
      finish .ok (cmxorBytes (s.regNat rs2) (s.regNat rd) (s.regNat rs1) (trunc8 (s.reg rs3)) s) :=
  if_pos (by rw [hd, hs]; rfl)

/-- Settles O20: the loop byte by byte, and the loop's frame. -/
theorem cmxorCompletes : Obligations.CmxorCompletes := by
  intro s rd rs1 rs2 rs3 pd ps n hd hs
  obtain ⟨hdone, hx, hslots⟩ := cmxorBytes_frame n pd ps (trunc8 (s.reg rs3)) s
  refine ⟨_, execCtCmxor_ok rs3 hd hs, hdone, fun i hi => cmxorBytes_read_inside hi, fun a ha => ?_, .of_x hx, .of_slots hslots⟩
  exact cmxorBytes_read_outside (Region.covers_eq_false.mp (ha _ (List.mem_singleton.mpr rfl)))

end Sys2Proof.Machine

/-! SUPPORT. The bus trace (70_reset_and_hazards.md R522, R523) of two runs whose public inputs agree: what each command reads and
writes is placed and counted by public values, so only the two families that verify before they write show their outcome; the
statement O53. -/

namespace Sys2Proof.Machine

/-- Two outcomes leave one bus trace; where the outcome itself is public, when they also end with one code (R522). -/
def SameTrace (outcomePublic : Bool) (o o' : Outcome) : Prop :=
  ∀ t t', o = .next t → o' = .next t' → (outcomePublic = true → t.err = t'.err) → t.bus = t'.bus

section
variable {s s' : State} {p : Bool}

/-! ### Endings and branches -/

theorem sameTrace_finish (c c' : Code) (h : s.bus = s'.bus) : SameTrace p (finish c s) (finish c' s') := by
  rintro t t' ⟨⟩ ⟨⟩ -
  exact h

/-- A public condition sends both runs the same way. -/
theorem sameTrace_ite (c : Prop) [Decidable c] {o₁ o₂ o₁' o₂' : Outcome} (h₁ : SameTrace p o₁ o₁') (h₂ : SameTrace p o₂ o₂') :
    SameTrace p (if c then o₁ else o₂) (if c then o₁' else o₂') := by
  split
  · exact h₁
  · exact h₂

theorem log_bus_congr (h : s.bus = s'.bus) (l : List BusAccess) : (s.log l).bus = (s'.log l).bus := congrArg (· ++ l) h

theorem logRead_bus_congr (h : s.bus = s'.bus) (a n : Nat) : (s.logRead a n).bus = (s'.logRead a n).bus := log_bus_congr h _

/-- The trace of a write shows how many bytes are written, not which (R523). -/
theorem memWrite_bus_congr (h : s.bus = s'.bus) (a : Nat) {bs bs' : Bytes} (hl : bs.length = bs'.length) :
    (s.memWrite a bs).bus = (s'.memWrite a bs').bus := by rw [memWrite_bus, memWrite_bus, h, hl]

/-! ### Commands without a sequencer -/

/-- CT.MEMCMP's trace is placed by its registers (R178). -/
theorem sameTrace_execCtMemcmp (rd : Reg) {rs1 rs2 rs3 : Reg} (hp : s.platform = s'.platform) (hb : s.bus = s'.bus)
    (h1 : s.reg rs1 = s'.reg rs1) (h2 : s.reg rs2 = s'.reg rs2) (h3 : s.reg rs3 = s'.reg rs3) :
    SameTrace p (execCtMemcmp rd rs1 rs2 rs3 s) (execCtMemcmp rd rs1 rs2 rs3 s') := by
  unfold execCtMemcmp State.regNat
  rw [hp, h1, h2, h3]
  exact sameTrace_ite _ (sameTrace_finish _ _ (log_bus_congr hb _)) (sameTrace_finish _ _ hb)

/-- CT.CMXOR's loop accesses the same addresses whatever the bytes and the mask are (R178). -/
theorem cmxorBytes_bus_congr (n pd ps : Nat) (m8 m8' : Byte) (h : s.bus = s'.bus) :
    (cmxorBytes n pd ps m8 s).bus = (cmxorBytes n pd ps m8' s').bus := by
  induction n generalizing pd ps s s' with
  | zero => exact h
  | succ n ih => exact ih _ _ (memWrite_bus_congr (logRead_bus_congr (logRead_bus_congr h _ _) _ _) _ rfl)

theorem sameTrace_execCtCmxor {rd rs1 rs2 : Reg} (rs3 : Reg) (hp : s.platform = s'.platform) (hb : s.bus = s'.bus)
    (hd : s.reg rd = s'.reg rd) (h1 : s.reg rs1 = s'.reg rs1) (h2 : s.reg rs2 = s'.reg rs2) :
    SameTrace p (execCtCmxor rd rs1 rs2 rs3 s) (execCtCmxor rd rs1 rs2 rs3 s') := by
  unfold execCtCmxor State.regNat
  rw [hp, hd, h1, h2]
  exact sameTrace_ite _ (sameTrace_finish _ _ (cmxorBytes_bus_congr _ _ _ _ _ hb)) (sameTrace_finish _ _ hb)

/-- A register used as an address, in two states. -/
theorem regNat_congr {r : Reg} (h : s.reg r = s'.reg r) : s.regNat r = s'.regNat r := congrArg BitVec.toNat h

/-- REC.RMPAD reads its descriptor block, and of the record what the block's words place (R405). -/
theorem sameTrace_execRecRmpad (rd : Reg) {rs : Reg} (hp : s.platform = s'.platform) (hb : s.bus = s'.bus)
    (hr : s.reg rs = s'.reg rs) (ho : rmpadOps s.mem (s.regNat rs) = rmpadOps s'.mem (s'.regNat rs)) :
    SameTrace p (execRecRmpad rd rs s) (execRecRmpad rd rs s') := by
  unfold execRecRmpad
  dsimp only
  rw [ho, hp, regNat_congr hr]
  have hb1 := logRead_bus_congr hb (s'.regNat rs) 32
  exact sameTrace_ite _ (sameTrace_finish _ _ hb) (sameTrace_ite _ (sameTrace_finish _ _ hb)
    (sameTrace_ite _ (sameTrace_finish _ _ hb1) (sameTrace_ite _ (sameTrace_finish _ _ hb1)
      (sameTrace_finish _ _ (log_bus_congr hb1 _)))))

/-- REC.XMAC's checks do not read in_len (R413). -/
theorem xmacCheck_inLen (pl : Platform) (d outAddr md dataAddr inLen inLen' origLen : Nat) :
    xmacCheck pl d ⟨outAddr, md, dataAddr, inLen, origLen⟩ = xmacCheck pl d ⟨outAddr, md, dataAddr, inLen', origLen⟩ := rfl

/-- REC.XMAC's secret in_len moves bytes within its rotation buffer, and no access (R413). -/
theorem sameTrace_execRecXmac {rs : Reg} (hp : s.platform = s'.platform) (hb : s.bus = s'.bus) (hr : s.reg rs = s'.reg rs)
    (ho : { xmacOps s.mem (s.regNat rs) with inLen := 0 } = { xmacOps s'.mem (s'.regNat rs) with inLen := 0 }) :
    SameTrace p (execRecXmac rs s) (execRecXmac rs s') := by
  unfold execRecXmac
  dsimp only
  rw [hp, regNat_congr hr]
  rw [regNat_congr hr] at ho
  generalize xmacOps s.mem (s'.regNat rs) = o at ho ⊢
  generalize xmacOps s'.mem (s'.regNat rs) = o' at ho ⊢
  obtain ⟨outAddr, md, dataAddr, inLen, origLen⟩ := o
  obtain ⟨_, _, _, inLen', _⟩ := o'
  obtain ⟨rfl, rfl, rfl, -, rfl⟩ := XmacOps.mk.inj ho
  have hb1 := logRead_bus_congr hb (s'.regNat rs) 40
  refine sameTrace_ite _ (sameTrace_finish _ _ hb) ?_
  rw [xmacCheck_inLen _ _ _ _ _ inLen inLen']
  cases xmacCheck s'.platform (s'.regNat rs) ⟨outAddr, md, dataAddr, inLen', origLen⟩ with
  | some c => exact sameTrace_finish _ _ hb1
  | none =>
    refine sameTrace_finish _ _ (memWrite_bus_congr (logRead_bus_congr hb1 _ _) _ ?_)
    rw [xmacRotate_length _ _ _ _ _ (xmacGather_rot_length ..), xmacRotate_length _ _ _ _ _ (xmacGather_rot_length ..)]

/-! ### INIT (R205) -/

/-- INIT's checks read no field of the slot but its occupancy. -/
theorem initCheck_congr (pl : Platform) (f : Family) (o : InitOps) {sl sl' : Slot} (hv : sl.valid = sl'.valid) :
    initCheck pl f o sl = initCheck pl f o sl' := by unfold initCheck; rw [hv]

/-- INIT reads its descriptor block and as many key bytes as that says (R215). -/
theorem sameTrace_initRun (f : Family) {rs : Reg} {ctx : Ctx} (mk : Alg → Nat → Bytes → Slot) (hp : s.platform = s'.platform)
    (hb : s.bus = s'.bus) (h : PublicInit rs ctx s s') : SameTrace p (initRun f rs ctx mk s) (initRun f rs ctx mk s') := by
  obtain ⟨hr, ho, hv⟩ := h
  unfold initRun
  dsimp only
  rw [initOps_eq, initOps_eq, ho, hp, regNat_congr hr, initCheck_congr _ _ _ hv]
  have hb1 := logRead_bus_congr hb (s'.regNat rs) 24
  refine sameTrace_ite _ (sameTrace_finish _ _ hb) ?_
  cases initCheck s'.platform f (s'.initOps rs) (s'.slot ctx) with
  | error c => exact sameTrace_finish _ _ hb1
  | ok alg => exact sameTrace_finish _ _ (logRead_bus_congr hb1 _ _)

/-! ### SEAL, SEALX and OPEN (R206 to R213) -/

/-- The slots and the operands have the same public sizes and places: tag length, descriptor words, lengths of the input and of the
trailer. -/
structure SameSizes (sl sl' : Slot) (d d' : Work) : Prop where
  tagLen : sl.tagLen = sl'.tagLen
  ops : d.ops = d'.ops
  inp : d.inp.length = d'.inp.length
  extra : d.extra.length = d'.extra.length

theorem sameSizes_snapshot {k : Kind} {rs : Reg} {ctx : Ctx} (h : PublicAead k rs ctx s s') :
    SameSizes (s.slot ctx) (s'.slot ctx) (s.snapshot rs k) (s'.snapshot rs k) := by
  obtain ⟨-, ho, -, -, ht⟩ := h
  refine ⟨congrArg BitVec.toNat ht, ho, by simp only [snapshot_inp_length, ho], ?_⟩
  cases k with
  | sealing => rw [snapshot_extra_of_sealing, snapshot_extra_of_sealing]
  | sealingX => simp only [snapshot_extra_length, ho]
  | opening => rw [snapshot_extra_of_opening, snapshot_extra_of_opening]

/-- The prologue's checks read no secret field of the slot (R215). -/
theorem aeadCheck_congr (pl : Platform) (f : Family) (k : Kind) (d : Nat) (o : AeadOps) {sl sl' : Slot}
    (hv : sl.valid = sl'.valid) (ha : sl.alg = sl'.alg) (ht : sl.taglen = sl'.taglen) :
    aeadCheck pl f k d o sl = aeadCheck pl f k d o sl' := by
  unfold aeadCheck Slot.tagLen
  rw [hv, ha, ht]

/-- A SEAL, SEALX or OPEN leaves one trace when its family's part after the prologue does. -/
theorem sameTrace_aeadRun (f : Family) {k : Kind} {rs : Reg} {ctx : Ctx} {body : Slot → Work → State → Outcome}
    (hp : s.platform = s'.platform) (hb : s.bus = s'.bus) (h : PublicAead k rs ctx s s')
    (hbody : ∀ {sl sl' d d' u u'}, SameSizes sl sl' d d' → u.bus = u'.bus → SameTrace p (body sl d u) (body sl' d' u')) :
    SameTrace p (aeadRun f k rs ctx body s) (aeadRun f k rs ctx body s') := by
  have hsize := sameSizes_snapshot h
  obtain ⟨hr, ho, hv, ha, ht⟩ := h
  unfold State.snapshot at hsize
  rw [ho] at hsize
  unfold aeadRun
  dsimp only
  rw [aeadOps_eq, aeadOps_eq, ho, hp, regNat_congr hr, aeadCheck_congr _ _ _ _ _ hv ha ht]
  have hb1 := logRead_bus_congr hb (s'.regNat rs) 96
  refine sameTrace_ite _ (sameTrace_finish _ _ hb) ?_
  cases aeadCheck s'.platform f k (s'.regNat rs) (s'.aeadOps rs k) (s'.slot ctx) with
  | some c => exact sameTrace_finish _ _ hb1
  | none => exact hbody hsize (log_bus_congr hb1 _)

section
variable (rd : Reg) {sl sl' : Slot} {d d' : Work} (h : SameSizes sl sl' d d') (hb : s.bus = s'.bus)
include h hb

/-- SEAL and SEALX write both regions whatever the bytes are. -/
theorem sameTrace_finishSeal {out out' tagRegion tagRegion' : Bytes} (n n' : Nat) (hout : out.length = out'.length)
    (htag : tagRegion.length = tagRegion'.length) :
    SameTrace p (finishSeal rd d.ops out tagRegion n s) (finishSeal rd d'.ops out' tagRegion' n' s') := by
  rw [h.ops]
  exact sameTrace_finish _ _ (memWrite_bus_congr (memWrite_bus_congr hb _ hout) _ htag)

/-- Where the outcome is public, two OPENs that verify first both write their output region or both write nothing (R213). -/
theorem sameTrace_verified (c c' : Prop) [Decidable c] [Decidable c'] {out out' : Bytes} (hout : out.length = out'.length) :
    SameTrace true (if c then finish .authFail s else finishOpen rd d.ops out s)
      (if c' then finish .authFail s' else finishOpen rd d'.ops out' s') := by
  rw [h.ops]
  split
  · split
    · exact sameTrace_finish _ _ hb
    · rintro t t' ⟨⟩ ⟨⟩ herr
      exact absurd (herr rfl) nofun
  · split
    · rintro t t' ⟨⟩ ⟨⟩ herr
      exact absurd (herr rfl) nofun
    · exact sameTrace_finish _ _ (memWrite_bus_congr hb _ hout)

theorem sameTrace_eaxSealBody : SameTrace p (eaxSealBody rd sl d s) (eaxSealBody rd sl' d' s') :=
  sameTrace_finishSeal rd h hb _ _ (by simp only [eaxCtr_length, h.inp]) (by simp only [eaxTag_length])

theorem sameTrace_sivSealBody : SameTrace p (sivSealBody rd sl d s) (sivSealBody rd sl' d' s') :=
  sameTrace_finishSeal rd h hb _ _ (by simp only [sivCtr_length, h.inp]) (by simp only [sivTag_length])

theorem sameTrace_ccpSealBody : SameTrace p (ccpSealBody rd sl d s) (ccpSealBody rd sl' d' s') :=
  sameTrace_finishSeal rd h hb _ _ (by simp only [xorBytes_length, ccpKeystream_length, h.inp, h.ops])
    (by simp only [ccpMac_length, h.tagLen])

theorem sameTrace_ccpSealxBody : SameTrace p (ccpSealxBody rd sl d s) (ccpSealxBody rd sl' d' s') :=
  sameTrace_finishSeal rd h hb _ _ (by simp only [xorBytes_length, ccpKeystream_length, h.inp, h.ops])
    (by simp only [List.length_append, xorBytes_length, ccpKeystream_length, ccpMac_length, h.extra, h.ops, h.tagLen])

theorem sameTrace_eaxOpenBody : SameTrace true (eaxOpenBody rd sl d s) (eaxOpenBody rd sl' d' s') :=
  sameTrace_verified rd h hb _ _ (by simp only [eaxCtr_length, h.inp])

theorem sameTrace_ccpOpenBody : SameTrace true (ccpOpenBody rd sl d s) (ccpOpenBody rd sl' d' s') :=
  sameTrace_verified rd h hb _ _ (by simp only [xorBytes_length, ccpKeystream_length, h.inp, h.ops])

omit h hb in
/-- SIV.OPEN writes its output region whether or not the tag is right (R310). -/
theorem sivOpenBody_bus {t : State} (ht : sivOpenBody rd sl d s = .next t) :
    t.bus = s.bus ++ busRange .write d.ops.outAddr d.inp.length := by
  have hlen : (sivCtr (sivKeys sl d.nonce).2 d.recv d.inp).length = d.inp.length := sivCtr_length ..
  unfold sivOpenBody at ht
  dsimp only at ht
  rw [← hlen]
  split at ht
  · cases ht
    rfl
  · cases ht
    rfl

theorem sameTrace_sivOpenBody : SameTrace p (sivOpenBody rd sl d s) (sivOpenBody rd sl' d' s') := fun t t' ht ht' _ => by
  rw [sivOpenBody_bus rd ht, sivOpenBody_bus rd ht', hb, h.ops, h.inp]

end

/-! ### Every command -/

/-- Two runs of one command whose public inputs agree leave one trace; EAX.OPEN and CCP.OPEN when their outcomes agree too (R522). -/
theorem exec_sameTrace {i : Instr} (h : PublicEq i s s') : SameTrace (verifiesFirst i) (exec i s) (exec i s') := by
  obtain ⟨hp, hb, hpub⟩ := h
  cases i with
  | ctMemcmp rd rs1 rs2 rs3 =>
    obtain ⟨h1, h2, h3⟩ := hpub
    exact sameTrace_execCtMemcmp rd hp hb h1 h2 h3
  | ctCmxor rd rs1 rs2 rs3 =>
    obtain ⟨hd, h1, h2⟩ := hpub
    exact sameTrace_execCtCmxor rs3 hp hb hd h1 h2
  | recRmpad rd rs =>
    obtain ⟨hr, ho⟩ := hpub
    exact sameTrace_execRecRmpad rd hp hb hr ho
  | recXmac rs =>
    obtain ⟨hr, ho⟩ := hpub
    change SameTrace false (execRecXmac rs s) (execRecXmac rs s')
    exact sameTrace_execRecXmac hp hb hr ho
  | eaxInit rs ctx => exact sameTrace_initRun .eax _ hp hb hpub
  | sivInit rs ctx => exact sameTrace_initRun .siv _ hp hb hpub
  | ccpInit rs ctx => exact sameTrace_initRun .ccp _ hp hb hpub
  | eaxSeal rd rs ctx => exact sameTrace_aeadRun .eax hp hb hpub (sameTrace_eaxSealBody rd)
  | eaxOpen rd rs ctx => exact sameTrace_aeadRun .eax hp hb hpub (sameTrace_eaxOpenBody rd)
  | sivSeal rd rs ctx => exact sameTrace_aeadRun .siv hp hb hpub (sameTrace_sivSealBody rd)
  | sivOpen rd rs ctx => exact sameTrace_aeadRun .siv hp hb hpub (sameTrace_sivOpenBody rd)
  | ccpSeal rd rs ctx => exact sameTrace_aeadRun .ccp hp hb hpub (sameTrace_ccpSealBody rd)
  | ccpSealx rd rs ctx => exact sameTrace_aeadRun .ccp hp hb hpub (sameTrace_ccpSealxBody rd)
  | ccpOpen rd rs ctx => exact sameTrace_aeadRun .ccp hp hb hpub (sameTrace_ccpOpenBody rd)
  | _ => exact sameTrace_finish _ _ hb

end

/-- EAX.OPEN and CCP.OPEN are the commands that verify before they write. -/
theorem verifiesFirst_cases {i : Instr} (h : verifiesFirst i = true) :
    ∃ rd rs ctx, i = .eaxOpen rd rs ctx ∨ i = .ccpOpen rd rs ctx := by
  cases i with
  | eaxOpen rd rs ctx => exact ⟨rd, rs, ctx, .inl rfl⟩
  | ccpOpen rd rs ctx => exact ⟨rd, rs, ctx, .inr rfl⟩
  | _ => cases h

/-- Settles O53: the outcome counts as public for just the commands that verify first. -/
theorem busTraceIsPublic : Obligations.BusTraceIsPublic := by
  intro i s s' t t' h ht ht' herr
  refine exec_sameTrace h t t' ht ht' fun hv => ?_
  obtain ⟨rd, rs, ctx, hi⟩ := verifiesFirst_cases hv
  exact herr rd rs ctx hi

end Sys2Proof.Machine

/-! SUPPORT. Byte strings byte by byte (00_scope.md R10): what each byte of an encoded number, of a doubled block, of a XOR and of a
keystream is. -/

namespace Sys2Proof.Machine

/-! ### Numbers in bytes (R10) -/

/-- Byte i of a little-endian encoding. -/
theorem leBytes_getD {k i : Nat} (n : Nat) (h : i < k) : (leBytes k n).getD i 0 = BitVec.ofNat 8 (n / 256 ^ i) := by
  induction k generalizing n i with
  | zero => omega
  | succ k ih =>
    cases i with
    | zero => simp [leBytes]
    | succ i => rw [leBytes, List.getD_cons_succ, ih _ (by omega), Nat.div_div_eq_div_mul, Nat.pow_succ']

/-- The k-byte encoding keeps the number modulo 2^(8k). -/
theorem intLe_leBytes (k n : Nat) : intLe (leBytes k n) = n % 256 ^ k := by
  induction k generalizing n with
  | zero => simp [leBytes, intLe, Nat.mod_one]
  | succ k ih => rw [leBytes, intLe, ih, BitVec.toNat_ofNat, Nat.pow_succ' (n := k), Nat.mod_mul (a := 256)]

theorem leBytes_mod (k n : Nat) : leBytes k (n % 256 ^ k) = leBytes k n := by
  induction k generalizing n with
  | zero => rfl
  | succ k ih =>
    have hlow : BitVec.ofNat 8 (n % 256 ^ (k + 1)) = BitVec.ofNat 8 n := by
      apply BitVec.eq_of_toNat_eq
      rw [BitVec.toNat_ofNat, BitVec.toNat_ofNat, Nat.pow_succ']
      exact Nat.mod_mul_right_mod ..
    have hhigh : n % 256 ^ (k + 1) / 256 = n / 256 % 256 ^ k := by rw [Nat.pow_succ', Nat.mod_mul_right_div_self]
    rw [leBytes, leBytes, hlow, hhigh, ih]

theorem intBe_be128 (n : Nat) : intBe (be128 n) = n % 2 ^ 128 := by
  rw [intBe, be128, List.reverse_reverse, intLe_leBytes]
  rfl

theorem reverse_getD {l : Bytes} {i : Nat} (h : i < l.length) : l.reverse.getD i 0 = l.getD (l.length - 1 - i) 0 := by
  rw [List.getD_eq_getElem?_getD, List.getElem?_reverse h, ← List.getD_eq_getElem?_getD]

/-- Byte i of a 16-byte big-endian encoding. -/
theorem be128_getD {i : Nat} (n : Nat) (h : i < 16) : (be128 n).getD i 0 = BitVec.ofNat 8 (n / 256 ^ (15 - i)) := by
  rw [be128, reverse_getD (by simpa using h), leBytes_length, leBytes_getD n (by omega)]

/-! ### Bits of numbers in bytes -/

/-- Bit k of a little-endian number is a bit of byte k / 8. -/
theorem intLe_testBit (bs : Bytes) (k : Nat) : (intLe bs).testBit k = (bs.getD (k / 8) 0).getLsbD (k % 8) := by
  induction bs generalizing k with
  | nil => simp [intLe]
  | cons b bs ih =>
    have hb : intLe (b :: bs) = 2 ^ 8 * intLe bs + b.toNat := by rw [intLe]; omega
    rw [hb, Nat.testBit_two_pow_mul_add _ b.isLt]
    split
    next hk => rw [Nat.div_eq_of_lt hk, Nat.mod_eq_of_lt hk, List.getD_cons_zero, BitVec.testBit_toNat]
    next hk =>
      obtain ⟨j, rfl⟩ := Nat.exists_eq_add_of_le' (Nat.not_lt.mp hk)
      rw [Nat.add_sub_cancel, ih, Nat.add_div_right _ (by decide), Nat.add_mod_right, List.getD_cons_succ]

/-- Bit 8 (15 - i) + j of a 16-byte big-endian number is bit j of its byte i. -/
theorem intBe_testBit {x : Bytes} (hx : x.length = 16) {i j : Nat} (hi : i < 16) (hj : j < 8) :
    (intBe x).testBit (8 * (15 - i) + j) = (x.getD i 0).getLsbD j := by
  rw [intBe, intLe_testBit, show (8 * (15 - i) + j) / 8 = 15 - i by omega, show (8 * (15 - i) + j) % 8 = j by omega,
    reverse_getD (by omega), hx, show 16 - 1 - (15 - i) = i by omega]

/-- Bit j of byte i of a 16-byte big-endian encoding. -/
theorem be128_getLsbD (n : Nat) {i j : Nat} (hi : i < 16) (hj : j < 8) :
    ((be128 n).getD i 0).getLsbD j = n.testBit (8 * (15 - i) + j) := by
  rw [be128_getD n hi, BitVec.getLsbD_ofNat, show 256 = 2 ^ 8 by rfl, ← Nat.pow_mul, Nat.testBit_div_two_pow, Nat.add_comm]
  simp [hj]

/-! ### Doubling (R251) -/

/-- The mask that doubling XORs in: 0x87 where the top bit is 1. -/
def dblMask (w : Nat) (carry : Bool) : BitVec w := if carry then 0x87#w else 0#w

theorem dblMask_eq (v : BitVec 128) : (0#128 - v >>> 127) &&& 0x87#128 = dblMask 128 (v.getLsbD 127) := by
  have hcarry : v >>> 127 = if v.getLsbD 127 then 1#128 else 0#128 := by
    refine BitVec.eq_of_getLsbD_eq fun k hk => ?_
    rw [BitVec.getLsbD_ushiftRight]
    rcases Nat.eq_zero_or_pos k with rfl | hpos
    · split <;> simp_all
    · rw [BitVec.getLsbD_of_ge _ _ (by omega)]
      split <;> simp [BitVec.getLsbD_one, hpos.ne']
  rw [hcarry, dblMask]
  split <;> decide

theorem dblMask_high (carry : Bool) {k : Nat} (h : 8 ≤ k) : (dblMask 128 carry).getLsbD k = false := by
  have hk : 2 ^ 8 ≤ 2 ^ k := Nat.pow_le_pow_right (by decide) h
  have hbit : Nat.testBit 0x87 k = false := Nat.testBit_lt_two_pow (by omega)
  cases carry <;> simp [dblMask, BitVec.getLsbD_ofNat, hbit]

theorem dblMask_low (carry : Bool) : ∀ j < 8, (dblMask 128 carry).getLsbD j = (dblMask 8 carry).getLsbD j := by
  cases carry <;> decide

/-- Bit j of byte i of a doubled block: the bit below it in the block, with the mask XORed in. -/
theorem dbl_getLsbD {x : Bytes} (hx : x.length = 16) {i j : Nat} (hi : i < 16) (hj : j < 8) :
    ((dbl x).getD i 0).getLsbD j =
      ((if j = 0 then decide (i < 15) && (x.getD (i + 1) 0).getLsbD 7 else (x.getD i 0).getLsbD (j - 1)) ^^
        (dblMask 128 ((x.getD 0 0).getLsbD 7)).getLsbD (8 * (15 - i) + j)) := by
  have hv {k : Nat} (hk : k < 128) : (BitVec.ofNat 128 (intBe x)).getLsbD k = (intBe x).testBit k := by
    rw [BitVec.getLsbD_ofNat, decide_eq_true hk, Bool.true_and]
  have htop : (BitVec.ofNat 128 (intBe x)).getLsbD 127 = (x.getD 0 0).getLsbD 7 :=
    (hv (by decide)).trans (intBe_testBit (i := 0) (j := 7) hx (by decide) (by decide))
  have hmask := dblMask_eq (BitVec.ofNat 128 (intBe x))
  rw [dbl, be128_getLsbD _ hi hj, BitVec.testBit_toNat, BitVec.getLsbD_xor, BitVec.getLsbD_shiftLeft, hv (by omega)]
  simp only [BitVec.ofNat_eq_ofNat, hmask, htop]
  congr 1
  by_cases h0 : j = 0
  · subst h0
    by_cases h15 : i < 15
    · rw [show 8 * (15 - i) + 0 - 1 = 8 * (15 - (i + 1)) + 7 by omega, intBe_testBit hx (by omega) (by decide)]
      simp [h15]
      omega
    · simp [show 15 - i = 0 by omega, h15]
  · rw [if_neg h0, show 8 * (15 - i) + j - 1 = 8 * (15 - i) + (j - 1) by omega, intBe_testBit hx hi (by omega)]
    simp [h0]
    omega

/-- Bytes 0 to 14 of a doubled block: shifted up, the top bit of the next byte below. -/
theorem dbl_getD {x : Bytes} (hx : x.length = 16) {i : Nat} (hi : i < 15) :
    (dbl x).getD i 0 = (x.getD i 0 <<< 1) ||| (x.getD (i + 1) 0 >>> 7) := by
  refine BitVec.eq_of_getLsbD_eq fun j hj => ?_
  rw [dbl_getLsbD hx (by omega) hj, dblMask_high _ (by omega), BitVec.getLsbD_or, BitVec.getLsbD_shiftLeft,
    BitVec.getLsbD_ushiftRight]
  by_cases h0 : j = 0
  · simp [h0, hi]
  · have hout : (x.getD (i + 1) 0).getLsbD (7 + j) = false := BitVec.getLsbD_of_ge _ _ (by omega)
    rw [hout]
    simp [h0, hj]

/-- Byte 15 of a doubled block: shifted up, with 0x87 XORed in where the block's top bit was 1. -/
theorem dbl_getD_last {x : Bytes} (hx : x.length = 16) :
    (dbl x).getD 15 0 = (x.getD 15 0 <<< 1) ^^^ (if (x.getD 0 0).getLsbD 7 then 0x87 else 0) := by
  refine BitVec.eq_of_getLsbD_eq fun j hj => ?_
  have hmask : (if (x.getD 0 0).getLsbD 7 then (0x87 : Byte) else 0) = dblMask 8 ((x.getD 0 0).getLsbD 7) := rfl
  rw [dbl_getLsbD hx (by decide) hj, hmask, Nat.sub_self, Nat.mul_zero, Nat.zero_add, dblMask_low _ j hj,
    BitVec.getLsbD_xor, BitVec.getLsbD_shiftLeft]
  by_cases h0 : j = 0
  · simp [h0]
  · simp [h0, hj]

/-! ### XOR and keystreams byte by byte -/

theorem xorBytes_getD {a b : Bytes} {i : Nat} (ha : i < a.length) (hb : i < b.length) :
    (xorBytes a b).getD i 0 = a.getD i 0 ^^^ b.getD i 0 := by
  simp [xorBytes, ha, hb]

/-- Byte i of blocks of c bytes each is byte i mod c of block i / c. -/
theorem flatMap_range_getD {f : Nat → Bytes} {c : Nat} (h : ∀ k, (f k).length = c) {n i : Nat} (hi : i < c * n) :
    ((List.range n).flatMap f).getD i 0 = (f (i / c)).getD (i % c) 0 := by
  induction n with
  | zero => omega
  | succ n ih =>
    have hc : 0 < c := Nat.pos_of_mul_pos_right (Nat.zero_lt_of_lt hi)
    have hlen := flatMap_range_length h n
    rw [List.range_succ, List.flatMap_append, List.flatMap_singleton]
    by_cases hn : i < c * n
    · rw [List.getD_append _ _ _ _ (hlen ▸ hn), ih hn]
    · obtain ⟨j, rfl⟩ := Nat.exists_eq_add_of_le (Nat.not_lt.mp hn)
      have hj : j < c := by rw [Nat.mul_succ] at hi; omega
      rw [List.getD_append_right _ _ _ _ (by omega), hlen, Nat.add_sub_cancel_left, Nat.mul_add_div hc,
        Nat.div_eq_of_lt hj, Nat.mul_add_mod, Nat.mod_eq_of_lt hj, Nat.add_zero]

/-- Byte i of a string XORed with as many blocks of c bytes as cover it. -/
theorem xorBytes_flatMap_getD {f : Nat → Bytes} {c : Nat} (h : ∀ k, (f k).length = c) (hc : 0 < c) {d : Bytes} {i : Nat}
    (hi : i < d.length) : (xorBytes d ((List.range (ceilDiv d.length c)).flatMap f)).getD i 0 =
      d.getD i 0 ^^^ (f (i / c)).getD (i % c) 0 := by
  have hcov := Nat.lt_of_lt_of_le hi (le_mul_ceilDiv d.length c hc)
  rw [xorBytes_getD hi (by rwa [flatMap_range_length h]), flatMap_range_getD h hcov]

end Sys2Proof.Machine

/-! SUPPORT. Key contexts (41_aead_contract.md R205, R212): the slots that INIT and AEAD.CLEANUP leave, and INIT's failures in the
order of R463; the statements O28 to O32. -/

namespace Sys2Proof.Machine

/-! ### AEAD.CLEANUP (R212) -/

theorem encode_aeadCleanup : ∀ ctx : Ctx, encode (.aeadCleanup ctx) = 0x40000000#32 ||| BitVec.ofNat 32 (ctx.val * 256) := by
  decide

theorem SameSlotsExcept.of_setSlot {s t : State} {ctx : Ctx} {sl : Slot} (h : t.slots = (s.setSlot ctx sl).slots) :
    SameSlotsExcept [ctx] s t := by
  intro c hc
  rw [slot_congr h, slot_setSlot, if_neg (by simpa using hc)]

/-- Settles O28: the slot written is the empty one, whatever was there. -/
theorem cleanupClearsSlot : Obligations.CleanupClearsSlot := fun s ctx =>
  ⟨encode_aeadCleanup ctx, _, rfl, (Completed.complete _ s).setSlot ctx _, (slot_setSlot s ctx ctx _).trans (if_pos rfl),
    .of_setSlot rfl, .of_x rfl, .of_mem rfl, rfl⟩

/-! ### INIT under its conditions (R205) -/

section
variable {f : Family} {rs : Reg} {ctx : Ctx} {alg : Alg} {s : State}

/-- INIT completes with OK, its slot is the family's context of the key it reads, and nothing else is written. -/
theorem exec_initInstr_of_ready (h : InitReady f rs ctx alg s) :
    ∃ t, exec (f.initInstr rs ctx) s = .next t ∧ Completed .ok s t ∧
      t.slot ctx = f.slotOf alg (initTagLen (s.initOps rs))
        (Memory.readBytes s.mem (s.initOps rs).keyAddr (s.initOps rs).keyLen) ∧
      SameSlotsExcept [ctx] s t ∧ SameRegsExcept [] s t ∧ SameMemOutside [] s t := by
  refine ⟨_, (exec_initInstr f rs ctx s).trans (initRun_of_ready h _),
    (((Completed.complete _ s).logRead _ _).logRead _ _).setSlot _ _, ?_, .of_setSlot rfl, .of_x rfl, .of_mem rfl⟩
  simp [State.memRead]

/-- The context of a key of n bytes, the masks aside (R205, R301, R351). -/
theorem plainSlot_readBytes (alg : Alg) (t : Nat) (m : Memory) (a n : Nat) :
    plainSlot alg t (Memory.readBytes m a n) =
      { valid := true, alg := alg, taglen := BitVec.ofNat 5 t, key := Memory.readBytes m a n ++ zeros (32 - n),
        maskB := zeros 16, maskP := zeros 16 } := by
  rw [plainSlot, Memory.readBytes_length]

/-- EAX's context of a key of n bytes (R252). -/
theorem eaxSlot_readBytes (alg : Alg) (t : Nat) (m : Memory) (a n : Nat) :
    eaxSlot alg t (Memory.readBytes m a n) =
      { valid := true, alg := alg, taglen := 16, key := Memory.readBytes m a n ++ zeros (32 - n),
        maskB := dbl (aesEnc (Memory.readBytes m a n) (zeros 16)),
        maskP := dbl (dbl (aesEnc (Memory.readBytes m a n) (zeros 16))) } := by
  simp only [eaxSlot, plainSlot_readBytes]
  congr 1

theorem algOfKeyLen_eax {n : Nat} (h : Family.eax.algOfKeyLen n = some alg) : alg = if n = 16 then .eax128 else .eax256 := by
  simp only [Family.algOfKeyLen] at h
  grind

theorem algOfKeyLen_siv {n : Nat} (h : Family.siv.algOfKeyLen n = some alg) : alg = if n = 16 then .siv128 else .siv256 := by
  simp only [Family.algOfKeyLen] at h
  grind

theorem algOfKeyLen_ccp {n : Nat} (h : Family.ccp.algOfKeyLen n = some alg) : alg = .ccp ∧ n = 32 := by
  simp only [Family.algOfKeyLen] at h
  grind

end

/-- Settles O29: doubling bit by bit, and EAX's context of the key that INIT reads. -/
theorem eaxInitCompletes : Obligations.EaxInitCompletes := by
  refine ⟨fun x hx => ⟨dbl_length x, fun i => dbl_getD hx, dbl_getD_last hx⟩, ?_⟩
  intro s rs ctx alg h
  obtain ⟨t, ht, hc, hslot, hframe⟩ := exec_initInstr_of_ready h
  refine ⟨t, ht, hc, ?_, hframe⟩
  rw [hslot, Family.slotOf, eaxSlot_readBytes, algOfKeyLen_eax h.keyLen]

/-- Settles O30: GCM-SIV's context of the key that INIT reads. -/
theorem sivInitCompletes : Obligations.SivInitCompletes := by
  intro s rs ctx alg h o
  obtain ⟨t, ht, hc, hslot, hframe⟩ := exec_initInstr_of_ready h
  refine ⟨t, ht, hc, ?_, hframe⟩
  rw [hslot, Family.slotOf, sivSlot, plainSlot_readBytes, algOfKeyLen_siv h.keyLen]
  rfl

/-- Settles O31: ChaCha20-Poly1305's context of the 32 bytes that INIT reads; a tag length it accepts fits its field. -/
theorem ccpInitCompletes : Obligations.CcpInitCompletes := by
  intro s rs ctx alg h o
  obtain ⟨t, ht, hc, hslot, hframe⟩ := exec_initInstr_of_ready h
  obtain ⟨rfl, hlen⟩ := algOfKeyLen_ccp h.keyLen
  refine ⟨t, ht, hc, ?_, ?_, hframe⟩
  · rw [hslot]
    exact plainSlot_tagLen _ (Family.tagOk_lt h.tagLen)
  · rw [hslot, Family.slotOf, ccpSlot, plainSlot_readBytes, hlen]
    simp [zeros, o]

/-! ### INIT's failures (R201, R205, R463) -/

/-- The code that a check raises. -/
def raisedCode : Except Code Alg → Option Code
  | .error c => some c
  | .ok _ => none

/-- INIT's checks one by one. -/
theorem raisedCode_initCheck (p : Platform) (f : Family) (o : InitOps) (sl : Slot) :
    raisedCode (initCheck p f o sl) =
      if sl.valid = true then some .ctxErr
      else if f.algOfKeyLen o.keyLen = none then some .config
      else if f.tagOk (initTagLen o) = false then some .config
      else if p.accessible o.keyAddr o.keyLen .read = false then some .busErr
      else none := by
  unfold initCheck
  split
  · rfl
  · cases f.algOfKeyLen o.keyLen with
    | none => rfl
    | some alg =>
      cases f.tagOk (initTagLen o)
      · rfl
      · cases p.accessible o.keyAddr o.keyLen .read <;> rfl

/-- INIT ends with BUSERR where its descriptor block cannot be read, and by its checks otherwise. -/
theorem exec_initInstr_endsByCheck (f : Family) (rs : Reg) (ctx : Ctx) (s : State) :
    ∃ t, exec (f.initInstr rs ctx) s = .next t ∧
      if descriptorOk s.platform (s.regNat rs) 24 = false then NothingWritten .busErr s t
      else EndsByCheck s t (t.err = .ok) (raisedCode (initCheck s.platform f (s.initOps rs) (s.slot ctx))) := by
  rw [exec_initInstr]
  rcases initRun_cases f rs ctx f.slotOf s with ⟨hd, h⟩ | ⟨hd, c, hc, h⟩ | ⟨hd, alg, hc, h⟩
  · refine ⟨_, h, ?_⟩
    rw [if_pos hd]
    exact nothingWritten_complete _ s
  · refine ⟨_, h, ?_⟩
    rw [if_neg (by simp [hd]), hc]
    exact nothingWritten_finish c s _
  · refine ⟨_, h, ?_⟩
    rw [if_neg (by simp [hd]), hc]
    rfl

theorem algOfKeyLen_eq_none_iff {f : Family} {n : Nat} :
    f.algOfKeyLen n = none ↔ n ≠ 32 ∧ (f = .ccp ∨ n ≠ 16) := by
  cases f <;> simp only [Family.algOfKeyLen] <;> grind

theorem initTagLen_pos (o : InitOps) : 0 < initTagLen o := by
  unfold initTagLen
  split <;> omega

theorem tagOk_eq_false_iff {f : Family} {t : Nat} (ht : 0 < t) :
    f.tagOk t = false ↔ 16 < t ∨ (f ≠ .ccp ∧ t ≠ 16) := by
  cases f <;> simp [Family.tagOk] <;> omega

/-- Settles O32: the conditions of INIT's checks one by one. -/
theorem initErrors : Obligations.InitErrors := by
  intro f s rs ctx d o tagLen
  obtain ⟨t, ht, h⟩ := exec_initInstr_endsByCheck f rs ctx s
  simp only [raisedCode_initCheck, endsByCheck_ite, endsByCheck_some, endsByCheck_none] at h
  exact ⟨t, ht, (ite_congr (propext descriptorOk_eq_false_iff) (fun _ => rfl) fun _ =>
    ite_congr rfl (fun _ => rfl) fun _ =>
    ite_congr (propext algOfKeyLen_eq_none_iff) (fun _ => rfl) fun _ =>
    ite_congr (propext (tagOk_eq_false_iff (initTagLen_pos o))) (fun _ => rfl) fun _ =>
    ite_congr rfl (fun _ => rfl) fun _ => rfl).mp h⟩

end Sys2Proof.Machine

/-! SUPPORT. What SEAL, SEALX and OPEN compute (42_eax.md R253, R254; 43_gcm_siv.md R302 to R307; 44_chacha20_poly1305.md R353):
OMAC over whole blocks and a last piece, the record keys, the pre-tag, and each byte of a counter mode. -/

namespace Sys2Proof.Machine

/-! ### EAX (R253, R254) -/

theorem chunks_nil (n fuel : Nat) : chunks n fuel [] = [] := by cases fuel <;> rfl

/-- The last piece of a string is a piece of its own. -/
theorem chunks_last {n : Nat} {last : Bytes} (h1 : 1 ≤ last.length) (h2 : last.length ≤ n) (fuel : Nat) :
    chunks n (fuel + 1) last = [last] := by
  obtain ⟨x, xs, rfl⟩ := List.exists_cons_of_length_pos h1
  rw [chunks, List.take_of_length_le h2, List.drop_of_length_le h2, chunks_nil]

/-- A whole block in front is the first piece. -/
theorem chunks_append {n : Nat} (hn : 0 < n) {b : Bytes} (hb : b.length = n) (rest : Bytes) (fuel : Nat) :
    chunks n (fuel + 1) (b ++ rest) = b :: chunks n fuel rest := by
  obtain ⟨x, xs, rfl⟩ := List.exists_cons_of_length_pos (hb ▸ hn)
  rw [List.cons_append, chunks, ← List.cons_append, List.take_left' hb, List.drop_left' hb]

/-- The pieces of whole blocks and a last piece are those. -/
theorem chunks_flatten_append {n : Nat} (hn : 0 < n) {blocks : List Bytes} {last : Bytes} (hb : ∀ b ∈ blocks, b.length = n)
    (h1 : 1 ≤ last.length) (h2 : last.length ≤ n) {fuel : Nat} (hf : blocks.length < fuel) :
    chunks n fuel (blocks.flatten ++ last) = blocks ++ [last] := by
  induction blocks generalizing fuel with
  | nil =>
    obtain ⟨fuel, rfl⟩ := Nat.exists_eq_add_one.mpr hf
    exact chunks_last h1 h2 fuel
  | cons b bs ih =>
    obtain ⟨fuel, rfl⟩ := Nat.exists_eq_add_one.mpr (Nat.zero_lt_of_lt hf)
    obtain ⟨hb, hbs⟩ := List.forall_mem_cons.mp hb
    rw [List.flatten_cons, List.append_assoc, chunks_append hn hb, ih hbs (Nat.lt_of_succ_lt_succ hf), List.cons_append]

theorem length_le_flatten_length {n : Nat} (hn : 0 < n) {blocks : List Bytes} (hb : ∀ b ∈ blocks, b.length = n) :
    blocks.length ≤ blocks.flatten.length := by
  induction blocks with
  | nil => exact Nat.zero_le _
  | cons b bs ih =>
    obtain ⟨hb, hbs⟩ := List.forall_mem_cons.mp hb
    have := ih hbs
    simp only [List.length_cons, List.flatten_cons, List.length_append]
    omega

theorem blocks16_flatten_append {blocks : List Bytes} {last : Bytes} (hb : ∀ b ∈ blocks, b.length = 16)
    (h1 : 1 ≤ last.length) (h2 : last.length ≤ 16) : blocks16 (blocks.flatten ++ last) = blocks ++ [last] := by
  have := length_le_flatten_length (by decide) hb
  exact chunks_flatten_append (by decide) hb h1 h2 (by rw [List.length_append]; omega)

/-- OMAC's loop is the chain over the whole blocks, then the last piece. -/
theorem omacBlocks_append_singleton (e : Bytes → Bytes) (b p x : Bytes) (blocks : List Bytes) (last : Bytes) :
    omacBlocks e b p x (blocks ++ [last]) = omacBlocks e b p (blocks.foldl (fun x blk => e (xorBytes x blk)) x) [last] := by
  induction blocks generalizing x with
  | nil => rfl
  | cons y ys ih =>
    rw [List.foldl_cons, ← ih]
    cases ys <;> rfl

/-- OMAC of whole blocks and a last piece of 1 to 16 bytes. -/
theorem omac_flatten_append (e : Bytes → Bytes) (b p : Bytes) (t : Byte) {blocks : List Bytes} {last : Bytes}
    (hb : ∀ blk ∈ blocks, blk.length = 16) (h1 : 1 ≤ last.length) (h2 : last.length ≤ 16) :
    omac e b p t (blocks.flatten ++ last) =
      omacBlocks e b p (blocks.foldl (fun x blk => e (xorBytes x blk)) (e (tweakBlock t))) [last] := by
  rw [omac, if_neg (by rw [List.length_append]; omega), blocks16_flatten_append hb h1 h2, omacBlocks_append_singleton]

/-- Byte i of EAX's counter mode (R254). -/
theorem eaxCtr_getD (sl : Slot) (n : Bytes) {d : Bytes} {i : Nat} (h : i < d.length) :
    (eaxCtr (slotEnc sl) n d).getD i 0 = d.getD i 0 ^^^ (slotEnc sl (be128 (intBe n + i / 16))).getD (i % 16) 0 :=
  xorBytes_flatMap_getD (f := fun k => slotEnc sl (be128 (intBe n + k))) (fun _ => aesEnc_length ..) (by decide) h

/-! ### GCM-SIV (R302 to R307) -/

/-- The key material of a record: a block for each index, as one byte (R302). -/
theorem kdfMat_eq (alg : Alg) (root nonce : Bytes) (hf : alg.family = .siv) : kdfMat root nonce (kdfCount alg) =
    (if alg = .siv128 then [0, 1, 2, 3] else [0, 1, 2, 3, 4, 5]).flatMap fun i : Byte =>
      (aesEnc root ([i, 0, 0, 0] ++ nonce)).take 8 := by
  cases alg with
  | siv128 => rfl
  | siv256 => rfl
  | eax128 => cases hf
  | eax256 => cases hf
  | ccp => cases hf

theorem kdfMat_length (root nonce : Bytes) (n : Nat) : (kdfMat root nonce n).length = 8 * n :=
  flatMap_range_length (fun k => by simp [kdfBlock]) n

/-- The encryption key is all that follows the authentication key (R302). -/
theorem encKeyOf_kdfMat (alg : Alg) (root nonce : Bytes) :
    encKeyOf alg (kdfMat root nonce (kdfCount alg)) = (kdfMat root nonce (kdfCount alg)).drop 16 := by
  refine List.take_of_length_le ?_
  rw [List.length_drop, kdfMat_length]
  cases alg <;> decide

theorem sivKeys_eq {sl : Slot} (nonce : Bytes) : sivKeys sl nonce =
    ((kdfMat sl.rawKey nonce (kdfCount sl.alg)).take 16, (kdfMat sl.rawKey nonce (kdfCount sl.alg)).drop 16) := by
  rw [sivKeys, encKeyOf_kdfMat, authKeyOf]

section
variable {h nonce : Bytes}

theorem preTag_length (hh : h.length = 16) (hn : nonce.length = 12) : (preTag h nonce).length = 16 := by
  simp [preTag, hh, hn]

/-- Bytes 0 to 11 of the pre-tag (R304). -/
theorem preTag_getD_nonce (hh : h.length = 16) (hn : nonce.length = 12) {i : Nat} (hi : i < 12) :
    (preTag h nonce).getD i 0 = h.getD i 0 ^^^ nonce.getD i 0 := by
  have htake : (h.take 12).length = 12 := by simp [hh]
  have hxor : i < (xorBytes (h.take 12) nonce).length := by simp [hh, hn, hi]
  have hbyte := xorBytes_getD (a := h.take 12) (b := nonce) (htake.symm ▸ hi) (hn.symm ▸ hi)
  simp only [List.getD_eq_getElem?_getD, List.getElem?_take_of_lt hi] at hbyte ⊢
  rw [preTag, List.getElem?_modify_ne _ _ (show 15 ≠ i by omega), List.getElem?_append_left hxor, hbyte]

/-- Bytes 12 to 15 before the top bit is cleared are the hash's. -/
theorem nonceMasked_getElem? (hh : h.length = 16) (hn : nonce.length = 12) {i : Nat} (hi : 12 ≤ i) :
    (xorBytes (h.take 12) nonce ++ h.drop 12)[i]? = h[i]? := by
  have hlen : (xorBytes (h.take 12) nonce).length = 12 := by simp [hh, hn]
  rw [List.getElem?_append_right (hlen.symm ▸ hi), hlen, List.getElem?_drop, Nat.add_sub_cancel' hi]

/-- Bytes 12 to 14 of the pre-tag (R304). -/
theorem preTag_getD_hash (hh : h.length = 16) (hn : nonce.length = 12) {i : Nat} (hi : 12 ≤ i) (h15 : i < 15) :
    (preTag h nonce).getD i 0 = h.getD i 0 := by
  simp only [List.getD_eq_getElem?_getD]
  rw [preTag, List.getElem?_modify_ne _ _ (show 15 ≠ i by omega), nonceMasked_getElem? hh hn hi]

/-- Byte 15 of the pre-tag has its top bit cleared (R304). -/
theorem preTag_getD_last (hh : h.length = 16) (hn : nonce.length = 12) :
    (preTag h nonce).getD 15 0 = h.getD 15 0 &&& 0x7F := by
  simp only [List.getD_eq_getElem?_getD]
  rw [preTag, List.getElem?_modify_eq, nonceMasked_getElem? hh hn (by decide), List.getElem?_eq_getElem (by omega)]
  rfl

end

/-- The counter block number k of a tag: its top bit set, its first four bytes increased by k modulo 2^32 (R306, R307). -/
theorem sivCounter_ctrBlock0 {tag : Bytes} (h : tag.length = 16) (k : Nat) : sivCounter (ctrBlock0 tag) k =
    leBytes 4 ((intLe (tag.take 4) + k) % 2 ^ 32) ++ (tag.drop 4).take 11 ++ [tag.getD 15 0 ||| 0x80] := by
  have htake : (ctrBlock0 tag).take 4 = tag.take 4 := by
    rw [ctrBlock0, List.take_append_of_le_length (by simp [h]), List.take_take]
    rfl
  have hdrop : (ctrBlock0 tag).drop 4 = (tag.drop 4).take 11 ++ [tag.getD 15 0 ||| 0x80] := by
    rw [ctrBlock0, List.drop_append_of_le_length (by simp [h]), List.drop_take]
  rw [sivCounter, htake, hdrop, List.append_assoc, show 2 ^ 32 = 256 ^ 4 by rfl, leBytes_mod]

/-- Byte i of GCM-SIV's counter mode (R307). -/
theorem sivCtr_getD (ek : Bytes) {tag d : Bytes} {i : Nat} (h : i < d.length) : (sivCtr ek tag d).getD i 0 =
    d.getD i 0 ^^^ (aesEnc ek (sivCounter (ctrBlock0 tag) (i / 16))).getD (i % 16) 0 :=
  xorBytes_flatMap_getD (f := fun k => aesEnc ek (sivCounter (ctrBlock0 tag) k)) (fun _ => aesEnc_length ..) (by decide) h

/-! ### ChaCha20-Poly1305 (R353) -/

/-- Byte i of the keystream from offset o. -/
theorem ccpKeystream_getD (key nonce : Bytes) (o : Nat) {n i : Nat} (h : i < n) :
    (ccpKeystream key nonce o n).getD i 0 = (chachaBlock key nonce (1 + (o + i) / 64)).getD ((o + i) % 64) 0 := by
  have hcov := le_mul_ceilDiv (o + n) 64 (by decide)
  rw [← flatMap_range_getD (f := fun j => chachaBlock key nonce (1 + j)) (fun _ => chachaBlock_length ..)
    (show o + i < 64 * ceilDiv (o + n) 64 by omega)]
  simp only [ccpKeystream, List.getD_eq_getElem?_getD, List.getElem?_take_of_lt h, List.getElem?_drop]

end Sys2Proof.Machine

/-! SUPPORT. SEAL, SEALX and OPEN under the conditions of their prologue (41_aead_contract.md R206, R210, R213): how each ends, its
memory read back; the statements O34 to O40. -/

namespace Sys2Proof.Machine

/-! ### After the prologue (R206, R210) -/

/-- Bus accesses before a completion do not matter to it. -/
theorem Completed.of_log {c : Code} {s t : State} {l : List BusAccess} (h : Completed c (s.log l) t) : Completed c s t :=
  ⟨h.err, h.done, h.running, h.phase, h.work, h.irqEn, h.ovr, h.lastop, h.sivAccel, h.platform, h.moves, h.readData, h.free⟩

/-- A number that fits a register is read back from it. -/
theorem toNat_eq_of_eq_ofNat {v : Word} {n : Nat} (h : v = BitVec.ofNat 64 n) (hn : n < 2 ^ 64) : v.toNat = n := by
  rw [h, BitVec.toNat_ofNat, Nat.mod_eq_of_lt hn]

theorem Region.apart_comm {r q : Region} : r.apart q ↔ q.apart r := by
  simp only [Region.apart]
  omega

/-- The state after the prologue's reads: the descriptor block and the input regions in the trace (R206). -/
def State.afterPrologue (s : State) (rs : Reg) (k : Kind) : State :=
  (s.logRead (s.regNat rs) 96).log (snapshotTrace k (s.aeadOps rs k))

section
variable {f : Family} {k : Kind} {rd rs : Reg} {ctx : Ctx} {s : State}

theorem Completed.of_afterPrologue {c : Code} {t : State} (h : Completed c (s.afterPrologue rs k) t) : Completed c s t :=
  h.of_log.of_log

/-- The lengths that rd returns fit a register (R207). -/
theorem AeadReady.inLen_lt (h : AeadReady f k rs ctx s) : (s.aeadOps rs k).inLen < 2 ^ 64 := by
  obtain ⟨hccp, hother, -⟩ := h.limits
  by_cases hf : (s.slot ctx).alg.family = .ccp
  · have := hccp hf
    omega
  · have := hother hf
    omega

theorem AeadReady.extraLen_le (h : AeadReady .ccp k rs ctx s) : (s.aeadOps rs k).extraLen ≤ 2 ^ 38 := by
  have := h.limits.1 h.family
  omega

/-- The tag region of SEAL and SEALX is apart from the output region (R92, R209). -/
theorem AeadReady.out_apart_tag (h : AeadReady f k rs ctx s) (hk : k ≠ .opening) :
    (outRegion (s.aeadOps rs k)).apart
      ⟨(s.aeadOps rs k).tagAddr, (s.aeadOps rs k).extraLen + (s.slot ctx).tagLen⟩ := by
  rw [Region.apart_comm]
  cases k with
  | sealing =>
    rw [aeadOps_extraLen_of_sealing, Nat.zero_add]
    exact (h.tagApart _ List.mem_cons_self).1
  | sealingX => exact (h.tagApart _ List.mem_cons_self).1
  | opening => exact absurd rfl hk

variable {body : Slot → Work → State → Outcome} {out : Bytes}

/-- A SEAL or SEALX whose body ends with an output and the n bytes of a tag region: both are in memory, n is in rd, and nothing
else is written. -/
theorem AeadReady.run_seal (h : AeadReady f k rs ctx s) (hk : k ≠ .opening) {n : Nat} {tagRegion : Bytes}
    (hn : n = (s.aeadOps rs k).extraLen + (s.slot ctx).tagLen) (hout : out.length = (s.aeadOps rs k).inLen)
    (htag : tagRegion.length = n)
    (hbody : body (s.slot ctx) (s.snapshot rs k) (s.afterPrologue rs k) =
      finishSeal rd (s.aeadOps rs k) out tagRegion n (s.afterPrologue rs k)) :
    ∃ t, aeadRun f k rs ctx body s = .next t ∧ Completed .ok s t ∧ t.reg rd = BitVec.ofNat 64 n ∧
      SameRegsExcept [rd] s t ∧ SameSlotsExcept [] s t ∧
      Memory.readBytes t.mem (s.aeadOps rs k).outAddr (s.aeadOps rs k).inLen = out ∧
      Memory.readBytes t.mem (s.aeadOps rs k).tagAddr n = tagRegion ∧
      SameMemOutside [⟨(s.aeadOps rs k).outAddr, (s.aeadOps rs k).inLen⟩, ⟨(s.aeadOps rs k).tagAddr, n⟩] s t := by
  have hapart := h.out_apart_tag hk
  rw [← hn, outRegion, ← hout, ← htag] at hapart
  obtain ⟨t, ht, hc, hrd, hregs, hslots, hmemOut, hmemTag, hframe⟩ :=
    finishSeal_spec rd (s.aeadOps rs k) out tagRegion n (s.afterPrologue rs k) hapart
  rw [hout] at hmemOut hframe
  rw [htag] at hmemTag hframe
  exact ⟨t, ((aeadRun_of_ready h body).trans hbody).trans ht, hc.of_afterPrologue, hrd, hregs, .of_slots hslots, hmemOut,
    hmemTag, hframe⟩

/-- The end of an OPEN whose tag verified: the output is in memory, in_len in rd, and nothing else is written. -/
theorem AeadReady.finishOpen_verified (h : AeadReady f .opening rs ctx s) (rd : Reg)
    (hout : out.length = (s.aeadOps rs .opening).inLen) :
    ∃ t, finishOpen rd (s.aeadOps rs .opening) out (s.afterPrologue rs .opening) = .next t ∧ Completed .ok s t ∧
      (t.reg rd).toNat = (s.aeadOps rs .opening).inLen ∧ SameRegsExcept [rd] s t ∧ SameSlotsExcept [] s t ∧
      Memory.readBytes t.mem (s.aeadOps rs .opening).outAddr (s.aeadOps rs .opening).inLen = out ∧
      SameMemOutside [⟨(s.aeadOps rs .opening).outAddr, (s.aeadOps rs .opening).inLen⟩] s t := by
  obtain ⟨t, ht, hc, hrd, hregs, hslots, hmem, hframe⟩ :=
    finishOpen_spec rd (s.aeadOps rs .opening) out (s.afterPrologue rs .opening)
  rw [hout] at hmem hframe
  exact ⟨t, ht, hc.of_afterPrologue, toNat_eq_of_eq_ofNat hrd h.inLen_lt, hregs, .of_slots hslots, hmem, hframe⟩

/-- CT.MEMCMP's function decides whether the received tag is the recomputed one (R213). -/
theorem AeadReady.memcmpBytes_recv (h : AeadReady f .opening rs ctx s) {tag : Bytes} (htag : tag.length = (s.slot ctx).tagLen) :
    memcmpBytes tag (s.snapshot rs .opening).recv = 0 ↔ (s.snapshot rs .opening).recv = tag := by
  rw [memcmpBytes_eq_zero (by rw [htag, snapshot_recv_length, h.tagLen rfl]), eq_comm]

/-- An OPEN that verifies its tag before it writes: either it ends as verified, or with AUTHFAIL and nothing written (R213). -/
theorem AeadReady.run_open (h : AeadReady f .opening rs ctx s) (rd : Reg) {tag : Bytes}
    (htag : tag.length = (s.slot ctx).tagLen) (hout : out.length = (s.aeadOps rs .opening).inLen)
    (hbody : body (s.slot ctx) (s.snapshot rs .opening) (s.afterPrologue rs .opening) =
      if memcmpBytes tag (s.snapshot rs .opening).recv ≠ 0 then finish .authFail (s.afterPrologue rs .opening)
      else finishOpen rd (s.aeadOps rs .opening) out (s.afterPrologue rs .opening)) :
    ((s.snapshot rs .opening).recv = tag → ∃ t, aeadRun f .opening rs ctx body s = .next t ∧ Completed .ok s t ∧
      (t.reg rd).toNat = (s.aeadOps rs .opening).inLen ∧ SameRegsExcept [rd] s t ∧ SameSlotsExcept [] s t ∧
      Memory.readBytes t.mem (s.aeadOps rs .opening).outAddr (s.aeadOps rs .opening).inLen = out ∧
      SameMemOutside [⟨(s.aeadOps rs .opening).outAddr, (s.aeadOps rs .opening).inLen⟩] s t) ∧
    ((s.snapshot rs .opening).recv ≠ tag → ∃ t, aeadRun f .opening rs ctx body s = .next t ∧
      NothingWritten .authFail s t) := by
  have hrun := (aeadRun_of_ready h body).trans hbody
  constructor
  · intro heq
    obtain ⟨t, ht, hspec⟩ := h.finishOpen_verified rd hout
    rw [if_neg (not_not.mpr ((h.memcmpBytes_recv htag).mpr heq))] at hrun
    exact ⟨t, hrun.trans ht, hspec⟩
  · intro hne
    rw [if_pos (mt (h.memcmpBytes_recv htag).mp hne)] at hrun
    exact ⟨_, hrun, (Completed.complete _ _).of_afterPrologue, .of_x rfl, .of_slots rfl, .of_mem rfl⟩

end

/-! ### EAX (R255, R256) -/

/-- Settles O34: OMAC by its blocks, counter mode by its bytes, and SEAL's end. -/
theorem eaxSealCompletes : Obligations.EaxSealCompletes := by
  refine ⟨fun _ _ => rfl, fun _ _ => rfl, fun sl t blocks last hb h1 h2 => omac_flatten_append _ _ _ t hb h1 h2,
    fun k => ⟨be128_length k, intBe_be128 k, fun i => be128_getD k⟩, fun sl n d i => eaxCtr_getD sl n, ?_⟩
  intro s rd rs ctx h hs
  have h16 := h.tagLen_eq hs nofun
  exact h.run_seal nofun (by rw [h16, aeadOps_extraLen_of_sealing]) (by simp) (by simp) rfl

/-- Settles O35: OPEN's two endings, for the recomputed OMAC tag. -/
theorem eaxOpenCompletes : Obligations.EaxOpenCompletes := fun _ rd _ _ h hs =>
  h.run_open rd ((eaxTag_length ..).trans (h.tagLen_eq hs nofun).symm) (by simp) rfl

/-! ### GCM-SIV (R309, R310) -/

/-- Settles O36: the record keys, the pre-tag and counter mode byte by byte, and SEAL's end. -/
theorem sivSealCompletes : Obligations.SivSealCompletes := by
  refine ⟨fun k n i => ⟨leBytes_length k n, leBytes_getD n⟩, intLe_leBytes, ?keys, ?tag, ?ctr, ?ends⟩
  case keys =>
    intro sl nonce hf
    rw [sivKeys_eq, kdfMat_eq _ _ _ hf]
    rfl
  case tag =>
    intro ak ek nonce a m hn
    have hh : (sivHash ak a m).length = 16 := polyval_length ..
    exact ⟨preTag (sivHash ak a m) nonce, rfl, preTag_length hh hn, fun i => preTag_getD_nonce hh hn,
      fun i => preTag_getD_hash hh hn, preTag_getD_last hh hn⟩
  case ctr =>
    intro ek tag d i htag hi
    rw [sivCtr_getD ek hi, sivCounter_ctrBlock0 htag]
  case ends =>
    intro s rd rs ctx h hs
    have h16 := h.tagLen_eq hs nofun
    exact h.run_seal nofun (by rw [h16, aeadOps_extraLen_of_sealing]) (by simp) (by simp) rfl

/-- Settles O37: both endings write the candidate plaintext, and the tag decides which it is. -/
theorem sivOpenCompletes : Obligations.SivOpenCompletes := by
  intro s rd rs ctx h hs o w keys m
  have hout : m.length = o.inLen := by simp [m, w, o]
  have htag : (sivTag keys.1 keys.2 w.nonce w.ad m).length = (s.slot ctx).tagLen :=
    (sivTag_length ..).trans (h.tagLen_eq hs nofun).symm
  have hrun : exec (.sivOpen rd rs ctx) s =
      if memcmpBytes (sivTag keys.1 keys.2 w.nonce w.ad m) w.recv ≠ 0 then
        finish .authFail ((s.afterPrologue rs .opening).memWrite o.outAddr m)
      else finishOpen rd o m (s.afterPrologue rs .opening) := aeadRun_of_ready h _
  by_cases heq : w.recv = sivTag keys.1 keys.2 w.nonce w.ad m
  · rw [if_neg (not_not.mpr ((h.memcmpBytes_recv htag).mpr heq))] at hrun
    obtain ⟨t, ht, hc, hrd, hregs, hslots, hmem, hframe⟩ := h.finishOpen_verified rd hout
    exact ⟨t, hrun.trans ht, hmem, hframe, hslots, fun _ => ⟨hc, hrd, hregs⟩, fun hne => absurd heq hne⟩
  · rw [if_pos (mt (h.memcmpBytes_recv htag).mp heq)] at hrun
    obtain ⟨t, ht, hc, hx, hslots, hmem, hframe, -⟩ := finish_memWrite_spec .authFail o.outAddr m s
      (s.afterPrologue rs .opening) (Completed.complete _ _).of_afterPrologue rfl rfl rfl
    rw [hout] at hmem hframe
    exact ⟨t, hrun.trans ht, hmem, hframe, .of_slots hslots, fun h => absurd h heq, fun _ => ⟨hc, .of_x hx⟩⟩

/-! ### ChaCha20-Poly1305 (R355 to R357) -/

/-- The tag of a well-formed context is as long as its tag length says (R353). -/
theorem ccpMac_length_of_wf {f : Family} {k : Kind} {rs : Reg} {ctx : Ctx} {s : State} (h : AeadReady f k rs ctx s)
    (hs : (s.slot ctx).wf) (n a c : Bytes) : (ccpMac (s.slot ctx) n a c).length = (s.slot ctx).tagLen :=
  (ccpMac_length ..).trans (Nat.min_eq_left (Slot.wf_tagLen_range hs h.valid).2)

/-- Settles O38: the keystream byte by byte, and SEAL's end; a tag length fits a register. -/
theorem ccpSealCompletes : Obligations.CcpSealCompletes := by
  refine ⟨fun key nonce o n => ⟨ccpKeystream_length key nonce o n, fun i => ccpKeystream_getD key nonce o⟩,
    fun _ _ _ _ => rfl, ?_⟩
  intro s rd rs ctx h hs o w sl c
  have h16 : sl.tagLen ≤ 16 := (Slot.wf_tagLen_range hs h.valid).2
  have hn : sl.tagLen = o.extraLen + sl.tagLen := by rw [aeadOps_extraLen_of_sealing, Nat.zero_add]
  obtain ⟨t, ht, hc, hrd, hspec⟩ := h.run_seal (rd := rd) (body := ccpSealBody rd) nofun hn (out := c) (by simp [c, w, o])
    (ccpMac_length_of_wf h hs w.nonce w.ad c) rfl
  exact ⟨t, ht, hc, toNat_eq_of_eq_ofNat hrd (by omega), hspec⟩

/-- Settles O39: SEAL's end with the trailer ciphertext before the tag; the limit of R207 makes their length fit a register. -/
theorem ccpSealxCompletes : Obligations.CcpSealxCompletes := by
  intro s rd rs ctx h hs o w sl c xc
  have h16 : sl.tagLen ≤ 16 := (Slot.wf_tagLen_range hs h.valid).2
  have hextra : o.extraLen ≤ 2 ^ 38 := h.extraLen_le
  have htag : (xc ++ ccpMac sl w.nonce w.ad (c ++ xc)).length = o.extraLen + sl.tagLen := by
    rw [List.length_append, ccpMac_length_of_wf h hs]
    simp [xc, w, o, sl]
  obtain ⟨t, ht, hc, hrd, hspec⟩ := h.run_seal (rd := rd) (body := ccpSealxBody rd) nofun rfl (out := c) (by simp [c, w, o])
    htag rfl
  exact ⟨t, ht, hc, toNat_eq_of_eq_ofNat hrd (by omega), hspec⟩

/-- Settles O40: OPEN's two endings, for the recomputed MAC. -/
theorem ccpOpenCompletes : Obligations.CcpOpenCompletes := fun _ rd _ _ h hs =>
  h.run_open rd (ccpMac_length_of_wf h hs _ _ _) (by simp) rfl

end Sys2Proof.Machine

/-! SUPPORT. What is written before a command completes with OK (41_aead_contract.md R213, 60_exceptions.md R453): nothing by a
command that fails but SIV.OPEN's candidate plaintext; the statement O50. -/

namespace Sys2Proof.Machine

/-! ### Commands that fail (R453) -/

/-- The outcome leaves memory as it is, unless its code is OK. -/
def KeepsMemOnError (s : State) (o : Outcome) : Prop := ∀ t, o = .next t → t.err ≠ .ok → t.mem = s.mem

section
variable {s u : State}

theorem keepsMemOnError_ok : KeepsMemOnError s (finish .ok u) := by
  rintro t ⟨⟩ herr
  exact absurd rfl herr

theorem keepsMemOnError_finish (c : Code) (h : u.mem = s.mem) : KeepsMemOnError s (finish c u) := by
  rintro t ⟨⟩ -
  exact h

theorem keepsMemOnError_of_mem {o : Outcome} (h : ∀ t, o = .next t → t.mem = s.mem) : KeepsMemOnError s o :=
  fun t ht _ => h t ht

/-- A branch that ends with an error and writes nothing, or with OK. -/
theorem keepsMemOnError_ite (p : Prop) [Decidable p] (c : Code) (v : State) (h : u.mem = s.mem) :
    KeepsMemOnError s (if p then finish c u else finish .ok v) := by
  split
  · exact keepsMemOnError_finish c h
  · exact keepsMemOnError_ok

theorem keepsMemOnError_execCtCmxor (rd rs1 rs2 rs3 : Reg) (s : State) : KeepsMemOnError s (execCtCmxor rd rs1 rs2 rs3 s) := by
  unfold execCtCmxor
  dsimp only
  split
  · exact keepsMemOnError_ok
  · exact keepsMemOnError_finish _ rfl

theorem keepsMemOnError_execRecXmac (rs : Reg) (s : State) : KeepsMemOnError s (execRecXmac rs s) := by
  rcases execRecXmac_cases rs s with ⟨-, h⟩ | ⟨-, c, -, h⟩ | ⟨-, -, h⟩
  · rw [h]; exact keepsMemOnError_finish _ rfl
  · rw [h]; exact keepsMemOnError_finish _ rfl
  · rw [h _ rfl _ rfl _ rfl]; exact keepsMemOnError_ok

/-- A SEAL, SEALX or OPEN keeps memory on an error when its family's part after the prologue does. -/
theorem keepsMemOnError_aeadRun (f : Family) (k : Kind) (rs : Reg) (ctx : Ctx) {body : Slot → Work → State → Outcome}
    (s : State) (hb : ∀ sl d u, KeepsMemOnError u (body sl d u)) : KeepsMemOnError s (aeadRun f k rs ctx body s) := by
  rcases aeadRun_cases f k rs ctx body s with ⟨-, h⟩ | ⟨-, c, -, h⟩ | ⟨-, -, h⟩
  · rw [h]; exact keepsMemOnError_finish _ rfl
  · rw [h]; exact keepsMemOnError_finish _ rfl
  · rw [h]; exact hb _ _ _

/-- A command that fails has written no memory, SIV.OPEN aside. -/
theorem exec_keepsMemOnError {i : Instr} (hi : ∀ rd rs ctx, i ≠ .sivOpen rd rs ctx) (s : State) :
    KeepsMemOnError s (exec i s) := by
  cases i with
  | nop => exact keepsMemOnError_ok
  | ctMemcmp rd rs1 rs2 rs3 => exact keepsMemOnError_of_mem fun _ => execCtMemcmp_mem
  | ctCmxor rd rs1 rs2 rs3 => exact keepsMemOnError_execCtCmxor rd rs1 rs2 rs3 s
  | recRmpad rd rs => exact keepsMemOnError_of_mem fun _ => execRecRmpad_mem
  | recXmac rs => exact keepsMemOnError_execRecXmac rs s
  | eaxInit rs ctx => exact keepsMemOnError_of_mem fun _ h => (exec_initInstr_writes (f := .eax) h).2.1
  | sivInit rs ctx => exact keepsMemOnError_of_mem fun _ h => (exec_initInstr_writes (f := .siv) h).2.1
  | ccpInit rs ctx => exact keepsMemOnError_of_mem fun _ h => (exec_initInstr_writes (f := .ccp) h).2.1
  | eaxSeal rd rs ctx => exact keepsMemOnError_aeadRun .eax .sealing rs ctx s fun _ _ _ => keepsMemOnError_ok
  | eaxOpen rd rs ctx => exact keepsMemOnError_aeadRun .eax .opening rs ctx s fun _ _ _ => keepsMemOnError_ite _ _ _ rfl
  | sivSeal rd rs ctx => exact keepsMemOnError_aeadRun .siv .sealing rs ctx s fun _ _ _ => keepsMemOnError_ok
  | sivOpen rd rs ctx => exact absurd rfl (hi rd rs ctx)
  | ccpSeal rd rs ctx => exact keepsMemOnError_aeadRun .ccp .sealing rs ctx s fun _ _ _ => keepsMemOnError_ok
  | ccpSealx rd rs ctx => exact keepsMemOnError_aeadRun .ccp .sealingX rs ctx s fun _ _ _ => keepsMemOnError_ok
  | ccpOpen rd rs ctx => exact keepsMemOnError_aeadRun .ccp .opening rs ctx s fun _ _ _ => keepsMemOnError_ite _ _ _ rfl
  | _ => exact keepsMemOnError_ok

/-- SIV.OPEN writes a candidate plaintext as long as its input, whether its tag fails or not (R310). -/
theorem sivOpenBody_cases (rd : Reg) (sl : Slot) (d : Work) (u : State) : ∃ m : Bytes, m.length = d.inp.length ∧
    (sivOpenBody rd sl d u = finish .authFail (u.memWrite d.ops.outAddr m) ∨
      sivOpenBody rd sl d u = finishOpen rd d.ops m u) :=
  ⟨sivCtr (sivKeys sl d.nonce).2 d.recv d.inp, sivCtr_length .., ite_eq_or_eq ..⟩

/-- An SIV.OPEN that fails has written no memory, or completes with AUTHFAIL and has written its output region alone (R310). -/
theorem exec_sivOpen_error {rd rs : Reg} {ctx : Ctx} {t : State} (h : exec (.sivOpen rd rs ctx) s = .next t)
    (herr : t.err ≠ .ok) :
    t.mem = s.mem ∨ t.err = .authFail ∧ SameMemOutside [outRegion (s.aeadOps rs .opening)] s t := by
  rcases aeadRun_cases .siv .opening rs ctx (sivOpenBody rd) s with ⟨-, he⟩ | ⟨-, c, -, he⟩ | ⟨-, -, he⟩
  · cases he.symm.trans h
    exact .inl rfl
  · cases he.symm.trans h
    exact .inl rfl
  · obtain ⟨m, hlen, hb | hb⟩ := sivOpenBody_cases rd (s.slot ctx) (s.snapshot rs .opening) (s.afterPrologue rs .opening)
    · cases (he.trans hb).symm.trans h
      refine .inr ⟨rfl, SameMemOutside.memWrite (.of_mem rfl) (List.mem_singleton.mpr rfl) ?_⟩
      exact (hlen.trans (snapshot_inp_length ..)).le
    · cases (he.trans hb).symm.trans h
      exact absurd rfl herr

/-- A command that fails has written no slot (R45, R453). -/
theorem exec_slots_of_error {i : Instr} {t : State} (h : exec i s = .next t) (herr : t.err ≠ .ok) : t.slots = s.slots := by
  rcases slotCommand_cases i s with ⟨ctx, rfl⟩ | ⟨f, rs, ctx, rfl⟩ | hw
  · rw [exec_aeadCleanup h] at herr
    exact absurd rfl herr
  · obtain ⟨-, -, hs | ⟨hok, -⟩⟩ := exec_initInstr_writes h
    · exact hs
    · exact absurd hok herr
  · exact (hw t h).2.2

end

/-- Settles O50: SIV.OPEN by its endings, every other command by KeepsMemOnError. -/
theorem errorsWriteNothing : Obligations.ErrorsWriteNothing := by
  intro i s t h herr
  refine ⟨(registersWrittenOnlyOnOk i s t h).2 herr, .of_slots (exec_slots_of_error h herr), ?_⟩
  by_cases hi : ∃ rd rs ctx, i = .sivOpen rd rs ctx
  · obtain ⟨rd, rs, ctx, rfl⟩ := hi
    refine ⟨fun hauth => ?_, ?_, fun hne => absurd rfl (hne rd rs ctx)⟩
    · exact .of_mem ((exec_sivOpen_error h herr).resolve_right fun hw => hauth hw.1)
    · rintro _ _ _ ⟨⟩
      rcases exec_sivOpen_error h herr with hm | ⟨-, hw⟩
      · exact .of_mem hm
      · exact hw
  · have hne : ∀ rd rs ctx, i ≠ .sivOpen rd rs ctx := fun rd rs ctx he => hi ⟨rd, rs, ctx, he⟩
    have hm := exec_keepsMemOnError hne s t h herr
    exact ⟨fun _ => .of_mem hm, fun rd rs ctx he => absurd he (hne rd rs ctx), fun _ => .of_mem hm⟩

end Sys2Proof.Machine

/-! SUPPORT. Between a command's acceptance and its completion (42_eax.md R258, 43_gcm_siv.md R311, 44_chacha20_poly1305.md R358):
EAX.OPEN and CCP.OPEN reach the phase that decrypts with a verified tag only, and no phase that goes on writes memory but X1 of
SIV.OPEN; the statement O56. -/

namespace Sys2Proof.Machine

/-! ### Runs that have passed a phase -/

section
variable {s t u : State} {w : Word32} {i : Instr} {c : AeadCommand} {n : Nat}

/-- A run that has left phase p has passed to the next one. -/
theorem runTicks_pass {p q : Phase} {d e : Work} (hr : u.running = some w) (hd : decode w = .ok i) (hc : sequenced i = some c)
    (hp : phaseTick c (u.setPhase p d) = some ((u.setPhase p d).goTo q e)) (ht : t.phase ≠ p)
    (h : runTicks n (u.setPhase p d) = .next t) : ∃ m, runTicks m (u.setPhase q e) = .next t := by
  cases n with
  | zero => cases h; exact absurd rfl ht
  | succ m => exact ⟨m, (runTicks_setPhase m hr hd hc hp).symm.trans h⟩

/-- A run that has left the prologue's phase and has not ended met the prologue's conditions, and went on with the snapshot
(R206). -/
theorem runTicks_pass_prologue {q : Phase} (hr : s.running = some w) (hd : decode w = .ok i) (hc : sequenced i = some c)
    (hp : phaseTick c s = some (prologueTick c q s)) (ht : t.phase ≠ s.phase) (hidle : t.phase ≠ .idle)
    (h : runTicks n s = .next t) : AeadReady c.family c.kind c.rs c.ctx s ∧
      ∃ m, runTicks m ((s.afterPrologue c.rs c.kind).setPhase q (s.snapshot c.rs c.kind)) = .next t := by
  cases n with
  | zero => cases h; exact absurd rfl ht
  | succ m =>
    rcases prologueTick_cases c q (fun _ _ _ => finish .ok s) s with ⟨code, v, he, -⟩ | ⟨hready, hgo⟩
    · rw [he, finish] at hp
      rw [runTicks_finish m hr hd hc hp rfl] at h
      cases h
      exact absurd rfl hidle
    · rw [(hgo _ rfl).1] at hp
      exact ⟨hready, m, (runTicks_goTo m hr hd hc hp).symm.trans h⟩

/-- A run that has left a phase that ends the command is idle. -/
theorem runTicks_ended {code : Code} (hr : s.running = some w) (he : engineTick s = finish code u) (ht : t.phase ≠ s.phase)
    (h : runTicks n s = .next t) : t.phase = .idle := by
  cases n with
  | zero => cases h; exact absurd rfl ht
  | succ m =>
    rw [runTicks_succ m (by simp [hr]) he, runTicks_of_idle m rfl] at h
    cases h
    rfl

end

/-! ### Verified tags (R213, R258, R358) -/

section
variable {s t u : State} {w : Word32} {rd rs : Reg} {ctx : Ctx} {n : Nat}

/-- An EAX.OPEN that has come from O4 to O5 has passed O4's comparison. -/
theorem eaxOpen_pass_o4 {e : Work} (hr : u.running = some w) (hd : decode w = .ok (.eaxOpen rd rs ctx))
    (h : runTicks n (u.setPhase .o4 e) = .next t) (ht : t.phase = .o5) :
    memcmpBytes (xorBytes (xorBytes e.omacC e.omacN) e.omacH) e.recv = 0 := by
  by_contra hne
  have ho4 := (engineTick_o4 (s := u.setPhase .o4 e) hr hd rfl).trans (if_neg hne)
  have hidle := runTicks_ended (s := u.setPhase .o4 e) hr ho4 (by simp [ht]) h
  simp [ht] at hidle

/-- An EAX.OPEN with snapshot d that has come from O1 to O5 has verified its tag. -/
theorem eaxOpen_pass_verified {d : Work} (hr : u.running = some w) (hd : decode w = .ok (.eaxOpen rd rs ctx))
    (h : runTicks n (u.setPhase .o1 d) = .next t) (ht : t.phase = .o5) :
    memcmpBytes (eaxTag (u.slot ctx) d.nonce d.ad d.inp) d.recv = 0 := by
  obtain ⟨n, h⟩ := runTicks_pass hr hd rfl (phaseTick_o1 u _) (by simp [ht]) h
  obtain ⟨n, h⟩ := runTicks_pass hr hd rfl (phaseTick_o2 u _) (by simp [ht]) h
  obtain ⟨n, h⟩ := runTicks_pass hr hd rfl (phaseTick_o3 u _) (by simp [ht]) h
  exact eaxOpen_pass_o4 hr hd h ht

/-- A CCP.OPEN that has come from Q7 to Q8 has passed Q7's comparison. -/
theorem ccpOpen_pass_q7 {e : Work} (hr : u.running = some w) (hd : decode w = .ok (.ccpOpen rd rs ctx))
    (h : runTicks n (u.setPhase .q7 e) = .next t) (ht : t.phase = .q8) : memcmpBytes e.tag e.recv = 0 := by
  by_contra hne
  have hq7 := (engineTick_q7 (s := u.setPhase .q7 e) hr hd rfl).trans (if_neg hne)
  have hidle := runTicks_ended (s := u.setPhase .q7 e) hr hq7 (by simp [ht]) h
  simp [ht] at hidle

/-- A CCP.OPEN with snapshot d that has come from Q1 to Q8 has verified its tag. -/
theorem ccpOpen_pass_verified {d : Work} (hr : u.running = some w) (hd : decode w = .ok (.ccpOpen rd rs ctx))
    (hextra : d.extra = []) (h : runTicks n (u.setPhase .q1 d) = .next t) (ht : t.phase = .q8) :
    memcmpBytes (ccpMac (u.slot ctx) d.nonce d.ad d.inp) d.recv = 0 := by
  obtain ⟨n, h⟩ := runTicks_pass hr hd rfl (phaseTick_q1 _ u _) (by simp [ht]) h
  obtain ⟨n, h⟩ := runTicks_pass hr hd rfl (phaseTick_q2 _ u _) (by simp [ht]) h
  obtain ⟨n, h⟩ := runTicks_pass hr hd rfl (phaseTick_q3_opening rfl u _) (by simp [ht]) h
  obtain ⟨n, h⟩ := runTicks_pass hr hd rfl (phaseTick_q4 (by decide) u _) (by simp [ht]) h
  obtain ⟨n, h⟩ := runTicks_pass hr hd rfl (phaseTick_q5_opening rfl u _) (by simp [ht]) h
  have hlen : d.inp.length = d.inp.length + d.extra.length := by simp [hextra]
  rw [← poly1305_absorbed (u.slot ctx) d.nonce d.ad d.inp hlen]
  exact ccpOpen_pass_q7 hr hd h ht

/-- EAX.OPEN decrypts only what its tag verifies. -/
theorem eaxOpen_o5_needs_tag (hr : s.running = some w) (hd : decode w = .ok (.eaxOpen rd rs ctx)) (hs : (s.slot ctx).wf)
    (h : runTicks n s = .next t) (hp : s.phase = .o0) (ht : t.phase = .o5) :
    AeadReady .eax .opening rs ctx s ∧ (s.snapshot rs .opening).recv =
      eaxTag (s.slot ctx) (s.snapshot rs .opening).nonce (s.snapshot rs .opening).ad (s.snapshot rs .opening).inp := by
  obtain ⟨hready, m, hm⟩ := runTicks_pass_prologue hr hd rfl (q := .o1) (by simp only [phaseTick, eaxOpenTick, hp])
    (by simp [hp, ht]) (by simp [ht]) h
  have hlen := (eaxTag_length (s.slot ctx) (s.snapshot rs .opening).nonce (s.snapshot rs .opening).ad
    (s.snapshot rs .opening).inp).trans (hready.tagLen_eq hs nofun).symm
  exact ⟨hready, (hready.memcmpBytes_recv hlen).mp (eaxOpen_pass_verified (u := s.afterPrologue rs .opening) hr hd hm ht)⟩

/-- CCP.OPEN decrypts only what its tag verifies. -/
theorem ccpOpen_q8_needs_tag (hr : s.running = some w) (hd : decode w = .ok (.ccpOpen rd rs ctx)) (hs : (s.slot ctx).wf)
    (h : runTicks n s = .next t) (hp : s.phase = .q0) (ht : t.phase = .q8) :
    AeadReady .ccp .opening rs ctx s ∧ (s.snapshot rs .opening).recv =
      ccpMac (s.slot ctx) (s.snapshot rs .opening).nonce (s.snapshot rs .opening).ad (s.snapshot rs .opening).inp := by
  obtain ⟨hready, m, hm⟩ := runTicks_pass_prologue hr hd rfl (q := .q1) (by simp only [phaseTick, ccpTick, hp])
    (by simp [hp, ht]) (by simp [ht]) h
  have hlen := ccpMac_length_of_wf hready hs (s.snapshot rs .opening).nonce (s.snapshot rs .opening).ad
    (s.snapshot rs .opening).inp
  exact ⟨hready, (hready.memcmpBytes_recv hlen).mp
    (ccpOpen_pass_verified (u := s.afterPrologue rs .opening) hr hd (snapshot_extra_of_opening s rs) hm ht)⟩

end

/-! ### Phases that go on (R257, R258, R311, R358) -/

/-- What every phase that goes on keeps holds of a command that has not completed, however many phases it has run. -/
theorem runTicks_keeps {P : State → Prop} (hstep : ∀ u v, P u → engineTick u = .next v → v.running.isSome → P v) {n : Nat}
    {s t : State} (hs : P s) (h : runTicks n s = .next t) (ht : t.running.isSome) : P t := by
  induction n generalizing s with
  | zero => cases h; exact hs
  | succ n ih =>
    simp only [runTicks] at h
    split at h
    next => cases h; exact hs
    next =>
      split at h
      next u hu =>
        cases hr : u.running with
        | none =>
          rw [runTicks_of_idle n hr] at h
          cases h
          simp [hr] at ht
        | some w => exact ih (hstep s u hs hu (by simp [hr])) h
      next => cases h
      next => cases h

/-- A transition that goes on leaves memory as it is. -/
def KeepsMemGoingOn (s : State) (o : Outcome) : Prop := ∀ t, o = .next t → t.running.isSome → t.mem = s.mem

section
variable {s t u : State} {w : Word32} {i : Instr} {c : AeadCommand} {o : Outcome}

theorem Ends.not_running (h : Ends s (.next t)) : ¬t.running.isSome := by
  obtain ⟨code, v, hv, hcomp⟩ := h
  cases hv
  simp [hcomp.running]

theorem keepsMem_goTo {q : Phase} {e : Work} : KeepsMemGoingOn s (s.goTo q e) := by
  rintro t ⟨⟩ -
  rfl

/-- A transition that ends the command does not go on. -/
theorem keepsMem_finish {code : Code} : KeepsMemGoingOn s (finish code u) := by
  rintro t ⟨⟩ ⟨⟩

theorem keepsMem_prologueTick {q : Phase} : KeepsMemGoingOn s (prologueTick c q s) := by
  rcases prologueTick_cases c q (fun _ _ _ => finish .ok s) s with ⟨code, v, he, -⟩ | ⟨-, hgo⟩
  · rw [he]
    exact keepsMem_finish
  · rw [(hgo _ rfl).1]
    rintro t ⟨⟩ -
    rfl

theorem keepsMem_ite {p : Prop} [Decidable p] {o' : Outcome} (h : KeepsMemGoingOn s o) (h' : KeepsMemGoingOn s o') :
    KeepsMemGoingOn s (if p then o else o') := by
  split
  · exact h
  · exact h'

theorem eaxSealTick_keepsMem (h : eaxSealTick c s = some o) : KeepsMemGoingOn s o := by
  unfold eaxSealTick at h
  split at h
  next => cases h; exact keepsMem_prologueTick
  next => cases h; exact keepsMem_goTo
  next => cases h; exact keepsMem_goTo
  next => cases h; exact keepsMem_goTo
  next => cases h; exact keepsMem_goTo
  next => cases h; exact keepsMem_finish
  next => cases h

theorem eaxOpenTick_keepsMem (h : eaxOpenTick c s = some o) : KeepsMemGoingOn s o := by
  unfold eaxOpenTick at h
  split at h
  next => cases h; exact keepsMem_prologueTick
  next => cases h; exact keepsMem_goTo
  next => cases h; exact keepsMem_goTo
  next => cases h; exact keepsMem_goTo
  next => cases h; exact keepsMem_ite keepsMem_goTo keepsMem_finish
  next => cases h; exact keepsMem_finish
  next => cases h

/-- X1 of OPEN aside (R311). -/
theorem sivTick_keepsMem (hx1 : c.kind = .opening → s.phase ≠ .ctr) (h : sivTick c s = some o) : KeepsMemGoingOn s o := by
  unfold sivTick at h
  split at h
  next => cases h; exact keepsMem_prologueTick
  next => cases h; exact keepsMem_goTo
  next => cases h; exact keepsMem_goTo
  next => cases h; exact keepsMem_goTo
  next => cases h; exact keepsMem_goTo
  next => cases h; exact keepsMem_goTo
  next => cases h; exact keepsMem_goTo
  next hp =>
    cases h
    rw [if_neg fun hk => hx1 hk hp]
    exact keepsMem_finish
  next => cases h; exact keepsMem_ite keepsMem_finish keepsMem_finish
  next => cases h

theorem ccpTick_keepsMem (h : ccpTick c s = some o) : KeepsMemGoingOn s o := by
  unfold ccpTick at h
  split at h
  next => cases h; exact keepsMem_prologueTick
  next => cases h; exact keepsMem_goTo
  next => cases h; exact keepsMem_goTo
  next => split at h <;> (cases h; exact keepsMem_goTo)
  next => split at h <;> (cases h; exact keepsMem_goTo)
  next => cases h; exact keepsMem_goTo
  next => cases h; exact keepsMem_finish
  next => cases h; exact keepsMem_ite keepsMem_goTo keepsMem_finish
  next => cases h; exact keepsMem_finish
  next => cases h

/-- No phase that goes on writes memory but X1 of SIV.OPEN. -/
theorem phaseTick_keepsMem (hx1 : c.family = .siv → c.kind = .opening → s.phase ≠ .ctr) (h : phaseTick c s = some o) :
    KeepsMemGoingOn s o := by
  unfold phaseTick at h
  split at h
  next => exact eaxOpenTick_keepsMem h
  next => exact eaxSealTick_keepsMem h
  next => cases h
  next hf => exact sivTick_keepsMem (hx1 hf) h
  next => exact ccpTick_keepsMem h

/-- A transition that goes on is a phase of the command's sequencer. -/
theorem phaseTick_of_goesOn (hr : s.running = some w) (hd : decode w = .ok i) (h : engineTick s = .next t)
    (ht : t.running.isSome) : ∃ c, sequenced i = some c ∧ phaseTick c s = some (.next t) := by
  rcases engineTick_cases hr hd with he | ⟨c, hc, hp⟩
  · exact absurd ht (h ▸ he ▸ exec_ends i s : Ends s (.next t)).not_running
  · exact ⟨c, hc, h ▸ hp⟩

/-- A transition that goes on leaves the running word, the registers and the slots as they are. -/
theorem engineTick_same_of_goesOn (hr : s.running = some w) (hd : decode w = .ok i) (h : engineTick s = .next t)
    (ht : t.running.isSome) : t.running = s.running ∧ t.x = s.x ∧ t.slots = s.slots := by
  obtain ⟨c, -, hp⟩ := phaseTick_of_goesOn hr hd h ht
  rcases phaseTick_outcome hp with ⟨hends, -⟩ | ⟨m, l, q, e, ho, -⟩
  · exact absurd ht hends.not_running
  · cases ho
    exact ⟨rfl, rfl, rfl⟩

/-- Before its completion a command has written no register and no slot. -/
theorem runTicks_same {n : Nat} (hr : s.running = some w) (hd : decode w = .ok i) (h : runTicks n s = .next t)
    (ht : t.running.isSome) : t.running = s.running ∧ t.x = s.x ∧ t.slots = s.slots := by
  refine runTicks_keeps (P := fun u => u.running = s.running ∧ u.x = s.x ∧ u.slots = s.slots) ?_ ⟨rfl, rfl, rfl⟩ h ht
  rintro u v ⟨hur, hux, hus⟩ hv hrun
  obtain ⟨hvr, hvx, hvs⟩ := engineTick_same_of_goesOn (hur.trans hr) hd hv hrun
  exact ⟨hvr.trans hur, hvx.trans hux, hvs.trans hus⟩

/-- Before its completion a command other than SIV.OPEN has written no memory. -/
theorem runTicks_mem {n : Nat} (hr : s.running = some w) (hd : decode w = .ok i) (hi : ∀ rd rs ctx, i ≠ .sivOpen rd rs ctx)
    (h : runTicks n s = .next t) (ht : t.running.isSome) : t.mem = s.mem := by
  refine (runTicks_keeps (P := fun u => u.running = s.running ∧ u.mem = s.mem) ?_ ⟨rfl, rfl⟩ h ht).2
  rintro u v ⟨hur, hum⟩ hv hrun
  obtain ⟨c, hc, hp⟩ := phaseTick_of_goesOn (hur.trans hr) hd hv hrun
  have hx1 : c.family = .siv → c.kind = .opening → u.phase ≠ .ctr := by
    cases i <;> cases hc <;> simp at hi ⊢
  exact ⟨(engineTick_same_of_goesOn (hur.trans hr) hd hv hrun).1.trans hur,
    (phaseTick_keepsMem hx1 hp v rfl hrun).trans hum⟩

end

/-! ### SIV.OPEN before its completion (R310, R311) -/

/-- The phases of SIV.OPEN after X1. -/
def phasesAfterX1 : List Phase := [.hash, .preTag, .tag, .verify]

/-- The SIV.OPEN accepted in s is past its prologue in u: it works on its snapshot's words and input, has written its output region
alone, and before the end of X1 nothing at all. -/
structure SivOpenProgress (s : State) (rs : Reg) (u : State) : Prop where
  pastPrologue : u.phase ≠ .p0
  ops : u.work.ops = s.aeadOps rs .opening
  inp : u.work.inp.length = (s.aeadOps rs .opening).inLen
  mem : SameMemOutside [outRegion (s.aeadOps rs .opening)] s u
  early : u.phase ∉ phasesAfterX1 → u.mem = s.mem

section
variable {s t u v : State} {w : Word32} {rd rs : Reg} {ctx : Ctx}

/-- A phase that writes no memory, and after X1 goes on to a phase after X1. -/
theorem SivOpenProgress.goTo (h : SivOpenProgress s rs u) {q : Phase} {e : Work} (hops : e.ops = u.work.ops)
    (hinp : e.inp = u.work.inp) (hq : q ≠ .p0) (hx1 : u.phase ∈ phasesAfterX1 → q ∈ phasesAfterX1) :
    SivOpenProgress s rs (u.setPhase q e) where
  pastPrologue := hq
  ops := hops.trans h.ops
  inp := (congrArg List.length hinp).trans h.inp
  mem := h.mem
  early hn := h.early (mt hx1 hn)

/-- The snapshot just taken. -/
theorem sivOpenProgress_start (s : State) (rs : Reg) (i : Nat) :
    SivOpenProgress s rs ((s.afterPrologue rs .opening).setPhase (.kdf i) (s.snapshot rs .opening)) where
  pastPrologue := nofun
  ops := rfl
  inp := snapshot_inp_length ..
  mem := .of_mem rfl
  early _ := rfl

/-- X1 writes a string as long as the input to the output region. -/
theorem SivOpenProgress.writesOut (h : SivOpenProgress s rs u) {out : Bytes} (hout : out.length = u.work.inp.length) :
    SivOpenProgress s rs ((u.memWrite u.work.ops.outAddr out).setPhase .hash { u.work with out := out }) where
  pastPrologue := nofun
  ops := h.ops
  inp := h.inp
  mem := by
    rw [h.ops]
    exact h.mem.memWrite (r := outRegion _) (List.mem_singleton.mpr rfl) (hout.trans h.inp).le
  early hn := absurd (by simp [phasesAfterX1]) hn

theorem sivTick_progress (h : SivOpenProgress s rs u) (ht : sivTick ⟨.siv, .opening, rd, rs, ctx⟩ u = some (.next v))
    (hv : v.running.isSome) : SivOpenProgress s rs v := by
  unfold sivTick at ht
  split at ht
  next hp => exact absurd hp h.pastPrologue
  next j hp => cases ht; exact h.goTo rfl rfl (by split <;> simp) (by simp [hp, phasesAfterX1])
  next hp => cases ht; exact h.goTo rfl rfl (by simp) (by simp [hp, phasesAfterX1])
  next => cases ht; exact h.goTo rfl rfl (by simp) (by simp [phasesAfterX1])
  next => cases ht; exact h.goTo rfl rfl (by simp) (by simp [phasesAfterX1])
  next => cases ht; exact h.goTo rfl rfl (by simp) (by simp [phasesAfterX1])
  next hp => cases ht; exact h.goTo rfl rfl (by simp) (by simp [hp, phasesAfterX1])
  next => cases ht; exact h.writesOut (sivCtrFrom_length ..)
  next =>
    dsimp only at ht
    split at ht
    · cases ht; cases hv
    · cases ht; cases hv
  next => cases ht

/-- An SIV.OPEN that has not completed is at its prologue or past it. -/
theorem runTicks_sivOpen_progress {n : Nat} (hr : s.running = some w) (hd : decode w = .ok (.sivOpen rd rs ctx))
    (hp : s.phase = .p0) (h : runTicks n s = .next t) (ht : t.running.isSome) : t = s ∨ SivOpenProgress s rs t := by
  refine (runTicks_keeps (P := fun u => u.running = s.running ∧ (u = s ∨ SivOpenProgress s rs u)) ?_ ⟨rfl, .inl rfl⟩ h ht).2
  rintro u v ⟨hur, hu⟩ hv hrun
  refine ⟨(engineTick_same_of_goesOn (hur.trans hr) hd hv hrun).1.trans hur, .inr ?_⟩
  obtain ⟨c, hc, hphase⟩ := phaseTick_of_goesOn (hur.trans hr) hd hv hrun
  cases hc
  rcases hu with rfl | hu
  · simp only [phaseTick, sivTick, hp, Option.some.injEq] at hphase
    rcases prologueTick_cases ⟨.siv, .opening, rd, rs, ctx⟩ (.kdf 0) (fun _ _ _ => finish .ok u) u with
      ⟨code, x, he, -⟩ | ⟨-, hgo⟩
    · cases he.symm.trans hphase
      cases hrun
    · cases (hgo _ rfl).1.symm.trans hphase
      exact sivOpenProgress_start u rs 0
  · exact sivTick_progress hu hphase hrun

end

/-- Settles O56: the phases before O5 and Q8 compare the tag of the snapshot, and every phase that goes on keeps what a command
has written before its completion. -/
theorem decryptPhaseNeedsVerifiedTag : Obligations.DecryptPhaseNeedsVerifiedTag := by
  refine ⟨fun s t w rd rs ctx n hr hs h => ⟨fun hd => eaxOpen_o5_needs_tag hr hd hs h,
    fun hd => ccpOpen_q8_needs_tag hr hd hs h⟩, fun s t w i n hr hd h ht => ?_⟩
  obtain ⟨-, hx, hslots⟩ := runTicks_same hr hd h ht
  refine ⟨.of_x hx, .of_slots hslots, fun hi => .of_mem (runTicks_mem hr hd hi h ht), ?_⟩
  rintro rd rs ctx rfl hp
  rcases runTicks_sivOpen_progress hr hd hp h ht with rfl | hprog
  · exact ⟨.of_mem rfl, fun _ _ _ _ => .of_mem rfl⟩
  · exact ⟨hprog.mem, fun h1 h2 h3 h4 => .of_mem (hprog.early (by simp [phasesAfterX1, h1, h2, h3, h4]))⟩

end Sys2Proof.Machine

/-! SUPPORT. EAX.OPEN of what EAX.SEAL wrote (42_eax.md R255, R256, R260), and what the phases have computed when a command's last
phases begin (R257, R311, R358); the statements O41 and O57. -/

namespace Sys2Proof.Machine

/-! ### What EAX.SEAL wrote opens (R255, R256, R260) -/

/-- What EAX.SEAL leaves in its output and tag regions (R255). -/
theorem exec_eaxSeal_written {s t : State} {rd rs : Reg} {ctx : Ctx} (h : AeadReady .eax .sealing rs ctx s)
    (hs : (s.slot ctx).wf) (ht : exec (.eaxSeal rd rs ctx) s = .next t) :
    let o := s.aeadOps rs .sealing
    let d := s.snapshot rs .sealing
    let c := Memory.readBytes t.mem o.outAddr o.inLen
    c = eaxCtr (slotEnc (s.slot ctx)) (slotOmac (s.slot ctx) 0 d.nonce) d.inp ∧
      Memory.readBytes t.mem o.tagAddr 16 = eaxTag (s.slot ctx) d.nonce d.ad c := by
  intro o d c
  obtain ⟨-, -, -, -, -, hcompletes⟩ := eaxSealCompletes
  obtain ⟨t', ht', -, -, -, -, hout, htag, -⟩ := hcompletes s rd rs ctx h hs
  cases ht'.symm.trans ht
  rw [← hout] at htag
  exact ⟨hout, htag⟩

/-- Settles O41: OPEN recomputes the tag that SEAL wrote, from the ciphertext that SEAL wrote, and counter mode is its own
inverse. -/
theorem eaxRoundTrip : Obligations.EaxRoundTrip := by
  intro s t u rd rs rd' rs' ctx ctx' hseal hs ht hopen hslot hnonce had hinp tag
  obtain ⟨hout, htag⟩ := exec_eaxSeal_written hseal hs ht
  have hrecomputed : eaxTag (u.slot ctx') (u.snapshot rs' .opening).nonce (u.snapshot rs' .opening).ad
      (u.snapshot rs' .opening).inp = tag := by rw [hslot, hnonce, had, hinp, ← htag]
  have hplain : eaxCtr (slotEnc (u.slot ctx')) (slotOmac (u.slot ctx') 0 (u.snapshot rs' .opening).nonce)
      (u.snapshot rs' .opening).inp = (s.snapshot rs .sealing).inp := by
    rw [hslot, hnonce, hinp, hout, eaxCtr_eaxCtr]
  have hlen : (u.aeadOps rs' .opening).inLen = (s.aeadOps rs .sealing).inLen := by
    rw [← snapshot_inp_length, hinp, Memory.readBytes_length]
  obtain ⟨hright, hwrong⟩ := eaxOpenCompletes u rd' rs' ctx' hopen (hslot ▸ hs)
  constructor
  · intro hrecv
    obtain ⟨v, hv, hcompleted, hrd, -, -, hmem, -⟩ := hright (hrecv.trans hrecomputed.symm)
    exact ⟨v, hv, hcompleted, hrd.trans hlen, hmem.trans hplain⟩
  · intro hrecv
    exact hwrong fun h => hrecv (h.trans hrecomputed)

/-! ### What the buffers hold before a command's last phases (R257, R311, R358) -/

section
variable {s : State} {w : Word32} {rd rs : Reg} {ctx : Ctx}

/-- Under the prologue's conditions the first phase goes on with the snapshot (R90, R206). -/
theorem runTicks_prologue_of_ready {i : Instr} {c : AeadCommand} {p : Phase} (n : Nat) (hr : s.running = some w)
    (hd : decode w = .ok i) (hc : sequenced i = some c) (h : AeadReady c.family c.kind c.rs c.ctx s)
    (hp : phaseTick c s = some (prologueTick c p s)) :
    runTicks (n + 1) s = runTicks n ((s.afterPrologue c.rs c.kind).setPhase p (s.snapshot c.rs c.kind)) := by
  rw [prologueTick_of_ready h] at hp
  exact runTicks_goTo n hr hd hc hp

/-- EAX.SEAL holds its ciphertext and tag in S5 (R255, R257). -/
theorem eaxSeal_buffers (hr : s.running = some w) (hd : decode w = .ok (.eaxSeal rd rs ctx)) (hp : s.phase = .s0)
    (h : AeadReady .eax .sealing rs ctx s) :
    let d := s.snapshot rs .sealing
    let c := eaxCtr (slotEnc (s.slot ctx)) (slotOmac (s.slot ctx) 0 d.nonce) d.inp
    ∃ t, runTicks 5 s = .next t ∧ t.phase = .s5 ∧ t.work.out = c ∧ t.work.tag = eaxTag (s.slot ctx) d.nonce d.ad c := by
  intro d c
  have hs1 := runTicks_prologue_of_ready (p := .s1) 4 hr hd rfl h (by simp only [phaseTick, eaxSealTick, hp])
  obtain ⟨e, hs5, -, hout, htag⟩ := runTicks_eaxSeal_s5 (u := s.afterPrologue rs .sealing) 0 hr hd d
  rw [hout] at htag
  exact ⟨_, hs1.trans hs5, rfl, hout, htag⟩

/-- SIV.SEAL holds in X1 its tag, and the key and counter block of its ciphertext (R309, R311). -/
theorem sivSeal_buffers (hr : s.running = some w) (hd : decode w = .ok (.sivSeal rd rs ctx)) (hp : s.phase = .p0)
    (h : AeadReady .siv .sealing rs ctx s) :
    let d := s.snapshot rs .sealing
    let keys := sivKeys (s.slot ctx) d.nonce
    let tag := sivTag keys.1 keys.2 d.nonce d.ad d.inp
    ∃ t, runTicks (kdfCount (s.slot ctx).alg + 6) s = .next t ∧ t.phase = .ctr ∧ t.work.tag = tag ∧
      sivCtrFrom t.work.encKey t.work.ctrBlock t.work.inp = sivCtr keys.2 tag d.inp := by
  intro d keys tag
  have hticks : kdfCount (s.slot ctx).alg + 6 = 0 + 5 + kdfCount (s.slot ctx).alg + 1 := by omega
  have hk0 := runTicks_prologue_of_ready (p := .kdf 0) (0 + 5 + kdfCount (s.slot ctx).alg) hr hd rfl h
    (by simp only [phaseTick, sivTick, hp])
  obtain ⟨e, hx1, -, hinp, henc, hblock, htag⟩ := runTicks_sivSeal_ctr (u := s.afterPrologue rs .sealing) 0 hr hd
    (snapshot_mat s rs .sealing)
  have hctr : sivCtrFrom e.encKey e.ctrBlock e.inp = sivCtr keys.2 tag d.inp := by
    rw [henc, hblock, hinp, htag]
    rfl
  rw [hticks]
  exact ⟨_, hk0.trans hx1, rfl, htag, hctr⟩

/-- SIV.OPEN up to the end of X1: the candidate plaintext is in its buffer and in the output region, and what H1, T1 and T2 work
on is there (R310, R311). -/
theorem runTicks_sivOpen_candidate (n : Nat) (hr : s.running = some w) (hd : decode w = .ok (.sivOpen rd rs ctx))
    (hp : s.phase = .p0) (h : AeadReady .siv .opening rs ctx s) :
    let d := s.snapshot rs .opening
    let keys := sivKeys (s.slot ctx) d.nonce
    let m := sivCtr keys.2 d.recv d.inp
    ∃ (u : State) (e : Work), runTicks (kdfCount (s.slot ctx).alg + 4 + n) s = runTicks n (u.setPhase .hash e) ∧
      u.running = some w ∧ Memory.readBytes u.mem d.ops.outAddr d.ops.inLen = m ∧ e.out = m ∧
      sivTag e.authKey e.encKey e.nonce e.ad e.out = sivTag keys.1 keys.2 d.nonce d.ad m := by
  intro d keys m
  have hticks : kdfCount (s.slot ctx).alg + 4 + n = n + 3 + kdfCount (s.slot ctx).alg + 1 := by omega
  have hk0 := runTicks_prologue_of_ready (p := .kdf 0) (n + 3 + kdfCount (s.slot ctx).alg) hr hd rfl h
    (by simp only [phaseTick, sivTick, hp])
  obtain ⟨e, hh1, -, hnonce, had, -, hauth, henc, hout⟩ := runTicks_sivOpen_hash (u := s.afterPrologue rs .opening) n hr hd
    (snapshot_mat s rs .opening)
  have hmem := Memory.readBytes_writeBytes_same s.mem d.ops.outAddr e.out
  have hlen : e.out.length = d.ops.inLen := by rw [hout, sivCtr_length, snapshot_inp_length, snapshot_ops]
  rw [hlen] at hmem
  rw [hticks]
  exact ⟨_, e, hk0.trans hh1, hr, hmem.trans hout, hout, by rw [hauth, henc, hnonce, had, hout]; rfl⟩

/-- SIV.OPEN has kept and written the candidate plaintext when X1 is done, and in V holds the recomputed tag (R310, R311). -/
theorem sivOpen_buffers (hr : s.running = some w) (hd : decode w = .ok (.sivOpen rd rs ctx)) (hp : s.phase = .p0)
    (h : AeadReady .siv .opening rs ctx s) :
    let d := s.snapshot rs .opening
    let keys := sivKeys (s.slot ctx) d.nonce
    let m := sivCtr keys.2 d.recv d.inp
    (∃ t, runTicks (kdfCount (s.slot ctx).alg + 4) s = .next t ∧ t.phase = .hash ∧ t.work.out = m ∧
      Memory.readBytes t.mem d.ops.outAddr d.ops.inLen = m) ∧
    ∃ t, runTicks (kdfCount (s.slot ctx).alg + 7) s = .next t ∧ t.phase = .verify ∧ t.work.out = m ∧
      Memory.readBytes t.mem d.ops.outAddr d.ops.inLen = m ∧ t.work.tag = sivTag keys.1 keys.2 d.nonce d.ad m := by
  intro d keys m
  constructor
  · obtain ⟨u, e, hx1, -, hmem, hout, -⟩ := runTicks_sivOpen_candidate 0 hr hd hp h
    exact ⟨_, hx1, rfl, hout, hmem⟩
  · obtain ⟨u, e, hx1, hur, hmem, hout, htag⟩ := runTicks_sivOpen_candidate 3 hr hd hp h
    obtain ⟨e', hv, -, -, hout', htag'⟩ := runTicks_sivOpen_verify 0 hur hd e
    exact ⟨_, hx1.trans hv, rfl, hout'.trans hout, hmem, htag'.trans htag⟩

/-- CCP.SEAL holds its ciphertext and tag in Q6 (R355, R358). -/
theorem ccpSeal_buffers (hr : s.running = some w) (hd : decode w = .ok (.ccpSeal rd rs ctx)) (hp : s.phase = .q0)
    (h : AeadReady .ccp .sealing rs ctx s) :
    let d := s.snapshot rs .sealing
    let c := d.ccpText (s.slot ctx)
    ∃ t, runTicks 6 s = .next t ∧ t.phase = .q6 ∧ t.work.out = c ∧ t.work.tag = ccpMac (s.slot ctx) d.nonce d.ad c := by
  intro d c
  have hq1 := runTicks_prologue_of_ready (p := .q1) 5 hr hd rfl h (by simp only [phaseTick, ccpTick, hp])
  obtain ⟨e, hq6, -, -, hout, htag⟩ := runTicks_ccpSeal_q6 (u := s.afterPrologue rs .sealing) 0 hr hd
    (snapshot_inp_length s rs .sealing) (snapshot_extra_of_sealing s rs)
  exact ⟨_, hq1.trans hq6, rfl, hout, htag⟩

/-- CCP.SEALX holds its ciphertext, the trailer's and the tag of both in Q6 (R356, R358). -/
theorem ccpSealx_buffers (hr : s.running = some w) (hd : decode w = .ok (.ccpSealx rd rs ctx)) (hp : s.phase = .q0)
    (h : AeadReady .ccp .sealingX rs ctx s) :
    let d := s.snapshot rs .sealingX
    let c := d.ccpText (s.slot ctx)
    let xc := d.ccpTrailer (s.slot ctx)
    ∃ t, runTicks 6 s = .next t ∧ t.phase = .q6 ∧ t.work.out = c ∧ t.work.xout = xc ∧
      t.work.tag = ccpMac (s.slot ctx) d.nonce d.ad (c ++ xc) := by
  intro d c xc
  have hq1 := runTicks_prologue_of_ready (p := .q1) 5 hr hd rfl h (by simp only [phaseTick, ccpTick, hp])
  obtain ⟨e, hq6, -, hout, hxout, htag⟩ := runTicks_ccpSealx_q6 (u := s.afterPrologue rs .sealingX) 0 hr hd
    (snapshot_inp_length s rs .sealingX) (snapshot_extra_length s rs)
  exact ⟨_, hq1.trans hq6, rfl, hout, hxout, htag⟩

end

/-- Settles O57: under the prologue's conditions each command's phases start from its snapshot, and fill the buffers from it. -/
theorem phasesComputeTags : Obligations.PhasesComputeTags := fun _ _ _ _ _ hr =>
  ⟨eaxSeal_buffers hr, sivSeal_buffers hr, sivOpen_buffers hr, ccpSeal_buffers hr, ccpSealx_buffers hr⟩

end Sys2Proof.Machine

/-! SUPPORT. SIV.OPEN of what SIV.SEAL wrote (43_gcm_siv.md R309, R310, R313); the statement O42. -/

namespace Sys2Proof.Machine

/-! ### What SIV.SEAL wrote opens (R309, R310, R313) -/

/-- What SIV.SEAL leaves in its output and tag regions (R309). -/
theorem exec_sivSeal_written {s t : State} {rd rs : Reg} {ctx : Ctx} (h : AeadReady .siv .sealing rs ctx s)
    (hs : (s.slot ctx).wf) (ht : exec (.sivSeal rd rs ctx) s = .next t) :
    let o := s.aeadOps rs .sealing
    let d := s.snapshot rs .sealing
    let keys := sivKeys (s.slot ctx) d.nonce
    let tag := Memory.readBytes t.mem o.tagAddr 16
    tag = sivTag keys.1 keys.2 d.nonce d.ad d.inp ∧ Memory.readBytes t.mem o.outAddr o.inLen = sivCtr keys.2 tag d.inp := by
  intro o d keys tag
  obtain ⟨-, -, -, -, -, hcompletes⟩ := sivSealCompletes
  obtain ⟨t', ht', -, -, -, -, hout, htag, -⟩ := hcompletes s rd rs ctx h hs
  cases ht'.symm.trans ht
  rw [← htag] at hout
  exact ⟨htag, hout⟩

/-- Settles O42: the received tag starts the keystream that SEAL used, and counter mode is its own inverse, so the candidate is
SEAL's plaintext; its recomputed tag is then the one received. -/
theorem sivRoundTrip : Obligations.SivRoundTrip := by
  intro s t u rd rs rd' rs' ctx ctx' hseal hs ht hopen hslot hnonce had hinp hrecv
  obtain ⟨htag, hout⟩ := exec_sivSeal_written hseal hs ht
  have hcandidate : sivCtr (sivKeys (u.slot ctx') (u.snapshot rs' .opening).nonce).2 (u.snapshot rs' .opening).recv
      (u.snapshot rs' .opening).inp = (s.snapshot rs .sealing).inp := by
    rw [hslot, hnonce, hrecv, hinp, hout, sivCtr_sivCtr]
  have hlen : (u.aeadOps rs' .opening).inLen = (s.aeadOps rs .sealing).inLen := by
    rw [← snapshot_inp_length, hinp, Memory.readBytes_length]
  obtain ⟨v, hv, hmem, -, -, hverified, -⟩ := sivOpenCompletes u rd' rs' ctx' hopen (hslot ▸ hs)
  rw [hcandidate] at hmem hverified
  obtain ⟨hcompleted, hrd, -⟩ := hverified (by rw [hrecv, htag, hslot, hnonce, had])
  exact ⟨v, hv, hcompleted, hrd.trans hlen, hmem⟩

end Sys2Proof.Machine

/-! SUPPORT. CCP.OPEN of what CCP.SEAL and CCP.SEALX wrote (44_chacha20_poly1305.md R355, R356, R357, R360); the statements O43
and O44. -/

namespace Sys2Proof.Machine

section
variable {s t u : State} {rd rs : Reg} {ctx : Ctx}

/-! ### What CCP.OPEN makes of a ciphertext (R353, R357) -/

/-- A text and a trailer encrypted apart, the trailer by the keystream from where the text ends, are encrypted together (R356). -/
theorem ccpXor_append (key nonce x : Bytes) {m : Bytes} {n : Nat} (h : m.length = n) (k : Nat) :
    xorBytes m (ccpKeystream key nonce 0 n) ++ xorBytes x (ccpKeystream key nonce n k) =
      xorBytes (m ++ x) (ccpKeystream key nonce 0 (n + k)) := by
  rw [ccpKeystream_append, Nat.zero_add, xorBytes_append (by rw [h, ccpKeystream_length])]

/-- CCP.OPEN of an encrypted text m: with the MAC of the ciphertext it writes m, with any other tag it writes nothing (R357). -/
theorem exec_ccpOpen_ciphertext (h : AeadReady .ccp .opening rs ctx u) (hs : (u.slot ctx).wf) (rd : Reg) {m tag : Bytes}
    (hinp : (u.snapshot rs .opening).inp =
      xorBytes m (ccpKeystream (u.slot ctx).key (u.snapshot rs .opening).nonce 0 m.length))
    (htag : ccpMac (u.slot ctx) (u.snapshot rs .opening).nonce (u.snapshot rs .opening).ad (u.snapshot rs .opening).inp = tag) :
    ((u.snapshot rs .opening).recv = tag → ∃ v, exec (.ccpOpen rd rs ctx) u = .next v ∧ Completed .ok u v ∧
      (v.reg rd).toNat = m.length ∧
      Memory.readBytes v.mem (u.aeadOps rs .opening).outAddr (u.aeadOps rs .opening).inLen = m) ∧
    ((u.snapshot rs .opening).recv ≠ tag → ∃ v, exec (.ccpOpen rd rs ctx) u = .next v ∧ NothingWritten .authFail u v) := by
  obtain ⟨hright, hwrong⟩ := ccpOpenCompletes u rd rs ctx h hs
  rw [htag] at hright hwrong
  refine ⟨fun hrecv => ?_, hwrong⟩
  have hlen : (u.aeadOps rs .opening).inLen = m.length := by
    rw [← snapshot_inp_length, hinp, xorBytes_length, ccpKeystream_length, Nat.min_self]
  obtain ⟨v, hv, hcompleted, hrd, -, -, hmem, -⟩ := hright hrecv
  refine ⟨v, hv, hcompleted, hrd.trans hlen, hmem.trans ?_⟩
  rw [hlen, hinp, ccpXor_cancel _ _ _ _ _ rfl]

/-! ### What CCP.SEAL and CCP.SEALX wrote (R355, R356) -/

/-- What CCP.SEAL leaves in its output and tag regions (R355). -/
theorem exec_ccpSeal_written (h : AeadReady .ccp .sealing rs ctx s) (hs : (s.slot ctx).wf)
    (ht : exec (.ccpSeal rd rs ctx) s = .next t) :
    let o := s.aeadOps rs .sealing
    let d := s.snapshot rs .sealing
    let c := Memory.readBytes t.mem o.outAddr o.inLen
    c = xorBytes d.inp (ccpKeystream (s.slot ctx).key d.nonce 0 d.inp.length) ∧
      Memory.readBytes t.mem o.tagAddr (s.slot ctx).tagLen = ccpMac (s.slot ctx) d.nonce d.ad c := by
  intro o d c
  obtain ⟨-, -, hcompletes⟩ := ccpSealCompletes
  obtain ⟨t', ht', -, -, -, -, hout, htag, -⟩ := hcompletes s rd rs ctx h hs
  cases ht'.symm.trans ht
  rw [← hout] at htag
  exact ⟨by rw [snapshot_inp_length]; exact hout, htag⟩

/-- What CCP.SEALX leaves in its output region and in the two parts of its tag region: text and trailer as one ciphertext, and
its MAC (R356). -/
theorem exec_ccpSealx_written (h : AeadReady .ccp .sealingX rs ctx s) (hs : (s.slot ctx).wf)
    (ht : exec (.ccpSealx rd rs ctx) s = .next t) :
    let o := s.aeadOps rs .sealingX
    let d := s.snapshot rs .sealingX
    let c := Memory.readBytes t.mem o.outAddr o.inLen ++ Memory.readBytes t.mem o.tagAddr o.extraLen
    c = xorBytes (d.inp ++ d.extra) (ccpKeystream (s.slot ctx).key d.nonce 0 (d.inp ++ d.extra).length) ∧
      Memory.readBytes t.mem (o.tagAddr + o.extraLen) (s.slot ctx).tagLen = ccpMac (s.slot ctx) d.nonce d.ad c := by
  intro o d c
  obtain ⟨t', ht', -, -, -, -, hout, htagRegion, -⟩ := ccpSealxCompletes s rd rs ctx h hs
  cases ht'.symm.trans ht
  rw [Memory.readBytes_append] at htagRegion
  obtain ⟨htrailer, htag⟩ := List.append_inj htagRegion (by simp)
  rw [← htrailer, ← hout] at htag
  refine ⟨?_, htag⟩
  have htogether := ccpXor_append (s.slot ctx).key d.nonce d.extra (snapshot_inp_length s rs .sealingX) o.extraLen
  rw [← hout, ← htrailer] at htogether
  rw [List.length_append, snapshot_inp_length, snapshot_extra_length]
  exact htogether

end

/-! ### CCP.OPEN of what they wrote (R357, R360) -/

/-- Settles O43: SEAL's output region is the encrypted plaintext, and its tag region the MAC that OPEN recomputes. -/
theorem ccpRoundTrip : Obligations.CcpRoundTrip := by
  intro s t u rd rs rd' rs' ctx ctx' hseal hs ht hopen hslot hnonce had hinp tag
  obtain ⟨hout, htag⟩ := exec_ccpSeal_written hseal hs ht
  rw [← snapshot_inp_length s]
  exact exec_ccpOpen_ciphertext hopen (hslot ▸ hs) rd' (by rw [hinp, hout, hslot, hnonce])
    (by rw [hslot, hnonce, had, hinp, ← htag])

/-- Settles O44: what SEALX wrote is the encrypted text and trailer with their MAC, which OPEN recomputes. -/
theorem ccpTrailerRoundTrip : Obligations.CcpTrailerRoundTrip := by
  intro s t u rd rs rd' rs' ctx ctx' hseal hs ht hopen hslot o hnonce had hinp hrecv
  obtain ⟨hwritten, htag⟩ := exec_ccpSealx_written hseal hs ht
  obtain ⟨hopens, -⟩ := exec_ccpOpen_ciphertext hopen (hslot ▸ hs) rd' (by rw [hinp, hwritten, hslot, hnonce])
    (by rw [hslot, hnonce, had, hinp, ← htag])
  rw [List.length_append, snapshot_inp_length, snapshot_extra_length] at hopens
  exact hopens hrecv

end Sys2Proof.Machine

/-! SUPPORT. The record unit (45_record.md): REC.RMPAD's scan, results and failures, REC.XMAC's scan and rotation byte by byte for
every in_len; the statements O22 to O25. -/

namespace Sys2Proof.Machine

/-! ### Words of a descriptor and bytes of a record (R83, R400) -/

theorem intLe_lt (bs : Bytes) : intLe bs < 256 ^ bs.length := by
  induction bs with
  | nil => simp [intLe]
  | cons b bs ih =>
    have hb := b.isLt
    rw [intLe, List.length_cons, Nat.pow_succ']
    omega

theorem le64At_lt (m : Memory) (a : Nat) : le64At m a < 2 ^ 64 := by
  have h := intLe_lt (Memory.readBytes m a 8)
  rwa [Memory.readBytes_length] at h

theorem readBytes_getD {m : Memory} {a n i : Nat} (h : i < n) : (Memory.readBytes m a n).getD i 0 = Memory.read m (a + i) := by
  rw [List.getD_eq_getElem _ _ (by simpa using h), Memory.readBytes_getElem]

theorem zext64_toNat (b : Byte) : (zext64 b).toNat = b.toNat := by
  have hlt := b.isLt
  simp only [zext64, BitVec.zeroExtend_eq_setWidth, BitVec.toNat_setWidth]
  omega

/-! ### Byte masks -/

theorem and_full (b : Byte) : b &&& 0xFF#8 = b := BitVec.and_allOnes

theorem full_and (b : Byte) : 0xFF#8 &&& b = b := BitVec.allOnes_and

theorem or_mask (p q : Prop) [Decidable p] [Decidable q] :
    (if p then 0xFF#8 else 0) ||| (if q then 0xFF#8 else 0) = if p ∨ q then 0xFF#8 else 0 := by
  by_cases hp : p <;> by_cases hq : q <;> simp [hp, hq]

/-- A byte masked by `started` and by the complement of `ended`. -/
theorem and_masks (b : Byte) (p q : Prop) [Decidable p] [Decidable q] :
    b &&& (if p then 0xFF#8 else 0) &&& ~~~(if q then 0xFF#8 else 0) = if p ∧ ¬q then b else 0 := by
  by_cases hp : p <;> by_cases hq : q <;> simp [hp, hq, and_full]

/-! ### The scan of REC.RMPAD (R403) -/

theorem trunc8_and_not_zext64 (v : Word) (b : Byte) : trunc8 (v &&& ~~~zext64 b) = trunc8 v &&& ~~~b := by
  simp [trunc8, zext64, BitVec.setWidth_and, BitVec.setWidth_not]

/-- R403's final comparison is of the low byte. -/
theorem low_full_iff (v : Word) : 0xFF = v &&& 0xFF ↔ trunc8 v = 0xFF#8 := by
  rw [← zext64_trunc8, BitVec.toNat_eq, BitVec.toNat_eq, zext64_toNat]
  exact eq_comm

/-- Clearing bits leaves a byte full exactly when it was full and no bit is cleared. -/
theorem and_not_eq_full (x y : Byte) : x &&& ~~~y = 0xFF#8 ↔ x = 0xFF#8 ∧ y = 0#8 := by
  have hnot : ~~~y = BitVec.allOnes 8 ↔ y = 0#8 := by rw [← BitVec.not_zero, BitVec.not_inj]
  rw [← hnot]
  exact BitVec.and_eq_allOnes_iff

/-- The scan clears no bit for a byte exactly when that byte, if `p` says that it is padding, equals the pad length. -/
theorem padMask_and_xor_eq_zero (p : Prop) [Decidable p] (pl b : Byte) :
    (if p then 0xFF#8 else 0) &&& (pl ^^^ b) = 0#8 ↔ (p → b = pl) := by
  by_cases h : p
  · rw [if_pos h, full_and, BitVec.xor_eq_zero_iff, eq_comm]
    simp [h]
  · simp [h]

/-- The low byte of `good` is still full after the scan exactly when it was before and each of the last n bytes that is padding
equals the pad length. -/
theorem rmpadScan_low_full (data : Bytes) (inLen : Nat) (pl : Byte) {n : Nat} (good : Word) (hn : n ≤ 2 ^ 64) :
    trunc8 (rmpadScan data inLen pl n good) = 0xFF#8 ↔
      trunc8 good = 0xFF#8 ∧ ∀ i, i < n → i ≤ pl.toNat → data.getD (inLen - 1 - i) 0 = pl := by
  induction n with
  | zero => simp [rmpadScan]
  | succ n ih =>
    have hmask : trunc8 (ctGe (zext64 pl) (BitVec.ofNat 64 n)) = if n ≤ pl.toNat then 0xFF#8 else 0 := by
      rw [ctGe_eq, trunc8_mask, BitVec.toNat_ofNat, Nat.mod_eq_of_lt (by omega), zext64_toNat]
    rw [rmpadScan, trunc8_and_not_zext64, hmask, and_not_eq_full, padMask_and_xor_eq_zero, ih (by omega), and_assoc,
      Nat.forall_lt_succ_right]

/-- The validity mask is ONES or 0. -/
theorem rmpadResult_mask (data : Bytes) (inLen macSize : Nat) :
    (rmpadResult data inLen macSize).1 = ones ∨ (rmpadResult data inLen macSize).1 = 0 := by
  dsimp only [rmpadResult]
  rw [ctEq_eq]
  exact ite_eq_or_eq ..

/-- The mask is ONES exactly when the record has room, by R403's sum modulo 2^64, and the scanned window holds padding. -/
theorem rmpadResult_mask_eq_ones {data : Bytes} {inLen macSize : Nat} {pl : Byte} (h : inLen < 2 ^ 64)
    (hlast : data.getD (inLen - 1) 0 = pl) :
    (rmpadResult data inLen macSize).1 = ones ↔ (1 + macSize + pl.toNat) % 2 ^ 64 ≤ inLen ∧
      ∀ i, i < min Config.padWindow inLen → i ≤ pl.toNat → data.getD (inLen - 1 - i) 0 = pl := by
  have hwindow : min Config.padWindow inLen ≤ 2 ^ 64 := by omega
  have hsum : (BitVec.ofNat 64 (1 + macSize) + zext64 pl).toNat = (1 + macSize + pl.toNat) % 2 ^ 64 := by
    rw [BitVec.toNat_add, zext64_toNat, BitVec.toNat_ofNat, Nat.mod_add_mod]
  have hroom : trunc8 (ctGe (BitVec.ofNat 64 inLen) (BitVec.ofNat 64 (1 + macSize) + zext64 pl)) = 0xFF#8 ↔
      (1 + macSize + pl.toNat) % 2 ^ 64 ≤ inLen := by
    rw [ctGe_eq, trunc8_mask, hsum, BitVec.toNat_ofNat, Nat.mod_eq_of_lt h]
    simp
  dsimp only [rmpadResult]
  rw [hlast, ctEq_eq, ite_eq_left_iff, imp_iff_not (by decide), not_not, low_full_iff, rmpadScan_low_full _ _ _ _ hwindow, hroom]

/-- The effective length: the length less the padding under the mask. -/
theorem rmpadResult_length (data : Bytes) (inLen macSize : Nat) : (rmpadResult data inLen macSize).2 =
    BitVec.ofNat 64 inLen - ((rmpadResult data inLen macSize).1 &&& (zext64 (data.getD (inLen - 1) 0) + 1)) := rfl

theorem rmpadResult_length_padded {data : Bytes} {inLen macSize : Nat} {pl : Byte} (h : inLen < 2 ^ 64)
    (hlast : data.getD (inLen - 1) 0 = pl) (hpl : pl.toNat < inLen) (hm : (rmpadResult data inLen macSize).1 = ones) :
    (rmpadResult data inLen macSize).2.toNat = inLen - pl.toNat - 1 := by
  have hlt := pl.isLt
  rw [rmpadResult_length, hm, hlast, BitVec.allOnes_and, BitVec.toNat_sub, BitVec.toNat_add, zext64_toNat, BitVec.toNat_ofNat]
  change (2 ^ 64 - (pl.toNat + 1) % 2 ^ 64 + inLen % 2 ^ 64) % 2 ^ 64 = _
  omega

theorem rmpadResult_length_whole {data : Bytes} {inLen macSize : Nat} (h : inLen < 2 ^ 64)
    (hm : (rmpadResult data inLen macSize).1 = 0) : (rmpadResult data inLen macSize).2.toNat = inLen := by
  rw [rmpadResult_length, hm]
  simpa using h

/-! ### REC.RMPAD (R402, R403, R404) -/

/-- A record with room, even by a sum that wraps, is longer than its pad length. -/
theorem padLength_lt_of_room {inLen macSize : Nat} {pl : Byte} (ho : 1 + macSize ≤ inLen) (h : inLen < 2 ^ 64)
    (hroom : (1 + macSize + pl.toNat) % 2 ^ 64 ≤ inLen) : pl.toNat < inLen := by
  have hlt := pl.isLt
  omega

/-- The mask for a record in bus memory: where there is room, the scanned window holds all the padding. -/
theorem rmpadResult_readBytes_mask {m : Memory} {a inLen macSize : Nat} (ho : 1 + macSize ≤ inLen) (h : inLen < 2 ^ 64) :
    let pl := Memory.read m (a + (inLen - 1))
    (rmpadResult (Memory.readBytes m a inLen) inLen macSize).1 = ones ↔ (1 + macSize + pl.toNat) % 2 ^ 64 ≤ inLen ∧
      ∀ i, i ≤ pl.toNat → Memory.read m (a + (inLen - 1 - i)) = pl := by
  intro pl
  rw [rmpadResult_mask_eq_ones h (readBytes_getD (by omega))]
  refine and_congr_right fun hroom => forall_congr' fun i => ?_
  have hlt := pl.isLt
  have hpl := padLength_lt_of_room ho h hroom
  constructor
  · intro hpad hi
    have hwindow : i < min Config.padWindow inLen :=
      Nat.lt_min.mpr ⟨by rw [Config.padWindow]; exact hi.trans_lt hlt, hi.trans_lt hpl⟩
    rw [← readBytes_getD (n := inLen) (by omega)]
    exact hpad hwindow hi
  · intro hpad _ hi
    rw [readBytes_getD (by omega)]
    exact hpad hi

theorem reg_ne_next : ∀ r : Reg, r ≠ r + 1 := by decide

/-- REC.RMPAD under its conditions ends with its two results and writes nothing else. -/
theorem execRecRmpad_ok {rd rs : Reg} {s : State} (h : RmpadReady rd rs s) :
    let o := rmpadOps s.mem (s.regNat rs)
    let r := rmpadResult (Memory.readBytes s.mem o.dataAddr o.inLen) o.inLen o.macSize
    ∃ t, exec (.recRmpad rd rs) s = .next t ∧ Completed .ok s t ∧ t.reg rd = r.1 ∧ t.reg (rd + 1) = r.2 ∧
      SameRegsExcept [rd, rd + 1] s t ∧ SameSlotsExcept [] s t ∧ SameMemOutside [] s t := by
  intro o r
  have hover := h.overhead
  have hrecord := h.record
  rcases execRecRmpad_cases rd rs s with ⟨hodd, -⟩ | ⟨-, hd, -⟩ | ⟨-, -, he⟩
  · exact absurd h.even hodd
  · exact absurd (descriptorOk_iff.mpr h.descriptor) (by simp [hd])
  · rcases he _ rfl with ⟨hsmall, -⟩ | ⟨-, hno, -⟩ | ⟨-, -, he⟩
    · omega
    · exact absurd hrecord (by simp [hno])
    · refine ⟨_, he _ rfl, ((((Completed.complete _ s).logRead _ _).log _).setReg _ _).setReg _ _, ?_, ?_,
        ((SameRegsExcept.of_x rfl).setReg (by simp) _).setReg (by simp) _, fun _ _ => rfl, fun _ _ => rfl⟩
      · rw [reg_complete, reg_setReg, if_neg (reg_ne_next rd), reg_setReg, if_pos rfl]
        rfl
      · rw [reg_complete, reg_setReg, if_pos rfl]
        rfl

/-- Settles O22: R403's two results on the record; up to 2^64 - 256 bytes R403's sum does not wrap. -/
theorem rmpadCompletes : Obligations.RmpadCompletes := by
  intro s rd rs h o pl padded
  obtain ⟨t, ht, hdone, hmask, hlength, hframe⟩ := execRecRmpad_ok h
  have hover : 1 + o.macSize ≤ o.inLen := h.overhead
  have hlen : o.inLen < 2 ^ 64 := le64At_lt _ _
  have hpl : pl.toNat < 2 ^ 8 := pl.isLt
  have hvalid : t.reg rd = ones ↔ (1 + o.macSize + pl.toNat) % 2 ^ 64 ≤ o.inLen ∧ padded := by
    rw [hmask]
    exact rmpadResult_readBytes_mask hover hlen
  refine ⟨t, ht, hdone, hmask ▸ rmpadResult_mask .., hvalid, fun hshort => ?_, fun hones => ?_, fun hzero => ?_, hframe⟩
  · rw [hvalid, Nat.mod_eq_of_lt (by omega)]
  · have hfits := padLength_lt_of_room hover hlen (hvalid.mp hones).1
    rw [hlength, rmpadResult_length_padded hlen (readBytes_getD (n := o.inLen) (by omega)) hfits (hmask ▸ hones)]
  · rw [hlength, rmpadResult_length_whole hlen (hmask ▸ hzero)]

/-- Settles O23: the ways REC.RMPAD ends, in the order of its tests. -/
theorem rmpadErrors : Obligations.RmpadErrors := by
  intro s rd rs d o
  rcases execRecRmpad_cases rd rs s with ⟨hodd, he⟩ | ⟨heven, hd, he⟩ | ⟨heven, hd, he⟩
  · refine ⟨_, he, ?_⟩
    rw [if_pos (by omega)]
    exact nothingWritten_complete _ s
  · refine ⟨_, he, ?_⟩
    rw [if_neg (by omega), if_pos (descriptorOk_eq_false_iff.mp hd)]
    exact nothingWritten_complete _ s
  · have hblock : ¬(d % 8 ≠ 0 ∨ s.platform.accessible d 32 .read = false) := by
      rw [← descriptorOk_eq_false_iff, hd]
      decide
    simp only [if_neg hblock, if_neg (show ¬rd.val % 2 = 1 by omega)]
    rcases he _ rfl with ⟨hsmall, he⟩ | ⟨hover, hno, he⟩ | ⟨hover, hrecord, he⟩
    · refine ⟨_, he, ?_⟩
      rw [if_pos hsmall]
      exact nothingWritten_finish _ s _
    · refine ⟨_, he, ?_⟩
      rw [if_neg (Nat.not_lt.mpr hover), if_pos hno]
      exact nothingWritten_finish _ s _
    · refine ⟨_, he _ rfl, ?_⟩
      rw [if_neg (Nat.not_lt.mpr hover), if_neg (by simpa using hrecord)]
      rfl

/-! ### The rotation of REC.XMAC (R410) -/

/-- The mask that leaves one conditional rotation out: full where bit 0 of the offset is clear. -/
theorem skipMask_eq (r : Word) : trunc8 ((r &&& 1) - 1) = if r.toNat % 2 = 0 then 0xFF#8 else 0 := by
  have hbit : (r &&& 1).toNat = r.toNat % 2 := Nat.and_two_pow_sub_one_eq_mod r.toNat 1
  rcases Nat.mod_two_eq_zero_or_one r.toNat with hr | hr
  · rw [hr] at hbit ⊢
    rw [BitVec.eq_of_toNat_eq (y := 0#64) hbit]
    decide
  · rw [hr] at hbit ⊢
    rw [BitVec.eq_of_toNat_eq (y := 1#64) hbit]
    decide

/-- One conditional rotation is taken on bit 0 of the offset and left out otherwise. -/
theorem xmacRotateOnce_eq {md : Nat} {rot : Bytes} (offset : Nat) (r : Word) (h : rot.length = md) :
    xmacRotateOnce md offset r rot = rot.rotate (offset * (r.toNat % 2)) := by
  subst h
  refine List.ext_getElem (by simp) fun i h1 h2 => ?_
  have hi : i < rot.length := by simpa using h2
  have hmod : (i + offset) % rot.length < rot.length := Nat.mod_lt _ (by omega)
  simp only [xmacRotateOnce, skipMask_eq, List.getElem_map, List.getElem_range]
  rcases Nat.mod_two_eq_zero_or_one r.toNat with hr | hr
  · simp [hr, hi, full_and]
  · simp [hr, hmod, full_and, List.getElem_rotate]

/-- The rotations by 1, 2, 4, ... below md add up to the rotation by the offset, whose bits they take from the lowest up. -/
theorem xmacRotate_eq {md fuel offset : Nat} {r : Word} {rot : Bytes} (h : rot.length = md) (hr : offset * r.toNat < md)
    (hf : r.toNat < 2 ^ fuel) : xmacRotate md fuel offset r rot = rot.rotate (offset * r.toNat) := by
  induction fuel generalizing offset r rot with
  | zero =>
    have hzero : r.toNat = 0 := by omega
    simp [xmacRotate, hzero]
  | succ fuel ih =>
    have hhalf : (r >>> 1).toNat = r.toNat / 2 := by rw [BitVec.toNat_ushiftRight, Nat.shiftRight_eq_div_pow]
    have hparts : offset * (r.toNat % 2) + 2 * offset * (r >>> 1).toNat = offset * r.toNat := by
      rw [hhalf, mul_comm 2, mul_assoc, ← mul_add, Nat.mod_add_div]
    rw [xmacRotate]
    split
    · rw [ih (by simp) (by omega) (by rw [hhalf]; omega), xmacRotateOnce_eq _ _ h, List.rotate_rotate, hparts]
    · have hzero : r.toNat = 0 := by
        by_contra hne
        have := Nat.le_mul_of_pos_right offset (Nat.pos_of_ne_zero hne)
        omega
      simp [hzero]

/-! ### One byte of REC.XMAC's scan (R410) -/

/-- The position of a byte in the buffer: the count j, put back to 0 when it reaches md. -/
theorem wrapped_eq_mod {md j n : Nat} (hle : j ≤ md) (hmod : j % md = n % md) : (if j ≥ md then j - md else j) = n % md := by
  rw [← hmod]
  split
  · rw [show j = md by omega, Nat.sub_self, Nat.mod_self]
  · rw [Nat.mod_eq_of_lt (by omega)]

theorem getD_set {l : Bytes} {j : Nat} (h : j < l.length) (v : Byte) (p : Nat) :
    (l.set j v).getD p 0 = if j = p then v else l.getD p 0 := by
  rw [List.getD_eq_getElem?_getD, List.getElem?_set, if_pos h]
  split <;> simp

section
variable {md start i : Nat} {macStart macEnd : Word} {c : XmacScan}

theorem ctEq_index (h : i < 2 ^ 64) (w : Word) : ctEq (BitVec.ofNat 64 i) w = if i = w.toNat then ones else 0 := by
  rw [ctEq_eq]
  refine if_congr ?_ rfl rfl
  rw [BitVec.toNat_eq, BitVec.toNat_ofNat, Nat.mod_eq_of_lt h]

theorem ctGe_index (h : i < 2 ^ 64) (w : Word) : ctGe (BitVec.ofNat 64 i) w = if w.toNat ≤ i then ones else 0 := by
  rw [ctGe_eq, BitVec.toNat_ofNat, Nat.mod_eq_of_lt h]

/-- What XMAC's scan holds after the record's bytes from index `start` up to index i: the buffer, read from the position `turn` on,
holds the bytes of the MAC that it has passed, and zeros in the other places. -/
structure XmacScanned (md start : Nat) (macStart macEnd : Word) (record : Nat → Byte) (turn i : Nat) (c : XmacScan) : Prop where
  length : c.rot.length = md
  j_le : c.j ≤ md
  j_mod : c.j % md = (i - start) % md
  started : c.started = if start ≤ macStart.toNat ∧ macStart.toNat < i then 0xFF#8 else 0
  offset : c.rotateOffset =
    if start ≤ macStart.toNat ∧ macStart.toNat < i then BitVec.ofNat 64 ((macStart.toNat - start) % md) else 0
  rot : ∀ k, k < md → c.rot.getD ((k + turn) % md) 0 =
    if start ≤ macStart.toNat ∧ macStart.toNat + k < i ∧ macStart.toNat + k < macEnd.toNat then record (macStart.toNat + k) else 0

variable {record : Nat → Byte} {turn : Nat}

theorem xmacScanned_cleared : XmacScanned md start macStart macEnd record turn start
    { rot := zeros md, rotateOffset := 0, started := 0, j := 0 } where
  length := zeros_length md
  j_le := Nat.zero_le md
  j_mod := by simp
  started := by rw [if_neg (by omega)]
  offset := by rw [if_neg (by omega)]
  rot k hk := by
    rw [if_neg (by omega)]
    simp [zeros, Nat.mod_lt _ (Nat.zero_lt_of_lt hk)]

/-- A scan step has the MAC started once it has come to the MAC's first index. -/
theorem XmacScanned.started_step (h : XmacScanned md start macStart macEnd record turn i c) (hs : start ≤ i) (hi : i < 2 ^ 64) :
    c.started ||| trunc8 (ctEq (BitVec.ofNat 64 i) macStart) =
      if start ≤ macStart.toNat ∧ macStart.toNat < i + 1 then 0xFF#8 else 0 := by
  rw [h.started, ctEq_index hi, trunc8_mask, or_mask]
  exact if_congr (by omega) rfl rfl

/-- A scan step marks, at the MAC's first index, the position of that byte. -/
theorem XmacScanned.offset_step (h : XmacScanned md start macStart macEnd record turn i c) (hs : start ≤ i) (hi : i < 2 ^ 64) :
    c.rotateOffset ||| (BitVec.ofNat 64 ((i - start) % md) &&& ctEq (BitVec.ofNat 64 i) macStart) =
      if start ≤ macStart.toNat ∧ macStart.toNat < i + 1 then BitVec.ofNat 64 ((macStart.toNat - start) % md) else 0 := by
  rw [h.offset, ctEq_index hi]
  by_cases hfirst : i = macStart.toNat
  · rw [if_neg (by omega), if_pos hfirst, if_pos (by omega), BitVec.and_allOnes, hfirst]
    exact BitVec.zero_or
  · have hstay : start ≤ macStart.toNat ∧ macStart.toNat < i + 1 ↔ start ≤ macStart.toNat ∧ macStart.toNat < i := by omega
    simp only [if_neg hfirst, hstay]
    exact (congrArg _ BitVec.and_zero).trans BitVec.or_zero

/-- A scan step keeps its byte, at position (i - start) mod md, where the byte is one of a MAC that begins in the window. -/
theorem XmacScanned.rot_step (h : XmacScanned md start macStart macEnd record turn i c) (hs : start ≤ i) (hi : i < 2 ^ 64)
    (b : Byte) : (xmacStep md macStart macEnd c i b).rot = c.rot.set ((i - start) % md) (c.rot.getD ((i - start) % md) 0 |||
      if start ≤ macStart.toNat ∧ macStart.toNat ≤ i ∧ i < macEnd.toNat then b else 0) := by
  simp only [xmacStep, wrapped_eq_mod h.j_le h.j_mod, h.started_step hs hi, ctGe_index hi, trunc8_mask]
  rw [and_masks]
  congr 2
  exact if_congr (by omega) rfl rfl

/-- The buffer after one byte more. The byte of the MAC's index k goes to the place that k has from `turn` on, where the buffer
still holds 0. -/
theorem XmacScanned.rot_getD_step (h : XmacScanned md start macStart macEnd record turn i c) (hs : start ≤ i)
    (hi : i < 2 ^ 64) (hend : macEnd.toNat ≤ macStart.toNat + md)
    (hturn : start ≤ macStart.toNat → macStart.toNat ≤ i → turn = (macStart.toNat - start) % md) {k : Nat} (hk : k < md) :
    (xmacStep md macStart macEnd c i (record i)).rot.getD ((k + turn) % md) 0 =
      if start ≤ macStart.toNat ∧ macStart.toNat + k < i + 1 ∧ macStart.toNat + k < macEnd.toNat
        then record (macStart.toNat + k) else 0 := by
  have hold := h.rot k hk
  have hj : (i - start) % md < c.rot.length := by rw [h.length]; exact Nat.mod_lt _ (by omega)
  rw [h.rot_step hs hi, getD_set hj]
  by_cases htaken : start ≤ macStart.toNat ∧ macStart.toNat ≤ i ∧ i < macEnd.toNat
  · obtain ⟨hstart, hfrom, hto⟩ := htaken
    have hplace : (i - start) % md = (i - macStart.toNat + turn) % md := by
      rw [hturn hstart hfrom, Nat.add_mod_mod]
      congr 1
      omega
    by_cases hthis : macStart.toNat + k = i
    · rw [if_pos (by rw [hplace]; congr 2; omega), if_pos ⟨hstart, hfrom, hto⟩, if_pos (by omega), hthis]
      rw [if_neg (by omega)] at hold
      rw [hplace, show i - macStart.toNat = k by omega, hold]
      exact BitVec.zero_or
    · have hother : (i - start) % md ≠ (k + turn) % md := by
        rw [hplace]
        intro heq
        have := Nat.ModEq.eq_of_lt_of_lt (Nat.ModEq.add_right_cancel' turn heq) (by omega) hk
        omega
      rw [if_neg hother, hold]
      exact if_congr (by omega) rfl rfl
  · have hkept : c.rot.getD ((i - start) % md) 0 ||| 0 = c.rot.getD ((i - start) % md) 0 := BitVec.or_zero
    rw [if_neg htaken, hkept, ite_eq_right_iff.mpr fun hsame => by rw [hsame], hold]
    exact if_congr (by omega) rfl rfl

/-- A scan step goes on from index i to index i + 1. -/
theorem XmacScanned.step (h : XmacScanned md start macStart macEnd record turn i c) (hmd : 0 < md) (hs : start ≤ i)
    (hi : i < 2 ^ 64) (hend : macEnd.toNat ≤ macStart.toNat + md)
    (hturn : start ≤ macStart.toNat → macStart.toNat ≤ i → turn = (macStart.toNat - start) % md) :
    XmacScanned md start macStart macEnd record turn (i + 1) (xmacStep md macStart macEnd c i (record i)) := by
  have hpos := wrapped_eq_mod h.j_le h.j_mod
  constructor
  case length => simp [xmacStep, h.length]
  case j_le =>
    simp only [xmacStep, hpos]
    exact Nat.mod_lt _ hmd
  case j_mod =>
    simp only [xmacStep, hpos]
    rw [Nat.mod_add_mod, Nat.sub_add_comm hs]
  case started => exact h.started_step hs hi
  case offset =>
    simp only [xmacStep, hpos]
    exact h.offset_step hs hi
  case rot => exact fun k hk => h.rot_getD_step hs hi hend hturn hk

/-- The scan of a string of bus memory, the record's byte k at address a + k. -/
theorem XmacScanned.scan {m : Memory} {a n : Nat} (hmd : 0 < md) (hend : macEnd.toNat ≤ macStart.toNat + md)
    (h : XmacScanned md start macStart macEnd (fun k => Memory.read m (a + k)) turn i c) (hs : start ≤ i) (hn : i + n ≤ 2 ^ 64)
    (hturn : start ≤ macStart.toNat → macStart.toNat < i + n → turn = (macStart.toNat - start) % md) :
    XmacScanned md start macStart macEnd (fun k => Memory.read m (a + k)) turn (i + n)
      (xmacScan md macStart macEnd i (Memory.readBytes m (a + i) n) c) := by
  induction n generalizing i c with
  | zero => exact h
  | succ n ih =>
    have hstep := h.step hmd hs (by omega) hend fun hstart hfrom => hturn hstart (by omega)
    rw [Memory.readBytes, xmacScan, ← Nat.add_assoc, Nat.add_right_comm]
    exact ih hstep (by omega) (by omega) fun hstart hto => hturn hstart (by omega)

end

/-! ### The bytes REC.XMAC writes (R410, R411) -/

theorem xmacScanStart_le (md origLen : Nat) : xmacScanStart md origLen ≤ origLen := by
  rw [xmacScanStart]
  split
  · exact Nat.sub_le ..
  · exact Nat.zero_le _

/-- A MAC that ends no more than 256 bytes before the record does begins in the window (R411). -/
theorem xmacScanStart_le_macStart {md inLen origLen : Nat} (hlow : md ≤ inLen) (hnear : origLen ≤ inLen + 256) :
    xmacScanStart md origLen ≤ inLen - md := by
  rw [xmacScanStart, Config.xmacSlack]
  split <;> omega

/-- The index of the MAC's first byte, modulo 2^64. -/
theorem macStart_toNat {md inLen : Nat} (hmd : md < 2 ^ 64) (hin : inLen < 2 ^ 64) :
    (BitVec.ofNat 64 inLen - BitVec.ofNat 64 md).toNat = if md ≤ inLen then inLen - md else 2 ^ 64 - md + inLen := by
  rw [BitVec.toNat_sub, BitVec.toNat_ofNat, BitVec.toNat_ofNat]
  split <;> omega

/-- The place in the buffer of the MAC's first byte, or 0 where the scan never comes to it. -/
def xmacTurn (md start macStart origLen : Nat) : Nat :=
  if start ≤ macStart ∧ macStart < origLen then (macStart - start) % md else 0

theorem xmacTurn_lt {md : Nat} (start macStart origLen : Nat) (hmd : 0 < md) : xmacTurn md start macStart origLen < md := by
  rw [xmacTurn]
  split
  · exact Nat.mod_lt _ hmd
  · exact hmd

/-- The offset by which the buffer is turned back after a scan up to the record's end. -/
theorem XmacScanned.offset_toNat {md start turn origLen : Nat} {macStart macEnd : Word} {record : Nat → Byte} {c : XmacScan}
    (h : XmacScanned md start macStart macEnd record turn origLen c) (hmd : 0 < md) (hmd64 : md < 2 ^ 64) :
    c.rotateOffset.toNat = xmacTurn md start macStart.toNat origLen := by
  have hword : c.rotateOffset = BitVec.ofNat 64 (xmacTurn md start macStart.toNat origLen) := by
    rw [h.offset, xmacTurn, apply_ite (BitVec.ofNat 64)]
    rfl
  have hlt := xmacTurn_lt start macStart.toNat origLen hmd
  rw [hword, BitVec.toNat_ofNat, Nat.mod_eq_of_lt (hlt.trans hmd64)]

/-- The window's scan, for every in_len. -/
theorem xmacGather_scanned {m : Memory} {a md inLen origLen : Nat} (hmd : 0 < md) (hmd64 : md < 2 ^ 64) (hin : inLen < 2 ^ 64)
    (horig : origLen < 2 ^ 64) :
    let start := xmacScanStart md origLen
    let macStart := BitVec.ofNat 64 inLen - BitVec.ofNat 64 md
    XmacScanned md start macStart (BitVec.ofNat 64 inLen) (fun k => Memory.read m (a + k))
      (xmacTurn md start macStart.toNat origLen) origLen
      (xmacGather (Memory.readBytes m (a + start) (origLen - start)) md inLen origLen) := by
  intro start macStart
  have hwhole : start + (origLen - start) = origLen := Nat.add_sub_cancel' (xmacScanStart_le md origLen)
  have hend : (BitVec.ofNat 64 inLen).toNat ≤ macStart.toNat + md := by
    rw [macStart_toNat hmd64 hin, BitVec.toNat_ofNat]
    split <;> omega
  have hscan := (xmacScanned_cleared (start := start) (turn := xmacTurn md start macStart.toNat origLen)).scan (m := m) (a := a)
    (n := origLen - start) hmd hend (Nat.le_refl _) (by omega) fun hstart hto => if_pos ⟨hstart, hwhole ▸ hto⟩
  rwa [hwhole] at hscan

/-- Byte k of REC.XMAC's output, for every in_len: the buffer turned back to the MAC's first byte. -/
theorem xmacOutput_getD {m : Memory} {a md inLen origLen k : Nat} (hmd64 : md < 2 ^ 64) (hin : inLen < 2 ^ 64)
    (horig : origLen < 2 ^ 64) (hk : k < md) :
    let start := xmacScanStart md origLen
    let c := xmacGather (Memory.readBytes m (a + start) (origLen - start)) md inLen origLen
    (xmacRotate md md 1 c.rotateOffset c.rot).getD k 0 =
      if md ≤ inLen ∧ start ≤ inLen - md ∧ inLen - md + k < origLen then Memory.read m (a + (inLen - md + k)) else 0 := by
  intro start c
  have hmd : 0 < md := Nat.zero_lt_of_lt hk
  have h := xmacGather_scanned (m := m) (a := a) hmd hmd64 hin horig
  have hlt := xmacTurn_lt start (BitVec.ofNat 64 inLen - BitVec.ofNat 64 md).toNat origLen hmd
  have hoffset := h.offset_toNat hmd hmd64
  have hplace : (xmacRotate md md 1 c.rotateOffset c.rot).getD k 0 = c.rot.getD ((k + c.rotateOffset.toNat) % md) 0 := by
    have hturns : 1 * c.rotateOffset.toNat < md := by rwa [one_mul, hoffset]
    rw [xmacRotate_eq h.length hturns (by rw [hoffset]; exact hlt.trans Nat.lt_two_pow_self), one_mul,
      List.getD_eq_getElem _ _ (by rw [List.length_rotate, h.length]; exact hk), List.getElem_rotate,
      List.getD_eq_getElem _ _ (by rw [h.length]; exact Nat.mod_lt _ hmd)]
    congr 2
    exact h.length
  rw [hplace, hoffset, h.rot k hk, macStart_toNat hmd64 hin, BitVec.toNat_ofNat, Nat.mod_eq_of_lt hin]
  by_cases hlong : md ≤ inLen
  · rw [if_pos hlong]
    exact if_congr (by omega) rfl rfl
  · rw [if_neg (by rw [if_neg hlong]; omega), if_neg (by omega)]

/-! ### REC.XMAC (R410, R411) -/

/-- REC.XMAC under its conditions ends with its md bytes in the output region and writes nothing else. -/
theorem execRecXmac_ok {rs : Reg} {s : State} (h : XmacReady rs s) :
    let o := xmacOps s.mem (s.regNat rs)
    let start := xmacScanStart o.md o.origLen
    let c := xmacGather (Memory.readBytes s.mem (o.dataAddr + start) (o.origLen - start)) o.md o.inLen o.origLen
    ∃ t, exec (.recXmac rs) s = .next t ∧ Completed .ok s t ∧
      Memory.readBytes t.mem o.outAddr o.md = xmacRotate o.md o.md 1 c.rotateOffset c.rot ∧
      SameMemOutside [⟨o.outAddr, o.md⟩] s t ∧ SameRegsExcept [] s t ∧ SameSlotsExcept [] s t := by
  intro o start c
  have hcheck : xmacCheck s.platform (s.regNat rs) o = none := xmacCheck_eq_none_iff.mpr
    ⟨h.mdLow, h.mdHigh, h.mdRecord, h.apart, h.blockApart, h.record, h.output⟩
  rcases execRecXmac_cases rs s with ⟨hd, -⟩ | ⟨-, code, hc, -⟩ | ⟨-, -, he⟩
  · exact absurd (descriptorOk_iff.mpr h.descriptor) (by simp [hd])
  · cases hcheck.symm.trans hc
  · have hlength : (xmacRotate o.md o.md 1 c.rotateOffset c.rot).length = o.md :=
      xmacRotate_length _ _ _ _ _ (xmacGather_rot_length ..)
    obtain ⟨t, ht, hdone, hx, hslots, hout, hmem, -⟩ := finish_memWrite_spec .ok o.outAddr
      (xmacRotate o.md o.md 1 c.rotateOffset c.rot) s
      (((s.logRead (s.regNat rs) 40).logRead (o.dataAddr + start) (o.origLen - start)).setWork { s.work with rot := c.rot })
      ((((Completed.complete _ s).logRead _ _).logRead _ _).setWork _) (by simp) (by simp) (by simp)
    rw [hlength] at hout hmem
    have hexec : execRecXmac rs s = .next t := (he o rfl start rfl c rfl).trans ht
    exact ⟨t, hexec, hdone, hout, hmem, .of_x hx, .of_slots hslots⟩

/-- Settles O24: the rotated buffer of the scan, byte by byte. -/
theorem xmacCompletes : Obligations.XmacCompletes := by
  intro s rs h o start c
  obtain ⟨t, ht, hdone, hout, hframe⟩ := execRecXmac_ok h
  have hmd : o.md < 2 ^ 64 := le64At_lt _ _
  refine ⟨t, ht, hdone, hout, fun k hk => ?_, hframe⟩
  rw [← readBytes_getD hk, hout]
  exact xmacOutput_getD hmd (le64At_lt _ _) (le64At_lt _ _) hk

/-- Settles O25: in R411's first range every byte of the MAC lies in the record and in the window, in its second none does. -/
theorem xmacExtractsMac : Obligations.XmacExtractsMac := by
  intro s rs h
  obtain ⟨t, ht, hdone, -, hbyte, -⟩ := xmacCompletes s rs h
  refine ⟨fun hlow hhigh hnear => ⟨t, ht, hdone, fun i hi => ?_⟩, fun hout => ⟨t, ht, hdone, fun i hi => ?_⟩⟩
  · rw [hbyte i hi]
    exact if_pos ⟨hlow, xmacScanStart_le_macStart hlow hnear, by omega⟩
  · rw [hbyte i hi]
    exact if_neg fun ⟨hlow, _, hrecord⟩ => by omega

end Sys2Proof.Machine

/-! SUPPORT. Exceptions (60_exceptions.md): the codes that a command completes with (R451), and NOP (R470); the statements O48 and
O27. -/

namespace Sys2Proof.Machine

/-! ### The codes a command completes with (R451) -/

/-- The outcome, where it is a state, has one of these completion codes. -/
def CompletesIn (cs : List Code) (o : Outcome) : Prop := ∀ t, o = .next t → t.err ∈ cs

/-- The codes that the prologue of SEAL, SEALX and OPEN raises (R206). -/
def prologueCodes : List Code := [.config, .tooLarge, .bufSmall, .busErr, .ctxErr]

section
variable {cs : List Code} {s u v : State}

theorem completesIn_finish {c : Code} (h : c ∈ cs) : CompletesIn cs (finish c u) := by
  rintro t ⟨⟩
  exact h

theorem completesIn_ok : CompletesIn [.ok] (finish .ok u) := completesIn_finish (by simp)

theorem completesIn_ite {p : Prop} [Decidable p] {c d : Code} (hc : c ∈ cs) (hd : d ∈ cs) :
    CompletesIn cs (if p then finish c u else finish d v) := by
  split
  · exact completesIn_finish hc
  · exact completesIn_finish hd

/-- With an even rd, the only kind a legal word has (R125), REC.RMPAD never completes with ILLEGAL. -/
theorem completesIn_execRecRmpad {rd : Reg} (rs : Reg) (s : State) (heven : rd.val % 2 = 0) :
    CompletesIn [.ok, .bufSmall, .busErr] (execRecRmpad rd rs s) := by
  rcases execRecRmpad_cases rd rs s with ⟨hodd, -⟩ | ⟨-, -, h⟩ | ⟨-, -, h⟩
  · exact absurd heven hodd
  · rw [h]; exact completesIn_finish (by simp)
  · rcases h _ rfl with ⟨-, h⟩ | ⟨-, -, h⟩ | ⟨-, -, h⟩
    · rw [h]; exact completesIn_finish (by simp)
    · rw [h]; exact completesIn_finish (by simp)
    · rw [h _ rfl]; exact completesIn_finish (by simp)

theorem completesIn_execRecXmac (rs : Reg) (s : State) : CompletesIn [.ok, .config, .busErr] (execRecXmac rs s) := by
  rcases execRecXmac_cases rs s with ⟨-, h⟩ | ⟨-, c, hc, h⟩ | ⟨-, -, h⟩
  · rw [h]; exact completesIn_finish (by simp)
  · rw [h]; exact completesIn_finish (by rcases xmacCheck_codes hc with rfl | rfl <;> simp)
  · rw [h _ rfl _ rfl _ rfl]; exact completesIn_finish (by simp)

theorem completesIn_initRun (f : Family) (rs : Reg) (ctx : Ctx) (mk : Alg → Nat → Bytes → Slot) (s : State) :
    CompletesIn [.ok, .config, .busErr, .ctxErr] (initRun f rs ctx mk s) := by
  rcases initRun_cases f rs ctx mk s with ⟨-, h⟩ | ⟨-, c, hc, h⟩ | ⟨-, alg, -, h⟩
  · rw [h]; exact completesIn_finish (by simp)
  · rw [h]; exact completesIn_finish (by rcases initCheck_codes hc with rfl | rfl | rfl <;> simp)
  · rw [h]; exact completesIn_finish (by simp)

theorem aeadCheck_mem_prologueCodes {p : Platform} {f : Family} {k : Kind} {d : Nat} {o : AeadOps} {sl : Slot} {c : Code}
    (h : aeadCheck p f k d o sl = some c) : c ∈ prologueCodes := by
  rcases aeadCheck_codes h with rfl | rfl | rfl | rfl | rfl <;> simp [prologueCodes]

/-- A SEAL, SEALX or OPEN completes with a code of the prologue or with one of its family's part after it. -/
theorem completesIn_aeadRun (f : Family) (k : Kind) (rs : Reg) (ctx : Ctx) {body : Slot → Work → State → Outcome} (s : State)
    (hcs : prologueCodes ⊆ cs) (hb : ∀ sl d u, CompletesIn cs (body sl d u)) : CompletesIn cs (aeadRun f k rs ctx body s) := by
  rcases aeadRun_cases f k rs ctx body s with ⟨-, h⟩ | ⟨-, c, hc, h⟩ | ⟨-, -, h⟩
  · rw [h]; exact completesIn_finish (hcs (by simp [prologueCodes]))
  · rw [h]; exact completesIn_finish (hcs (aeadCheck_mem_prologueCodes hc))
  · rw [h]; exact hb _ _ _

theorem CompletesIn.mono {ds : List Code} {o : Outcome} (h : CompletesIn cs o) (hsub : cs ⊆ ds) : CompletesIn ds o :=
  fun t ht => hsub (h t ht)

/-- SEAL and SEALX raise nothing after their prologue (R210). -/
theorem completesIn_seal (f : Family) (k : Kind) (rs : Reg) (ctx : Ctx) {body : Slot → Work → State → Outcome} (s : State)
    (hb : ∀ sl d u, CompletesIn [.ok] (body sl d u)) :
    CompletesIn [.ok, .config, .tooLarge, .bufSmall, .busErr, .ctxErr] (aeadRun f k rs ctx body s) :=
  completesIn_aeadRun f k rs ctx s (by simp [prologueCodes]) fun sl d u => (hb sl d u).mono (by simp)

/-- OPEN raises AUTHFAIL or nothing after its prologue (R210, R213). -/
theorem completesIn_open (f : Family) (rs : Reg) (ctx : Ctx) {body : Slot → Work → State → Outcome} (s : State)
    (hb : ∀ sl d u, CompletesIn [.authFail, .ok] (body sl d u)) :
    CompletesIn [.ok, .config, .tooLarge, .authFail, .bufSmall, .busErr, .ctxErr] (aeadRun f .opening rs ctx body s) :=
  completesIn_aeadRun f .opening rs ctx s (by simp [prologueCodes]) fun sl d u => (hb sl d u).mono (by simp)

end

/-- A well-formed command completes with the codes of its row of R451. -/
theorem exec_completesIn (i : Instr) (s : State) (hwf : WellFormed i) : CompletesIn (codesOf i) (exec i s) := by
  cases i with
  | nop => exact completesIn_ok
  | ctMemcmp rd rs1 rs2 rs3 => exact completesIn_ite (by simp [codesOf]) (by simp [codesOf])
  | ctCmxor rd rs1 rs2 rs3 => exact completesIn_ite (by simp [codesOf]) (by simp [codesOf])
  | recRmpad rd rs => exact completesIn_execRecRmpad rs s (beq_iff_eq.mp hwf)
  | recXmac rs => exact completesIn_execRecXmac rs s
  | aeadCleanup ctx => exact completesIn_ok
  | eaxInit rs ctx => exact completesIn_initRun .eax rs ctx _ s
  | sivInit rs ctx => exact completesIn_initRun .siv rs ctx _ s
  | ccpInit rs ctx => exact completesIn_initRun .ccp rs ctx _ s
  | eaxSeal rd rs ctx => exact completesIn_seal .eax .sealing rs ctx s fun _ _ _ => completesIn_ok
  | sivSeal rd rs ctx => exact completesIn_seal .siv .sealing rs ctx s fun _ _ _ => completesIn_ok
  | ccpSeal rd rs ctx => exact completesIn_seal .ccp .sealing rs ctx s fun _ _ _ => completesIn_ok
  | ccpSealx rd rs ctx => exact completesIn_seal .ccp .sealingX rs ctx s fun _ _ _ => completesIn_ok
  | eaxOpen rd rs ctx => exact completesIn_open .eax rs ctx s fun _ _ _ => completesIn_ite (by simp) (by simp)
  | sivOpen rd rs ctx => exact completesIn_open .siv rs ctx s fun _ _ _ => completesIn_ite (by simp) (by simp)
  | ccpOpen rd rs ctx => exact completesIn_open .ccp rs ctx s fun _ _ _ => completesIn_ite (by simp) (by simp)
  | _ => exact completesIn_ok

/-- Settles O48; well-formedness rules out REC.RMPAD with an odd rd, which completes with ILLEGAL (log 19). -/
theorem codesByCommand : Obligations.CodesByCommand := fun i s t hwf => exec_completesIn i s hwf t

/-! ### NOP (R470) -/

/-- NOP's mask leaves no bit free: its op byte with another bit set is no command (R125, R127). -/
theorem decode_error_of_opByte_zero {w : Word32} (hop : opByte w = 0) (hw : w ≠ 0) : decode w = .error (.badField "NOP") := by
  have hrow : rowOf w = some ⟨"NOP", 0x00000000#32, 0xFFFFFFFF#32, fun _ => .nop⟩ := rowOf_of_opByte (v := 0#32) hop
  have hmask : w &&& 0xFFFFFFFF#32 ≠ 0x00000000#32 := by rwa [show w &&& 0xFFFFFFFF#32 = w from BitVec.and_allOnes]
  simp only [decode, hrow, if_neg hmask]

theorem exec_nop (s : State) : exec .nop s = .next (s.complete .ok) := rfl

/-- Settles O27: NOP's row of the opcode map, and its completion as a command and as an accepted word. -/
theorem nopCompletes : Obligations.NopCompletes := by
  have hdecode : decode 0 = .ok .nop := decodeOfEncode .nop rfl
  refine ⟨rfl, hdecode, fun w hop hw => ⟨_, decode_error_of_opByte_zero hop hw⟩,
    fun s => ⟨_, exec_nop s, nothingWritten_complete .ok s, rfl⟩, fun s => ?_⟩
  exact ⟨_, (step_withFetchWord s hdecode).trans (exec_nop _), rfl, rfl, rfl, rfl, .of_x rfl, .of_slots rfl, .of_mem rfl⟩

end Sys2Proof.Machine
